-- ==== Sys2Proof/Word.lean ====
section
/-! DEFINITION. The plainest data of the model: a byte, the numbers that name gates, slots, rating sets, bands and
origin records, the ends of the unit ranges of the Introduction (Table 1), and a table of a fixed number of entries. -/

namespace Sys2Proof

/-- One byte of a ring frame (R146). -/
abbrev Byte := BitVec 8

/-- A gate number, 0..15 (R1). -/
abbrev GateNo := Fin 16

/-- A measurement slot number, 0..31 (R36). -/
abbrev SlotNo := Fin 32

/-- A rating set number, 0..7 (R22). -/
abbrev RatingSetNo := Fin 8

/-- A head band number, 0..7 (R23). -/
abbrev BandNo := Fin 8

/-- An origin record number, 0..3 (R80). -/
abbrev OriginNo := Fin 4

/-- Full stroke, 1,000 per mille (Introduction, Table 1). -/
def fullStroke : Nat := 1000

/-- Upper end of a plant discharge, in deci-cumec (Introduction, Table 1). -/
def plantMax : Nat := 1048575

/-- Upper end of a gate discharge, a level or a slot value (Introduction, Table 1), and of every counter. -/
def wordMax : Nat := 65535

/-- Upper end of the station second count (Introduction, TIME). -/
def sscMax : Nat := 4294967295

/-- The second `a` seconds after `t`, capped as the Introduction gives for every second count a rule forms. -/
def secondsAfter (t a : Nat) : Nat := min (t + a) sscMax

/-- A table of exactly `n` entries, plain data. -/
structure Tab (α : Type) (n : Nat) where
  items : List α
  size : items.length = n
  deriving DecidableEq, Repr

namespace Tab

variable {α β : Type} {n : Nat}

/-- Entry `i`. -/
def get (t : Tab α n) (i : Fin n) : α := t.items.get (i.cast t.size.symm)

/-- Entry `i` of the table, when there is one. -/
def at? (t : Tab α n) (i : Nat) : Option α := t.items[i]?

/-- The table with `x` as entry `i`. -/
def set (t : Tab α n) (i : Fin n) (x : α) : Tab α n := ⟨t.items.set i.val x, by simp [t.size]⟩

/-- The table with `x` as entry `i`; unchanged where it has no entry `i`. -/
def put (t : Tab α n) (i : Nat) (x : α) : Tab α n := ⟨t.items.set i x, by simp [t.size]⟩

/-- The table whose entry `i` is `f i`. -/
def ofFn (f : Fin n → α) : Tab α n := ⟨List.ofFn f, by simp⟩

/-- The table with `f` applied to every entry. -/
def map (f : α → β) (t : Tab α n) : Tab β n := ⟨t.items.map f, by simp [t.size]⟩

/-- The table of `n` entries all equal to `a`. -/
def const (n : Nat) (a : α) : Tab α n := ⟨List.replicate n a, by simp⟩

end Tab

end Sys2Proof
end

