-- ==== Sys2Proof/Syntax.lean ====
section
/-! DEFINITION. The commands of the part: one constructor of `Instr` per row of spec/opcode_table.json, with the operands
the row's event carries. A command that is the arrival of a frame carries the frame's fields; a command that is a
request carries the requesting node, the tag and the operand bytes of Table 10-12. -/

namespace Sys2Proof

/-- The fields of Table 8-2 that every arriving frame bears beside its kind and payload. CHECK is not among them: a frame
that passed R136 bears the CHECK of R148, and the row CHECK_ERROR_FRAME carries a CHECK of its own. -/
structure Header where
  dest : Byte
  src : Byte
  seq : Byte
  result : Byte
  hops : Byte
  deriving DecidableEq, Repr

/-- One entry of a SAMPLE payload (Table 8-3). -/
structure SampleEntry where
  channel : Byte
  raw : BitVec 16
  quality : Byte
  deriving DecidableEq, Repr

/-- The payload of a NOTICE (Table 8-3). -/
structure NoticeFields where
  origin : Byte
  seqNo : BitVec 16
  release : BitVec 24
  age : BitVec 16
  deriving DecidableEq, Repr

/-- The payload of a PHASE (Table 8-3). -/
structure PhaseFields where
  origin : Byte
  step : Byte
  cadence : BitVec 16
  deriving DecidableEq, Repr

/-- The payload of an ORDER (Table 8-3). -/
structure OrderFields where
  gate : Byte
  opening : BitVec 16
  urgency : Byte
  cadenceLength : Byte
  deriving DecidableEq, Repr

/-- Who sent a request, and the tag that the response echoes (R162, R163). -/
structure Requester where
  src : Byte
  tag : Byte
  deriving DecidableEq, Repr

/-- The commands. Requests carry the operand bytes as they stand after the code and the tag, so that operands too short,
too long or out of range are operands like any other; the five GATE_CONTROL rows and the two COMPARE rows are told
apart by their action or form byte, so they carry the bytes beside it. -/
inductive Instr where
  /-- RESET_ASSERT (R134). -/
  | resetAssert
  /-- RESET_RELEASE (R135), with the levels of the straps ADDR0..ADDR7 and STN0..STN2. -/
  | resetRelease (addr : Byte) (stn : BitVec 3)
  /-- SECOND_TICK (R42). -/
  | secondTick
  /-- SLOT_STALE (R42): the staleness evaluation of a tick. -/
  | slotStale
  /-- REACH_DUE_PROCESSING (R91): the due processing of a tick. -/
  | reachDueProcessing
  /-- CADENCE_EXPIRY (R102). -/
  | cadenceExpiry
  /-- COMPUTATION_COMPLETION (R77). -/
  | computationCompletion
  /-- RETURN_LIMIT_EXPIRY (R144), with the milliseconds of the ring millisecond count that pass, each of which reads the
  return limit. -/
  | returnLimitExpiry (elapsed : Nat)
  /-- SEND_END (R141). -/
  | sendEnd
  /-- SAMPLE_ARRIVAL (R37). -/
  | sampleArrival (h : Header) (entries : List SampleEntry)
  /-- NOTICE_ARRIVAL (R84). -/
  | noticeArrival (h : Header) (n : NoticeFields)
  /-- PHASE_ARRIVAL (R111). -/
  | phaseArrival (h : Header) (p : PhaseFields)
  /-- ORDER_RETURN (R154). -/
  | orderReturn (h : Header) (o : OrderFields)
  /-- OWN_FRAME_RETURN (R143). -/
  | ownFrameReturn (h : Header) (kind : Byte) (payload : List Byte)
  /-- FRAME_RELAY (R139). -/
  | frameRelay (h : Header) (kind : Byte) (payload : List Byte)
  /-- READ_ENTRY (R164). -/
  | readEntry (q : Requester) (operands : List Byte)
  /-- WRITE_ENTRY (R165). -/
  | writeEntry (q : Requester) (operands : List Byte)
  /-- COMMIT (R167). -/
  | commit (q : Requester) (operands : List Byte)
  /-- CANCEL (R169). -/
  | cancel (q : Requester) (operands : List Byte)
  /-- COMPARE in form COPIES (R171), with the operand bytes after the form byte. -/
  | compareCopies (q : Requester) (operands : List Byte)
  /-- COMPARE in form DATA (R171), with the operand bytes after the form byte. -/
  | compareData (q : Requester) (operands : List Byte)
  /-- LOCK (R170). -/
  | lock (q : Requester) (operands : List Byte)
  /-- GATE_CONTROL with action ENABLE (R12), the gate byte, and any bytes that stand after the action byte. -/
  | enable (q : Requester) (gate : Byte) (extra : List Byte)
  /-- GATE_CONTROL with action DISABLE (R12). -/
  | disable (q : Requester) (gate : Byte) (extra : List Byte)
  /-- GATE_CONTROL with action HOLD (R13). -/
  | hold (q : Requester) (gate : Byte) (extra : List Byte)
  /-- GATE_CONTROL with action RELEASE (R13). -/
  | release (q : Requester) (gate : Byte) (extra : List Byte)
  /-- GATE_CONTROL with action CLEAR_FAULT (R14). -/
  | clearFault (q : Requester) (gate : Byte) (extra : List Byte)
  /-- MODE_REQUEST (R127). -/
  | modeRequest (q : Requester) (operands : List Byte)
  /-- PLAN_RUN (R107). -/
  | planRun (q : Requester) (operands : List Byte)
  /-- PLAN_STOP (R108). -/
  | planStop (q : Requester) (operands : List Byte)
  /-- PLAN_GATE (R109). -/
  | planGate (q : Requester) (operands : List Byte)
  /-- CLEAR_CONDITIONS (R174). -/
  | clearConditions (q : Requester) (operands : List Byte)
  /-- CLEAR_COUNTERS (R173). -/
  | clearCounters (q : Requester) (operands : List Byte)
  /-- RESTART (R172). -/
  | restart (q : Requester) (operands : List Byte)
  /-- REQUEST_BAD_CODE (R162): a REQUEST given by its code byte and operands. -/
  | requestBadCode (q : Requester) (code : Byte) (operands : List Byte)
  /-- CHECK_ERROR_FRAME (R136), with the CHECK field received. -/
  | checkErrorFrame (h : Header) (kind : Byte) (payload : List Byte) (check : BitVec 16)
  /-- UNEXPECTED_KIND_FRAME (R137). -/
  | unexpectedKindFrame (h : Header) (kind : Byte) (payload : List Byte)
  /-- MALFORMED_FRAME (R138). -/
  | malformedFrame (h : Header) (kind : Byte) (payload : List Byte)
  deriving DecidableEq, Repr

end Sys2Proof
end

