-- ==== Sys2Proof/Decode.lean ====
section
/-! DEFINITION. Decoding the words of spec/opcode_table.json. The part has no instruction words: no row of the table gives a
bit, so no word spells a command (log entry 11). -/

namespace Sys2Proof

/-- The command that a word of `nbits` bits spells by the table: none, since no row of the table gives bits. -/
def decodeTableWord (_nbits _w : Nat) : Option Instr := none

end Sys2Proof
end

