-- ==== Sys2Proof/Config.lean ====
section
/-! DEFINITION. What the manual leaves open, and what the model fixes: the free values (constants with no body), and
the strap setting of the reset state. -/

namespace Sys2Proof.Config

/-- FREE VALUE (log entry 1). R15 sets a LOCAL gate's commanded opening to the opening carried in the returned ORDER
when the position is not fresh. The returned field has 16 bits and the manual does not say how a field above
1,000 per mille (a payload altered on the way whose check still passed, R143) is brought into range. The value is some
opening 0..1,000 per mille, and nothing else is known of it. -/
opaque openingOfWideField : Nat → Fin 1001

/-- FREE VALUE (log entry 1). The same opening where the returned payload is too short to carry an opening field: R138 tests no
length of an ORDER, and the manual does not say what is read. -/
opaque openingOfShortReturn : Fin 1001

/-- FREE VALUE (log entry 2). R86 may form a due second below 0, and R87 makes it the origin's latest due, which holds an
SSC value. The manual does not say which. The value read here is capped at the SSC of the arrival where it is used,
since R86 calls the second already past. -/
opaque pastDueSecond : Int → Nat

/-- DESIGN CHOICE (log entry 3): the node address that the straps give in `State.reset`. Every other address is reached by
RESET_ASSERT and RESET_RELEASE. -/
def resetNodeAddress : Byte := 1

/-- DESIGN CHOICE (log entry 3): the station index that the straps give in `State.reset`. -/
def resetStation : BitVec 3 := 0

end Sys2Proof.Config
end

