-- ==== Sys2Proof/Machine/GovSet.lean ====
section
/-! DEFINITION. The Governing Set: the configuration tables T1 to T10 (R160) as plain data, and the empty set that pin
reset loads into both copies. -/

namespace Sys2Proof.Machine

/-- Class of a gate (Table 1-2). -/
inductive GateClass where
  | absent
  | unit
  | spill
  | bypass
  deriving DecidableEq, Repr

/-- An entry of T1 (Table 1-1). -/
structure GateCfg where
  cls : GateClass
  node : Byte
  positionSlot : SlotNo
  ratingSet : RatingSetNo
  minOpening : Nat
  maxOpening : Nat
  rate : Nat
  urgentRate : Nat
  deriving DecidableEq, Repr

/-- A pair of the allocation order list T2 (R161). -/
structure AllocPair where
  gate : GateNo
  tier : Fin 8
  deriving DecidableEq, Repr

/-- An entry of T3 (Table 2-1). -/
structure RatingSet where
  q : Tab Nat 9
  f : Tab Nat 8
  deriving DecidableEq, Repr

/-- Plan kind (Table 6-1). -/
inductive PlanKind where
  | cyclic
  | oneShot
  deriving DecidableEq, Repr

/-- Report-point mode (Table 6-1). -/
inductive PointMode where
  | once
  | everyStep
  deriving DecidableEq, Repr

/-- Entry 0 of T5 (Table 6-1). -/
structure PlanHeader where
  count : Nat
  kind : PlanKind
  pointStep : Nat
  pointCadence : Nat
  pointMode : PointMode
  phaseFollow : Bool
  followed : Nat
  phaseOffset : Int
  deriving DecidableEq, Repr

/-- Step shape (Table 6-2). -/
inductive Shape where
  | step
  | ramp
  deriving DecidableEq, Repr

/-- Entries 1 to 48 of T5 (Table 6-2). -/
structure PlanStep where
  duration : Nat
  release : Nat
  shape : Shape
  deriving DecidableEq, Repr

/-- An entry of T6 (Table 3-1). While the entry is not in use its other fields are ignored, and they may hold any byte
(R34), so they are held as bytes. -/
structure Subscription where
  inUse : Bool
  source : Byte
  channel : Byte
  slot : Byte
  deriving DecidableEq, Repr

/-- An entry of T7 (Table 3-2). -/
structure SlotParams where
  gain : Nat
  offset : Int
  staleLimit : Nat
  jumpLimit : Nat
  deriving DecidableEq, Repr

/-- The entry of T8 (Table 3-6). -/
structure LevelRoles where
  hw1 : Option SlotNo
  hw2 : Option SlotNo
  hw3 : Option SlotNo
  tw1 : Option SlotNo
  tw2 : Option SlotNo
  inflow : Option SlotNo
  deriving DecidableEq, Repr

/-- An entry of T9 (Table 5-1). While the record is not in use its other fields are ignored (R80) and may hold anything
their bytes can carry. -/
structure OriginRecord where
  inUse : Bool
  station : Byte
  bands : Tab Nat 4
  times : Tab Nat 4
  deriving DecidableEq, Repr

/-- The entry of T10 (Tables 4-3, 7-1 and 10-2). -/
structure PlantParams where
  hwSet : Nat
  kl : Nat
  qMinEnv : Nat
  rlim : Nat
  tolerance : Nat
  compGate : Option GateNo
  compOpening : Nat
  tAlert : Nat
  tFlood : Nat
  tExtreme : Nat
  hys : Nat
  fallDwell : Nat
  cadenceLength : Nat
  lookahead : Nat
  trackingBand : Nat
  trackingLimit : Nat
  returnLimit : Nat
  reportInterval : Nat
  mask : BitVec 16
  managerA : Byte
  managerB : Byte
  deriving DecidableEq, Repr

/-- The Governing Set (R160). -/
structure GovSet where
  t1 : Tab GateCfg 16
  t2 : List AllocPair
  t3 : Tab RatingSet 8
  t4 : Tab Nat 8
  plan : PlanHeader
  steps : Tab PlanStep 48
  t6 : Tab Subscription 32
  t7 : Tab SlotParams 32
  t8 : LevelRoles
  t9 : Tab OriginRecord 4
  t10 : PlantParams
  deriving DecidableEq, Repr

/-- The empty-set column of Table 1-1. -/
def emptyGateCfg : GateCfg :=
  { cls := .absent, node := 0, positionSlot := 0, ratingSet := 0, minOpening := 0, maxOpening := 1000, rate := 1,
    urgentRate := 1 }

/-- The empty-set column of Table 2-1. -/
def emptyRatingSet : RatingSet := { q := Tab.const 9 0, f := Tab.const 8 4096 }

/-- The empty-set column of Table 6-1. -/
def emptyPlanHeader : PlanHeader :=
  { count := 0, kind := .cyclic, pointStep := 0, pointCadence := 0, pointMode := .once, phaseFollow := false,
    followed := 0, phaseOffset := 0 }

/-- The empty-set column of Table 6-2. -/
def emptyPlanStep : PlanStep := { duration := 1, release := 0, shape := .step }

/-- The empty-set column of Table 3-1. -/
def emptySubscription : Subscription := { inUse := false, source := 1, channel := 0, slot := 0 }

/-- The empty-set column of Table 3-2. -/
def emptySlotParams : SlotParams := { gain := 4096, offset := 0, staleLimit := 10, jumpLimit := 0 }

/-- The empty-set column of Table 3-6. -/
def emptyLevelRoles : LevelRoles :=
  { hw1 := none, hw2 := none, hw3 := none, tw1 := none, tw2 := none, inflow := none }

/-- The empty-set column of Table 5-1. -/
def emptyOriginRecord : OriginRecord :=
  { inUse := false, station := 0, bands := Tab.const 4 0, times := Tab.const 4 0 }

/-- The empty-set columns of Tables 4-3, 7-1 and 10-2. -/
def emptyPlantParams : PlantParams :=
  { hwSet := 0, kl := 0, qMinEnv := 0, rlim := 65535, tolerance := 50, compGate := none, compOpening := 0,
    tAlert := 60000, tFlood := 62000, tExtreme := 64000, hys := 50, fallDwell := 600, cadenceLength := 5,
    lookahead := 0, trackingBand := 30, trackingLimit := 6, returnLimit := 20, reportInterval := 12, mask := 0,
    managerA := 0, managerB := 0 }

/-- The empty set (R160): what pin reset loads into both copies. -/
def emptySet : GovSet :=
  { t1 := Tab.const 16 emptyGateCfg, t2 := [], t3 := Tab.const 8 emptyRatingSet,
    t4 := Tab.ofFn fun b => 1000 * (b.val + 1),
    plan := emptyPlanHeader, steps := Tab.const 48 emptyPlanStep, t6 := Tab.const 32 emptySubscription,
    t7 := Tab.const 32 emptySlotParams, t8 := emptyLevelRoles, t9 := Tab.const 4 emptyOriginRecord,
    t10 := emptyPlantParams }

end Sys2Proof.Machine
end

