-- ==== Sys2Proof/Machine/State.lean ====
section
/-! DEFINITION. State: every piece of state that the manual gives the part, grouped by the block that owns it (Introduction,
STATE AND ITS OWNERS), the queue of commands that are waiting, the reasons a step could stop, and the state after a pin
reset. -/

namespace Sys2Proof.Machine

/-- Why a step stops with a fault. The manual gives every command an effect in every state and calls no behaviour undefined,
so no meaning of this model faults and this type has no constructor (safe: nothing is cut short by it). -/
inductive Fault where
  deriving DecidableEq, Repr

/-- Why a command has no meaning. -/
inductive Refusal where
  /-- Raised by exec's arm of a command that has no meaning yet (safe: nothing is claimed of it). No arm raises it. -/
  | notModelled (mnemonic : String)
  deriving DecidableEq, Repr

/-- Fault reason of a gate (Table 1-3). -/
inductive FaultReason where
  | stuck
  | drive
  | travel
  deriving DecidableEq, Repr

/-- Gate state (Table 1-4). The fault reason is present exactly in FAULT (R4), so it is carried by that state. -/
inductive GateState where
  | absent
  | offline
  | active
  | held
  | localControl
  | fault (reason : FaultReason)
  | unreachable
  deriving DecidableEq, Repr

/-- Live fields of a gate record (Table 1-3). -/
structure Gate where
  state : GateState
  target : Nat
  commanded : Option Nat
  measured : Nat
  fresh : Bool
  count : Nat
  deriving DecidableEq, Repr

/-- Slot quality (Table 3-4). -/
inductive Quality where
  | empty
  | good
  | suspect
  | clamped
  | stale
  deriving DecidableEq, Repr

/-- Slot live record (Table 3-3). -/
structure Slot where
  value : Nat
  quality : Quality
  age : Nat
  candidate : Option Nat
  deriving DecidableEq, Repr

/-- A voted level or the head, or a reading, with its mark fresh (true) or held. -/
structure Level where
  value : Nat
  fresh : Bool
  deriving DecidableEq, Repr

/-- State of the Measurement Unit (R36, R47, R48). -/
structure Measurement where
  slots : Tab Slot 32
  hw : Level
  tw : Level
  head : Level
  deriving DecidableEq, Repr

/-- Shortfall cause (Table 4-1). -/
inductive Cause where
  | none
  | capacity
  | rate
  | capacityAndRate
  deriving DecidableEq, Repr

/-- The results record (Table 4-1). -/
structure Results where
  qT : Nat
  qTPrev : Nat
  frozen : Nat
  qA : Nat
  fixed : Nat
  qR : Nat
  qR2 : Nat
  remainder : Nat
  allot : Tab Nat 16
  qD : Nat
  shortfall : Nat
  cause : Cause
  excess : Nat
  deriving DecidableEq, Repr

/-- Flood stage (Table 7-2). -/
inductive Stage where
  | normal
  | alert
  | flood
  | extreme
  deriving DecidableEq, Repr

/-- Effective mode (Table 7-2). -/
inductive Mode where
  | initial
  | schedule
  | passThrough
  | hold
  | surcharge
  deriving DecidableEq, Repr

/-- Requested mode (Table 7-2). -/
inductive ReqMode where
  | schedule
  | passThrough
  | hold
  deriving DecidableEq, Repr

/-- The Mode Supervisor's live record (Table 7-2). -/
structure ModeRecord where
  stage : Stage
  dwellStart : Option Nat
  requested : ReqMode
  effective : Mode
  duty : Bool
  deriving DecidableEq, Repr

/-- Run state of the plan (Table 6-3). -/
inductive RunState where
  | stopped
  | running
  | ended
  deriving DecidableEq, Repr

/-- The Plan Timer's live record (Table 6-3). The output gate is OPEN while `gateOpen` is true. -/
structure Timer where
  run : RunState
  step : Nat
  cadence : Nat
  gateOpen : Bool
  startPending : Bool
  schedule : Nat
  reportCount : Nat
  deriving DecidableEq, Repr

/-- The snapshot of a release computation (Table 4-4). -/
structure Snapshot where
  hw : Level
  tw : Level
  head : Level
  stage : Stage
  mode : Mode
  duty : Bool
  step : Nat
  cadence : Nat
  run : RunState
  gateOpen : Bool
  planRelease : Option Nat
  gates : Tab Gate 16
  govSet : GovSet
  qA : Nat
  localInflow : Level
  qTPrev : Nat
  frozen : Nat
  deriving DecidableEq, Repr

/-- State of the Release Engine: the results record (R53) and the computation in flight, if any (R55, R56). -/
structure Engine where
  results : Results
  computation : Option Snapshot
  deriving DecidableEq, Repr

/-- Origin live state (Table 5-2). -/
structure OriginLive where
  arriving : Nat
  lastSeq : Option (BitVec 16)
  latestDue : Option Nat
  deriving DecidableEq, Repr

/-- Reach queue entry (Table 5-3). -/
structure ReachEntry where
  origin : OriginNo
  seqNo : BitVec 16
  release : Nat
  due : Nat
  deriving DecidableEq, Repr

/-- State of the Reach Unit (R82, R83); the head of the list is the head of the queue. -/
structure Reach where
  origins : Tab OriginLive 4
  queue : List ReachEntry
  deriving DecidableEq, Repr

/-- Kinds of frame that the part originates (Table 8-3). -/
inductive OwnKind where
  | order
  | response
  | report
  deriving DecidableEq, Repr

/-- A frame (Table 8-2). LEN is the payload's length. CHECK is not a field: a frame that the part relays passed R136 and one
that it originates is given the value of R148, so it is the function `frameCheck` of the fields. -/
structure Frame where
  dest : Byte
  src : Byte
  kind : Byte
  seq : Byte
  payload : List Byte
  result : Byte
  hops : Byte
  deriving DecidableEq, Repr

/-- A RESPONSE or REPORT frame as it is queued, before the Ring Port completes it (R142). -/
structure Outgoing where
  dest : Byte
  kind : OwnKind
  payload : List Byte
  deriving DecidableEq, Repr

/-- An unsent order (Table 9-1). -/
structure Order where
  dest : Byte
  gate : GateNo
  opening : Nat
  urgent : Bool
  cadenceLength : Nat
  deriving DecidableEq, Repr

/-- An in-flight entry (R142). -/
structure InFlight where
  kind : OwnKind
  seq : Byte
  gate : Option GateNo
  sent : BitVec 16
  deriving DecidableEq, Repr

/-- Where the ring ports stand (R134, R135). -/
inductive Port where
  /-- RESET is asserted. -/
  | inReset
  /-- The ports are in service. -/
  | inService
  /-- Permanent bypass, for a strap address of 0 or 255. -/
  | permanentBypass
  deriving DecidableEq, Repr

/-- State of the Ring Port (Table 8-4). `ro` is the frame that RO is sending; absent, RO is idle. -/
structure Ring where
  port : Port
  nodeAddr : Byte
  station : BitVec 3
  ro : Option Frame
  relay : List Frame
  feed : List Outgoing
  inFlight : List InFlight
  seqCounter : Byte
  ms : BitVec 16
  deriving DecidableEq, Repr

/-- State of the Order Unit (R152, R155). -/
structure OrderUnit where
  queue : List Order
  lost : Tab Nat 16
  deriving DecidableEq, Repr

/-- An open segmented write (R165), with the data collected so far. -/
structure OpenWrite where
  node : Byte
  table : Byte
  first : Byte
  next : Nat
  data : List Byte
  deriving DecidableEq, Repr

/-- State of the Management Agent (R160, Table 10-6a). -/
structure Management where
  active : GovSet
  shadow : GovSet
  generation : BitVec 16
  lock : Bool
  switchPending : Bool
  openWrite : Option OpenWrite
  deriving DecidableEq, Repr

/-- State of the Report Unit: the condition flags (R174), the condition allowance (true: standing) and waiting mark (R175), the
reports due at the next completion (R175), and the counters of T14 in the order of Table 10-7. -/
structure Report where
  flags : BitVec 16
  allowance : Bool
  waiting : Bool
  periodicDue : Bool
  pointDue : Bool
  counters : Tab Nat 22
  deriving DecidableEq, Repr

/-- The station second count (Introduction, TIME), whether a cadence expiry has fallen due and is not yet taken (R102), and
the model's own two marks: work of the last second tick that is still to be done (log entry 4). -/
structure Clock where
  ssc : Nat
  expiryDue : Bool
  staleDue : Bool
  reachDue : Bool
  deriving DecidableEq, Repr

/-- The model's own marks of the event that is being taken (log entry 5): a condition report that a raise event has called
for, and whether a frame has been placed in a feed. Both are false between events. -/
structure Marks where
  reportDue : Bool
  placed : Bool
  deriving DecidableEq, Repr

/-- The machine. -/
structure State where
  ring : Ring
  orders : OrderUnit
  mgmt : Management
  gates : Tab Gate 16
  meas : Measurement
  engine : Engine
  reach : Reach
  timer : Timer
  mode : ModeRecord
  report : Report
  clock : Clock
  marks : Marks
  /-- The commands that are waiting, first in, first out: the model's own. -/
  pending : List Instr
  deriving DecidableEq, Repr

/-- R8: a gate record at pin reset. -/
def resetGate : Gate :=
  { state := .absent, target := 0, commanded := none, measured := 0, fresh := false, count := 0 }

/-- Table 3-5: a slot at pin reset. -/
def resetSlot : Slot := { value := 0, quality := .empty, age := 0, candidate := none }

/-- R53: the results record at pin reset and at RESTART. -/
def resetResults : Results :=
  { qT := 0, qTPrev := 0, frozen := 0, qA := 0, fixed := 0, qR := 0, qR2 := 0, remainder := 0, allot := Tab.const 16 0,
    qD := 0, shortfall := 0, cause := .none, excess := 0 }

/-- Table 5-2: an origin's live state at either reset, and once a switch clears it (R96). -/
def clearedOrigin : OriginLive := { arriving := 0, lastSeq := none, latestDue := none }

/-- R135: where the ports stand once RESET is released with this strap address. -/
def portAfterRelease (addr : Byte) : Port := if addr = 0 ∨ addr = 255 then .permanentBypass else .inService

/-- The machine at the release of RESET with the straps at `addr` and `stn`: every block takes its pin-reset values. DESIGN CHOICE (log
entry 38): a periodic or plan-point report that is still due when the reset ends its computation is due no longer; R175 gives that for
RESTART, which keeps it due, and gives no pin-reset value of the two due marks. -/
def State.pinReset (addr : Byte) (stn : BitVec 3) (pending : List Instr) : State :=
  { ring :=
      { port := portAfterRelease addr, nodeAddr := addr, station := stn, ro := none, relay := [], feed := [],
        inFlight := [], seqCounter := 0, ms := 0 }
    orders := { queue := [], lost := Tab.const 16 0 }
    mgmt :=
      { active := emptySet, shadow := emptySet, generation := 0, lock := false, switchPending := false,
        openWrite := none }
    gates := Tab.const 16 resetGate
    meas := { slots := Tab.const 32 resetSlot, hw := ⟨0, false⟩, tw := ⟨0, false⟩, head := ⟨0, false⟩ }
    engine := { results := resetResults, computation := none }
    reach := { origins := Tab.const 4 clearedOrigin, queue := [] }
    timer :=
      { run := .stopped, step := 0, cadence := 0, gateOpen := true, startPending := false, schedule := 5,
        reportCount := 0 }
    mode := { stage := .normal, dwellStart := none, requested := .hold, effective := .initial, duty := false }
    report :=
      { flags := 0, allowance := true, waiting := false, periodicDue := false, pointDue := false,
        counters := Tab.const 22 0 }
    clock := { ssc := 0, expiryDue := false, staleDue := false, reachDue := false }
    marks := { reportDue := false, placed := false }
    pending := pending }

/-- The machine right after a pin reset, with the straps of log entry 3 and nothing waiting. -/
def State.reset : State := State.pinReset Config.resetNodeAddress Config.resetStation []

end Sys2Proof.Machine
end

