-- ==== Sys2Proof/Machine/Flags.lean ====
section
/-! DEFINITION. The condition flags and their raise events (R174, R175), the two outputs, and the counters of T14 (R173). -/

namespace Sys2Proof.Machine

/-- The condition flags (Table 10-8). -/
inductive Flag where
  | shortfall
  | excess
  | headStale
  | headRange
  | inflowStale
  | gateFault
  | gateUnreachable
  | gateLocal
  | stageRise
  | stageFall
  | demoted
  | earlyApply
  | relayOverflow
  | planEnded
  | setSwitched
  | restarted
  deriving DecidableEq, Repr

/-- The bit of a flag (Table 10-8). -/
def Flag.bit : Flag → Nat
  | .shortfall => 0
  | .excess => 1
  | .headStale => 2
  | .headRange => 3
  | .inflowStale => 4
  | .gateFault => 5
  | .gateUnreachable => 6
  | .gateLocal => 7
  | .stageRise => 8
  | .stageFall => 9
  | .demoted => 10
  | .earlyApply => 11
  | .relayOverflow => 12
  | .planEnded => 13
  | .setSwitched => 14
  | .restarted => 15

/-- The set that holds one flag alone. -/
def Flag.mask (f : Flag) : BitVec 16 := 1#16 <<< f.bit

/-- Whether a flag is in a set of flags. -/
def flagIn (f : Flag) (set : BitVec 16) : Bool := set.getLsbD f.bit

/-- The raise event of a flag (R174, R175). A flag newly set and not masked calls for a condition report: with the allowance
standing, one that this event queues when it ends (`closeEvent`), which carries a waiting one; otherwise it is marked
waiting. -/
def raise (f : Flag) (s : State) : State :=
  if flagIn f s.report.flags then s
  else
    let flags := s.report.flags ||| f.mask
    if flagIn f s.mgmt.active.t10.mask then { s with report := { s.report with flags := flags } }
    else if s.report.allowance then
      { s with
        report := { s.report with flags := flags, allowance := false, waiting := false }
        marks := { s.marks with reportDue := true } }
    else { s with report := { s.report with flags := flags, waiting := true } }

/-- Raises a flag when its cause holds. -/
def raiseIf (c : Bool) (f : Flag) (s : State) : State := if c then raise f s else s

/-- The CONDITION output (R174): some set flag is not masked. -/
def State.conditionOutput (s : State) : Bool := s.report.flags &&& ~~~ s.mgmt.active.t10.mask ≠ 0

/-- The BYPASS output (R134, R135). -/
def State.bypassOutput (s : State) : Bool := s.ring.port ≠ .inService

/-- The counters of T14 (Table 10-7). -/
inductive Counter where
  | checkErrors
  | malformed
  | unexpectedKind
  | hopDrops
  | relayOverflow
  | stray
  | lost
  | superseded
  | withdrawn
  | badResult
  | ignoredResults
  | badSamples
  | jumpHolds
  | foreign
  | duplicate
  | stale
  | clampedDue
  | late
  | earlyApply
  | phaseRange
  | reportDrops
  | requestDrops
  deriving DecidableEq, Repr

/-- The T14 entry of a counter (Table 10-7). -/
def Counter.entry : Counter → Fin 22
  | .checkErrors => 0
  | .malformed => 1
  | .unexpectedKind => 2
  | .hopDrops => 3
  | .relayOverflow => 4
  | .stray => 5
  | .lost => 6
  | .superseded => 7
  | .withdrawn => 8
  | .badResult => 9
  | .ignoredResults => 10
  | .badSamples => 11
  | .jumpHolds => 12
  | .foreign => 13
  | .duplicate => 14
  | .stale => 15
  | .clampedDue => 16
  | .late => 17
  | .earlyApply => 18
  | .phaseRange => 19
  | .reportDrops => 20
  | .requestDrops => 21

/-- The value of a counter. -/
def State.counter (s : State) (c : Counter) : Nat := s.report.counters.get c.entry

/-- A counter goes up by `n`, saturating at 65,535 (Introduction, COUNTERS). -/
def bumpBy (c : Counter) (n : Nat) (s : State) : State :=
  { s with
    report := { s.report with counters := s.report.counters.set c.entry (min (s.counter c + n) wordMax) } }

/-- A counter goes up by one. -/
def bump (c : Counter) (s : State) : State := bumpBy c 1 s

end Sys2Proof.Machine
end

