-- ==== Sys2Proof/Machine/Bytes.lean ====
section
/-! DEFINITION. Byte order (R146, R177: high byte first), two's complement fields (R177), and the CHECK computation (R148). -/

namespace Sys2Proof.Machine

/-- The low byte of a number. -/
def byte (n : Nat) : Byte := BitVec.ofNat 8 n

/-- A two-byte field. -/
def be2 (n : Nat) : List Byte := [byte (n / 256), byte n]

/-- A three-byte field. -/
def be3 (n : Nat) : List Byte := [byte (n / 65536), byte (n / 256), byte n]

/-- A four-byte field. -/
def be4 (n : Nat) : List Byte := [byte (n / 16777216), byte (n / 65536), byte (n / 256), byte n]

/-- A two-byte signed field, in two's complement. -/
def signed2 (i : Int) : List Byte := be2 (i % 65536).toNat

/-- The number that bytes give, high byte first. -/
def ofBytes (bs : List Byte) : Nat := bs.foldl (fun n b => 256 * n + b.toNat) 0

/-- The signed number of a two-byte field in two's complement. -/
def ofSigned2 (hi lo : Byte) : Int :=
  let n := ofBytes [hi, lo]
  if n < 32768 then (n : Int) else (n : Int) - 65536

/-- A yes or no field: 0 for no and 1 for yes. -/
def yesNo (b : Bool) : Byte := if b then 1 else 0

/-- Reads a yes or no field; any other code is out of range. -/
def readYesNo (b : Byte) : Option Bool := if b = 0 then some false else if b = 1 then some true else none

/-- A field that may be absent: a presence byte, then `width` bytes that are 0 while it is absent (R177). -/
def presence (enc : Nat → List Byte) : Option Nat → List Byte
  | none => 0 :: enc 0
  | some n => 1 :: enc n

/-- A one-byte field that is either none (FFh) or a number. -/
def noneOr {n : Nat} : Option (Fin n) → Byte
  | none => 255
  | some i => byte i.val

/-- Reads a one-byte number below `n`. -/
def readBelow (n : Nat) (b : Byte) : Option (Fin n) :=
  if h : b.toNat < n then some ⟨b.toNat, h⟩ else none

/-- Reads a one-byte field that is either none (FFh) or a number below `n`. -/
def readNoneOr (n : Nat) (b : Byte) : Option (Option (Fin n)) :=
  if b = 255 then some none else (readBelow n b).map some

/-- One data bit of the CHECK computation (R148): the register shifts left, and the generator is added when the bit shifted
out differs from the data bit. -/
def crcBit (reg : BitVec 16) (d : Bool) : BitVec 16 :=
  if reg.msb = d then reg <<< 1 else (reg <<< 1) ^^^ 0x1021

/-- One byte of the CHECK computation, most significant bit first. -/
def crcByte (reg : BitVec 16) (b : Byte) : BitVec 16 :=
  [7, 6, 5, 4, 3, 2, 1, 0].foldl (fun r i => crcBit r (b.getLsbD i)) reg

/-- R148: the CHECK value of a run of bytes. -/
def crc (bs : List Byte) : BitVec 16 := bs.foldl crcByte 0xFFFF

/-- Cuts a run of bytes into pieces of at most `k` bytes; `fuel` bounds the number of pieces. -/
def piecesOf (k : Nat) : Nat → List Byte → List (List Byte)
  | 0, _ => []
  | fuel + 1, bs => if bs.length ≤ k then [bs] else bs.take k :: piecesOf k fuel (bs.drop k)

end Sys2Proof.Machine
end

