-- ==== Sys2Proof/Machine/Codes.lean ====
section
/-! DEFINITION. The codes of named values (Table 10-10, Table 10-4, Table 8-3), written and read. -/

namespace Sys2Proof.Machine

/-- Frame kind codes (Table 8-3). -/
def kindSample : Byte := 0x11
/-- ORDER. -/
def kindOrder : Byte := 0x21
/-- NOTICE. -/
def kindNotice : Byte := 0x31
/-- PHASE. -/
def kindPhase : Byte := 0x32
/-- REQUEST. -/
def kindRequest : Byte := 0x41
/-- RESPONSE. -/
def kindResponse : Byte := 0x42
/-- REPORT. -/
def kindReport : Byte := 0x51

/-- The KIND code of a frame that the part originates. -/
def OwnKind.code : OwnKind → Byte
  | .order => kindOrder
  | .response => kindResponse
  | .report => kindReport

/-- Gate class code. -/
def GateClass.code : GateClass → Byte
  | .absent => 0
  | .unit => 1
  | .spill => 2
  | .bypass => 3

/-- Reads a gate class. -/
def readClass (b : Byte) : Option GateClass :=
  if b = 0 then some .absent else if b = 1 then some .unit else if b = 2 then some .spill
  else if b = 3 then some .bypass else none

/-- Gate state code. -/
def GateState.code : GateState → Byte
  | .absent => 0
  | .offline => 1
  | .active => 2
  | .held => 3
  | .localControl => 4
  | .fault _ => 5
  | .unreachable => 6

/-- Fault reason code, 0 outside FAULT. -/
def GateState.reasonCode : GateState → Byte
  | .fault .stuck => 1
  | .fault .drive => 2
  | .fault .travel => 3
  | .absent => 0
  | .offline => 0
  | .active => 0
  | .held => 0
  | .localControl => 0
  | .unreachable => 0

/-- Mode code. -/
def Mode.code : Mode → Byte
  | .initial => 0
  | .schedule => 1
  | .passThrough => 2
  | .hold => 3
  | .surcharge => 4

/-- The effective mode that is the mode requested. -/
def ReqMode.toMode : ReqMode → Mode
  | .schedule => .schedule
  | .passThrough => .passThrough
  | .hold => .hold

/-- Reads the operand of MODE_REQUEST: 1, 2 or 3. -/
def readMode (b : Byte) : Option ReqMode :=
  if b = 1 then some .schedule else if b = 2 then some .passThrough else if b = 3 then some .hold else none

/-- Flood stage code. -/
def Stage.code : Stage → Byte
  | .normal => 0
  | .alert => 1
  | .flood => 2
  | .extreme => 3

/-- The order of the flood stages. -/
def Stage.rank : Stage → Nat
  | .normal => 0
  | .alert => 1
  | .flood => 2
  | .extreme => 3

/-- Run state code. -/
def RunState.code : RunState → Byte
  | .stopped => 0
  | .running => 1
  | .ended => 2

/-- Output gate code: 0 OPEN, 1 SHUT. -/
def gateCode (isOpen : Bool) : Byte := if isOpen then 0 else 1

/-- Reads the operand of PLAN_GATE; true is OPEN. -/
def readGateCode (b : Byte) : Option Bool := if b = 0 then some true else if b = 1 then some false else none

/-- Plan kind code. -/
def PlanKind.code : PlanKind → Byte
  | .cyclic => 0
  | .oneShot => 1

/-- Reads a plan kind. -/
def readPlanKind (b : Byte) : Option PlanKind := if b = 0 then some .cyclic else if b = 1 then some .oneShot else none

/-- Report-point mode code. -/
def PointMode.code : PointMode → Byte
  | .once => 0
  | .everyStep => 1

/-- Reads a report-point mode. -/
def readPointMode (b : Byte) : Option PointMode := if b = 0 then some .once else if b = 1 then some .everyStep else none

/-- Step shape code. -/
def Shape.code : Shape → Byte
  | .step => 0
  | .ramp => 1

/-- Reads a step shape. -/
def readShape (b : Byte) : Option Shape := if b = 0 then some .step else if b = 1 then some .ramp else none

/-- Slot quality code. -/
def Quality.code : Quality → Byte
  | .empty => 0
  | .good => 1
  | .suspect => 2
  | .clamped => 3
  | .stale => 4

/-- Shortfall cause code. -/
def Cause.code : Cause → Byte
  | .none => 0
  | .capacity => 1
  | .rate => 2
  | .capacityAndRate => 3

/-- Response status (Table 10-4). -/
inductive Status where
  | ok
  | badTable
  | badIndex
  | badValue
  | locked
  | busy
  | noPlan
  | invalidSet
  | segmentGap
  | wrongState
  | stalePosition
  | notManager
  deriving DecidableEq, Repr

/-- Response status code (Table 10-4). -/
def Status.code : Status → Byte
  | .ok => 0
  | .badTable => 1
  | .badIndex => 2
  | .badValue => 3
  | .locked => 4
  | .busy => 5
  | .noPlan => 6
  | .invalidSet => 7
  | .segmentGap => 8
  | .wrongState => 9
  | .stalePosition => 10
  | .notManager => 11

/-- The results an actuator node can give an ORDER (R154). -/
inductive OrderResult where
  | notTaken
  | taken
  | refusedLocal
  | refusedDrive
  | refusedTravel
  deriving DecidableEq, Repr

/-- R154: the result that a RESULT byte gives; a code of 5 or more reads as NOT_TAKEN. -/
def readResult (b : Byte) : OrderResult :=
  if b = 1 then .taken else if b = 2 then .refusedLocal else if b = 3 then .refusedDrive
  else if b = 4 then .refusedTravel else .notTaken

end Sys2Proof.Machine
end

