-- ==== Sys2Proof/Machine/Ops.lean ====
section
/-! DEFINITION. The shared operations of the Ring Port and the Report Unit: frames and their CHECK, the feeds toward RO, the RO
arbiter (R141, R142), reports (R175, R176), responses (R163), and the end of an event. -/

namespace Sys2Proof.Machine

/-- The bytes that CHECK covers: DEST, SRC, KIND, SEQ, LEN and the payload (Table 8-2). -/
def Frame.covered (f : Frame) : List Byte := [f.dest, f.src, f.kind, f.seq, byte f.payload.length] ++ f.payload

/-- The CHECK field of a frame (R148). -/
def frameCheck (f : Frame) : BitVec 16 := crc f.covered

/-- The bytes of a frame in the order they are sent (Table 8-2). -/
def Frame.bytes (f : Frame) : List Byte := f.covered ++ be2 (frameCheck f).toNat ++ [f.result, f.hops]

/-- Capacity of the relay buffer (R140). -/
def relayCapacity : Nat := 4

/-- Capacity of the response/report queue (R141). -/
def feedCapacity : Nat := 8

/-- Capacity of the in-flight list (R143). -/
def inFlightCapacity : Nat := 24

/-- Room left in the response/report queue. -/
def State.feedRoom (s : State) : Nat := feedCapacity - s.ring.feed.length

/-- Places response or report frames at the tail of the response/report queue, in order (R141). -/
def placeFrames (fs : List Outgoing) (s : State) : State :=
  { s with ring := { s.ring with feed := s.ring.feed ++ fs }, marks := { s.marks with placed := true } }

/-- Numbers the parts of a response or a report from `i` on: the part number in the low three bits, the last flag in the most
significant bit (Table 8-3). -/
def numberParts (i : Nat) : List (List Byte) → List (Byte × List Byte)
  | [] => []
  | [d] => [(byte (i + 128), d)]
  | d :: e :: rest => (byte i, d) :: numberParts (i + 1) (e :: rest)

/-- The data of a RESPONSE cut into parts of up to 57 bytes, one part at least (R163). -/
def responseParts (data : List Byte) : List (List Byte) := piecesOf 57 (data.length + 1) data

/-- The status and data of a response. -/
structure Reply where
  status : Status
  data : List Byte
  deriving DecidableEq, Repr

/-- The RESPONSE frames of a reply (R163, Table 8-3). -/
def responseFrames (q : Requester) (r : Reply) : List Outgoing :=
  (numberParts 0 (responseParts r.data)).map fun p =>
    { dest := q.src, kind := .response, payload := q.tag :: r.status.code :: p.1 :: p.2 }

/-- Places the response to a request. -/
def respond (q : Requester) (r : Reply) (s : State) : State := placeFrames (responseFrames q r) s

/-- The summary of a report (Tables 10-9 and 10-12), with the fields as they stand when it is queued (R176). DESIGN CHOICE (log entry 36):
so the plan position is the live one (R117), also when a PHASE frame or a PLAN_RUN taken between the expiry and the completion has
moved it from the one that the computation used, which R115 and R117 say is reported. -/
def summaryBytes (s : State) : List Byte :=
  be2 s.mgmt.generation.toNat
    ++ [s.mode.requested.toMode.code, s.mode.effective.code, s.mode.stage.code, yesNo s.mode.duty]
    ++ be3 s.engine.results.qT ++ be3 s.engine.results.qD ++ be3 s.engine.results.qA
    ++ be2 s.meas.hw.value ++ be2 s.meas.tw.value ++ be2 s.meas.head.value
    ++ [byte ((if s.meas.hw.fresh then 1 else 0) + (if s.meas.tw.fresh then 2 else 0)
        + (if s.meas.head.fresh then 4 else 0))]
    ++ [s.timer.run.code, byte s.timer.step] ++ be2 s.timer.cadence ++ [gateCode s.timer.gateOpen]
    ++ be2 s.report.flags.toNat

/-- One gate of a report's gate part (Table 10-12). -/
def gateReportBytes (g : GateNo) (r : Gate) : List Byte :=
  [byte g.val, r.state.code] ++ be2 (r.commanded.getD 65535) ++ be2 (r.measured + (if r.fresh then 32768 else 0))

/-- The gates that are present, in gate order (R1). -/
def presentGates (gates : Tab Gate 16) : List GateNo :=
  (List.finRange 16).filter fun g => (gates.get g).state ≠ .absent

/-- The gate part of a report: runs of up to nine present gates, six bytes for each (R176). -/
def gatePart (s : State) : List (List Byte) :=
  let bytes := (presentGates s.gates).flatMap fun g => gateReportBytes g (s.gates.get g)
  if bytes = [] then [] else piecesOf 54 3 bytes

/-- The reasons of a report as a set (Table 10-10, report kind). -/
def reportKind (periodic point condition : Bool) : Byte :=
  byte ((if periodic then 1 else 0) + (if point then 2 else 0) + (if condition then 4 else 0))

/-- The REPORT frames of a report (R176). -/
def reportFrames (kind : Byte) (s : State) : List Outgoing :=
  (numberParts 0 (summaryBytes s :: gatePart s)).map fun p =>
    { dest := 255, kind := .report, payload := kind :: p.1 :: p.2 }

/-- R176: a report is placed when the response/report queue has room for all its frames, and dropped otherwise. -/
def queueReport (kind : Byte) (s : State) : State :=
  let fs := reportFrames kind s
  if fs.length ≤ s.feedRoom then placeFrames fs s else bump .reportDrops s

/-- R142: the first sequence number from `c` on that no in-flight entry holds; `fuel` bounds the search. -/
def freeSeq (used : List Byte) : Nat → Byte → Byte
  | 0, c => c
  | fuel + 1, c => if c ∈ used then freeSeq used fuel (c + 1) else c

/-- R142: completes an originated frame, adds its in-flight entry, and starts sending it. -/
def originate (dest : Byte) (kind : OwnKind) (gate : Option GateNo) (payload : List Byte) (r : Ring) : Ring :=
  let seq := freeSeq (r.inFlight.map (·.seq)) 25 r.seqCounter
  { r with
    ro :=
      some
        { dest := dest, src := r.nodeAddr, kind := kind.code, seq := seq, payload := payload, result := 0, hops := 0 }
    seqCounter := seq + 1
    inFlight := r.inFlight ++ [{ kind := kind, seq := seq, gate := gate, sent := r.ms }] }

/-- The payload of an ORDER (Tables 8-3 and 9-1). -/
def orderPayload (o : Order) : List Byte :=
  byte o.gate.val :: be2 o.opening ++ [yesNo o.urgent, byte o.cadenceLength]

/-- R141, cases 3 and 4: what RO takes when neither a full relay buffer nor an order goes first. -/
def takeRelayThenFeed (s : State) : State :=
  match s.ring.relay with
  | f :: rest => { s with ring := { s.ring with relay := rest, ro := some f } }
  | [] =>
    match s.ring.feed with
    | f :: rest =>
      if s.ring.inFlight.length < inFlightCapacity then
        { s with ring := originate f.dest f.kind none f.payload { s.ring with feed := rest } }
      else s
    | [] => s

/-- R141, cases 2 to 4. -/
def takeOrderThenRest (s : State) : State :=
  match s.orders.queue with
  | o :: rest =>
    if s.ring.inFlight.length < inFlightCapacity then
      { s with
        orders := { s.orders with queue := rest }
        ring := originate o.dest .order (some o.gate) (orderPayload o) s.ring }
    else takeRelayThenFeed s
  | [] => takeRelayThenFeed s

/-- R141: the RO arbiter's choice when RO becomes free. -/
def arbiterChoice (s : State) : State :=
  match s.ring.relay with
  | f :: rest =>
    if 3 ≤ s.ring.relay.length then { s with ring := { s.ring with relay := rest, ro := some f } }
    else takeOrderThenRest s
  | [] => takeOrderThenRest s

/-- RO becomes free: the arbiter chooses, when the ports are in service and RO is idle (R135, R141). -/
def arbitrate (s : State) : State :=
  if s.ring.port = .inService ∧ s.ring.ro = none then arbiterChoice s else s

/-- Queues the condition report that a raise event of this event has called for (R175; log entry 5). -/
def queueConditionReport (s : State) : State :=
  if s.marks.reportDue then queueReport (reportKind false false true) s else s

/-- The end of an event: its condition report is queued, then RO, if idle, becomes free when the event has placed a frame
(R141, R175; log entry 5). -/
def closeEvent (s : State) : State :=
  let s1 := queueConditionReport s
  let s2 := if s1.marks.placed then arbitrate s1 else s1
  { s2 with marks := { reportDue := false, placed := false } }

end Sys2Proof.Machine
end

