-- ==== Sys2Proof/Machine/Gates.lean ====
section
/-! DEFINITION. The Gate Table (chapter 1): state entries, the position read, the tracking monitor, LOCAL tracking, the bumpless
start, the effective opening, the set-switch effects, and what the GATE_CONTROL actions do to a record. -/

namespace Sys2Proof.Machine

/-- The configuration part of a gate's record: its entry of T1 in the active set (R1). -/
def State.gateCfg (s : State) (g : GateNo) : GateCfg := s.mgmt.active.t1.get g

/-- A gate's live record. -/
def State.gate (s : State) (g : GateNo) : Gate := s.gates.get g

/-- Replaces a gate's live record. -/
def setGate (g : GateNo) (r : Gate) (s : State) : State := { s with gates := s.gates.set g r }

/-- R10: the tracking count on entering a state. -/
def countOnEntry (old : GateState) (count : Nat) : GateState → Nat
  | .active => if old = .held then count else 0
  | .held => if old = .active then count else 0
  | .absent => 0
  | .offline => 0
  | .localControl => 0
  | .fault _ => 0
  | .unreachable => 0

/-- The states on whose entry an unsent order is withdrawn (R153). -/
def GateState.withdraws : GateState → Bool
  | .offline => true
  | .fault _ => true
  | .absent => true
  | .active => false
  | .held => false
  | .localControl => false
  | .unreachable => false

/-- The states whose gates are ordered at each cadence (Table 1-4). -/
def GateState.ordered : GateState → Bool
  | .active => true
  | .held => true
  | .localControl => true
  | .unreachable => true
  | .absent => false
  | .offline => false
  | .fault _ => false

/-- Whether a gate is in FAULT. -/
def GateState.isFault : GateState → Bool
  | .fault _ => true
  | .absent => false
  | .offline => false
  | .active => false
  | .held => false
  | .localControl => false
  | .unreachable => false

/-- R153: removes the unsent orders of the gates named, WITHDRAWN going up by one for each. -/
def withdraw (gone : GateNo → Bool) (s : State) : State :=
  let kept := s.orders.queue.filter fun o => !gone o.gate
  bumpBy .withdrawn (s.orders.queue.length - kept.length) { s with orders := { s.orders with queue := kept } }

/-- R21: the flag that a gate's entry into a state raises. -/
def raiseOnEntry : GateState → State → State
  | .fault _ => raise .gateFault
  | .unreachable => raise .gateUnreachable
  | .localControl => raise .gateLocal
  | .absent => id
  | .offline => id
  | .active => id
  | .held => id

/-- A record that enters a state (R10). -/
def Gate.entering (r : Gate) (st : GateState) : Gate :=
  { r with state := st, count := countOnEntry r.state r.count st }

/-- A gate enters a state: its count by R10, its unsent order by R153, its flag by R21. -/
def enterState (g : GateNo) (st : GateState) (s : State) : State :=
  let s1 := setGate g ((s.gate g).entering st) s
  let s2 := if st.withdraws then withdraw (· = g) s1 else s1
  raiseOnEntry st s2

/-- A slot is fresh while its quality is GOOD or CLAMPED (R36). -/
def Quality.fresh : Quality → Bool
  | .good => true
  | .clamped => true
  | .empty => false
  | .suspect => false
  | .stale => false

/-- The slot that a gate's record names as its position slot. -/
def State.positionSlot (s : State) (g : GateNo) : Slot := s.meas.slots.get (s.gateCfg g).positionSlot

/-- R5: a record after a position read of the slot. -/
def Gate.read (r : Gate) (slot : Slot) : Gate :=
  { r with measured := min slot.value fullStroke, fresh := slot.quality.fresh }

/-- R5: the position read of one gate. -/
def readPosition (g : GateNo) (s : State) : State := setGate g ((s.gate g).read (s.positionSlot g)) s

/-- R5: the position reads of a cadence expiry, for every present gate. -/
def readPositions (s : State) : State :=
  { s with
    gates := Tab.ofFn fun g =>
      if (s.gate g).state = .absent then s.gate g else (s.gate g).read (s.positionSlot g) }

/-- The tracking monitor watches ACTIVE and HELD gates (Table 1-4). -/
def GateState.tracked : GateState → Bool
  | .active => true
  | .held => true
  | .absent => false
  | .offline => false
  | .localControl => false
  | .fault _ => false
  | .unreachable => false

/-- The distance between two openings. -/
def openingGap (a b : Nat) : Nat := (a - b) + (b - a)

/-- R17: the tracking count after the comparison of one expiry, before it is held against the limit. -/
def trackedCount (band : Nat) (r : Gate) (commanded : Nat) : Nat :=
  if r.fresh then (if band < openingGap r.measured commanded then r.count + 1 else 0) else r.count

/-- R17 and R18: one gate's record after the tracking monitor and the LOCAL tracking. -/
def Gate.tracking (band limit : Nat) (r : Gate) : Gate :=
  match r.commanded with
  | none => if r.state = .localControl ∧ r.fresh then { r with commanded := some r.measured } else r
  | some c =>
    if r.state.tracked then
      let n := trackedCount band r c
      if limit ≤ n then r.entering (.fault .stuck) else { r with count := n }
    else if r.state = .localControl ∧ r.fresh then { r with commanded := some r.measured }
    else r

/-- R17, R18: the tracking monitor and LOCAL tracking of an expiry at which the effective mode is not INITIAL. -/
def trackGates (s : State) : State :=
  let p := s.mgmt.active.t10
  let after := s.gates.map (Gate.tracking p.trackingBand p.trackingLimit)
  let stuck : GateNo → Bool := fun g => (after.get g).state.isFault && !(s.gate g).state.isFault
  let s1 := withdraw stuck { s with gates := after }
  raiseIf ((List.finRange 16).any stuck) .gateFault s1

/-- R21: the gate flags raised again at each cadence expiry. -/
def raiseGateFlags (s : State) : State :=
  let some? : (GateState → Bool) → Bool := fun p => s.gates.items.any fun r => p r.state
  let s1 := raiseIf (some? GateState.isFault) .gateFault s
  let s2 := raiseIf (some? (· = .unreachable)) .gateUnreachable s1
  raiseIf (some? (· = .localControl)) .gateLocal s2

/-- R6: an opening brought into a gate's limits. -/
def clampOpening (cfg : GateCfg) (o : Nat) : Nat := min (max o cfg.minOpening) cfg.maxOpening

/-- R20: the effective opening, from the measured opening of the snapshot and the record's commanded opening. -/
def effectiveOpening (measured : Nat) (fresh : Bool) (commanded : Option Nat) : Nat :=
  if fresh then measured else commanded.getD 0

/-- R19: one record after the bumpless start, from the position read of the expiry. A LOCAL or UNREACHABLE record, which R19 does
not list and INITIAL does not know, is set like an OFFLINE one (log entry 6). -/
def Gate.bumpless (cfg : GateCfg) (measured : Nat) (fresh : Bool) (r : Gate) : Gate :=
  if r.state = .absent then r
  else if fresh then { r with commanded := some measured }
  else if r.state.tracked then { r.entering (.fault .stuck) with commanded := some cfg.minOpening }
  else { r with commanded := some cfg.minOpening }

/-- R19: the bumpless start of every present gate, on the records as they stand and the position reads of the snapshot. -/
def bumplessStart (snap : Tab Gate 16) (s : State) : State :=
  let after : Tab Gate 16 :=
    Tab.ofFn fun g => (s.gate g).bumpless (s.gateCfg g) (snap.get g).measured (snap.get g).fresh
  let stuck : GateNo → Bool := fun g => (after.get g).state.isFault && !(s.gate g).state.isFault
  let s1 := withdraw stuck { s with gates := after }
  raiseIf ((List.finRange 16).any stuck) .gateFault s1

/-- R11: one record at a set switch, before its target is clamped. -/
def Gate.switchClass (old new : GateClass) (r : Gate) : Gate :=
  if old = new then r
  else if old = .absent then { r.entering .offline with commanded := none, fresh := false }
  else if new = .absent then { r.entering .absent with commanded := none }
  else r.entering .offline

/-- R11 and R6: the Gate Table's effects of a set switch from the set `old` to the active set. -/
def switchGates (old : GovSet) (s : State) : State :=
  let after : Tab Gate 16 :=
    Tab.ofFn fun g =>
      let r := (s.gate g).switchClass (old.t1.get g).cls (s.gateCfg g).cls
      { r with target := clampOpening (s.gateCfg g) r.target }
  let gone : GateNo → Bool := fun g => (old.t1.get g).cls ≠ (s.gateCfg g).cls
  withdraw gone { s with gates := after }

/-- R9: one record at RESTART. -/
def Gate.restarted (cfg : GateCfg) (r : Gate) : Gate :=
  { state := if r.state.ordered then .active else r.state
    target := cfg.minOpening
    commanded := none
    measured := r.measured
    fresh := false
    count := 0 }

/-- The reply of a GATE_CONTROL action that acted: OK with the gate state after the taking (Table 10-12). -/
def gateReply (g : GateNo) (s : State) : Reply × State := (⟨.ok, [(s.gate g).state.code]⟩, s)

/-- A refusal that carries no data. -/
def refuse (st : Status) (s : State) : Reply × State := (⟨st, []⟩, s)

/-- R12: ENABLE of a present gate. -/
def enableGate (g : GateNo) (s : State) : Reply × State :=
  let s1 := readPosition g s
  let r := s1.gate g
  if r.state = .offline then
    if s1.mode.effective = .initial then gateReply g (enterState g .active s1)
    else if r.fresh then
      gateReply g (enterState g .active (setGate g { r with commanded := some r.measured } s1))
    else refuse .stalePosition s1
  else if r.state = .active then gateReply g s1
  else refuse .wrongState s1

/-- R12: DISABLE of a present gate. -/
def disableGate (g : GateNo) (s : State) : Reply × State :=
  if (s.gate g).state = .offline then gateReply g s else gateReply g (enterState g .offline s)

/-- R13: HOLD of a present gate. -/
def holdGate (g : GateNo) (s : State) : Reply × State :=
  if (s.gate g).state = .active then gateReply g (enterState g .held s)
  else if (s.gate g).state = .held then gateReply g s
  else refuse .wrongState s

/-- R13: RELEASE of a present gate. -/
def releaseGate (g : GateNo) (s : State) : Reply × State :=
  if (s.gate g).state = .held then gateReply g (enterState g .active s) else refuse .wrongState s

/-- R14: CLEAR_FAULT of a present gate. -/
def clearFaultGate (g : GateNo) (s : State) : Reply × State :=
  let s1 := readPosition g s
  let r := s1.gate g
  if r.state.isFault then
    if r.fresh then gateReply g (enterState g .active (setGate g { r with commanded := some r.measured } s1))
    else refuse .stalePosition s1
  else refuse .wrongState s1

/-- R12: an action on the gate a GATE_CONTROL names, once its gate number is in range: refused for an ABSENT gate. -/
def onPresentGate (act : GateNo → State → Reply × State) (g : GateNo) (s : State) : Reply × State :=
  if (s.gate g).state = .absent then refuse .wrongState s else act g s

end Sys2Proof.Machine
end

