-- ==== Sys2Proof/Machine/Modes.lean ====
section
/-! DEFINITION. The Mode Supervisor (chapter 7): the flood stage, the effective mode, MODE_REQUEST and the compensation
duty. -/

namespace Sys2Proof.Machine

/-- Table 7-3: the effective mode outside INITIAL. -/
def effectiveMode : ReqMode → Stage → Mode
  | .schedule, .normal => .schedule
  | .schedule, .alert => .schedule
  | .schedule, .flood => .passThrough
  | .schedule, .extreme => .surcharge
  | .passThrough, .normal => .passThrough
  | .passThrough, .alert => .passThrough
  | .passThrough, .flood => .passThrough
  | .passThrough, .extreme => .surcharge
  | .hold, .normal => .hold
  | .hold, .alert => .passThrough
  | .hold, .flood => .passThrough
  | .hold, .extreme => .surcharge

/-- R126: the effective mode is demoted. -/
def ModeRecord.demoted (m : ModeRecord) : Bool := m.effective ≠ .initial ∧ m.effective ≠ m.requested.toMode

/-- R125, R126: recomputes the effective mode outside INITIAL and raises DEMOTED when it is then demoted. -/
def recomputeMode (s : State) : State :=
  if s.mode.effective = .initial then s
  else
    let s1 := { s with mode := { s.mode with effective := effectiveMode s.mode.requested s.mode.stage } }
    raiseIf s1.mode.demoted .demoted s1

/-- R120: the stage that a headwater reaches. -/
def stageReached (p : PlantParams) (hw : Nat) : Stage :=
  if p.tExtreme ≤ hw then .extreme else if p.tFlood ≤ hw then .flood else if p.tAlert ≤ hw then .alert else .normal

/-- R121: a headwater lies below the fall level of a stage. NORMAL has no fall level, and below 0 there is none. -/
def belowFall (p : PlantParams) (hw : Nat) : Stage → Bool
  | .normal => false
  | .alert => hw < p.tAlert - p.hys
  | .flood => hw < p.tFlood - p.hys
  | .extreme => hw < p.tExtreme - p.hys

/-- R121: the stage that one fall leads to. -/
def Stage.below : Stage → Stage
  | .extreme => .flood
  | .flood => .alert
  | .alert => .normal
  | .normal => .normal

/-- R121: the fall of the stage by one. -/
def fallStage (hw : Nat) (s : State) : State :=
  let st := s.mode.stage.below
  let dwell := if belowFall s.mgmt.active.t10 hw st then some s.clock.ssc else none
  recomputeMode (raise .stageFall { s with mode := { s.mode with stage := st, dwellStart := dwell } })

/-- R121: the fall test of a fresh headwater that caused no rise. -/
def fallTest (hw : Nat) (s : State) : State :=
  if s.mode.stage = .normal then s
  else if belowFall s.mgmt.active.t10 hw s.mode.stage then
    match s.mode.dwellStart with
    | none => { s with mode := { s.mode with dwellStart := some s.clock.ssc } }
    | some t => if s.mgmt.active.t10.fallDwell ≤ s.clock.ssc - t then fallStage hw s else s
  else { s with mode := { s.mode with dwellStart := none } }

/-- R120: the evaluation of one fresh headwater. -/
def evaluateStage (hw : Nat) (s : State) : State :=
  let reached := stageReached s.mgmt.active.t10 hw
  if s.mode.stage.rank < reached.rank then
    recomputeMode (raise .stageRise { s with mode := { s.mode with stage := reached, dwellStart := none } })
  else fallTest hw s

/-- The data that every response to a taken MODE_REQUEST carries (R127). -/
def modeData (s : State) : List Byte := [s.mode.requested.toMode.code, s.mode.effective.code]

/-- R127: the mode asked for is set and the effective mode recomputed; the mode already requested changes nothing. -/
def setRequested (m : ReqMode) (s : State) : State :=
  if s.mode.requested = m then s else recomputeMode { s with mode := { s.mode with requested := m } }

/-- R127: MODE_REQUEST, from its operand bytes. -/
def requestMode (operands : List Byte) (s : State) : Reply × State :=
  match operands with
  | [b] =>
    match readMode b with
    | none => (⟨.badValue, modeData s⟩, s)
    | some m =>
      if m = .schedule ∧ s.mgmt.active.plan.count = 0 then (⟨.noPlan, modeData s⟩, s)
      else
        let s1 := setRequested m s
        (⟨.ok, modeData s1⟩, s1)
  | _ => (⟨.badValue, modeData s⟩, s)

/-- R128: the Mode Supervisor's effect of a set switch. -/
def switchMode (s : State) : State :=
  if s.mgmt.active.plan.count = 0 ∧ s.mode.requested = .schedule then
    recomputeMode (raise .demoted { s with mode := { s.mode with requested := .hold } })
  else s

/-- R122: the fall dwell start at an expiry with the headwater held. -/
def clearHeldDwell (s : State) : State :=
  if s.meas.hw.fresh then s else { s with mode := { s.mode with dwellStart := none } }

/-- R132: every present gate of class UNIT has a commanded opening that is absent or 0. -/
def noUnitPasses (set : GovSet) (gates : Tab Gate 16) : Bool :=
  (List.finRange 16).all fun g =>
    (set.t1.get g).cls ≠ .unit || (gates.get g).commanded.getD 0 = 0

/-- R132: the compensation duty, evaluated at an expiry at which the effective mode is not INITIAL. -/
def evaluateDuty (s : State) : State :=
  { s with
    mode := { s.mode with duty := s.mgmt.active.t10.compGate.isSome && noUnitPasses s.mgmt.active s.gates } }

end Sys2Proof.Machine
end

