-- ==== Sys2Proof/Machine/Measuring.lean ====
section
/-! DEFINITION. The Measurement Unit (chapter 3): taking samples, the jump hold, ages and staleness, the votes, and the
local-inflow reading. -/

namespace Sys2Proof.Machine

/-- The slot of an in-use subscription, when its slot number is one (R34). -/
def Subscription.slotNo (u : Subscription) : Option SlotNo := if u.inUse then readBelow 32 u.slot else none

/-- R37: the slot that (source, channel) feeds. -/
def slotFor (set : GovSet) (src channel : Byte) : Option SlotNo :=
  (set.t6.items.find? fun u => u.inUse && u.source = src && u.channel = channel).bind Subscription.slotNo

/-- What feeds a slot: the (source, channel) pair of the in-use subscription that names it. -/
def feederOf (set : GovSet) (n : SlotNo) : Option (Byte × Byte) :=
  (set.t6.items.find? fun u => u.slotNo = some n).map fun u => (u.source, u.channel)

/-- R38: the scaled value before it is clamped. -/
def scaledRaw (p : SlotParams) (raw : Nat) : Int := ((raw * p.gain / 4096 : Nat) : Int) + p.offset

/-- R38: the scaled value, in range. -/
def scaledValue (p : SlotParams) (raw : Nat) : Nat := min (scaledRaw p raw).toNat wordMax

/-- R38: the clamped mark. -/
def scaledClamped (p : SlotParams) (raw : Nat) : Bool := scaledRaw p raw < 0 || (wordMax : Int) < scaledRaw p raw

/-- R39: the slot quality of an entry if its value is taken; none for a sensor quality of BAD or a code that is not one of
the three (R147). -/
def qualityIfTaken (sensor : Byte) (clamped : Bool) : Option Quality :=
  if sensor = 0 then some (if clamped then .clamped else .good) else if sensor = 1 then some .suspect else none

/-- R39: taking a value into a slot. -/
def Slot.taking (v : Nat) (q : Quality) : Slot := { value := v, quality := q, age := 0, candidate := none }

/-- The absolute difference of two values. -/
def valueGap (a b : Nat) : Nat := (a - b) + (b - a)

/-- R40, R41: whether the jump hold takes a value. -/
def Slot.accepts (jump : Nat) (v : Nat) (sl : Slot) : Bool :=
  jump = 0 || sl.quality = .empty || valueGap v sl.value ≤ jump
    || (match sl.candidate with
        | none => false
        | some c => valueGap v c ≤ jump)

/-- R37 to R41: one entry of a SAMPLE from node `src`, with the slots taken into so far. -/
def offerEntry (src : Byte) (acc : State × List SlotNo) (e : SampleEntry) : State × List SlotNo :=
  let s := acc.1
  match slotFor s.mgmt.active src e.channel with
  | none => acc
  | some n =>
    let p := s.mgmt.active.t7.get n
    let sl := s.meas.slots.get n
    let v := scaledValue p e.raw.toNat
    match qualityIfTaken e.quality (scaledClamped p e.raw.toNat) with
    | none => (bump .badSamples s, acc.2)
    | some q =>
      if sl.accepts p.jumpLimit v then
        ({ s with meas := { s.meas with slots := s.meas.slots.set n (Slot.taking v q) } }, n :: acc.2)
      else
        (bump .jumpHolds
          { s with meas := { s.meas with slots := s.meas.slots.set n { sl with candidate := some v } } }, acc.2)

/-- The slots named in the headwater group, one for each role that names a slot (R45, R47). -/
def LevelRoles.headwater (r : LevelRoles) : List SlotNo := [r.hw1, r.hw2, r.hw3].filterMap id

/-- The slots named in the tailwater group (R45, R48). -/
def LevelRoles.tailwater (r : LevelRoles) : List SlotNo := [r.tw1, r.tw2].filterMap id

/-- The values of the fresh slots of a group. -/
def freshValues (slots : Tab Slot 32) (group : List SlotNo) : List Nat :=
  ((group.map slots.get).filter fun sl => sl.quality.fresh).map (·.value)

/-- The middle one of three values in ascending order (R47). -/
def median3 (a b c : Nat) : Nat := max (min a b) (min (max a b) c)

/-- R47, R48: the level that the fresh values of a group give; with none, the level before, held. -/
def voteOf (previous : Level) : List Nat → Level
  | [] => ⟨previous.value, false⟩
  | [a] => ⟨a, true⟩
  | [a, b] => ⟨(a + b) / 2, true⟩
  | a :: b :: c :: _ => ⟨median3 a b c, true⟩

/-- R48: the head formed from two levels. -/
def headOf (hw tw : Level) : Level := ⟨hw.value - tw.value, hw.fresh && tw.fresh⟩

/-- R46 to R49: recomputes the votes of the groups named, forms the head, and raises HEAD_STALE when a level is then held. -/
def formVotes (hwGroup twGroup : Bool) (s : State) : State :=
  let roles := s.mgmt.active.t8
  let hw := if hwGroup then voteOf s.meas.hw (freshValues s.meas.slots roles.headwater) else s.meas.hw
  let tw := if twGroup then voteOf s.meas.tw (freshValues s.meas.slots roles.tailwater) else s.meas.tw
  let s1 := { s with meas := { s.meas with hw := hw, tw := tw, head := headOf hw tw } }
  raiseIf (!(hw.fresh && tw.fresh)) .headStale s1

/-- R46, R50: the votes of one event; a headwater vote that leaves HW fresh hands it to the Mode Supervisor. -/
def vote (hwGroup twGroup : Bool) (s : State) : State :=
  if hwGroup || twGroup then
    let s1 := formVotes hwGroup twGroup s
    if hwGroup && s1.meas.hw.fresh then evaluateStage s1.meas.hw.value s1 else s1
  else s

/-- R46: the votes after an event that changed the slots in `touched`. -/
def voteTouched (touched : List SlotNo) (s : State) : State :=
  let roles := s.mgmt.active.t8
  vote (roles.headwater.any fun n => decide (n ∈ touched)) (roles.tailwater.any fun n => decide (n ∈ touched)) s

/-- R37: the arrival of a SAMPLE from node `src`. -/
def takeSample (src : Byte) (entries : List SampleEntry) (s : State) : State :=
  let r := entries.foldl (offerEntry src) (s, [])
  voteTouched r.2 r.1

/-- R42: the age of one slot at a second tick. -/
def Slot.aged (sl : Slot) : Slot :=
  if sl.quality = .empty then sl else { sl with age := min (sl.age + 1) wordMax }

/-- R42: a slot whose age has passed its limit, and that is not yet STALE. -/
def Slot.goesStale (limit : Nat) (sl : Slot) : Bool :=
  (sl.quality = .good || sl.quality = .clamped || sl.quality = .suspect) && limit < sl.age

/-- R42, R46: the staleness evaluation of a tick, and the votes of the groups whose slots it turned STALE. -/
def evaluateStale (s : State) : State :=
  let gone := (List.finRange 32).filter fun n =>
    (s.meas.slots.get n).goesStale (s.mgmt.active.t7.get n).staleLimit
  let slots : Tab Slot 32 := Tab.ofFn fun n =>
    let sl := s.meas.slots.get n
    if sl.goesStale (s.mgmt.active.t7.get n).staleLimit then { sl with quality := .stale } else sl
  voteTouched gone { s with meas := { s.meas with slots := slots } }

/-- R43, R44: a slot made EMPTY; its value is kept. -/
def Slot.emptied (sl : Slot) : Slot := { sl with quality := .empty, age := 0, candidate := none }

/-- R43: one slot at a set switch. -/
def Slot.switched (old new : GovSet) (n : SlotNo) (sl : Slot) : Slot :=
  let p := old.t7.get n
  let q := new.t7.get n
  if feederOf old n ≠ feederOf new n ∨ p.gain ≠ q.gain ∨ p.offset ≠ q.offset then sl.emptied
  else if p.jumpLimit ≠ q.jumpLimit then { sl with candidate := none }
  else sl

/-- R43, R46: the Measurement Unit's effects of a set switch: the slots, then both votes. -/
def switchSlots (old : GovSet) (s : State) : State :=
  let slots : Tab Slot 32 := Tab.ofFn fun n => (s.meas.slots.get n).switched old s.mgmt.active n
  vote true true { s with meas := { s.meas with slots := slots } }

/-- R44: the Measurement Unit at RESTART. -/
def Measurement.restarted (m : Measurement) : Measurement :=
  { slots := m.slots.map Slot.emptied
    hw := ⟨m.hw.value, false⟩
    tw := ⟨m.tw.value, false⟩
    head := ⟨m.head.value, false⟩ }

/-- R51: the local-inflow reading. -/
def State.localInflow (s : State) : Level :=
  match s.mgmt.active.t8.inflow with
  | none => ⟨0, true⟩
  | some n => ⟨(s.meas.slots.get n).value, (s.meas.slots.get n).quality.fresh⟩

end Sys2Proof.Machine
end

