-- ==== Sys2Proof/Machine/Orders.lean ====
section
/-! DEFINITION. The Order Unit (chapter 9): forming and placing orders, reading results, lost counts, and the delivery of
results and UNREACHABLE events to the gate records (R15, R16). -/

namespace Sys2Proof.Machine

/-- R152: places an order in a queue; an unsent order of the same gate is replaced in place. -/
def placeOrder (o : Order) : List Order → List Order
  | [] => [o]
  | x :: rest => if x.gate = o.gate then o :: rest else x :: placeOrder o rest

/-- R152: the Order Unit places an order. -/
def queueOrder (o : Order) (s : State) : State :=
  let s1 := if s.orders.queue.any (·.gate = o.gate) then bump .superseded s else s
  { s1 with
    orders := { s1.orders with queue := placeOrder o s1.orders.queue }
    marks := { s1.marks with placed := true } }

/-- R151: the order of a gate for a computation whose snapshot shows the mode `m`. A record without a commanded opening, which
no ordered gate outside INITIAL has (R12), asks for none (log entry 7). -/
def formOrder (m : Mode) (s : State) (g : GateNo) : Option Order :=
  if (s.gate g).state.ordered then
    (s.gate g).commanded.map fun o =>
      { dest := (s.gateCfg g).node, gate := g, opening := o,
        urgent := decide (m = .surcharge ∧ (s.gateCfg g).cls = .spill),
        cadenceLength := s.mgmt.active.t10.cadenceLength }
  else none

/-- R7, R151: the order requests of a completion, in ascending gate number. -/
def requestOrders (m : Mode) (s : State) : State :=
  ((List.finRange 16).filterMap (formOrder m s)).foldl (fun s o => queueOrder o s) s

/-- R15: the opening carried in a returned ORDER, from its opening field; log entry 1 for a field above 1,000, and for a
payload too short to have one. -/
def returnedOpening : Option Nat → Nat
  | some n => if n ≤ fullStroke then n else (Config.openingOfWideField n).val
  | none => Config.openingOfShortReturn.val

/-- R15: TAKEN delivered. -/
def deliverTaken (g : GateNo) (opening : Option Nat) (s : State) : State :=
  match (s.gate g).state with
  | .active => s
  | .held => s
  | .localControl =>
    let s1 := readPosition g (enterState g .active s)
    let r := s1.gate g
    setGate g { r with commanded := some (if r.fresh then r.measured else returnedOpening opening) } s1
  | .unreachable => enterState g .active s
  | .offline => bump .ignoredResults s
  | .fault _ => bump .ignoredResults s
  | .absent => bump .ignoredResults s

/-- R15: REFUSED-LOCAL delivered. -/
def deliverLocal (g : GateNo) (s : State) : State :=
  match (s.gate g).state with
  | .active => enterState g .localControl s
  | .held => enterState g .localControl s
  | .localControl => s
  | .unreachable => enterState g .localControl s
  | .offline => bump .ignoredResults s
  | .fault _ => bump .ignoredResults s
  | .absent => bump .ignoredResults s

/-- R15: REFUSED-DRIVE or REFUSED-TRAVEL delivered. -/
def deliverRefusal (reason : FaultReason) (g : GateNo) (s : State) : State :=
  match (s.gate g).state with
  | .active => enterState g (.fault reason) s
  | .held => enterState g (.fault reason) s
  | .localControl => enterState g (.fault reason) s
  | .unreachable => enterState g (.fault reason) s
  | .offline => bump .ignoredResults s
  | .fault _ => bump .ignoredResults s
  | .absent => bump .ignoredResults s

/-- R16: the UNREACHABLE event. -/
def deliverUnreachable (g : GateNo) (s : State) : State :=
  match (s.gate g).state with
  | .active => enterState g .unreachable s
  | .held => enterState g .unreachable s
  | .localControl => enterState g .unreachable s
  | .unreachable => s
  | .offline => bump .ignoredResults s
  | .fault _ => bump .ignoredResults s
  | .absent => bump .ignoredResults s

/-- Sets a gate's lost count. -/
def setLost (g : GateNo) (n : Nat) (s : State) : State :=
  { s with orders := { s.orders with lost := s.orders.lost.set g n } }

/-- R155: NOT_TAKEN, or a LOST expiry, of a gate. -/
def countLoss (g : GateNo) (s : State) : State :=
  if s.orders.lost.get g < 2 then setLost g (s.orders.lost.get g + 1) s
  else deliverUnreachable g (setLost g 3 s)

/-- R154 to R156: the result of a returned ORDER of gate `g`, with the opening field it carries. -/
def applyResult (g : GateNo) (result : Byte) (opening : Option Nat) (s : State) : State :=
  let s1 := if 5 ≤ result.toNat then bump .badResult s else s
  match readResult result with
  | .notTaken => countLoss g s1
  | .taken => deliverTaken g opening (setLost g 0 s1)
  | .refusedLocal => deliverLocal g (setLost g 0 s1)
  | .refusedDrive => deliverRefusal .drive g (setLost g 0 s1)
  | .refusedTravel => deliverRefusal .travel g (setLost g 0 s1)

/-- R158: the Order Unit's effects of a set switch on the lost counts; the withdrawals are those of `switchGates`. -/
def switchOrders (old : GovSet) (s : State) : State :=
  { s with
    orders :=
      { s.orders with
        lost := Tab.ofFn fun g =>
          if (old.t1.get g).cls ≠ (s.gateCfg g).cls ∨ (old.t1.get g).node ≠ (s.gateCfg g).node then 0
          else s.orders.lost.get g } }

end Sys2Proof.Machine
end

