-- ==== Sys2Proof/Machine/Reaching.lean ====
section
/-! DEFINITION. The Reach Unit (chapter 5): taking a notice, the reach queue, due processing, and the anticipated inflow. -/

namespace Sys2Proof.Machine

/-- R83: capacity of the reach queue. -/
def reachCapacity : Nat := 32

/-- R84: the record in use of the active T9 that follows a station. -/
def followerOf (set : GovSet) (station : Byte) : Option OriginNo :=
  (List.finRange 4).find? fun n => (set.t9.get n).inUse && (set.t9.get n).station = station

/-- R85: how a notice's sequence stands to the last accepted one. -/
inductive SeqTest where
  | accepted
  | duplicate
  | stale
  deriving DecidableEq, Repr

/-- R85: the sequence test. DESIGN CHOICE (log entry 34): every jump of up to 32,767 is accepted, as R85 says, so that a sequence that is
still queued can be accepted again from its origin, where R83 and R90 say that none is. -/
def seqTest (last : Option (BitVec 16)) (n : BitVec 16) : SeqTest :=
  match last with
  | none => .accepted
  | some l => if n = l then .duplicate else if (n - l).toNat ≤ 32767 then .accepted else .stale

/-- R86: the travel time of a release, by the first band whose end is at or above it; the last band when none is. -/
def travelTime (r : OriginRecord) (release : Nat) : Nat :=
  if release ≤ r.bands.get 0 then r.times.get 0
  else if release ≤ r.bands.get 1 then r.times.get 1
  else if release ≤ r.bands.get 2 then r.times.get 2
  else r.times.get 3

/-- R86: the due second, exact, capped above. -/
def dueSecond (receipt age travel : Nat) : Int := min ((receipt : Int) - age + travel) sscMax

/-- R87: the no-overtaking clamp acts. -/
def clampActs (latest : Option Nat) (due : Int) : Bool :=
  match latest with
  | none => false
  | some l => due < (l : Int)

/-- R87: the due second after the clamp. -/
def clampedDue (latest : Option Nat) (due : Int) : Int :=
  match latest with
  | none => due
  | some l => max due l

/-- R87: the latest due recorded for a due second; log entry 2 for one below 0. -/
def latestDueOf (ssc : Nat) (due : Int) : Nat := if 0 ≤ due then due.toNat else min (Config.pastDueSecond due) ssc

/-- Replaces an origin's live state. -/
def setOrigin (n : OriginNo) (o : OriginLive) (s : State) : State :=
  { s with reach := { s.reach with origins := s.reach.origins.set n o } }

/-- The arriving inflow of an origin becomes a release (R92). -/
def applyRelease (n : OriginNo) (release : Nat) (s : State) : State :=
  setOrigin n { s.reach.origins.get n with arriving := release } s

/-- R89: inserts an entry after every entry due no later and before every entry due later. -/
def insertByDue (e : ReachEntry) : List ReachEntry → List ReachEntry
  | [] => [e]
  | x :: rest => if x.due ≤ e.due then x :: insertByDue e rest else e :: x :: rest

/-- R89: early application of the head of a full queue. -/
def applyHeadEarly (s : State) : State :=
  if reachCapacity ≤ s.reach.queue.length then
    match s.reach.queue with
    | [] => s
    | x :: rest =>
      let s1 := applyRelease x.origin x.release { s with reach := { s.reach with queue := rest } }
      raise .earlyApply (bump .earlyApply s1)
  else s

/-- R89: insertion of a notice that is not late, whether or not an entry of the same origin and sequence is queued (DESIGN CHOICE, log
entry 34). -/
def insertNotice (e : ReachEntry) (s : State) : State :=
  let s1 := applyHeadEarly s
  { s1 with reach := { s1.reach with queue := insertByDue e s1.reach.queue } }

/-- R86 to R89: an accepted notice of an origin record. -/
def acceptNotice (n : OriginNo) (seqNo : BitVec 16) (release age : Nat) (s : State) : State :=
  let o := s.reach.origins.get n
  let exact := dueSecond s.clock.ssc age (travelTime (s.mgmt.active.t9.get n) release)
  let due := clampedDue o.latestDue exact
  let s1 := if clampActs o.latestDue exact then bump .clampedDue s else s
  let s2 := setOrigin n { o with lastSeq := some seqNo, latestDue := some (latestDueOf s.clock.ssc due) } s1
  if due ≤ (s.clock.ssc : Int) then bump .late (applyRelease n release s2)
  else insertNotice { origin := n, seqNo := seqNo, release := release, due := due.toNat } s2

/-- R84, R85: the arrival of a NOTICE. -/
def takeNotice (nf : NoticeFields) (s : State) : State :=
  let release := min nf.release.toNat plantMax
  if nf.origin.toNat = s.ring.station.toNat then s
  else
    match followerOf s.mgmt.active nf.origin with
    | none => bump .foreign s
    | some n =>
      match seqTest (s.reach.origins.get n).lastSeq nf.seqNo with
      | .accepted => acceptNotice n nf.seqNo release nf.age.toNat s
      | .duplicate => bump .duplicate s
      | .stale => bump .stale s

/-- R91: removes the due entries from the head of a queue, each setting its origin's arriving inflow. -/
def dueEntries (ssc : Nat) : List ReachEntry → Tab OriginLive 4 → Tab OriginLive 4 × List ReachEntry
  | [], os => (os, [])
  | x :: rest, os =>
    if x.due ≤ ssc then
      dueEntries ssc rest (os.set x.origin { os.get x.origin with arriving := x.release })
    else (os, x :: rest)

/-- R91: due processing at the present SSC. -/
def processDue (s : State) : State :=
  let r := dueEntries s.clock.ssc s.reach.queue s.reach.origins
  { s with reach := { origins := r.1, queue := r.2 } }

/-- R93: the inflow of one origin in force at second `t`. -/
def inflowAt (r : Reach) (t : Nat) (n : OriginNo) : Nat :=
  match (r.queue.filter fun e => decide (e.origin = n ∧ e.due ≤ t)).getLast? with
  | some e => e.release
  | none => (r.origins.get n).arriving

/-- R93: the anticipated inflow. -/
def anticipatedInflow (s : State) : Nat :=
  let t := secondsAfter s.clock.ssc s.mgmt.active.t10.lookahead
  let inflows := (List.finRange 4).map fun n => if (s.mgmt.active.t9.get n).inUse then inflowAt s.reach t n else 0
  min (inflows.sum + s.localInflow.value) plantMax

/-- R96: the switch keeps an origin's live state and entries. -/
def originKept (old new : OriginRecord) : Bool :=
  (!old.inUse && !new.inUse) || (old.inUse && new.inUse && old.station = new.station)

/-- R96: the Reach Unit's effects of a set switch. -/
def switchReach (old : GovSet) (s : State) : State :=
  let kept : OriginNo → Bool := fun n => originKept (old.t9.get n) (s.mgmt.active.t9.get n)
  { s with
    reach :=
      { origins := Tab.ofFn fun n => if kept n then s.reach.origins.get n else clearedOrigin
        queue := s.reach.queue.filter fun e => kept e.origin } }

end Sys2Proof.Machine
end

