-- ==== Sys2Proof/Machine/Events.lean ====
section
/-! DEFINITION. Taking an event: the work of a second tick that is still to be done comes first (log entry 4), then the event, then
its end (`closeEvent`). Also the second tick itself and the millisecond of the ring count. -/

namespace Sys2Proof.Machine

/-- SLOT_STALE: the staleness evaluation of the last second tick, when it is still to be done (R42). -/
def staleWork (s : State) : State :=
  if s.clock.staleDue then closeEvent (evaluateStale { s with clock := { s.clock with staleDue := false } }) else s

/-- REACH_DUE_PROCESSING: due processing at the present SSC (R91). -/
def reachWork (s : State) : State := processDue { s with clock := { s.clock with reachDue := false } }

/-- The state once the work of the last second tick is done (log entry 4). -/
def settleTick (s : State) : State :=
  let s1 := staleWork s
  if s1.clock.reachDue then reachWork s1 else s1

/-- Takes an event. While RESET is asserted none is taken (log entry 8). -/
def takeEvent (body : State → State) (s : State) : State :=
  if s.ring.port = .inReset then s else closeEvent (body (settleTick s))

/-- Takes an event that reaches the part over the ring: there is none while the ports are in bypass (R134, R135). -/
def takeRingEvent (body : State → State) (s : State) : State :=
  if s.ring.port = .inService then closeEvent (body (settleTick s)) else s

/-- SECOND_TICK: the SSC advances (Introduction, TIME), the ages go up (R42), and the cadence expiry falls due when the SSC has come
to the cadence schedule (R102). DESIGN CHOICE (log entry 35): so it does too at a cadence length of 1 s on the tick right after a
PHASE frame, whose schedule is that tick's second, where R114 says that the tick finds the schedule not reached. -/
def secondTick (s : State) : State :=
  let ssc := min (s.clock.ssc + 1) sscMax
  { s with
    clock :=
      { ssc := ssc, expiryDue := s.clock.expiryDue || ssc = s.timer.schedule, staleDue := true, reachDue := true }
    meas := { s.meas with slots := s.meas.slots.map Slot.aged } }

/-- R144: an in-flight entry expires at a count. -/
def InFlight.expires (limit : Nat) (ms : BitVec 16) (e : InFlight) : Bool := limit ≤ (ms - e.sent).toNat

/-- R144: one entry that expires: LOST goes up, and an ORDER's LOST expiry goes to the Order Unit (R155). -/
def expireEntry (s : State) (e : InFlight) : State :=
  let s1 := bump .lost s
  match e.gate with
  | some g => if e.kind = .order then countLoss g s1 else s1
  | none => s1

/-- R142, R144: one millisecond of the ring millisecond count. -/
def millisecond (s : State) : State :=
  let ms := s.ring.ms + 1
  let limit := s.mgmt.active.t10.returnLimit
  let gone := s.ring.inFlight.filter fun e => e.expires limit ms
  let kept := s.ring.inFlight.filter fun e => !e.expires limit ms
  gone.foldl expireEntry { s with ring := { s.ring with ms := ms, inFlight := kept } }

/-- `n` milliseconds, each an event of its own. -/
def milliseconds : Nat → State → State
  | 0, s => s
  | n + 1, s => milliseconds n (takeEvent millisecond s)

end Sys2Proof.Machine
end

