-- ==== Sys2Proof/Machine/Planning.lean ====
section
/-! DEFINITION. The Plan Timer (chapter 6): the plan release, the advance, PLAN_RUN, PLAN_STOP and PLAN_GATE, PHASE reloads,
report points, and the set-switch check of the position. -/

namespace Sys2Proof.Machine

/-- Step `i` of the plan. -/
def stepAt (set : GovSet) (i : Nat) : PlanStep := (set.steps.at? i).getD emptyPlanStep

/-- The durations of the steps of the plan (R99). -/
def durations (set : GovSet) : List Nat := (List.range set.plan.count).map fun i => (stepAt set i).duration

/-- R100: the cycle length of the plan. -/
def cycleLength (set : GovSet) : Nat := (durations set).sum

/-- R105: the release that a RAMP step at `i` starts from. -/
def previousRelease (set : GovSet) (i : Nat) : Nat :=
  if 0 < i then (stepAt set (i - 1)).release
  else
    match set.plan.kind with
    | .cyclic => (stepAt set (set.plan.count - 1)).release
    | .oneShot => (stepAt set i).release

/-- R105: the plan release for a position. -/
def planReleaseAt (set : GovSet) (i c : Nat) : Nat :=
  let st := stepAt set i
  match st.shape with
  | .step => st.release
  | .ramp =>
    let p := previousRelease set i
    ((p : Int) + (((st.release : Int) - p) * (c + 1)).tdiv st.duration).toNat

/-- R106: the plan release handed to the snapshot; none with the plan empty. -/
def planRelease (set : GovSet) (t : Timer) : Option Nat :=
  if set.plan.count = 0 then none else some (planReleaseAt set t.step t.cadence)

/-- R113: the position is the last cadence of the last step. -/
def atPlanEnd (set : GovSet) (step cadence : Nat) : Bool :=
  step + 1 = set.plan.count && cadence + 1 = (stepAt set step).duration

/-- What an expiry does with the position (R103): the timer after it, whether it begins a cadence of the plan, and whether the
plan has ended at it. -/
structure Advance where
  timer : Timer
  begins : Bool
  ended : Bool
  deriving DecidableEq, Repr

/-- R103: the advance of a running plan of at least one step. -/
def advanceRunning (set : GovSet) (t : Timer) : Advance :=
  if t.startPending then ⟨{ t with startPending := false }, true, false⟩
  else if t.cadence + 1 < (stepAt set t.step).duration then ⟨{ t with cadence := t.cadence + 1 }, true, false⟩
  else if t.step + 1 < set.plan.count then ⟨{ t with step := t.step + 1, cadence := 0 }, true, false⟩
  else
    match set.plan.kind with
    | .cyclic => ⟨{ t with step := 0, cadence := 0 }, true, false⟩
    | .oneShot => ⟨{ t with run := .ended }, false, true⟩

/-- R103: the advance at a cadence expiry. -/
def advancePlan (set : GovSet) (t : Timer) : Advance :=
  match t.run with
  | .running => advanceRunning set t
  | .stopped => ⟨t, false, false⟩
  | .ended => ⟨t, false, false⟩

/-- R115: the report point test of a position. -/
def pointReached (h : PlanHeader) (t : Timer) : Bool :=
  match h.pointMode with
  | .once => t.step = h.pointStep && t.cadence = h.pointCadence
  | .everyStep => t.cadence = h.pointCadence

/-- R102, steps 2 to 4, with R104 and R115: the Plan Timer at a cadence expiry. -/
def timerExpiry (s : State) : State :=
  let set := s.mgmt.active
  let a := advancePlan set s.timer
  let point := a.begins && pointReached set.plan a.timer
  let n := s.timer.reportCount + 1
  let periodic := set.t10.reportInterval ≤ n
  let s1 :=
    { s with
      timer :=
        { a.timer with
          reportCount := if periodic then 0 else n
          schedule := secondsAfter s.clock.ssc set.t10.cadenceLength }
      report :=
        { s.report with
          periodicDue := s.report.periodicDue || periodic
          pointDue := s.report.pointDue || point } }
  raiseIf a.ended .planEnded s1

/-- R107: a PLAN_RUN that is not refused. -/
def startPlan (fromStart : Bool) (t : Timer) : Timer :=
  if fromStart then { t with run := .running, step := 0, cadence := 0, startPending := true }
  else
    match t.run with
    | .stopped => { t with run := .running, startPending := true }
    | .running => t
    | .ended => { t with run := .running, startPending := false }

/-- The data of an OK response to PLAN_RUN and PLAN_STOP (Table 10-12). -/
def timerData (t : Timer) : List Byte := [t.run.code, byte t.step] ++ be2 t.cadence

/-- R107: PLAN_RUN, from its operand bytes. -/
def runPlan (operands : List Byte) (s : State) : Reply × State :=
  match operands with
  | [b] =>
    match readYesNo b with
    | none => (⟨.badValue, []⟩, s)
    | some fromStart =>
      if s.mgmt.active.plan.count = 0 then (⟨.noPlan, []⟩, s)
      else
        let t := startPlan fromStart s.timer
        (⟨.ok, timerData t⟩, { s with timer := t })
  | _ => (⟨.badValue, []⟩, s)

/-- R108: PLAN_STOP, from its operand bytes. -/
def stopPlan (operands : List Byte) (s : State) : Reply × State :=
  match operands with
  | [] =>
    let t := if s.timer.run = .stopped then s.timer else { s.timer with run := .stopped, startPending := false }
    (⟨.ok, timerData t⟩, { s with timer := t })
  | _ => (⟨.badValue, []⟩, s)

/-- R109: PLAN_GATE, from its operand bytes. -/
def setOutputGate (operands : List Byte) (s : State) : Reply × State :=
  match operands with
  | [b] =>
    match readGateCode b with
    | none => (⟨.badValue, []⟩, s)
    | some isOpen => (⟨.ok, [gateCode isOpen]⟩, { s with timer := { s.timer with gateOpen := isOpen } })
  | _ => (⟨.badValue, []⟩, s)

/-- R112: the step and cadence of a plan index, walking the durations from step `i` on. -/
def locate : List Nat → Nat → Nat → Nat × Nat
  | [], i, _ => (i, 0)
  | d :: rest, i, a => if a < d then (i, a) else locate rest (i + 1) (a - d)

/-- R112: the plan index that a frame's step and cadence and the phase offset give, brought into the plan. -/
def phaseIndex (set : GovSet) (step cadence : Nat) : Nat :=
  let a : Int := (((durations set).take step).sum : Nat) + ((cadence : Int) + set.plan.phaseOffset)
  let c : Int := (cycleLength set : Nat)
  match set.plan.kind with
  | .cyclic => (a % c).toNat
  | .oneShot => (min (max a 0) (c - 1)).toNat

/-- R112: the position that an accepted PHASE frame loads. -/
def phasePosition (set : GovSet) (step cadence : Nat) : Nat × Nat :=
  locate (durations set) 0 (phaseIndex set step cadence)

/-- R113: the timer after an accepted PHASE frame. -/
def reloadTimer (set : GovSet) (ssc step cadence : Nat) (t : Timer) : Timer :=
  let p := phasePosition set step cadence
  { t with
    run := if t.run = .ended ∧ ¬ atPlanEnd set p.1 p.2 then .running else t.run
    step := p.1
    cadence := p.2
    startPending := false
    schedule := secondsAfter ssc set.t10.cadenceLength }

/-- R111: the arrival of a PHASE. -/
def takePhase (p : PhaseFields) (s : State) : State :=
  let set := s.mgmt.active
  if ¬ set.plan.phaseFollow then s
  else if p.origin.toNat ≠ set.plan.followed then s
  else if set.plan.count ≤ p.step.toNat then bump .phaseRange s
  else { s with timer := reloadTimer set s.clock.ssc p.step.toNat p.cadence.toNat s.timer }

/-- R116: the check of the position against the new plan at a set switch. -/
def checkPosition (set : GovSet) (t : Timer) : Timer :=
  if set.plan.count = 0 then { t with run := .stopped, step := 0, cadence := 0, startPending := false }
  else if set.plan.count ≤ t.step then
    { t with step := set.plan.count - 1, cadence := (stepAt set (set.plan.count - 1)).duration - 1 }
  else if (stepAt set t.step).duration ≤ t.cadence then { t with cadence := (stepAt set t.step).duration - 1 }
  else t

/-- R116: the Plan Timer's effect of a set switch. -/
def switchTimer (s : State) : State := { s with timer := checkPosition s.mgmt.active s.timer }

/-- R101: the timer record at RESTART. -/
def restartedTimer (set : GovSet) (ssc : Nat) : Timer :=
  { run := .stopped, step := 0, cadence := 0, gateOpen := true, startPending := false,
    schedule := secondsAfter ssc set.t10.cadenceLength, reportCount := 0 }

end Sys2Proof.Machine
end

