-- ==== Sys2Proof/Machine/Operands.lean ====
section
/-! DEFINITION. The layouts of R177: table entries written as bytes and read from bytes with their ranges, the live tables, and the
payloads of the frames that the part takes in. -/

namespace Sys2Proof.Machine

/-! ### Sizes (Table 10-1) -/

/-- The number of the last entry of a table. -/
def lastEntry : Nat → Nat
  | 1 => 15
  | 3 => 7
  | 5 => 48
  | 6 => 31
  | 7 => 31
  | 9 => 3
  | 11 => 31
  | 12 => 35
  | 13 => 20
  | 14 => 21
  | _ => 0

/-- The encoded size of an entry. -/
def entrySize (table entry : Nat) : Nat :=
  match table with
  | 1 => 12
  | 2 => 33
  | 3 => 34
  | 4 => 16
  | 5 => if entry = 0 then 10 else 6
  | 6 => 4
  | 7 => 7
  | 8 => 6
  | 9 => 22
  | 10 => 36
  | 11 => 8
  | 12 => 11
  | 13 =>
    if entry < 16 then 11 else if entry = 16 then 66 else if entry = 17 then 11 else if entry = 18 then 9
    else if entry = 19 then 33 else 13
  | _ => 2

/-! ### Entries of the Governing Set as bytes (Table 10-11) -/

/-- T1. -/
def GateCfg.bytes (c : GateCfg) : List Byte :=
  [c.cls.code, c.node, byte c.positionSlot.val, byte c.ratingSet.val]
    ++ be2 c.minOpening ++ be2 c.maxOpening ++ be2 c.rate ++ be2 c.urgentRate

/-- T2: the number of pairs, then 16 pairs, those beyond the number 0. -/
def allocBytes (l : List AllocPair) : List Byte :=
  byte l.length :: (l.flatMap (fun (p : AllocPair) => [byte p.gate.val, byte p.tier.val]) ++ List.replicate 32 0).take 32

/-- T3. -/
def RatingSet.bytes (r : RatingSet) : List Byte := r.q.items.flatMap be2 ++ r.f.items.flatMap be2

/-- T5 entry 0. -/
def PlanHeader.bytes (h : PlanHeader) : List Byte :=
  [byte h.count, h.kind.code, byte h.pointStep] ++ be2 h.pointCadence
    ++ [h.pointMode.code, yesNo h.phaseFollow, byte h.followed] ++ signed2 h.phaseOffset

/-- T5 entries 1 to 48. -/
def PlanStep.bytes (p : PlanStep) : List Byte := be2 p.duration ++ be3 p.release ++ [p.shape.code]

/-- T6. -/
def Subscription.bytes (u : Subscription) : List Byte := [yesNo u.inUse, u.source, u.channel, u.slot]

/-- T7. -/
def SlotParams.bytes (p : SlotParams) : List Byte :=
  be2 p.gain ++ signed2 p.offset ++ [byte p.staleLimit] ++ be2 p.jumpLimit

/-- T8. -/
def LevelRoles.bytes (r : LevelRoles) : List Byte :=
  [noneOr r.hw1, noneOr r.hw2, noneOr r.hw3, noneOr r.tw1, noneOr r.tw2, noneOr r.inflow]

/-- T9. -/
def OriginRecord.bytes (r : OriginRecord) : List Byte :=
  [yesNo r.inUse, r.station] ++ r.bands.items.flatMap be3 ++ r.times.items.flatMap be2

/-- T10. -/
def PlantParams.bytes (p : PlantParams) : List Byte :=
  be2 p.hwSet ++ be2 p.kl ++ be3 p.qMinEnv ++ be3 p.rlim ++ be2 p.tolerance ++ [noneOr p.compGate]
    ++ be2 p.compOpening ++ be2 p.tAlert ++ be2 p.tFlood ++ be2 p.tExtreme ++ be2 p.hys ++ be2 p.fallDwell
    ++ [byte p.cadenceLength] ++ be2 p.lookahead
    ++ [byte p.trackingBand, byte p.trackingLimit, byte p.returnLimit, byte p.reportInterval]
    ++ be2 p.mask.toNat ++ [p.managerA, p.managerB]

/-- An entry of T1 to T10 as bytes. -/
def entryBytes (set : GovSet) (table entry : Nat) : List Byte :=
  match table with
  | 1 => ((set.t1.at? entry).map GateCfg.bytes).getD []
  | 2 => allocBytes set.t2
  | 3 => ((set.t3.at? entry).map RatingSet.bytes).getD []
  | 4 => set.t4.items.flatMap be2
  | 5 =>
    match entry with
    | 0 => set.plan.bytes
    | i + 1 => ((set.steps.at? i).map PlanStep.bytes).getD []
  | 6 => ((set.t6.at? entry).map Subscription.bytes).getD []
  | 7 => ((set.t7.at? entry).map SlotParams.bytes).getD []
  | 8 => set.t8.bytes
  | 9 => ((set.t9.at? entry).map OriginRecord.bytes).getD []
  | 10 => set.t10.bytes
  | _ => []

/-! ### Live entries as bytes (Table 10-11) -/

/-- A two-byte field that may be absent. -/
def opt2 : Option Nat → List Byte := presence be2 ∘ id

/-- T11. -/
def Slot.bytes (sl : Slot) : List Byte := be2 sl.value ++ [sl.quality.code] ++ be2 sl.age ++ opt2 sl.candidate

/-- T12 entries 0 to 31; the fields of an entry not in use read as 0 (log entry 9). -/
def reachEntryBytes : Option ReachEntry → List Byte
  | none => List.replicate 11 0
  | some e => [1, byte e.origin.val] ++ be2 e.seqNo.toNat ++ be3 e.release ++ be4 e.due

/-- T12 entries 32 to 35. -/
def OriginLive.bytes (o : OriginLive) : List Byte :=
  be3 o.arriving ++ opt2 (o.lastSeq.map (·.toNat)) ++ presence be4 o.latestDue

/-- T13 entries 0 to 15. -/
def Gate.bytes (r : Gate) : List Byte :=
  [r.state.code, r.state.reasonCode] ++ be2 r.target ++ opt2 r.commanded ++ be2 r.measured
    ++ [yesNo r.fresh, byte r.count]

/-- T13 entry 16. -/
def Results.bytes (r : Results) : List Byte :=
  be3 r.qT ++ be3 r.qTPrev ++ be3 r.frozen ++ be3 r.qA ++ be3 r.fixed ++ be3 r.qR ++ be3 r.qR2 ++ be3 r.remainder
    ++ r.allot.items.flatMap be2 ++ be3 r.qD ++ be3 r.shortfall ++ [r.cause.code] ++ be3 r.excess

/-- T13 entry 17. -/
def Timer.bytes (t : Timer) : List Byte :=
  [t.run.code, byte t.step] ++ be2 t.cadence ++ [gateCode t.gateOpen, yesNo t.startPending] ++ be4 t.schedule
    ++ [byte t.reportCount]

/-- T13 entry 18. -/
def ModeRecord.bytes (m : ModeRecord) : List Byte :=
  [m.stage.code] ++ presence be4 m.dwellStart ++ [m.requested.toMode.code, m.effective.code, yesNo m.duty]

/-- T13 entry 19. -/
def OrderUnit.bytes (o : OrderUnit) : List Byte :=
  o.lost.items.map byte ++ [byte o.queue.length]
    ++ (o.queue.map (fun (x : Order) => byte x.gate.val) ++ List.replicate 16 255).take 16

/-- T13 entry 20. -/
def managementBytes (m : Management) (r : Report) : List Byte :=
  be2 m.generation.toNat ++ [yesNo m.lock, yesNo m.switchPending]
    ++ (match m.openWrite with
        | none => [0, 0, 0, 0, 0]
        | some w => [1, w.node, w.table, w.first, byte w.next])
    ++ be2 r.flags.toNat ++ [yesNo r.allowance, yesNo r.waiting]

/-- An entry of T11 to T14 as bytes. -/
def liveBytes (s : State) (table entry : Nat) : List Byte :=
  match table with
  | 11 => ((s.meas.slots.at? entry).map Slot.bytes).getD []
  | 12 =>
    if entry < 32 then reachEntryBytes s.reach.queue[entry]?
    else ((s.reach.origins.at? (entry - 32)).map OriginLive.bytes).getD []
  | 13 =>
    if entry < 16 then ((s.gates.at? entry).map Gate.bytes).getD []
    else if entry = 16 then s.engine.results.bytes
    else if entry = 17 then s.timer.bytes
    else if entry = 18 then s.mode.bytes
    else if entry = 19 then s.orders.bytes
    else managementBytes s.mgmt s.report
  | 14 => ((s.report.counters.at? entry).map be2).getD []
  | _ => []

/-! ### Written entries (R166): read from bytes, none when a field is outside its range -/

/-- The value, when it lies in a range. -/
def inRange (lo hi n : Nat) : Option Nat := if lo ≤ n ∧ n ≤ hi then some n else none

/-- Reads two-byte numbers up to `hi`. -/
def readWords (hi : Nat) : List Byte → Option (List Nat)
  | [] => some []
  | [_] => none
  | a :: b :: rest => do
    let n ← inRange 0 hi (ofBytes [a, b])
    let ns ← readWords hi rest
    pure (n :: ns)

/-- Reads three-byte numbers up to `hi`. -/
def readTriples (hi : Nat) : List Byte → Option (List Nat)
  | [] => some []
  | [_] => none
  | [_, _] => none
  | a :: b :: c :: rest => do
    let n ← inRange 0 hi (ofBytes [a, b, c])
    let ns ← readTriples hi rest
    pure (n :: ns)

/-- A list as a table of its length. -/
def asTab (n : Nat) (l : List Nat) : Option (Tab Nat n) := if h : l.length = n then some ⟨l, h⟩ else none

/-- T1 (Table 1-1). -/
def readGateCfg : List Byte → Option GateCfg
  | [cls, node, slot, set, n1, n0, x1, x0, r1, r0, u1, u0] => do
    let cls ← readClass cls
    let slot ← readBelow 32 slot
    let set ← readBelow 8 set
    let lo ← inRange 0 1000 (ofBytes [n1, n0])
    let hi ← inRange 0 1000 (ofBytes [x1, x0])
    let rate ← inRange 1 1000 (ofBytes [r1, r0])
    let urgent ← inRange 1 1000 (ofBytes [u1, u0])
    pure
      { cls := cls, node := node, positionSlot := slot, ratingSet := set, minOpening := lo, maxOpening := hi, rate := rate,
        urgentRate := urgent }
  | _ => none

/-- T2: the pairs of the list (R161). -/
def readPairs : Nat → List Byte → Option (List AllocPair)
  | 0, _ => some []
  | n + 1, g :: t :: rest => do
    let gate ← readBelow 16 g
    let tier ← readBelow 8 t
    let ps ← readPairs n rest
    pure (⟨gate, tier⟩ :: ps)
  | _ + 1, _ => none

/-- T2. -/
def readAlloc : List Byte → Option (List AllocPair)
  | n :: rest => if n.toNat ≤ 16 then readPairs n.toNat rest else none
  | [] => none

/-- T3 (Table 2-1). -/
def readRatingSet (bs : List Byte) : Option RatingSet := do
  let q ← (readWords 65535 (bs.take 18)).bind (asTab 9)
  let f ← (readWords 8191 (bs.drop 18)).bind (asTab 8)
  pure { q := q, f := f }

/-- T4 (R23). -/
def readBandEnds (bs : List Byte) : Option (Tab Nat 8) := (readWords 65535 bs).bind (asTab 8)

/-- T5 entry 0 (Table 6-1). -/
def readPlanHeader : List Byte → Option PlanHeader
  | [n, k, ps, pc1, pc0, pm, pf, fo, o1, o0] => do
    let count ← inRange 0 48 n.toNat
    let kind ← readPlanKind k
    let pointStep ← inRange 0 47 ps.toNat
    let mode ← readPointMode pm
    let follow ← readYesNo pf
    let followed ← inRange 0 7 fo.toNat
    pure
      { count := count, kind := kind, pointStep := pointStep, pointCadence := ofBytes [pc1, pc0], pointMode := mode,
        phaseFollow := follow, followed := followed, phaseOffset := ofSigned2 o1 o0 }
  | _ => none

/-- T5 entries 1 to 48 (Table 6-2). -/
def readPlanStep : List Byte → Option PlanStep
  | [d1, d0, r2, r1, r0, sh] => do
    let release ← inRange 0 plantMax (ofBytes [r2, r1, r0])
    let shape ← readShape sh
    pure { duration := ofBytes [d1, d0], release := release, shape := shape }
  | _ => none

/-- T6 (R34): an entry not in use is not held to the ranges of its other fields (log entry 10). -/
def readSubscription : List Byte → Option Subscription
  | [u, src, ch, sl] => do
    let inUse ← readYesNo u
    if inUse ∧ ¬ (1 ≤ src.toNat ∧ src.toNat ≤ 254 ∧ ch.toNat ≤ 15 ∧ sl.toNat ≤ 31) then none
    else pure { inUse := inUse, source := src, channel := ch, slot := sl }
  | _ => none

/-- T7 (Table 3-2). -/
def readSlotParams : List Byte → Option SlotParams
  | [g1, g0, o1, o0, sl, j1, j0] => do
    let limit ← inRange 1 255 sl.toNat
    pure { gain := ofBytes [g1, g0], offset := ofSigned2 o1 o0, staleLimit := limit, jumpLimit := ofBytes [j1, j0] }
  | _ => none

/-- T8 (Table 3-6). -/
def readLevelRoles : List Byte → Option LevelRoles
  | [h1, h2, h3, t1, t2, li] => do
    let h1 ← readNoneOr 32 h1
    let h2 ← readNoneOr 32 h2
    let h3 ← readNoneOr 32 h3
    let t1 ← readNoneOr 32 t1
    let t2 ← readNoneOr 32 t2
    let li ← readNoneOr 32 li
    pure { hw1 := h1, hw2 := h2, hw3 := h3, tw1 := t1, tw2 := t2, inflow := li }
  | _ => none

/-- T9 (R80): a record not in use is not held to the ranges of its other fields (log entry 10). -/
def readOriginRecord : List Byte → Option OriginRecord
  | u :: st :: rest => do
    let inUse ← readYesNo u
    let bands ← (readTriples (if inUse then plantMax else 16777215) (rest.take 12)).bind (asTab 4)
    let times ← (readWords 65535 (rest.drop 12)).bind (asTab 4)
    if inUse ∧ ¬ st.toNat ≤ 7 then none
    else pure { inUse := inUse, station := st, bands := bands, times := times }
  | _ => none

/-- T10 (Tables 4-3, 7-1 and 10-2). -/
def readPlantParams : List Byte → Option PlantParams
  | hs1 :: hs0 :: kl1 :: kl0 :: qm2 :: qm1 :: qm0 :: rl2 :: rl1 :: rl0 :: to1 :: to0 :: cg :: co1 :: co0 ::
      [ta1, ta0, tf1, tf0, te1, te0, hy1, hy0, fd1, fd0, cl, lo1, lo0, tb, tl, rt, ri, cm1, cm0, ma, mb] => do
    let kl ← inRange 0 4095 (ofBytes [kl1, kl0])
    let qMinEnv ← inRange 0 plantMax (ofBytes [qm2, qm1, qm0])
    let rlim ← inRange 1 plantMax (ofBytes [rl2, rl1, rl0])
    let compGate ← readNoneOr 16 cg
    let compOpening ← inRange 0 1000 (ofBytes [co1, co0])
    let hys ← inRange 0 500 (ofBytes [hy1, hy0])
    let fallDwell ← inRange 0 3600 (ofBytes [fd1, fd0])
    let cadenceLength ← inRange 1 60 cl.toNat
    let lookahead ← inRange 0 3600 (ofBytes [lo1, lo0])
    let trackingBand ← inRange 5 200 tb.toNat
    let trackingLimit ← inRange 1 15 tl.toNat
    let returnLimit ← inRange 2 250 rt.toNat
    let reportInterval ← inRange 1 255 ri.toNat
    let _ ← inRange 0 254 ma.toNat
    let _ ← inRange 0 254 mb.toNat
    pure
      { hwSet := ofBytes [hs1, hs0], kl := kl, qMinEnv := qMinEnv, rlim := rlim, tolerance := ofBytes [to1, to0],
        compGate := compGate, compOpening := compOpening, tAlert := ofBytes [ta1, ta0], tFlood := ofBytes [tf1, tf0],
        tExtreme := ofBytes [te1, te0], hys := hys, fallDwell := fallDwell, cadenceLength := cadenceLength,
        lookahead := lookahead, trackingBand := trackingBand, trackingLimit := trackingLimit, returnLimit := returnLimit,
        reportInterval := reportInterval, mask := BitVec.ofNat 16 (ofBytes [cm1, cm0]), managerA := ma, managerB := mb }
  | _ => none

/-- R166: the set with one written entry in it; none when a field of the entry is outside its range. -/
def writeEntryIn (table entry : Nat) (bs : List Byte) (set : GovSet) : Option GovSet :=
  match table with
  | 1 => (readGateCfg bs).map fun c => { set with t1 := set.t1.put entry c }
  | 2 => (readAlloc bs).map fun l => { set with t2 := l }
  | 3 => (readRatingSet bs).map fun r => { set with t3 := set.t3.put entry r }
  | 4 => (readBandEnds bs).map fun e => { set with t4 := e }
  | 5 =>
    match entry with
    | 0 => (readPlanHeader bs).map fun h => { set with plan := h }
    | i + 1 => (readPlanStep bs).map fun p => { set with steps := set.steps.put i p }
  | 6 => (readSubscription bs).map fun u => { set with t6 := set.t6.put entry u }
  | 7 => (readSlotParams bs).map fun p => { set with t7 := set.t7.put entry p }
  | 8 => (readLevelRoles bs).map fun r => { set with t8 := r }
  | 9 => (readOriginRecord bs).map fun r => { set with t9 := set.t9.put entry r }
  | 10 => (readPlantParams bs).map fun p => { set with t10 := p }
  | _ => none

/-- R166, test 1: cuts data into consecutive whole entries from `first`, each with its number; none when the data does not end
on a whole entry or runs beyond the table. `fuel` bounds the number of entries. -/
def cutEntries (table : Nat) : Nat → Nat → List Byte → Option (List (Nat × List Byte))
  | 0, _, bs => if bs = [] then some [] else none
  | fuel + 1, first, bs =>
    if bs = [] then some []
    else if lastEntry table < first then none
    else
      let k := entrySize table first
      if bs.length < k then none
      else (cutEntries table fuel (first + 1) (bs.drop k)).map ((first, bs.take k) :: ·)

/-! ### Payloads of frames taken in (Table 8-3) -/

/-- A SAMPLE payload as its entries; bytes that make no whole entry are left out, and a lawful LEN leaves none. -/
def readSamples : List Byte → List SampleEntry
  | ch :: r1 :: r0 :: q :: rest => ⟨ch, r1 ++ r0, q⟩ :: readSamples rest
  | _ => []

/-- The payload of SAMPLE entries. -/
def sampleBytes (es : List SampleEntry) : List Byte :=
  es.flatMap fun e => e.channel :: be2 e.raw.toNat ++ [e.quality]

/-- A NOTICE payload. -/
def readNotice : List Byte → Option NoticeFields
  | [o, s1, s0, r2, r1, r0, a1, a0] => some ⟨o, s1 ++ s0, (r2 ++ r1) ++ r0, a1 ++ a0⟩
  | _ => none

/-- The payload of NOTICE fields. -/
def noticeBytes (n : NoticeFields) : List Byte :=
  n.origin :: be2 n.seqNo.toNat ++ be3 n.release.toNat ++ be2 n.age.toNat

/-- A PHASE payload. -/
def readPhase : List Byte → Option PhaseFields
  | [o, st, c1, c0] => some ⟨o, st, c1 ++ c0⟩
  | _ => none

/-- The payload of PHASE fields. -/
def phaseBytes (p : PhaseFields) : List Byte := p.origin :: p.step :: be2 p.cadence.toNat

/-- The payload of a returned ORDER's fields. -/
def orderBytes (o : OrderFields) : List Byte := o.gate :: be2 o.opening.toNat ++ [o.urgency, o.cadenceLength]

/-- The opening field of an ORDER payload (Table 8-3): its second and third bytes, when it has them. -/
def openingField : List Byte → Option Nat
  | _ :: hi :: lo :: _ => some (ofBytes [hi, lo])
  | _ => none

end Sys2Proof.Machine
end

