-- ==== Sys2Proof/Machine/Requests.lean ====
section
/-! DEFINITION. The Management Agent takes a request (R162) and reads entries (R164). -/

namespace Sys2Proof.Machine

/-- R162, test 1, passed: both manager addresses are 0, or the requesting node is one of the two. -/
def manages (p : PlantParams) (src : Byte) : Bool :=
  (p.managerA = 0 && p.managerB = 0) || src = p.managerA || src = p.managerB

/-- The status and data of a reply without data. -/
def bare (st : Status) : Reply := ⟨st, []⟩

/-- R162, R163: a request that needs `needed` response parts is dropped, answered BUSY, refused NOT_MANAGER (with the data that
every response to the request carries), or taken and answered. -/
def takeRequest (q : Requester) (needed : Nat) (notManager : List Byte) (act : State → Reply × State) (s : State) : State :=
  if s.feedRoom = 0 then bump .requestDrops s
  else if s.feedRoom < needed then respond q (bare .busy) s
  else if manages s.mgmt.active.t10 q.src then
    let r := act s
    respond q r.1 r.2
  else respond q ⟨.notManager, notManager⟩ s

/-- R162, test 3: a request that carries no operands acts only when it has none. -/
def withoutOperands (operands : List Byte) (act : State → Reply × State) (s : State) : Reply × State :=
  match operands with
  | [] => act s
  | _ :: _ => (bare .badValue, s)

/-! ### READ_ENTRY -/

/-- R164: a copy code and a table that may be paired. -/
def readPairing (copy : Byte) (table : Nat) : Bool :=
  ((copy = 0 || copy = 1) && 1 ≤ table && table ≤ 10) || (copy = 2 && 11 ≤ table && table ≤ 14)

/-- R164: an entry of a copy of a table, as it stands. -/
def copyEntry (s : State) (copy : Byte) (table entry : Nat) : List Byte :=
  if copy = 0 then entryBytes s.mgmt.active table entry
  else if copy = 1 then entryBytes s.mgmt.shadow table entry
  else liveBytes s table entry

/-- R164: the room for entries in eight parts after the read header. -/
def readRoom : Nat := 8 * 57 - 4

/-- R164: how many of the next `count` entries from `first` fit whole in `room` bytes. -/
def wholeEntries (table : Nat) : Nat → Nat → Nat → Nat
  | 0, _, _ => 0
  | count + 1, first, room =>
    if entrySize table first ≤ room then 1 + wholeEntries table count (first + 1) (room - entrySize table first) else 0

/-- R164: the count returned. -/
def countReturned (table first count : Nat) : Nat :=
  wholeEntries table (min count (lastEntry table + 1 - first)) first readRoom

/-- R164: READ_ENTRY of entries that are there. -/
def readData (s : State) (copy : Byte) (table first count : Nat) : List Byte :=
  let n := countReturned table first count
  [copy, byte table, byte first, byte n] ++ (List.range n).flatMap fun i => copyEntry s copy table (first + i)

/-- R164: the reply to a READ_ENTRY, from its operand bytes. DESIGN CHOICE (log entry 39): R164 gives its refusals no order, and R162 could
refuse a count of 0 before them; the pairing is tested first, then the first entry, and the count last. -/
def readReply (operands : List Byte) (s : State) : Reply :=
  match operands with
  | [copy, table, first, count] =>
    if ¬ readPairing copy table.toNat then bare .badTable
    else if lastEntry table.toNat < first.toNat then bare .badIndex
    else if count = 0 then bare .badValue
    else ⟨.ok, readData s copy table.toNat first.toNat count.toNat⟩
  | _ => bare .badValue

/-- R162: the response parts that a READ_ENTRY of this node needs. -/
def readParts (src : Byte) (operands : List Byte) (s : State) : Nat :=
  if manages s.mgmt.active.t10 src then (responseParts (readReply operands s).data).length else 1

/-- READ_ENTRY (R164). -/
def takeRead (q : Requester) (operands : List Byte) (s : State) : State :=
  takeRequest q (readParts q.src operands s) [] (fun s => (readReply operands s, s)) s

end Sys2Proof.Machine
end

