-- ==== Sys2Proof/Machine/Writing.lean ====
section
/-! DEFINITION. The Management Agent writes and compares the two copies: WRITE_ENTRY (R165, R166), COMMIT (R167), CANCEL
(R169), LOCK (R170) and COMPARE (R171). -/

namespace Sys2Proof.Machine

/-! ### Writes -/

/-- R170: the limit fields of a T1 entry. -/
def GateCfg.limits (c : GateCfg) : List Nat := [c.minOpening, c.maxOpening, c.rate, c.urgentRate]

/-- R170: the limit fields of T10. -/
def PlantParams.limits (p : PlantParams) : List Nat := [p.tAlert, p.tFlood, p.tExtreme, p.qMinEnv, p.rlim]

/-- R170: the limit fields of a set. -/
def GovSet.limits (set : GovSet) : List Nat := set.t1.items.flatMap GateCfg.limits ++ set.t10.limits

/-- R166, test 3: an entry would change the value of a limit field in a set. -/
def changesLimits (table : Nat) (set : GovSet) (e : Nat × List Byte) : Bool :=
  match writeEntryIn table e.1 e.2 set with
  | some new => new.limits ≠ set.limits
  | none => false

/-- R166: the entries that collected data carries, each with its number; none when the data does not end on a whole entry, or an
entry number lies beyond the last entry of the table. DEDUCED (log entries 25 and 37): data of no bytes carries no entry, and is none
all the same when the first entry lies beyond the table, for a write (R166) and for COMPARE (R171) alike. -/
def entriesOf (table first : Nat) (data : List Byte) : Option (List (Nat × List Byte)) :=
  if lastEntry table < first then none else cutEntries table 50 first data

/-- R166: writes entries one after another. -/
def writeAll (table : Nat) (es : List (Nat × List Byte)) (set : GovSet) : GovSet :=
  es.foldl (fun set e => (writeEntryIn table e.1 e.2 set).getD set) set

/-- R166: what the LAST segment does to the shadow: the tests in their order, then the write. -/
def applyWrite (table first : Nat) (data : List Byte) (lock : Bool) (shadow : GovSet) : Except Reply GovSet :=
  match entriesOf table first data with
  | none => .error (bare .badIndex)
  | some es =>
    match es.find? fun e => (writeEntryIn table e.1 e.2 shadow).isNone with
    | some e => .error ⟨.badValue, [byte e.1]⟩
    | none =>
      match es.find? fun e => lock && changesLimits table shadow e with
      | some e => .error ⟨.locked, [byte e.1]⟩
      | none => .ok (writeAll table es shadow)

/-- Replaces the open segmented write. -/
def setOpenWrite (w : Option OpenWrite) (s : State) : State := { s with mgmt := { s.mgmt with openWrite := w } }

/-- Replaces the shadow. -/
def setShadow (set : GovSet) (s : State) : State := { s with mgmt := { s.mgmt with shadow := set } }

/-- R165, R166: a segment that is in place: its data is held, and at LAST tested and applied. The write is closed at LAST. -/
def holdSegment (w : OpenWrite) (isLast : Bool) (s : State) : Reply × State :=
  if isLast then
    match applyWrite w.table.toNat w.first.toNat w.data s.mgmt.lock s.mgmt.shadow with
    | .error r => (r, setOpenWrite none s)
    | .ok set => (⟨.ok, [byte w.next]⟩, setOpenWrite none (setShadow set s))
  else (⟨.ok, [byte w.next]⟩, setOpenWrite (some w) s)

/-- R165: a segment with no write open. -/
def firstSegment (src table first : Byte) (segment : Nat) (isLast : Bool) (data : List Byte) (s : State) :
    Reply × State :=
  if segment = 15 ∧ ¬ isLast then (bare .badValue, s)
  else if segment = 0 then holdSegment { node := src, table := table, first := first, next := 1, data := data } isLast s
  else (bare .segmentGap, s)

/-- R165: a segment from the node that opened the write. -/
def nextSegment (w : OpenWrite) (table first : Byte) (segment : Nat) (isLast : Bool) (data : List Byte) (s : State) :
    Reply × State :=
  if segment = 15 ∧ ¬ isLast then (bare .badValue, setOpenWrite none s)
  else if segment = w.next ∧ table = w.table ∧ first = w.first then
    holdSegment { w with next := w.next + 1, data := w.data ++ data } isLast s
  else (bare .segmentGap, setOpenWrite none s)

/-- R165: a segment, by the first row of the table that applies. -/
def takeSegment (src table first : Byte) (segment : Nat) (isLast : Bool) (data : List Byte) (s : State) : Reply × State :=
  if s.mgmt.switchPending then (bare .busy, s)
  else if table = 0 ∨ 10 < table.toNat then (bare .badTable, s)
  else
    match s.mgmt.openWrite with
    | none => firstSegment src table first segment isLast data s
    | some w =>
      if src = w.node then nextSegment w table first segment isLast data s else (bare .busy, s)

/-- R165: WRITE_ENTRY, from its operand bytes. The segment byte holds the segment number in its low four bits and LAST in its most
significant bit; its other bits are 0 (Table 10-12). -/
def writeRequest (src : Byte) (operands : List Byte) (s : State) : Reply × State :=
  match operands with
  | table :: first :: seg :: data =>
    if seg &&& 0x70 ≠ 0 then (bare .badValue, s)
    else takeSegment src table first (seg.toNat % 16) seg.msb data s
  | _ => (bare .badValue, s)

/-! ### The commit checks (Table 10-5) -/

/-- Every number is below (or, with `strict` false, not above) the one after it. -/
def ascending (strict : Bool) : List Nat → Bool
  | [] => true
  | [_] => true
  | a :: b :: rest => (if strict then a < b else a ≤ b) && ascending strict (b :: rest)

/-- No item stands twice in a list. -/
def distinct {α : Type} [DecidableEq α] : List α → Bool
  | [] => true
  | x :: rest => !rest.elem x && distinct rest

/-- Check 1 (R24): every rating set's references are non-decreasing. -/
def check1 (set : GovSet) : Bool := set.t3.items.all fun r => ascending false r.q.items

/-- Check 2 (R24): every head factor is 1..8,191. -/
def check2 (set : GovSet) : Bool := set.t3.items.all fun r => r.f.items.all fun f => 1 ≤ f && f ≤ 8191

/-- Check 3 (R24): the band ends are strictly ascending. -/
def check3 (set : GovSet) : Bool := ascending true set.t4.items

/-- Check 4 (R1): min ≤ max and urgent rate ≥ rate, for every gate. -/
def check4 (set : GovSet) : Bool := set.t1.items.all fun c => c.minOpening ≤ c.maxOpening && c.rate ≤ c.urgentRate

/-- Check 5 (R161): the gates of the allocation order list are present in T1 and not repeated. -/
def check5 (set : GovSet) : Bool :=
  (set.t2.all fun p => (set.t1.get p.gate).cls ≠ .absent) && distinct (set.t2.map (·.gate))

/-- The actuator nodes of the present gates. -/
def presentNodes (set : GovSet) : List Byte := (set.t1.items.filter fun c => c.cls ≠ .absent).map (·.node)

/-- Check 6 (R1): the actuator nodes of the present gates are 1..254, unique, and not the part's own node address. -/
def check6 (nodeAddr : Byte) (set : GovSet) : Bool :=
  ((presentNodes set).all fun n => n ≠ 0 && n ≠ 255 && n ≠ nodeAddr) && distinct (presentNodes set)

/-- Check 7 (R100): steps 0 to count − 1 have durations of at least 1. -/
def check7 (set : GovSet) : Bool := (set.steps.items.take set.plan.count).all fun p => 1 ≤ p.duration

/-- Check 8 (R118): T_ALERT < T_FLOOD < T_EXTREME. -/
def check8 (set : GovSet) : Bool := set.t10.tAlert < set.t10.tFlood && set.t10.tFlood < set.t10.tExtreme

/-- Check 9 (R118): the compensation gate is none, BYPASS or SPILL. -/
def check9 (set : GovSet) : Bool :=
  match set.t10.compGate with
  | none => true
  | some g => (set.t1.get g).cls = .bypass || (set.t1.get g).cls = .spill

/-- The subscriptions in use. -/
def inUseSubscriptions (set : GovSet) : List Subscription := set.t6.items.filter (·.inUse)

/-- Check 10 (R34): the subscriptions in use have unique pairs and unique slots. -/
def check10 (set : GovSet) : Bool :=
  distinct ((inUseSubscriptions set).map fun u => (u.source, u.channel))
    && distinct ((inUseSubscriptions set).map fun u => u.slot)

/-- Check 11 (R45): every role that names a slot names one that a subscription in use feeds. -/
def check11 (set : GovSet) : Bool :=
  ([set.t8.hw1, set.t8.hw2, set.t8.hw3, set.t8.tw1, set.t8.tw2, set.t8.inflow].filterMap id).all fun n =>
    (inUseSubscriptions set).any fun u => u.slot.toNat = n.val

/-- Check 12 (R81): the records in use have strictly ascending band ends and distinct stations, none the part's own. -/
def check12 (station : BitVec 3) (set : GovSet) : Bool :=
  let used := set.t9.items.filter (·.inUse)
  (used.all fun r => ascending true r.bands.items && r.station.toNat ≠ station.toNat) && distinct (used.map (·.station))

/-- The commit checks in their numbered order (Table 10-5). -/
def commitChecks (nodeAddr : Byte) (station : BitVec 3) (set : GovSet) : List Bool :=
  [check1 set, check2 set, check3 set, check4 set, check5 set, check6 nodeAddr set, check7 set, check8 set, check9 set,
    check10 set, check11 set, check12 station set]

/-- R167: the set passes every commit check. -/
def passesChecks (nodeAddr : Byte) (station : BitVec 3) (set : GovSet) : Bool :=
  (commitChecks nodeAddr station set).all id

/-- R167: the number of the first failing check. -/
def firstFailing (nodeAddr : Byte) (station : BitVec 3) (set : GovSet) : Nat :=
  (commitChecks nodeAddr station set).idxOf false + 1

/-- R167: COMMIT. -/
def commitRequest (s : State) : Reply × State :=
  if s.mgmt.openWrite.isSome ∨ s.mgmt.switchPending then (bare .busy, s)
  else if passesChecks s.ring.nodeAddr s.ring.station s.mgmt.shadow then
    (⟨.ok, be2 s.mgmt.generation.toNat⟩, { s with mgmt := { s.mgmt with switchPending := true } })
  else (⟨.invalidSet, [byte (firstFailing s.ring.nodeAddr s.ring.station s.mgmt.shadow)]⟩, s)

/-- R169: CANCEL. -/
def cancelRequest (s : State) : Reply × State :=
  (⟨.ok, [byte ((if s.mgmt.openWrite.isSome then 1 else 0) + (if s.mgmt.switchPending then 2 else 0))]⟩,
    { s with mgmt := { s.mgmt with openWrite := none, switchPending := false, shadow := s.mgmt.active } })

/-- R170: LOCK. -/
def lockRequest (s : State) : Reply × State :=
  if s.mgmt.openWrite.isSome ∨ s.mgmt.switchPending then (bare .busy, s)
  else if s.mgmt.shadow.limits ≠ s.mgmt.active.limits then (bare .wrongState, s)
  else (bare .ok, { s with mgmt := { s.mgmt with lock := true } })

/-! ### COMPARE (R171) -/

/-- The entries of a table in which two sets differ, in entry order. -/
def differing (a b : GovSet) (table : Nat) : List Nat :=
  (List.range (lastEntry table + 1)).filter fun e => entryBytes a table e ≠ entryBytes b table e

/-- The tables that form COPIES goes over: one, or with table 0 all ten. -/
def comparedTables (table : Nat) : List Nat := if table = 0 then [1, 2, 3, 4, 5, 6, 7, 8, 9, 10] else [table]

/-- The pairs of table and entry that form COPIES lists. -/
def differingPairs (a b : GovSet) (table : Nat) : List (Nat × Nat) :=
  (comparedTables table).flatMap fun t => (differing a b t).map fun e => (t, e)

/-- COMPARE in form COPIES, from the operand bytes after the form byte. -/
def compareCopiesReply (operands : List Byte) (s : State) : Reply :=
  match operands with
  | [table] =>
    if 10 < table.toNat then bare .badTable
    else
      let ps := differingPairs s.mgmt.active s.mgmt.shadow table.toNat
      ⟨.ok, [byte ps.length, yesNo (27 < ps.length)] ++ (ps.take 27).flatMap fun p => [byte p.1, byte p.2]⟩
  | _ => bare .badValue

/-- The value of a supplied entry differs from the one in a set. -/
def differsFrom (table : Nat) (set : GovSet) (e : Nat × List Byte) : Bool :=
  match writeEntryIn table e.1 e.2 set with
  | some new => entryBytes new table e.1 ≠ entryBytes set table e.1
  | none => true

/-- COMPARE in form DATA against a set. -/
def compareDataWith (set : GovSet) (table first : Nat) (data : List Byte) : Reply :=
  match entriesOf table first data with
  | none => bare .badIndex
  | some es =>
    let ds := es.filter (differsFrom table set)
    ⟨.ok, [byte ds.length, yesNo (54 < ds.length)] ++ (ds.take 54).map fun e => byte e.1⟩

/-- COMPARE in form DATA, from the operand bytes after the form byte. That the live copy is refused before the first entry is tested is
log entry 39 (DESIGN CHOICE). -/
def compareDataReply (operands : List Byte) (s : State) : Reply :=
  match operands with
  | table :: copy :: first :: data =>
    if 2 < copy.toNat then bare .badValue
    else if copy = 2 ∨ table = 0 ∨ 10 < table.toNat then bare .badTable
    else compareDataWith (if copy = 0 then s.mgmt.active else s.mgmt.shadow) table.toNat first.toNat data
  | _ => bare .badValue

end Sys2Proof.Machine
end

