-- ==== Sys2Proof/Machine/Control.lean ====
section
/-! DEFINITION. The other requests: GATE_CONTROL by its action byte (R12), CLEAR_CONDITIONS (R174), CLEAR_COUNTERS (R173), RESTART
(R172), and a request told apart by its code (Table 10-3). -/

namespace Sys2Proof.Machine

/-! ### GATE_CONTROL -/

/-- R12: a GATE_CONTROL action, from the gate byte and the bytes after the action byte. -/
def controlGate (act : GateNo → State → Reply × State) (gate : Byte) (extra : List Byte) (s : State) : Reply × State :=
  match extra with
  | [] =>
    match readBelow 16 gate with
    | none => (bare .badIndex, s)
    | some g => onPresentGate act g s
  | _ :: _ => (bare .badValue, s)

/-- The actions of GATE_CONTROL by their codes (Table 10-10). -/
def gateAction (action : Byte) : Option (GateNo → State → Reply × State) :=
  if action = 0 then some enableGate else if action = 1 then some disableGate else if action = 2 then some holdGate
  else if action = 3 then some releaseGate else if action = 4 then some clearFaultGate else none

/-- GATE_CONTROL, from its operand bytes. -/
def controlRequest (operands : List Byte) (s : State) : Reply × State :=
  match operands with
  | gate :: action :: extra =>
    match gateAction action with
    | some act => controlGate act gate extra s
    | none => if extra = [] ∧ 16 ≤ gate.toNat then (bare .badIndex, s) else (bare .badValue, s)
  | _ => (bare .badValue, s)

/-! ### COMPARE by its form byte -/

/-- COMPARE, from its operand bytes. -/
def compareReply (operands : List Byte) (s : State) : Reply :=
  match operands with
  | form :: rest =>
    if form = 0 then compareCopiesReply rest s else if form = 1 then compareDataReply rest s else bare .badValue
  | [] => bare .badValue

/-! ### Flags and counters -/

/-- R174: clears the flags named. -/
def clearFlags (named : BitVec 16) (s : State) : State :=
  { s with report := { s.report with flags := s.report.flags &&& ~~~ named } }

/-- R174: CLEAR_CONDITIONS, from its operand bytes. -/
def clearRequest (operands : List Byte) (s : State) : Reply × State :=
  match operands with
  | [hi, lo] =>
    let s1 := clearFlags (hi ++ lo) s
    (⟨.ok, be2 s1.report.flags.toNat⟩, s1)
  | _ => (bare .badValue, s)

/-- R173: CLEAR_COUNTERS. -/
def clearCountersRequest (s : State) : Reply × State :=
  (bare .ok, { s with report := { s.report with counters := Tab.const 22 0 } })

/-! ### RESTART -/

/-- R172: the RESTART values of every block, before RESTARTED is raised. The SSC, the straps, RO, the relay buffer, the
response/report queue, the sequence counter, the millisecond count, the counters and the requested mode are kept. -/
def restartState (s : State) : State :=
  { s with
    ring := { s.ring with inFlight := [] }
    orders := { queue := [], lost := Tab.const 16 0 }
    mgmt := { s.mgmt with shadow := s.mgmt.active, switchPending := false, openWrite := none }
    gates := Tab.ofFn fun g => (s.gate g).restarted (s.gateCfg g)
    meas := s.meas.restarted
    engine := { results := resetResults, computation := none }
    reach := { origins := Tab.const 4 clearedOrigin, queue := [] }
    timer := restartedTimer s.mgmt.active s.clock.ssc
    mode := { stage := .normal, dwellStart := none, requested := s.mode.requested, effective := .initial, duty := false }
    report := { s.report with flags := 0, allowance := true, waiting := false } }

/-- R172: RESTART. -/
def restartRequest (s : State) : Reply × State :=
  let s1 := raise .restarted (restartState s)
  (⟨.ok, be2 s1.mgmt.generation.toNat⟩, s1)

/-! ### Requests by their code -/

/-- The codes of Table 10-3. -/
inductive Request where
  | readEntry
  | writeEntry
  | commit
  | cancel
  | compare
  | lock
  | gateControl
  | modeRequest
  | planRun
  | planStop
  | planGate
  | clearConditions
  | clearCounters
  | restart
  deriving DecidableEq, Repr

/-- Reads a request code (Table 10-3). -/
def readRequestCode (code : Byte) : Option Request :=
  [(1, Request.readEntry), (2, .writeEntry), (3, .commit), (4, .cancel), (5, .compare), (6, .lock), (7, .gateControl),
    (8, .modeRequest), (9, .planRun), (10, .planStop), (11, .planGate), (12, .clearConditions), (13, .clearCounters),
    (14, .restart)].lookup code

/-- R162: the Management Agent takes the request that a code and operand bytes give; a code not in Table 10-3 is refused
BAD_VALUE. -/
def takeCoded (q : Requester) (code : Byte) (operands : List Byte) (s : State) : State :=
  match readRequestCode code with
  | none => takeRequest q 1 [] (fun s => (bare .badValue, s)) s
  | some .readEntry => takeRead q operands s
  | some .writeEntry => takeRequest q 1 [] (writeRequest q.src operands) s
  | some .commit => takeRequest q 1 [] (withoutOperands operands commitRequest) s
  | some .cancel => takeRequest q 1 [] (withoutOperands operands cancelRequest) s
  | some .compare => takeRequest q 1 [] (fun s => (compareReply operands s, s)) s
  | some .lock => takeRequest q 1 [] (withoutOperands operands lockRequest) s
  | some .gateControl => takeRequest q 1 [] (controlRequest operands) s
  | some .modeRequest => takeRequest q 1 (modeData s) (requestMode operands) s
  | some .planRun => takeRequest q 1 [] (runPlan operands) s
  | some .planStop => takeRequest q 1 [] (stopPlan operands) s
  | some .planGate => takeRequest q 1 [] (setOutputGate operands) s
  | some .clearConditions => takeRequest q 1 [] (clearRequest operands) s
  | some .clearCounters => takeRequest q 1 [] (withoutOperands operands clearCountersRequest) s
  | some .restart => takeRequest q 1 [] (withoutOperands operands restartRequest) s

end Sys2Proof.Machine
end

