-- ==== Sys2Proof/Machine/RingPort.lean ====
section
/-! DEFINITION. The Ring Port receives a frame (R136 to R140, R143): the check, the class, the length test, the match against the
in-flight list, and the relay decision. -/

namespace Sys2Proof.Machine

/-- The longest lawful payload (R136). -/
def payloadMax : Nat := 60

/-- R137: kinds that are copied in. -/
def copiesKind (kind : Byte) : Bool := kind = kindSample || kind = kindNotice || kind = kindPhase

/-- R137: kinds that the part takes when they are addressed to it. -/
def takesKind (kind : Byte) : Bool := copiesKind kind || kind = kindRequest

/-- R138: a payload length is lawful for its kind; other kinds are not tested. -/
def lawfulLen (kind : Byte) (len : Nat) : Bool :=
  if kind = kindSample then len % 4 = 0 && 4 ≤ len && len ≤ 48
  else if kind = kindNotice then len = 8
  else if kind = kindPhase then len = 4
  else if kind = kindRequest then 2 ≤ len && len ≤ 60
  else true

/-- R143: a returned frame matches an in-flight entry. -/
def InFlight.matches (f : Frame) (e : InFlight) : Bool := e.kind.code = f.kind && e.seq = f.seq

/-- R143: what a matched return hands on. -/
def handReturn (f : Frame) (e : InFlight) (s : State) : State :=
  match e.kind, e.gate with
  | .order, some g => applyResult g f.result (openingField f.payload) s
  | .order, none => s
  | .response, _ => s
  | .report, _ => s

/-- R143: a STRIP frame. -/
def stripFrame (f : Frame) (s : State) : State :=
  match s.ring.inFlight.find? (InFlight.matches f) with
  | some e => handReturn f e { s with ring := { s.ring with inFlight := s.ring.inFlight.eraseP (InFlight.matches f) } }
  | none => bump .stray s

/-- R139, R140: the relay of a frame. -/
def relayFrame (f : Frame) (s : State) : State :=
  if f.hops.toNat + 1 < 63 then
    if s.ring.relay.length < relayCapacity then
      { s with
        ring := { s.ring with relay := s.ring.relay ++ [{ f with hops := f.hops + 1 }] }
        marks := { s.marks with placed := true } }
    else raise .relayOverflow (bump .relayOverflow s)
  else bump .hopDrops s

/-- R138: a frame to be taken in is taken when its length is lawful for its kind, and is malformed otherwise. -/
def takeLawful (f : Frame) (takeIn : State → State) (s : State) : State :=
  if lawfulLen f.kind f.payload.length then takeIn s else bump .malformed s

/-- R137: a CONSUME frame. -/
def consumeFrame (f : Frame) (takeIn : State → State) (s : State) : State :=
  if takesKind f.kind then takeLawful f takeIn s else bump .unexpectedKind s

/-- R137: the copying in of a COPY-AND-RELAY or RELAY frame. -/
def copyIn (f : Frame) (takeIn : State → State) (s : State) : State :=
  if copiesKind f.kind then takeLawful f takeIn s else s

/-- R136 to R140: the arrival of a frame with a good CHECK, `takeIn` being what the block that follows its kind does with it. -/
def receiveWith (f : Frame) (takeIn : State → State) (s : State) : State :=
  if payloadMax < f.payload.length then bump .checkErrors s
  else if f.src = s.ring.nodeAddr then stripFrame f s
  else if f.dest = s.ring.nodeAddr then consumeFrame f takeIn s
  else relayFrame f (copyIn f takeIn s)

/-- R137: hands a frame of lawful length to the block that follows its kind. -/
def takeFrame (f : Frame) (s : State) : State :=
  if f.kind = kindSample then takeSample f.src (readSamples f.payload) s
  else if f.kind = kindNotice then
    match readNotice f.payload with
    | some n => takeNotice n s
    | none => s
  else if f.kind = kindPhase then
    match readPhase f.payload with
    | some p => takePhase p s
    | none => s
  else
    match f.payload with
    | code :: tag :: operands => takeCoded ⟨f.src, tag⟩ code operands s
    | _ => s

/-- R136 to R140: the arrival of any frame with a good CHECK. -/
def receive (f : Frame) (s : State) : State := receiveWith f (takeFrame f) s

/-- R136: the arrival of a frame whose CHECK field is `check`. -/
def receiveChecked (f : Frame) (check : BitVec 16) (s : State) : State :=
  if check = frameCheck f then receive f s else bump .checkErrors s

/-- The frame of a header, kind and payload. -/
def frameOf (h : Header) (kind : Byte) (payload : List Byte) : Frame :=
  { dest := h.dest, src := h.src, kind := kind, seq := h.seq, payload := payload, result := h.result, hops := h.hops }

/-- The arrival of a REQUEST addressed to the part with `len` operand bytes: one from the part's own address is stripped, and
matches no in-flight entry (R137, R143). -/
def receiveRequest (q : Requester) (len : Nat) (take : State → State) (s : State) : State :=
  if payloadMax < len + 2 then bump .checkErrors s
  else if q.src = s.ring.nodeAddr then bump .stray s
  else take s

end Sys2Proof.Machine
end

