-- ==== Sys2Proof/Machine/Arrivals.lean ====
section
/-! DEFINITION. The meanings of the commands that are the arrival of a frame at RI (R136 to R143). -/

namespace Sys2Proof.Machine

/-- SAMPLE_ARRIVAL (R37). -/
def execSampleArrival (h : Header) (entries : List SampleEntry) (s : State) : Host.Outcome State Fault Refusal :=
  .next (takeRingEvent (receiveWith (frameOf h kindSample (sampleBytes entries)) (takeSample h.src entries)) s)

/-- NOTICE_ARRIVAL (R84). -/
def execNoticeArrival (h : Header) (n : NoticeFields) (s : State) : Host.Outcome State Fault Refusal :=
  .next (takeRingEvent (receiveWith (frameOf h kindNotice (noticeBytes n)) (takeNotice n)) s)

/-- PHASE_ARRIVAL (R111). -/
def execPhaseArrival (h : Header) (p : PhaseFields) (s : State) : Host.Outcome State Fault Refusal :=
  .next (takeRingEvent (receiveWith (frameOf h kindPhase (phaseBytes p)) (takePhase p)) s)

/-- ORDER_RETURN (R154). -/
def execOrderReturn (h : Header) (o : OrderFields) (s : State) : Host.Outcome State Fault Refusal :=
  .next (takeRingEvent (receive (frameOf h kindOrder (orderBytes o))) s)

/-- OWN_FRAME_RETURN (R143). -/
def execOwnFrameReturn (h : Header) (kind : Byte) (payload : List Byte) (s : State) :
    Host.Outcome State Fault Refusal :=
  .next (takeRingEvent (receive (frameOf h kind payload)) s)

/-- FRAME_RELAY (R139). -/
def execFrameRelay (h : Header) (kind : Byte) (payload : List Byte) (s : State) : Host.Outcome State Fault Refusal :=
  .next (takeRingEvent (receive (frameOf h kind payload)) s)

/-- CHECK_ERROR_FRAME (R136). -/
def execCheckErrorFrame (h : Header) (kind : Byte) (payload : List Byte) (check : BitVec 16) (s : State) :
    Host.Outcome State Fault Refusal :=
  .next (takeRingEvent (receiveChecked (frameOf h kind payload) check) s)

/-- UNEXPECTED_KIND_FRAME (R137). -/
def execUnexpectedKindFrame (h : Header) (kind : Byte) (payload : List Byte) (s : State) :
    Host.Outcome State Fault Refusal :=
  .next (takeRingEvent (receive (frameOf h kind payload)) s)

/-- MALFORMED_FRAME (R138). -/
def execMalformedFrame (h : Header) (kind : Byte) (payload : List Byte) (s : State) :
    Host.Outcome State Fault Refusal :=
  .next (takeRingEvent (receive (frameOf h kind payload)) s)

end Sys2Proof.Machine
end

