-- ==== Sys2Proof/Machine/Rating.lean ====
section
/-! DEFINITION. The Rating Store: band selection (R26), the forward rating (R28) and the inverse rating (R30). -/

namespace Sys2Proof.Machine

/-- The first band, counting up from `b`, whose end is at or above the head; 7 when none is (R26). -/
def bandFrom (ends : List Nat) (head b : Nat) : Nat :=
  match ends with
  | [] => 7
  | e :: rest => if head ≤ e then b else bandFrom rest head (b + 1)

/-- R26: the band of a head. -/
def bandOf (ends : Tab Nat 8) (head : Nat) : BandNo := Fin.ofNat 8 (bandFrom ends.items head 0)

/-- R27: the head lies above the last band end. -/
def headOverRange (ends : Tab Nat 8) (head : Nat) : Bool := ends.get 7 < head

/-- R28, steps 1 to 3: the reference discharge at an opening. -/
def referenceAt (r : RatingSet) (o : Nat) : Nat :=
  let k := min (o / 125) 7
  let q0 := r.q.get (Fin.ofNat 9 k)
  let q1 := r.q.get (Fin.ofNat 9 (k + 1))
  q0 + (q1 - q0) * (o - 125 * k) / 125

/-- R28: the forward rating Qf(o, s, b). -/
def forwardRating (r : RatingSet) (b : BandNo) (o : Nat) : Nat :=
  min (referenceAt r o * r.f.get b / 4096) wordMax

/-- The quotient rounded up (Introduction, NUMBERS AND ARITHMETIC). -/
def divCeil (a b : Nat) : Nat := (a + b - 1) / b

/-- R30, steps 3 to 5, from segment `k` on: the references from Q[k] upward are `q0 :: qs`. -/
def inverseFrom (need : Nat) (q0 : Nat) (qs : List Nat) (k : Nat) : Nat :=
  match qs with
  | [] => fullStroke
  | q1 :: rest =>
    if need ≤ q1 then
      if need ≤ q0 then 125 * k else 125 * k + divCeil (125 * (need - q0)) (q1 - q0)
    else inverseFrom need q1 rest (k + 1)

/-- R30, step 1: the reference need. -/
def referenceNeed (r : RatingSet) (b : BandNo) (q : Nat) : Nat := divCeil (q * 4096) (r.f.get b)

/-- R30: the inverse rating Qi(q, s, b), 1,000 per mille when it is capped (R32). -/
def inverseRating (r : RatingSet) (b : BandNo) (q : Nat) : Nat :=
  let need := referenceNeed r b q
  if r.q.get 8 < need then fullStroke else inverseFrom need (r.q.get 0) (r.q.items.drop 1) 0

end Sys2Proof.Machine
end

