-- ==== Sys2Proof/Machine/Release.lean ====
section
/-! DEFINITION. The release computation (chapter 4) as pure functions of a snapshot: the nine computation stages of SCHEDULE and
PASS_THROUGH, and the shorter runs of HOLD and SURCHARGE. -/

namespace Sys2Proof.Machine

/-- The gate's configuration in the snapshot. -/
def Snapshot.cfg (sn : Snapshot) (g : GateNo) : GateCfg := sn.govSet.t1.get g

/-- The gate's live record in the snapshot. -/
def Snapshot.gate (sn : Snapshot) (g : GateNo) : Gate := sn.gates.get g

/-- The gate is ACTIVE in the snapshot. -/
def Snapshot.active (sn : Snapshot) (g : GateNo) : Bool := (sn.gate g).state = .active

/-- R61: computation stage 1, the head band. -/
def Snapshot.band (sn : Snapshot) : BandNo := bandOf sn.govSet.t4 sn.head.value

/-- R27: the head of the snapshot lies above the last band end. -/
def Snapshot.overRange (sn : Snapshot) : Bool := headOverRange sn.govSet.t4 sn.head.value

/-- The rating set that the gate's T1 entry names (R33). -/
def Snapshot.rating (sn : Snapshot) (g : GateNo) : RatingSet := sn.govSet.t3.get (sn.cfg g).ratingSet

/-- The forward rating of a gate at an opening, at the band of the computation (R33). -/
def Snapshot.qf (sn : Snapshot) (g : GateNo) (o : Nat) : Nat := forwardRating (sn.rating g) sn.band o

/-- The inverse rating of a gate, at the band of the computation (R33). -/
def Snapshot.qi (sn : Snapshot) (g : GateNo) (q : Nat) : Nat := inverseRating (sn.rating g) sn.band q

/-- A sum over the sixteen gates. -/
def sumGates (f : GateNo → Nat) : Nat := ((List.finRange 16).map f).sum

/-- R20: the effective opening of a gate in the snapshot. -/
def Snapshot.effective (sn : Snapshot) (g : GateNo) : Nat :=
  effectiveOpening (sn.gate g).measured (sn.gate g).fresh (sn.gate g).commanded

/-- R68: the gate stands in the fixed contribution, present and not ACTIVE. -/
def Snapshot.isFixed (sn : Snapshot) (g : GateNo) : Bool := (sn.gate g).state ≠ .absent ∧ (sn.gate g).state ≠ .active

/-- R68: the fixed contribution. -/
def Snapshot.fixedSum (sn : Snapshot) : Nat := sumGates fun g => if sn.isFixed g then sn.qf g (sn.effective g) else 0

/-- R62: SCHEDULE takes its target from the plan release. -/
def Snapshot.planInForce (sn : Snapshot) : Bool := sn.run ≠ .stopped && sn.gateOpen && sn.planRelease.isSome

/-- R63: the level correction. -/
def Snapshot.levelCorrection (sn : Snapshot) : Int :=
  if sn.hw.fresh then
    (((sn.hw.value : Int) - sn.govSet.t10.hwSet) * sn.govSet.t10.kl).tdiv 16
  else 0

/-- R62, R63: the target of computation stage 2. -/
def Snapshot.stage2 (sn : Snapshot) : Nat :=
  if sn.mode = .schedule then (if sn.planInForce then sn.planRelease.getD 0 else sn.frozen)
  else min ((sn.qA : Int) + sn.levelCorrection).toNat plantMax

/-- R66: the plant limits of computation stage 3, on the target of stage 2. -/
def plantLimits (p : PlantParams) (stage : Stage) (previous target : Nat) : Nat :=
  let q := max target p.qMinEnv
  let lower := previous - p.rlim
  let upper := min (previous + p.rlim) plantMax
  if q < lower then lower else if upper < q ∧ stage ≠ .flood then upper else q

/-- R66: the total release target of a SCHEDULE or PASS_THROUGH computation. -/
def Snapshot.target (sn : Snapshot) : Nat := plantLimits sn.govSet.t10 sn.stage sn.qTPrev sn.stage2

/-- R68: the release left to the ACTIVE gates. -/
def Snapshot.qR (sn : Snapshot) : Nat := sn.target - sn.fixedSum

/-- R69: the effective minimum of an ACTIVE gate. -/
def Snapshot.effMin (sn : Snapshot) (g : GateNo) : Nat :=
  let c := sn.cfg g
  if sn.duty ∧ sn.govSet.t10.compGate = some g then min (max c.minOpening sn.govSet.t10.compOpening) c.maxOpening
  else c.minOpening

/-- R69: the discharge of the ACTIVE gates at their effective minima. -/
def Snapshot.minSum (sn : Snapshot) : Nat := sumGates fun g => if sn.active g then sn.qf g (sn.effMin g) else 0

/-- R69: the release left to the ACTIVE gates above their minimum openings. -/
def Snapshot.qR2 (sn : Snapshot) : Nat := sn.qR - sn.minSum

/-- R70: the headroom of a gate. -/
def Snapshot.headroom (sn : Snapshot) (g : GateNo) : Nat := sn.qf g (sn.cfg g).maxOpening - sn.qf g (sn.effMin g)

/-- A gate of a tier with its headroom. -/
structure Share where
  gate : GateNo
  headroom : Nat
  deriving DecidableEq, Repr

/-- R71, step 2: the provisional shares of a pass, each the floor, and one more for each of the first `r` gates. -/
def provisional (floorShare : Nat) : Nat → List Share → List (Share × Nat)
  | _, [] => []
  | 0, x :: rest => (x, floorShare) :: provisional floorShare 0 rest
  | r + 1, x :: rest => (x, floorShare + 1) :: provisional floorShare r rest

/-- The sum of the headrooms of a tier's gates. -/
def headroomSum (u : List Share) : Nat := (u.map (·.headroom)).sum

/-- R71, steps 2 to 4: the passes over the gates still in U with `left` of the amount still to give; `fuel` bounds the
passes, of which there are no more than gates. -/
def fillPasses : Nat → List Share → Nat → List (GateNo × Nat)
  | 0, _, _ => []
  | fuel + 1, u, left =>
    let shares := provisional (left / u.length) (left % u.length) u
    let full := shares.filter fun p => decide (p.1.headroom ≤ p.2)
    let rest := shares.filter fun p => decide (p.2 < p.1.headroom)
    if full.isEmpty then shares.map fun p => (p.1.gate, p.2)
    else
      full.map (fun p => (p.1.gate, p.1.headroom))
        ++ fillPasses fuel (rest.map (·.1)) (left - headroomSum (full.map (·.1)))

/-- R71: the tier's amount and the allotments of its gates. -/
def fillTier (u : List Share) (r : Nat) : List (GateNo × Nat) := fillPasses (u.length + 1) u (min r (headroomSum u))

/-- R70: the gates of a tier that take part, in list order. -/
def Snapshot.tierGates (sn : Snapshot) (t : Fin 8) : List Share :=
  (sn.govSet.t2.filter fun p => decide (p.tier = t) && sn.active p.gate).map fun p => ⟨p.gate, sn.headroom p.gate⟩

/-- R70, R71: fills tiers in turn from `r`; the remainder, and the allotments in the order they are given. -/
def fillTiers (sn : Snapshot) : List (Fin 8) → Nat → Nat × List (GateNo × Nat)
  | [], r => (r, [])
  | t :: rest, r =>
    let u := sn.tierGates t
    let next := fillTiers sn rest (r - min r (headroomSum u))
    (next.1, fillTier u r ++ next.2)

/-- R70 to R72: computation stage 6: the remainder and the allotments. -/
def Snapshot.fill (sn : Snapshot) : Nat × List (GateNo × Nat) := fillTiers sn (List.finRange 8) sn.qR2

/-- The allotment of a gate; 0 for a gate that is given none (R70). -/
def allotmentIn (given : List (GateNo × Nat)) (g : GateNo) : Nat :=
  match given.find? fun p => decide (p.1 = g) with
  | some p => p.2
  | none => 0

/-- R73: the target opening of an ACTIVE gate from its allotment. -/
def Snapshot.targetOpening (sn : Snapshot) (g : GateNo) (allotment : Nat) : Nat :=
  if allotment = 0 then sn.effMin g
  else if allotment = sn.headroom g then (sn.cfg g).maxOpening
  else min (max (sn.qi g (sn.qf g (sn.effMin g) + allotment)) (sn.effMin g)) (sn.cfg g).maxOpening

/-- R74: a commanded opening moved toward a target by at most a rate limit. -/
def rateLimited (limit old target : Nat) : Nat :=
  if old ≤ target then min target (old + limit) else max target (old - limit)

/-- What a computation outside INITIAL hands on: for each gate a target and a commanded opening, meant for the gates ACTIVE in
the snapshot, the results record, and which of SHORTFALL and EXCESS it raises. -/
structure Computed where
  targets : Tab Nat 16
  commands : Tab (Option Nat) 16
  results : Results
  shortfallRaised : Bool
  excessRaised : Bool
  deriving DecidableEq, Repr

/-- R75: the delivered estimate for the new commanded openings. -/
def Snapshot.delivered (sn : Snapshot) (commands : Tab (Option Nat) 16) : Nat :=
  min
    ((sumGates fun g =>
        if sn.active g then
          (match commands.get g with
           | some o => sn.qf g o
           | none => 0)
        else 0)
      + sn.fixedSum)
    plantMax

/-- R76: the cause of a raised SHORTFALL. -/
def causeOf (capacity rate : Bool) : Cause :=
  if capacity then (if rate then .capacityAndRate else .capacity) else (if rate then .rate else .none)

/-- R76: the rate limit has held some gate that is ACTIVE in the snapshot short of its target. -/
def Snapshot.slowed (sn : Snapshot) (targets : Tab Nat 16) (commands : Tab (Option Nat) 16) : Bool :=
  (List.finRange 16).any fun g => sn.active g && decide (commands.get g ≠ some (targets.get g))

/-- R59, SCHEDULE and PASS_THROUGH: computation stages 1 to 9. -/
def computeTiered (sn : Snapshot) : Computed :=
  let tol := sn.govSet.t10.tolerance
  let given := sn.fill
  let allot : Tab Nat 16 := Tab.ofFn fun g => allotmentIn given.2 g
  let targets : Tab Nat 16 := Tab.ofFn fun g => sn.targetOpening g (allot.get g)
  let commands : Tab (Option Nat) 16 := Tab.ofFn fun g =>
    (sn.gate g).commanded.map fun old => rateLimited (sn.cfg g).rate old (targets.get g)
  let qT := sn.target
  let fixed := sn.fixedSum
  let qD := sn.delivered commands
  let short := decide (tol < qT - qD)
  { targets := targets
    commands := commands
    results :=
      { qT := qT
        qTPrev := qT
        frozen := if sn.mode = .schedule ∧ ¬ sn.planInForce then sn.frozen else qT
        qA := sn.qA
        fixed := fixed
        qR := sn.qR
        qR2 := sn.qR2
        remainder := given.1
        allot := allot
        qD := qD
        shortfall := qT - qD
        cause := if short then causeOf (decide (tol < given.1)) (sn.slowed targets commands) else .none
        excess := fixed - qT }
    shortfallRaised := short
    excessRaised := qT + tol < fixed }

/-- R64, R65: the results record of a HOLD or SURCHARGE computation. -/
def flatResults (sn : Snapshot) (qD : Nat) : Results :=
  { qT := qD, qTPrev := qD, frozen := qD, qA := sn.qA, fixed := sn.fixedSum, qR := 0, qR2 := 0, remainder := 0,
    allot := Tab.const 16 0, qD := qD, shortfall := 0, cause := .none, excess := sn.fixedSum - qD }

/-- R64: a HOLD computation. -/
def computeHold (sn : Snapshot) : Computed :=
  let commands := sn.gates.map (·.commanded)
  { targets := sn.gates.map (·.target), commands := commands, results := flatResults sn (sn.delivered commands),
    shortfallRaised := false, excessRaised := false }

/-- R65: the gate is driven in SURCHARGE. -/
def Snapshot.surging (sn : Snapshot) (g : GateNo) : Bool := sn.active g ∧ (sn.cfg g).cls = .spill

/-- R65: a SURCHARGE computation. -/
def computeSurcharge (sn : Snapshot) : Computed :=
  let targets : Tab Nat 16 := Tab.ofFn fun g => if sn.surging g then (sn.cfg g).maxOpening else (sn.gate g).target
  let commands : Tab (Option Nat) 16 := Tab.ofFn fun g =>
    if sn.surging g then
      (sn.gate g).commanded.map fun old => rateLimited (sn.cfg g).urgentRate old (sn.cfg g).maxOpening
    else (sn.gate g).commanded
  { targets := targets, commands := commands, results := flatResults sn (sn.delivered commands),
    shortfallRaised := false, excessRaised := false }

/-- R59: the computation of a snapshot outside INITIAL, by its effective mode. -/
def compute (sn : Snapshot) : Computed :=
  match sn.mode with
  | .schedule => computeTiered sn
  | .passThrough => computeTiered sn
  | .hold => computeHold sn
  | .surcharge => computeSurcharge sn
  | .initial => computeHold sn

/-- R130: the INITIAL test on a snapshot. -/
def initialTest (sn : Snapshot) : Bool := sn.hw.fresh && sn.tw.fresh && (List.finRange 16).any sn.active

/-- R60: the sum of the ratings of the present gates at their effective openings, for the records that the bumpless start has
left and the measured openings of the snapshot (log entry 6). -/
def leavingSum (sn : Snapshot) (gates : Tab Gate 16) : Nat :=
  sumGates fun g =>
    if (gates.get g).state = .absent then 0
    else sn.qf g (effectiveOpening (sn.gate g).measured (sn.gate g).fresh (gates.get g).commanded)

/-- R60: the results record on leaving INITIAL. -/
def leavingResults (qA sum : Nat) : Results :=
  { qT := sum, qTPrev := sum, frozen := sum, qA := qA, fixed := 0, qR := 0, qR2 := 0, remainder := 0,
    allot := Tab.const 16 0, qD := sum, shortfall := 0, cause := .none, excess := 0 }

end Sys2Proof.Machine
end

