-- ==== Sys2Proof/Machine/Cadence.lean ====
section
/-! DEFINITION. The cadence: the set switch (R168), the work of a cadence expiry (R102 and the cadence rules of each chapter), the
snapshot (R56), and the completion of the release computation (R60, R77). -/

namespace Sys2Proof.Machine

/-- R168: the shadow becomes the active set. -/
def switchSets (s : State) : State :=
  { s with
    mgmt :=
      { s.mgmt with active := s.mgmt.shadow, switchPending := false, generation := s.mgmt.generation + 1 } }

/-- R168: a set switch and the switch effects of every block. -/
def setSwitch (s : State) : State :=
  let old := s.mgmt.active
  let s1 := raise .setSwitched (switchSets s)
  let s2 := switchOrders old (switchGates old s1)
  let s3 := switchSlots old s2
  let s4 := switchReach old s3
  switchMode (switchTimer s4)

/-- R168: a pending switch is the first work of an expiry. -/
def takePendingSwitch (s : State) : State := if s.mgmt.switchPending then setSwitch s else s

/-- Section 1.4: the Gate Table's work of an expiry. -/
def gateExpiry (s : State) : State :=
  let s1 := readPositions s
  raiseGateFlags (if s1.mode.effective = .initial then s1 else trackGates s1)

/-- R49: HEAD_STALE at an expiry with a held level. -/
def measurementExpiry (s : State) : State := raiseIf (!(s.meas.hw.fresh && s.meas.tw.fresh)) .headStale s

/-- R94: INFLOW_STALE at an expiry whose local-inflow reading is not fresh. -/
def reachExpiry (s : State) : State := raiseIf (!s.localInflow.fresh) .inflowStale s

/-- R122, R132, R126: the Mode Supervisor's work of an expiry. -/
def modeExpiry (s : State) : State :=
  let s1 := clearHeldDwell s
  let s2 := if s1.mode.effective = .initial then s1 else evaluateDuty s1
  raiseIf s2.mode.demoted .demoted s2

/-- R56: the snapshot. -/
def snapshotOf (s : State) : Snapshot :=
  { hw := s.meas.hw
    tw := s.meas.tw
    head := s.meas.head
    stage := s.mode.stage
    mode := s.mode.effective
    duty := s.mode.duty
    step := s.timer.step
    cadence := s.timer.cadence
    run := s.timer.run
    gateOpen := s.timer.gateOpen
    planRelease := planRelease s.mgmt.active s.timer
    gates := s.gates
    govSet := s.mgmt.active
    qA := anticipatedInflow s
    localInflow := s.localInflow
    qTPrev := s.engine.results.qTPrev
    frozen := s.engine.results.frozen }

/-- R55: the computation begins with its snapshot. -/
def beginComputation (s : State) : State :=
  { s with engine := { s.engine with computation := some (snapshotOf s) } }

/-- R102, R175: an expiry is taken. The condition allowance is restored first; RO, if idle, has its feeds looked at when the event
ends (R141). -/
def openExpiry (s : State) : State :=
  { s with
    report := { s.report with allowance := true }
    clock := { s.clock with expiryDue := false }
    marks := { s.marks with placed := true } }

/-- R102, R168: the work of every block at a cadence expiry, before the snapshot. -/
def expiryWork (s : State) : State :=
  let s1 := timerExpiry (takePendingSwitch (openExpiry s))
  modeExpiry (reachExpiry (measurementExpiry (gateExpiry s1)))

/-- R102, R55: the cadence expiry. -/
def cadenceExpiry (s : State) : State := beginComputation (expiryWork s)

/-- R7: the Gate Table writes the values of a completion for the gates ACTIVE in the snapshot and ACTIVE still. -/
def writeTargets (sn : Snapshot) (c : Computed) (s : State) : State :=
  { s with
    gates := Tab.ofFn fun g =>
      let r := s.gate g
      if sn.active g ∧ r.state = .active then { r with target := c.targets.get g, commanded := c.commands.get g }
      else r }

/-- Writes the results record (R53). -/
def writeResults (r : Results) (s : State) : State := { s with engine := { s.engine with results := r } }

/-- R77: the completion of a computation outside INITIAL. -/
def completeGoverned (sn : Snapshot) (s : State) : State :=
  let c := compute sn
  let s1 := raiseIf sn.overRange .headRange s
  let s2 := requestOrders sn.mode (writeTargets sn c s1)
  let s3 := writeResults c.results s2
  raiseIf c.excessRaised .excess (raiseIf c.shortfallRaised .shortfall s3)

/-- R130: the Mode Supervisor leaves INITIAL. -/
def leaveInitial (s : State) : State :=
  let s1 := { s with mode := { s.mode with effective := effectiveMode s.mode.requested s.mode.stage } }
  raiseIf s1.mode.demoted .demoted s1

/-- R60, R130: the completion of a computation whose INITIAL test passed. -/
def completeLeaving (sn : Snapshot) (s : State) : State :=
  let s1 := bumplessStart sn.gates (leaveInitial s)
  let s2 := raiseIf sn.overRange .headRange s1
  let s3 := writeResults (leavingResults sn.qA (leavingSum sn s2.gates)) s2
  requestOrders sn.mode s3

/-- R60: the completion of a computation whose INITIAL test did not pass. -/
def completeInitial (sn : Snapshot) (s : State) : State :=
  writeResults { s.engine.results with qA := sn.qA } s

/-- R59: what a completion does before its report, by the effective mode of the snapshot. -/
def completeBody (sn : Snapshot) (s : State) : State :=
  if sn.mode = .initial then (if initialTest sn then completeLeaving sn s else completeInitial sn s)
  else completeGoverned sn s

/-- R175: the one report of a completion, with every reason that holds, the condition report of a raise event of this
completion among them (log entry 5). -/
def completionReport (s : State) : State :=
  let carried := s.report.waiting && s.report.allowance
  let condition := s.marks.reportDue || carried
  let s1 :=
    { s with
      report :=
        { s.report with
          periodicDue := false
          pointDue := false
          waiting := if carried then false else s.report.waiting
          allowance := if carried then false else s.report.allowance }
      marks := { s.marks with reportDue := false } }
  if s.report.periodicDue || s.report.pointDue || condition then
    queueReport (reportKind s.report.periodicDue s.report.pointDue condition) s1
  else s1

/-- R77, R60, R175: the completion of the computation in flight. -/
def completeComputation (sn : Snapshot) (s : State) : State :=
  completionReport (completeBody sn { s with engine := { s.engine with computation := none } })

end Sys2Proof.Machine
end

