-- ==== Sys2Proof/Machine/Clockwork.lean ====
section
/-! DEFINITION. The meanings of the commands that are not frames: the pins (R134, R135), the second tick and its work (R42, R91),
the cadence expiry (R102), the completion (R77), the millisecond count (R144), and the end of a send (R141). -/

namespace Sys2Proof.Machine

/-- R134, R58: RESET is asserted. The ports go into bypass, and what RO is sending, the frames in flight and a computation in
flight end at once. -/
def assertReset (s : State) : State :=
  { s with
    ring := { s.ring with port := .inReset, ro := none, inFlight := [] }
    engine := { s.engine with computation := none } }

/-- RESET_ASSERT (R134). -/
def execResetAssert (s : State) : Host.Outcome State Fault Refusal := .next (assertReset s)

/-- RESET_RELEASE (R135): the straps are sampled and every block takes its pin-reset values. -/
def execResetRelease (addr : Byte) (stn : BitVec 3) (s : State) : Host.Outcome State Fault Refusal :=
  .next (State.pinReset addr stn s.pending)

/-- SECOND_TICK (R42, R102). -/
def execSecondTick (s : State) : Host.Outcome State Fault Refusal := .next (takeEvent secondTick s)

/-- SLOT_STALE (R42): the staleness evaluation of the last second tick, when it is still to be done. -/
def execSlotStale (s : State) : Host.Outcome State Fault Refusal :=
  .next (if s.ring.port = .inReset then s else staleWork s)

/-- REACH_DUE_PROCESSING (R91): due processing at the present SSC. -/
def execReachDueProcessing (s : State) : Host.Outcome State Fault Refusal :=
  .next (if s.ring.port = .inReset then s else reachWork s)

/-- R102, R55: the expiry is taken when it has fallen due and the computation before it has completed. -/
def takeExpiry (s : State) : State :=
  if s.clock.expiryDue ∧ s.engine.computation = none then cadenceExpiry s else s

/-- CADENCE_EXPIRY (R102). -/
def execCadenceExpiry (s : State) : Host.Outcome State Fault Refusal := .next (takeEvent takeExpiry s)

/-- R77: the computation in flight, if any, completes. -/
def takeCompletion (s : State) : State :=
  match s.engine.computation with
  | some sn => completeComputation sn s
  | none => s

/-- COMPUTATION_COMPLETION (R77). -/
def execComputationCompletion (s : State) : Host.Outcome State Fault Refusal := .next (takeEvent takeCompletion s)

/-- RETURN_LIMIT_EXPIRY (R144): the milliseconds that pass. -/
def execReturnLimitExpiry (elapsed : Nat) (s : State) : Host.Outcome State Fault Refusal := .next (milliseconds elapsed s)

/-- R141: the last byte of the frame that RO is sending goes out, and RO becomes free. -/
def endSend (s : State) : State :=
  match s.ring.ro with
  | some _ => arbitrate { s with ring := { s.ring with ro := none } }
  | none => s

/-- SEND_END (R141). -/
def execSendEnd (s : State) : Host.Outcome State Fault Refusal := .next (takeRingEvent endSend s)

end Sys2Proof.Machine
end

