-- ==== Sys2Proof/Machine/Requested.lean ====
section
/-! DEFINITION. The meanings of the commands that are requests (chapter 10): the arrival of a REQUEST frame addressed to the part
(`receiveRequest`), whose taking (`takeRequest`) each definition names. -/

namespace Sys2Proof.Machine

/-- READ_ENTRY (R164). -/
def execReadEntry (q : Requester) (operands : List Byte) (s : State) : Host.Outcome State Fault Refusal :=
  .next (takeRingEvent (receiveRequest q operands.length (takeRead q operands)) s)

/-- WRITE_ENTRY (R165). -/
def execWriteEntry (q : Requester) (operands : List Byte) (s : State) : Host.Outcome State Fault Refusal :=
  .next (takeRingEvent (receiveRequest q operands.length (takeRequest q 1 [] (writeRequest q.src operands))) s)

/-- COMMIT (R167). -/
def execCommit (q : Requester) (operands : List Byte) (s : State) : Host.Outcome State Fault Refusal :=
  .next (takeRingEvent (receiveRequest q operands.length
    (takeRequest q 1 [] (withoutOperands operands commitRequest))) s)

/-- CANCEL (R169). -/
def execCancel (q : Requester) (operands : List Byte) (s : State) : Host.Outcome State Fault Refusal :=
  .next (takeRingEvent (receiveRequest q operands.length
    (takeRequest q 1 [] (withoutOperands operands cancelRequest))) s)

/-- COMPARE in form COPIES (R171); the form byte stands before the operands. -/
def execCompareCopies (q : Requester) (operands : List Byte) (s : State) : Host.Outcome State Fault Refusal :=
  .next (takeRingEvent (receiveRequest q (operands.length + 1)
    (takeRequest q 1 [] fun s => (compareCopiesReply operands s, s))) s)

/-- COMPARE in form DATA (R171); the form byte stands before the operands. -/
def execCompareData (q : Requester) (operands : List Byte) (s : State) : Host.Outcome State Fault Refusal :=
  .next (takeRingEvent (receiveRequest q (operands.length + 1)
    (takeRequest q 1 [] fun s => (compareDataReply operands s, s))) s)

/-- LOCK (R170). -/
def execLock (q : Requester) (operands : List Byte) (s : State) : Host.Outcome State Fault Refusal :=
  .next (takeRingEvent (receiveRequest q operands.length (takeRequest q 1 [] (withoutOperands operands lockRequest))) s)

/-- GATE_CONTROL with action ENABLE (R12). -/
def execEnable (q : Requester) (gate : Byte) (extra : List Byte) (s : State) : Host.Outcome State Fault Refusal :=
  .next (takeRingEvent (receiveRequest q (extra.length + 2) (takeRequest q 1 [] (controlGate enableGate gate extra))) s)

/-- GATE_CONTROL with action DISABLE (R12). -/
def execDisable (q : Requester) (gate : Byte) (extra : List Byte) (s : State) : Host.Outcome State Fault Refusal :=
  .next (takeRingEvent (receiveRequest q (extra.length + 2)
    (takeRequest q 1 [] (controlGate disableGate gate extra))) s)

/-- GATE_CONTROL with action HOLD (R13). -/
def execHold (q : Requester) (gate : Byte) (extra : List Byte) (s : State) : Host.Outcome State Fault Refusal :=
  .next (takeRingEvent (receiveRequest q (extra.length + 2) (takeRequest q 1 [] (controlGate holdGate gate extra))) s)

/-- GATE_CONTROL with action RELEASE (R13). -/
def execRelease (q : Requester) (gate : Byte) (extra : List Byte) (s : State) : Host.Outcome State Fault Refusal :=
  .next (takeRingEvent (receiveRequest q (extra.length + 2)
    (takeRequest q 1 [] (controlGate releaseGate gate extra))) s)

/-- GATE_CONTROL with action CLEAR_FAULT (R14). -/
def execClearFault (q : Requester) (gate : Byte) (extra : List Byte) (s : State) : Host.Outcome State Fault Refusal :=
  .next (takeRingEvent (receiveRequest q (extra.length + 2)
    (takeRequest q 1 [] (controlGate clearFaultGate gate extra))) s)

/-- MODE_REQUEST (R127). -/
def execModeRequest (q : Requester) (operands : List Byte) (s : State) : Host.Outcome State Fault Refusal :=
  .next (takeRingEvent (receiveRequest q operands.length
    (fun s => takeRequest q 1 (modeData s) (requestMode operands) s)) s)

/-- PLAN_RUN (R107). -/
def execPlanRun (q : Requester) (operands : List Byte) (s : State) : Host.Outcome State Fault Refusal :=
  .next (takeRingEvent (receiveRequest q operands.length (takeRequest q 1 [] (runPlan operands))) s)

/-- PLAN_STOP (R108). -/
def execPlanStop (q : Requester) (operands : List Byte) (s : State) : Host.Outcome State Fault Refusal :=
  .next (takeRingEvent (receiveRequest q operands.length (takeRequest q 1 [] (stopPlan operands))) s)

/-- PLAN_GATE (R109). -/
def execPlanGate (q : Requester) (operands : List Byte) (s : State) : Host.Outcome State Fault Refusal :=
  .next (takeRingEvent (receiveRequest q operands.length (takeRequest q 1 [] (setOutputGate operands))) s)

/-- CLEAR_CONDITIONS (R174). -/
def execClearConditions (q : Requester) (operands : List Byte) (s : State) : Host.Outcome State Fault Refusal :=
  .next (takeRingEvent (receiveRequest q operands.length (takeRequest q 1 [] (clearRequest operands))) s)

/-- CLEAR_COUNTERS (R173). -/
def execClearCounters (q : Requester) (operands : List Byte) (s : State) : Host.Outcome State Fault Refusal :=
  .next (takeRingEvent (receiveRequest q operands.length
    (takeRequest q 1 [] (withoutOperands operands clearCountersRequest))) s)

/-- RESTART (R172). -/
def execRestart (q : Requester) (operands : List Byte) (s : State) : Host.Outcome State Fault Refusal :=
  .next (takeRingEvent (receiveRequest q operands.length
    (takeRequest q 1 [] (withoutOperands operands restartRequest))) s)

/-- REQUEST_BAD_CODE (R162): a REQUEST given by its code. A code of Table 10-3 is taken as the request it is. -/
def execRequestBadCode (q : Requester) (code : Byte) (operands : List Byte) (s : State) :
    Host.Outcome State Fault Refusal :=
  .next (takeRingEvent (receiveRequest q operands.length (takeCoded q code operands)) s)

end Sys2Proof.Machine
end

