-- ==== Sys2Proof/Machine/Dispatch.lean ====
section
/-! DEFINITION. Each command's meaning, one arm per constructor of `Instr`. -/

namespace Sys2Proof.Machine

def exec (i : Instr) (s : State) : Host.Outcome State Fault Refusal :=
  match i with
  | .resetAssert => Sys2Proof.Machine.execResetAssert s
  | .resetRelease addr stn => Sys2Proof.Machine.execResetRelease addr stn s
  | .secondTick => Sys2Proof.Machine.execSecondTick s
  | .slotStale => Sys2Proof.Machine.execSlotStale s
  | .reachDueProcessing => Sys2Proof.Machine.execReachDueProcessing s
  | .cadenceExpiry => Sys2Proof.Machine.execCadenceExpiry s
  | .computationCompletion => Sys2Proof.Machine.execComputationCompletion s
  | .returnLimitExpiry elapsed => Sys2Proof.Machine.execReturnLimitExpiry elapsed s
  | .sendEnd => Sys2Proof.Machine.execSendEnd s
  | .sampleArrival h entries => Sys2Proof.Machine.execSampleArrival h entries s
  | .noticeArrival h n => Sys2Proof.Machine.execNoticeArrival h n s
  | .phaseArrival h p => Sys2Proof.Machine.execPhaseArrival h p s
  | .orderReturn h o => Sys2Proof.Machine.execOrderReturn h o s
  | .ownFrameReturn h kind payload => Sys2Proof.Machine.execOwnFrameReturn h kind payload s
  | .frameRelay h kind payload => Sys2Proof.Machine.execFrameRelay h kind payload s
  | .readEntry q operands => Sys2Proof.Machine.execReadEntry q operands s
  | .writeEntry q operands => Sys2Proof.Machine.execWriteEntry q operands s
  | .commit q operands => Sys2Proof.Machine.execCommit q operands s
  | .cancel q operands => Sys2Proof.Machine.execCancel q operands s
  | .compareCopies q operands => Sys2Proof.Machine.execCompareCopies q operands s
  | .compareData q operands => Sys2Proof.Machine.execCompareData q operands s
  | .lock q operands => Sys2Proof.Machine.execLock q operands s
  | .enable q gate extra => Sys2Proof.Machine.execEnable q gate extra s
  | .disable q gate extra => Sys2Proof.Machine.execDisable q gate extra s
  | .hold q gate extra => Sys2Proof.Machine.execHold q gate extra s
  | .release q gate extra => Sys2Proof.Machine.execRelease q gate extra s
  | .clearFault q gate extra => Sys2Proof.Machine.execClearFault q gate extra s
  | .modeRequest q operands => Sys2Proof.Machine.execModeRequest q operands s
  | .planRun q operands => Sys2Proof.Machine.execPlanRun q operands s
  | .planStop q operands => Sys2Proof.Machine.execPlanStop q operands s
  | .planGate q operands => Sys2Proof.Machine.execPlanGate q operands s
  | .clearConditions q operands => Sys2Proof.Machine.execClearConditions q operands s
  | .clearCounters q operands => Sys2Proof.Machine.execClearCounters q operands s
  | .restart q operands => Sys2Proof.Machine.execRestart q operands s
  | .requestBadCode q code operands => Sys2Proof.Machine.execRequestBadCode q code operands s
  | .checkErrorFrame h kind payload check => Sys2Proof.Machine.execCheckErrorFrame h kind payload check s
  | .unexpectedKindFrame h kind payload => Sys2Proof.Machine.execUnexpectedKindFrame h kind payload s
  | .malformedFrame h kind payload => Sys2Proof.Machine.execMalformedFrame h kind payload s

end Sys2Proof.Machine
end

