-- ==== Sys2Proof/Machine/Step.lean ====
section
/-! DEFINITION. One step: the command at the front of the queue is taken; with nothing waiting, a millisecond of the ring
millisecond count passes. -/

namespace Sys2Proof.Machine

/-- The step of the part. On an empty queue the ring millisecond count advances by one (R142, R144; log entry 12): that is the one
event that comes unbidden and has no row of its own. -/
def step (s : State) : Host.Outcome State Fault Refusal :=
  match s.pending with
  | c :: rest => exec c { s with pending := rest }
  | [] => .next (takeEvent millisecond s)

/-- The state with the command that a word spells at the front of its queue; unchanged where the word spells none. -/
def State.withFetchWord (s : State) (nbits w : Nat) : State :=
  match decodeTableWord nbits w with
  | some c => { s with pending := c :: s.pending }
  | none => s

end Sys2Proof.Machine
end

