-- ==== Sys2Proof/Safety.lean ====
section
/-! DEFINITION. What holds of the part between events: the invariants that claims are stated over, each named by the rule it
comes from, and the conditions under which a command finds the part able to act. -/

namespace Sys2Proof.Machine

/-! ### Invariants -/

/-- The model's marks are clear between events (log entry 5). -/
def Quiet (s : State) : Prop := s.marks = { reportDue := false, placed := false }

/-- R140, R141: the relay buffer holds at most 4 frames and the response/report queue at most 8. -/
def FeedsBounded (s : State) : Prop := s.ring.relay.length ≤ relayCapacity ∧ s.ring.feed.length ≤ feedCapacity

/-- R142, R143: the in-flight list holds at most 24 entries, no two with the same sequence number. -/
def InFlightDistinct (s : State) : Prop :=
  s.ring.inFlight.length ≤ inFlightCapacity ∧ (s.ring.inFlight.map (·.seq)).Nodup

/-- R142: an in-flight entry carries a gate number exactly when it is for an ORDER. -/
def InFlightGates (s : State) : Prop := ∀ e ∈ s.ring.inFlight, (e.gate.isSome ↔ e.kind = .order)

/-- R152: the order queue never holds two unsent orders for one gate. -/
def OneOrderPerGate (s : State) : Prop := (s.orders.queue.map (·.gate)).Nodup

/-- R153: a gate with an unsent order is in a state in which orders are requested. -/
def OrdersOfOrdered (s : State) : Prop := ∀ o ∈ s.orders.queue, (s.gate o.gate).state.ordered = true

/-- R153: no order is unsent while the effective mode is INITIAL. -/
def NoOrdersInInitial (s : State) : Prop := s.mode.effective = .initial → s.orders.queue = []

/-- R56, R129, R130: the snapshot of a computation in flight shows INITIAL exactly when the effective mode is INITIAL, which is left only
at the completion of such a computation. -/
def SnapshotInitial (s : State) : Prop :=
  ∀ sn, s.engine.computation = some sn → (sn.mode = .initial ↔ s.mode.effective = .initial)

/-- R155: every lost count lies in 0..3. -/
def LostBounded (s : State) : Prop := ∀ g : GateNo, s.orders.lost.get g ≤ 3

/-- R83: the reach queue holds at most 32 entries, in non-decreasing order of due second. -/
def ReachOrdered (s : State) : Prop :=
  s.reach.queue.length ≤ reachCapacity ∧ s.reach.queue.Pairwise fun a b => a.due ≤ b.due

/-- R88: once due processing has been done for the last tick, every queued entry is due later than now. -/
def NothingOverdue (s : State) : Prop := s.clock.reachDue = false → ∀ e ∈ s.reach.queue, s.clock.ssc < e.due

/-- R90: every queued entry is due no later than the latest due of its origin. -/
def BehindLatestDue (s : State) : Prop :=
  ∀ e ∈ s.reach.queue, ∃ l, (s.reach.origins.get e.origin).latestDue = some l ∧ e.due ≤ l

/-- R167: the active set passes every commit check. -/
def ActiveChecked (s : State) : Prop := passesChecks s.ring.nodeAddr s.ring.station s.mgmt.active = true

/-- R167: while a switch is pending, the shadow is a set that passes every commit check, and no segmented write is open. -/
def PendingChecked (s : State) : Prop :=
  s.mgmt.switchPending = true →
    passesChecks s.ring.nodeAddr s.ring.station s.mgmt.shadow = true ∧ s.mgmt.openWrite = none

/-- R170: with the lock set, the two copies agree in every limit field. -/
def LockAgrees (s : State) : Prop := s.mgmt.lock = true → s.mgmt.shadow.limits = s.mgmt.active.limits

/-- R101: the plan position is a valid position of the active plan; with the plan empty it is step 0, cadence 0, and the plan is
stopped (R116). -/
def PositionValid (s : State) : Prop :=
  if s.mgmt.active.plan.count = 0 then s.timer.step = 0 ∧ s.timer.cadence = 0 ∧ s.timer.run = .stopped
  else s.timer.step < s.mgmt.active.plan.count ∧ s.timer.cadence < (stepAt s.mgmt.active s.timer.step).duration

/-- R125: outside INITIAL the effective mode is the entry of Table 7-3. -/
def ModeByTable (s : State) : Prop :=
  s.mode.effective = .initial ∨ s.mode.effective = effectiveMode s.mode.requested s.mode.stage

/-- R128: SCHEDULE is never the requested mode while the active plan is empty. -/
def ScheduleHasPlan (s : State) : Prop := s.mode.requested = .schedule → s.mgmt.active.plan.count ≠ 0

/-- R132: the compensation duty is OFF through INITIAL. -/
def DutyOffInitial (s : State) : Prop := s.mode.effective = .initial → s.mode.duty = false

/-- R121: a fall dwell is under way only at a stage above NORMAL. -/
def DwellAboveNormal (s : State) : Prop := s.mode.stage = .normal → s.mode.dwellStart = none

/-- R1, R11: a gate record is ABSENT exactly when its class is. -/
def ClassState (s : State) : Prop := ∀ g : GateNo, (s.gateCfg g).cls = .absent ↔ (s.gate g).state = .absent

/-- R6: the targets of gate records lie within the gates' limits in a set. -/
def TargetsWithin (set : GovSet) (gates : Tab Gate 16) : Prop :=
  ∀ g : GateNo, (set.t1.get g).minOpening ≤ (gates.get g).target ∧ (gates.get g).target ≤ (set.t1.get g).maxOpening

/-- R6: every target lies within its gate's limits in the active set, and so do the targets of a snapshot in its own set. -/
def TargetsInLimits (s : State) : Prop :=
  TargetsWithin s.mgmt.active s.gates ∧ ∀ sn, s.engine.computation = some sn → TargetsWithin sn.govSet sn.gates

/-- R12: in a mode other than INITIAL, the gates in ACTIVE, HELD, LOCAL and UNREACHABLE have commanded openings. -/
def CommandedIn (m : Mode) (gates : Tab Gate 16) : Prop :=
  m ≠ .initial → ∀ g : GateNo, (gates.get g).state.ordered = true → (gates.get g).commanded.isSome = true

/-- R12: outside INITIAL every gate in ACTIVE, HELD, LOCAL or UNREACHABLE has a commanded opening, in the gate records and in
the snapshot of a computation in flight. -/
def CommandedPresent (s : State) : Prop :=
  CommandedIn s.mode.effective s.gates ∧ ∀ sn, s.engine.computation = some sn → CommandedIn sn.mode sn.gates

/-- Introduction, COUNTERS: every counter lies in 0..65,535. -/
def CountersInRange (s : State) : Prop := ∀ n ∈ s.report.counters.items, n ≤ wordMax

/-- R56, R78: the computation in flight was begun in the set that is still active, or the switch it would meet is not yet taken: its
snapshot's set is the active one. -/
def SnapshotCurrent (s : State) : Prop := ∀ sn, s.engine.computation = some sn → sn.govSet = s.mgmt.active

/-! ### The invariants of the blocks -/

/-- What the Ring Port keeps (R140 to R143). -/
structure RingInv (s : State) : Prop where
  quiet : Quiet s
  feeds : FeedsBounded s
  distinct : InFlightDistinct s
  gates : InFlightGates s

/-- What the Order Unit keeps (R152, R153, R155), with what the snapshot of a computation in flight shows of INITIAL. -/
structure OrderInv (s : State) : Prop where
  one : OneOrderPerGate s
  ordered : OrdersOfOrdered s
  lost : LostBounded s
  initial : NoOrdersInInitial s
  snapshot : SnapshotInitial s

/-- What the Reach Unit keeps (R83, R88, R90). That no two entries agree in origin record and sequence is not among it: the sequence
test of R85 does not keep it (log entry 34). -/
structure ReachInv (s : State) : Prop where
  ordered : ReachOrdered s
  nothingOverdue : NothingOverdue s
  behindLatest : BehindLatestDue s

/-- What the Management Agent keeps (R167, R170). -/
structure SetInv (s : State) : Prop where
  active : ActiveChecked s
  pending : PendingChecked s
  lock : LockAgrees s

/-- What the Plan Timer and the Mode Supervisor keep (R101, R121, R125, R128, R132). -/
structure PlanModeInv (s : State) : Prop where
  position : PositionValid s
  mode : ModeByTable s
  schedule : ScheduleHasPlan s
  duty : DutyOffInitial s
  dwell : DwellAboveNormal s

/-- What the Gate Table keeps (R6, R11, R12), with the snapshot of a computation in flight. -/
structure GateInv (s : State) : Prop where
  classes : ClassState s
  snapshot : SnapshotCurrent s
  targets : TargetsInLimits s
  commanded : CommandedPresent s

/-! ### Conditions on a command's taking -/

/-- The part takes events at its pins and clock: RESET is not asserted. -/
def Awake (s : State) : Prop := s.ring.port ≠ .inReset

/-- The ring ports are in service, so frames arrive and are sent (R134, R135). -/
def InService (s : State) : Prop := s.ring.port = .inService

/-- The work of the last second tick has been done (log entry 4). -/
def Settled (s : State) : Prop := s.clock.staleDue = false ∧ s.clock.reachDue = false

/-- A REQUEST with `len` operand bytes from this node is taken (R162): it arrives, it is of lawful length and not the part's
own, the response/report queue has room for its one response part, and the node is a manager. -/
def Takeable (q : Requester) (len : Nat) (s : State) : Prop :=
  InService s ∧ Settled s ∧ len ≤ 58 ∧ q.src ≠ s.ring.nodeAddr ∧ 0 < s.feedRoom
    ∧ manages s.mgmt.active.t10 q.src = true

/-- Commands that reach the part over the ring, or are the end of a send on it. -/
def ringCommand : Instr → Bool
  | .resetAssert => false
  | .resetRelease _ _ => false
  | .secondTick => false
  | .slotStale => false
  | .reachDueProcessing => false
  | .cadenceExpiry => false
  | .computationCompletion => false
  | .returnLimitExpiry _ => false
  | .sendEnd => true
  | .sampleArrival _ _ => true
  | .noticeArrival _ _ => true
  | .phaseArrival _ _ => true
  | .orderReturn _ _ => true
  | .ownFrameReturn _ _ _ => true
  | .frameRelay _ _ _ => true
  | .readEntry _ _ => true
  | .writeEntry _ _ => true
  | .commit _ _ => true
  | .cancel _ _ => true
  | .compareCopies _ _ => true
  | .compareData _ _ => true
  | .lock _ _ => true
  | .enable _ _ _ => true
  | .disable _ _ _ => true
  | .hold _ _ _ => true
  | .release _ _ _ => true
  | .clearFault _ _ _ => true
  | .modeRequest _ _ => true
  | .planRun _ _ => true
  | .planStop _ _ => true
  | .planGate _ _ => true
  | .clearConditions _ _ => true
  | .clearCounters _ _ => true
  | .restart _ _ => true
  | .requestBadCode _ _ _ => true
  | .checkErrorFrame _ _ _ _ => true
  | .unexpectedKindFrame _ _ _ => true
  | .malformedFrame _ _ _ => true

/-- The limits of a snapshot's gates are in order (check 4), its rating sets ascend and have factors (checks 1 and 2), and its
allocation order list repeats no gate (check 5): what the release computation relies on. -/
def Snapshot.Lawful (sn : Snapshot) : Prop :=
  check1 sn.govSet = true ∧ check2 sn.govSet = true ∧ check4 sn.govSet = true ∧ check5 sn.govSet = true

/-! ### Ranges of written entries -/

/-- Table 1-1: the ranges of a T1 entry. -/
def GateCfg.InRange (c : GateCfg) : Prop :=
  c.minOpening ≤ 1000 ∧ c.maxOpening ≤ 1000 ∧ 1 ≤ c.rate ∧ c.rate ≤ 1000 ∧ 1 ≤ c.urgentRate ∧ c.urgentRate ≤ 1000

/-- Table 2-1: the ranges of a T3 entry in the shadow. -/
def RatingSet.InRange (r : RatingSet) : Prop := (∀ q ∈ r.q.items, q ≤ 65535) ∧ ∀ f ∈ r.f.items, f ≤ 8191

/-- Table 6-1: the ranges of T5 entry 0. -/
def PlanHeader.InRange (h : PlanHeader) : Prop :=
  h.count ≤ 48 ∧ h.pointStep ≤ 47 ∧ h.pointCadence ≤ 65535 ∧ h.followed ≤ 7 ∧ -32768 ≤ h.phaseOffset
    ∧ h.phaseOffset ≤ 32767

/-- Table 6-2: the ranges of T5 entries 1 to 48. -/
def PlanStep.InRange (p : PlanStep) : Prop := p.duration ≤ 65535 ∧ p.release ≤ plantMax

/-- Table 3-1: the ranges of a T6 entry; an entry not in use has none (log entry 10). -/
def Subscription.InRange (u : Subscription) : Prop :=
  u.inUse = true → 1 ≤ u.source.toNat ∧ u.source.toNat ≤ 254 ∧ u.channel.toNat ≤ 15 ∧ u.slot.toNat ≤ 31

/-- Table 3-2: the ranges of a T7 entry. -/
def SlotParams.InRange (p : SlotParams) : Prop :=
  p.gain ≤ 65535 ∧ -32768 ≤ p.offset ∧ p.offset ≤ 32767 ∧ 1 ≤ p.staleLimit ∧ p.staleLimit ≤ 255 ∧ p.jumpLimit ≤ 65535

/-- R23: the range of a T4 entry. -/
def BandEndsInRange (ends : Tab Nat 8) : Prop := ∀ e ∈ ends.items, e ≤ 65535

/-- Table 5-1: the ranges of a T9 entry; a record not in use may hold what its bytes can carry (log entry 10). -/
def OriginRecord.InRange (r : OriginRecord) : Prop :=
  (∀ d ∈ r.bands.items, d ≤ if r.inUse = true then plantMax else 16777215) ∧ (∀ t ∈ r.times.items, t ≤ 65535)
    ∧ (r.inUse = true → r.station.toNat ≤ 7)

/-- Tables 4-3, 7-1 and 10-2: the ranges of T10. -/
def PlantParams.InRange (p : PlantParams) : Prop :=
  p.hwSet ≤ 65535 ∧ p.kl ≤ 4095 ∧ p.qMinEnv ≤ plantMax ∧ 1 ≤ p.rlim ∧ p.rlim ≤ plantMax ∧ p.tolerance ≤ 65535
    ∧ p.compOpening ≤ 1000 ∧ p.tAlert ≤ 65535 ∧ p.tFlood ≤ 65535 ∧ p.tExtreme ≤ 65535 ∧ p.hys ≤ 500
    ∧ p.fallDwell ≤ 3600 ∧ 1 ≤ p.cadenceLength ∧ p.cadenceLength ≤ 60 ∧ p.lookahead ≤ 3600 ∧ 5 ≤ p.trackingBand
    ∧ p.trackingBand ≤ 200 ∧ 1 ≤ p.trackingLimit ∧ p.trackingLimit ≤ 15 ∧ 2 ≤ p.returnLimit ∧ p.returnLimit ≤ 250
    ∧ 1 ≤ p.reportInterval ∧ p.reportInterval ≤ 255 ∧ p.managerA ≠ 255 ∧ p.managerB ≠ 255

end Sys2Proof.Machine
end

