-- ==== Sys2Proof/Certificates/Slice0/Obligations.lean ====
section
/-! DEFINITION. The statements for the provers. Each docstring names the rules of spec/ that the statement rests on, and the log
entries of the model's own choices in it. `Settled`, `Awake`, `InService` and `Takeable` are conditions on the state a command
finds (Sys2Proof/Safety.lean); a state with work of a second tick outstanding is covered by `TickWorkComesFirst`. -/

open Sys2Proof Sys2Proof.Machine

/-! ### The machine -/

/-- The command at the front of the queue is taken on the state with the queue's rest. -/
def Obligations.StepTakesFrontCommand : Prop :=
  ∀ (c : Instr) (rest : List Instr) (s : State),
    step { s with pending := c :: rest } = exec c { s with pending := rest }

/-- Every command answers a next state, and leaves the queue of waiting commands as it is: the rules give every event an effect in
every state. The model's choices in it: a command offered without its cause (log entry 13) or while RESET is asserted (log entry 8)
answers the state it finds, and the queue, the model's own (log entry 11), is kept, across a pin reset too (log entry 29). -/
def Obligations.EveryCommandAnswers : Prop :=
  ∀ (c : Instr) (s : State), ∃ t, exec c s = .next t ∧ t.pending = s.pending

/-- The model's choice (log entry 4): the work of a second tick that is outstanding is done before any other event is taken. That work is
what SLOT_STALE and then REACH_DUE_PROCESSING do (`SlotStaleEffect`, `DueProcessingEffect`), each when it is outstanding. -/
def Obligations.TickWorkComesFirst : Prop :=
  ∀ s : State,
    Settled (settleTick s)
      ∧ (Settled s → settleTick s = s)
      ∧ (Awake s →
          (s.clock.staleDue = true → s.clock.reachDue = false → exec .slotStale s = .next (settleTick s))
            ∧ (s.clock.staleDue = false → s.clock.reachDue = true → exec .reachDueProcessing s = .next (settleTick s))
            ∧ (s.clock.staleDue = true → s.clock.reachDue = true →
                ∃ u, exec .slotStale s = .next u ∧ exec .reachDueProcessing u = .next (settleTick s)))
      ∧ (Awake s →
          exec .secondTick s = exec .secondTick (settleTick s)
            ∧ exec .cadenceExpiry s = exec .cadenceExpiry (settleTick s)
            ∧ exec .computationCompletion s = exec .computationCompletion (settleTick s)
            ∧ ∀ n, exec (.returnLimitExpiry (n + 1)) s = exec (.returnLimitExpiry (n + 1)) (settleTick s))
      ∧ (InService s → ∀ c, ringCommand c = true → exec c s = exec c (settleTick s))

/-- The model's choices (log entries 12 and 13): on an empty queue a millisecond of the ring millisecond count passes; and a tick's
evaluation, an expiry, a completion or an end of a send that is offered while its cause does not hold is no event. -/
def Obligations.IdlingAndEventsWithoutCause : Prop :=
  (∀ s : State, s.pending = [] → step s = exec (.returnLimitExpiry 1) s)
    ∧ ∀ s : State, Settled s → Quiet s →
    exec .slotStale s = .next s
      ∧ (s.clock.expiryDue = false ∨ s.engine.computation ≠ none → exec .cadenceExpiry s = .next s)
      ∧ (s.engine.computation = none → exec .computationCompletion s = .next s)
      ∧ (s.ring.ro = none → exec .sendEnd s = .next s)
      ∧ exec (.returnLimitExpiry 0) s = .next s

/-! ### The pins -/

/-- R134, R58: RESET_ASSERT puts the ports in bypass, cuts off what RO is sending and ends the computation in flight; BYPASS is
asserted. That nothing else of the state changes at the assertion, and that the in-flight list ends there, is the model's choice of
log entry 8. R135, R8, R44, R53, R97, R101, R119, R157, R160: RESET_RELEASE samples the straps, and the blocks take their pin-reset
values. That it does so from every state, asserted or not, is log entry 8 too; that the waiting commands stay is log entry 29;
that a periodic or plan-point report still due is due no longer is log entry 38. -/
def Obligations.ResetPins : Prop :=
  (∀ s : State,
    ∃ t, exec .resetAssert s = .next t
      ∧ t.bypassOutput = true
      ∧ t = { s with
              ring := { s.ring with port := .inReset, ro := none, inFlight := [] }
              engine := { s.engine with computation := none } })
    ∧ ∀ (addr : Byte) (stn : BitVec 3) (s : State),
    ∃ t, exec (.resetRelease addr stn) s = .next t
      ∧ t.ring.nodeAddr = addr ∧ t.ring.station = stn
      ∧ (t.bypassOutput = true ↔ addr = 0 ∨ addr = 255)
      ∧ t.ring.ro = none ∧ t.ring.relay = [] ∧ t.ring.feed = [] ∧ t.ring.inFlight = [] ∧ t.ring.seqCounter = 0
      ∧ t.ring.ms = 0
      ∧ t.orders.queue = [] ∧ (∀ g, t.orders.lost.get g = 0)
      ∧ t.mgmt.active = emptySet ∧ t.mgmt.shadow = emptySet ∧ t.mgmt.generation = 0 ∧ t.mgmt.lock = false
      ∧ t.mgmt.switchPending = false ∧ t.mgmt.openWrite = none
      ∧ (∀ g, t.gate g = { state := .absent, target := 0, commanded := none, measured := 0, fresh := false, count := 0 })
      ∧ (∀ n, t.meas.slots.get n = { value := 0, quality := .empty, age := 0, candidate := none })
      ∧ t.meas.hw = ⟨0, false⟩ ∧ t.meas.tw = ⟨0, false⟩ ∧ t.meas.head = ⟨0, false⟩
      ∧ t.engine.computation = none
      ∧ t.engine.results
          = { qT := 0, qTPrev := 0, frozen := 0, qA := 0, fixed := 0, qR := 0, qR2 := 0, remainder := 0,
              allot := Tab.const 16 0, qD := 0, shortfall := 0, cause := .none, excess := 0 }
      ∧ t.reach.queue = []
      ∧ (∀ n, t.reach.origins.get n = { arriving := 0, lastSeq := none, latestDue := none })
      ∧ t.timer
          = { run := .stopped, step := 0, cadence := 0, gateOpen := true, startPending := false, schedule := 5,
              reportCount := 0 }
      ∧ t.mode
          = { stage := .normal, dwellStart := none, requested := .hold, effective := .initial, duty := false }
      ∧ t.report.flags = 0 ∧ t.report.allowance = true ∧ t.report.waiting = false
      ∧ t.report.periodicDue = false ∧ t.report.pointDue = false
      ∧ (∀ c, t.counter c = 0)
      ∧ t.clock = { ssc := 0, expiryDue := false, staleDue := false, reachDue := false }
      ∧ Quiet t
      ∧ t.pending = s.pending
      ∧ (∀ g, emptySet.t1.get g
          = { cls := .absent, node := 0, positionSlot := 0, ratingSet := 0, minOpening := 0, maxOpening := 1000, rate := 1,
              urgentRate := 1 })
      ∧ emptySet.t2 = []
      ∧ (∀ n, emptySet.t3.get n = { q := Tab.const 9 0, f := Tab.const 8 4096 })
      ∧ (∀ b, emptySet.t4.get b = 1000 * (b.val + 1))
      ∧ emptySet.plan
          = { count := 0, kind := .cyclic, pointStep := 0, pointCadence := 0, pointMode := .once, phaseFollow := false,
              followed := 0, phaseOffset := 0 }
      ∧ (∀ i, emptySet.steps.get i = { duration := 1, release := 0, shape := .step })
      ∧ (∀ i, emptySet.t6.get i = { inUse := false, source := 1, channel := 0, slot := 0 })
      ∧ (∀ n, emptySet.t7.get n = { gain := 4096, offset := 0, staleLimit := 10, jumpLimit := 0 })
      ∧ emptySet.t8 = { hw1 := none, hw2 := none, hw3 := none, tw1 := none, tw2 := none, inflow := none }
      ∧ (∀ n, emptySet.t9.get n = { inUse := false, station := 0, bands := Tab.const 4 0, times := Tab.const 4 0 })
      ∧ emptySet.t10
          = { hwSet := 0, kl := 0, qMinEnv := 0, rlim := 65535, tolerance := 50, compGate := none, compOpening := 0,
              tAlert := 60000, tFlood := 62000, tExtreme := 64000, hys := 50, fallDwell := 600, cadenceLength := 5,
              lookahead := 0, trackingBand := 30, trackingLimit := 6, returnLimit := 20, reportInterval := 12, mask := 0,
              managerA := 0, managerB := 0 }

/-- R134, R135: while the ports are in bypass no frame is received, and no event starts a send: RO and the relay buffer stay as they
are, and no in-flight entry is added. While RESET is asserted, no event but the pins' is taken (log entry 8). -/
def Obligations.BypassTakesNoFrame : Prop :=
  ∀ (c : Instr) (s : State),
    (¬ InService s → ringCommand c = true → exec c s = .next s)
      ∧ (¬ InService s → c ≠ .resetAssert → (∀ addr stn, c ≠ .resetRelease addr stn) →
          ∃ t, exec c s = .next t
            ∧ t.ring.ro = s.ring.ro ∧ t.ring.relay = s.ring.relay ∧ t.ring.seqCounter = s.ring.seqCounter
            ∧ t.ring.port = s.ring.port ∧ ∀ e ∈ t.ring.inFlight, e ∈ s.ring.inFlight)
      ∧ (¬ Awake s → c ≠ .resetAssert → (∀ addr stn, c ≠ .resetRelease addr stn) → exec c s = .next s)

/-! ### The clock and the measurement slots -/

/-- R42, R102 and the Introduction (TIME): the second tick advances the SSC, which saturates, raises the age of every slot that is
not EMPTY, makes the expiry due at the cadence schedule, and changes nothing else; the marks of its outstanding work are log
entry 4. -/
def Obligations.SecondTickEffect : Prop :=
  ∀ s : State, Awake s → Settled s → Quiet s →
    exec .secondTick s = .next
      { s with
        clock :=
          { ssc := min (s.clock.ssc + 1) 4294967295
            expiryDue := s.clock.expiryDue || decide (min (s.clock.ssc + 1) 4294967295 = s.timer.schedule)
            staleDue := true
            reachDue := true }
        meas :=
          { s.meas with
            slots := Tab.ofFn fun n =>
              let sl := s.meas.slots.get n
              if sl.quality = .empty then sl else { sl with age := min (sl.age + 1) 65535 } } }

/-- R42, R46: the staleness evaluation turns STALE exactly the GOOD, CLAMPED and SUSPECT slots whose age exceeds their limit, keeps
every other field of every slot, then votes once for the groups that the slots turned STALE touch (the vote's effect is that of
`VoteRules`), and touches neither the gate records, the timer, the reach queue nor the sets. -/
def Obligations.SlotStaleEffect : Prop :=
  ∀ s : State, Awake s → s.clock.staleDue = true →
    ∃ t, exec .slotStale s = .next t
      ∧ t.clock = { s.clock with staleDue := false }
      ∧ (∀ n,
          t.meas.slots.get n
            = if (s.meas.slots.get n).quality ≠ .empty ∧ (s.meas.slots.get n).quality ≠ .stale
                  ∧ (s.mgmt.active.t7.get n).staleLimit < (s.meas.slots.get n).age then
                { s.meas.slots.get n with quality := .stale }
              else s.meas.slots.get n)
      ∧ (∀ touched : List SlotNo,
          (∀ n, n ∈ touched ↔
            (s.meas.slots.get n).quality ≠ .empty ∧ (s.meas.slots.get n).quality ≠ .stale
              ∧ (s.mgmt.active.t7.get n).staleLimit < (s.meas.slots.get n).age) →
          let u := voteTouched touched { s with meas := { s.meas with slots := t.meas.slots } }
          t.meas = u.meas ∧ t.mode = u.mode ∧ t.report.flags = u.report.flags)
      ∧ t.gates = s.gates ∧ t.timer = s.timer ∧ t.reach = s.reach ∧ t.mgmt = s.mgmt ∧ t.engine = s.engine
      ∧ t.orders.lost = s.orders.lost
      ∧ ((∀ n,
            (s.meas.slots.get n).quality = .empty ∨ (s.meas.slots.get n).quality = .stale
              ∨ (s.meas.slots.get n).age ≤ (s.mgmt.active.t7.get n).staleLimit) →
          Quiet s → t = { s with clock := { s.clock with staleDue := false } })

/-- R91: due processing removes every entry that is due from the head of the queue, and the arriving inflow of an origin becomes the
release of its entry removed last. Nothing else changes. -/
def Obligations.DueProcessingEffect : Prop :=
  ∀ s : State, Awake s →
    ∃ t, exec .reachDueProcessing s = .next t
      ∧ t = { s with reach := t.reach, clock := { s.clock with reachDue := false } }
      ∧ t.reach.queue = s.reach.queue.dropWhile (fun e => decide (e.due ≤ s.clock.ssc))
      ∧ ∀ n,
          t.reach.origins.get n
            = match ((s.reach.queue.takeWhile fun e => decide (e.due ≤ s.clock.ssc)).filter
                  fun e => decide (e.origin = n)).getLast? with
              | some e => { s.reach.origins.get n with arriving := e.release }
              | none => s.reach.origins.get n

/-! ### The cadence expiry -/

/-- R55, R56, R102, R106: the expiry that has fallen due is taken, sets the next schedule, and begins a computation whose snapshot
shows each block as the expiry has left it, with the plan release of the position (`PlanReleaseOfPosition`) and none when the plan is
empty. R93: its Q_A is the sum, over the records in use, of the release of the last queued entry
of the origin that is due by the SSC plus the lookahead, or else of the arriving inflow, plus the local inflow of R51, capped. R94:
INFLOW_STALE is raised when the local inflow is not fresh, and not otherwise. -/
def Obligations.ExpiryBeginsComputation : Prop :=
  ∀ s : State, Awake s → Settled s → s.clock.expiryDue = true → s.engine.computation = none →
    ∃ t sn, exec .cadenceExpiry s = .next t
      ∧ t.engine = { s.engine with computation := some sn }
      ∧ t.clock = { s.clock with expiryDue := false }
      ∧ t.timer.schedule = min (s.clock.ssc + t.mgmt.active.t10.cadenceLength) 4294967295
      ∧ sn.govSet = t.mgmt.active ∧ sn.gates = t.gates
      ∧ sn.hw = t.meas.hw ∧ sn.tw = t.meas.tw ∧ sn.head = t.meas.head
      ∧ sn.stage = t.mode.stage ∧ sn.mode = t.mode.effective ∧ sn.duty = t.mode.duty
      ∧ sn.step = t.timer.step ∧ sn.cadence = t.timer.cadence ∧ sn.run = t.timer.run ∧ sn.gateOpen = t.timer.gateOpen
      ∧ sn.planRelease = planRelease t.mgmt.active t.timer
      ∧ (t.mgmt.active.plan.count = 0 → sn.planRelease = none)
      ∧ (t.mgmt.active.plan.count ≠ 0 →
          sn.planRelease = some (planReleaseAt t.mgmt.active t.timer.step t.timer.cadence))
      ∧ (let horizon := min (s.clock.ssc + t.mgmt.active.t10.lookahead) 4294967295
         let inflow : OriginNo → Nat := fun n =>
           match (t.reach.queue.filter fun e => decide (e.origin = n ∧ e.due ≤ horizon)).getLast? with
           | some e => e.release
           | none => (t.reach.origins.get n).arriving
         sn.qA
           = min ((∑ n : OriginNo, if (t.mgmt.active.t9.get n).inUse = true then inflow n else 0)
               + sn.localInflow.value) 1048575)
      ∧ (t.mgmt.active.t8.inflow = none → sn.localInflow = ⟨0, true⟩)
      ∧ (∀ n, t.mgmt.active.t8.inflow = some n →
          sn.localInflow.value = (t.meas.slots.get n).value
            ∧ (sn.localInflow.fresh = true ↔
                (t.meas.slots.get n).quality = .good ∨ (t.meas.slots.get n).quality = .clamped))
      ∧ (sn.localInflow.fresh = false → flagIn .inflowStale t.report.flags = true)
      ∧ (sn.localInflow.fresh = true → flagIn .inflowStale t.report.flags = flagIn .inflowStale s.report.flags)
      ∧ sn.qTPrev = s.engine.results.qTPrev ∧ sn.frozen = s.engine.results.frozen

/-- R168: an expiry takes a pending switch: the shadow becomes the active set, the generation goes up by one and wraps, and
SET_SWITCHED is raised. The switch's effects on the blocks, as the expiry leaves them: R11 and R6 on the gate records, R153 and R158
on the orders and the lost counts, R43 on the slots, R46 on both votes, R96 on the reach queue and the origins, R128 and R123 on the
mode record (its effect on the plan position, R116, is in `ExpiryAdvancesPlan`). R34: what feeds a slot is the source and the channel of
the in-use subscription that names it, where no two in use name one slot (check 10). An expiry with none pending leaves the sets, the
slots, the levels, the reach queue, the origins, the lost counts and the modes alone. -/
def Obligations.ExpiryTakesSwitch : Prop :=
  (∀ set : GovSet,
    (∀ i j, (set.t6.get i).inUse = true → (set.t6.get j).inUse = true → (set.t6.get i).slot = (set.t6.get j).slot →
      i = j) →
    ∀ (n : SlotNo) (src channel : Byte),
      feederOf set n = some (src, channel) ↔
        ∃ i, (set.t6.get i).inUse = true ∧ (set.t6.get i).slot.toNat = n.val ∧ (set.t6.get i).source = src
          ∧ (set.t6.get i).channel = channel)
    ∧ ∀ s : State, Awake s → Settled s → s.clock.expiryDue = true → s.engine.computation = none →
    ∃ t, exec .cadenceExpiry s = .next t
      ∧ (s.mgmt.switchPending = true →
          let old := s.mgmt.active
          let new := s.mgmt.shadow
          t.mgmt = { s.mgmt with active := new, switchPending := false, generation := s.mgmt.generation + 1 }
            ∧ flagIn .setSwitched t.report.flags = true
            ∧ (∀ g,
                let c := old.t1.get g
                let d := new.t1.get g
                let r := s.gate g
                (t.gate g).target = min (max r.target d.minOpening) d.maxOpening
                  ∧ (c.cls ≠ d.cls →
                      (t.gate g).state = (if d.cls = .absent then .absent else .offline) ∧ (t.gate g).count = 0
                        ∧ (t.gate g).commanded = (if c.cls = .absent ∨ d.cls = .absent then none else r.commanded)
                        ∧ ∀ o ∈ t.orders.queue, o.gate ≠ g)
                  ∧ (c.cls = d.cls → ¬ (r.state = .active ∨ r.state = .held) →
                      (t.gate g).state = r.state ∧ (t.gate g).count = r.count)
                  ∧ (c.cls = d.cls → r.state = .active ∨ r.state = .held →
                      (t.gate g).state = r.state ∨ (t.gate g).state = .fault .stuck)
                  ∧ (c.cls = d.cls → r.state ≠ .localControl → (t.gate g).commanded = r.commanded)
                  ∧ t.orders.lost.get g = if c.cls ≠ d.cls ∨ c.node ≠ d.node then 0 else s.orders.lost.get g)
            ∧ (∀ n,
                let p := old.t7.get n
                let q := new.t7.get n
                let sl := s.meas.slots.get n
                t.meas.slots.get n
                  = if feederOf old n ≠ feederOf new n ∨ p.gain ≠ q.gain ∨ p.offset ≠ q.offset then
                      { value := sl.value, quality := .empty, age := 0, candidate := none }
                    else if p.jumpLimit ≠ q.jumpLimit then { sl with candidate := none }
                    else sl)
            ∧ t.meas.hw = voteOf s.meas.hw (freshValues t.meas.slots new.t8.headwater)
            ∧ t.meas.tw = voteOf s.meas.tw (freshValues t.meas.slots new.t8.tailwater)
            ∧ t.meas.head = ⟨t.meas.hw.value - t.meas.tw.value, t.meas.hw.fresh && t.meas.tw.fresh⟩
            ∧ (∀ n,
                t.reach.origins.get n
                  = if (old.t9.get n).inUse = (new.t9.get n).inUse
                        ∧ ((new.t9.get n).inUse = true → (old.t9.get n).station = (new.t9.get n).station) then
                      s.reach.origins.get n
                    else { arriving := 0, lastSeq := none, latestDue := none })
            ∧ (t.reach.queue
                = s.reach.queue.filter fun e =>
                    decide ((old.t9.get e.origin).inUse = (new.t9.get e.origin).inUse
                      ∧ ((new.t9.get e.origin).inUse = true →
                          (old.t9.get e.origin).station = (new.t9.get e.origin).station)))
            ∧ (t.mode.stage
                = if t.meas.hw.fresh = true then
                    (evaluateStage t.meas.hw.value { s with mgmt := t.mgmt }).mode.stage
                  else s.mode.stage)
            ∧ (new.plan.count = 0 → s.mode.requested = .schedule →
                t.mode.requested = .hold ∧ flagIn .demoted t.report.flags = true)
            ∧ (new.plan.count ≠ 0 ∨ s.mode.requested ≠ .schedule → t.mode.requested = s.mode.requested)
            ∧ (s.mode.effective = .initial → t.mode.effective = .initial)
            ∧ (s.mode.effective ≠ .initial → ModeByTable s →
                t.mode.effective = effectiveMode t.mode.requested t.mode.stage))
      ∧ (s.mgmt.switchPending = false →
          t.mgmt = s.mgmt ∧ t.meas = s.meas ∧ t.reach = s.reach ∧ t.orders.lost = s.orders.lost
            ∧ t.mode.stage = s.mode.stage ∧ t.mode.requested = s.mode.requested
            ∧ t.mode.effective = s.mode.effective)

/-- R5, R17: at an expiry every gate that is present after it has been read at its position slot; a gate that was ACTIVE or HELD outside
INITIAL, with no switch pending, is in FAULT(STUCK) after it exactly when its count has reached the tracking limit. R18: a LOCAL gate
outside INITIAL takes its fresh position as commanded opening. What an expiry without a switch leaves of the records: every target, the
commanded opening of a gate that is not LOCAL, an ABSENT record whole, the state and the count of an OFFLINE, FAULT or UNREACHABLE gate,
and in INITIAL (R17 and R18 do not run) the state, the count and the commanded opening of every gate. R132: the compensation duty. R122:
a held HW ends the fall dwell. R21, R49, R126: the flags raised again while their cause stands. R175: the condition allowance is restored
before the flags of the expiry are raised, so that the first unmasked flag newly set calls for a condition report, which ends a waiting
one, and a further one is marked waiting; the report is queued when the event ends (log entry 5), where RO, if idle, looks at the feeds
in every case (R141). -/
def Obligations.ExpiryReadsAndTracks : Prop :=
  ∀ s : State, Awake s → Settled s → s.clock.expiryDue = true → s.engine.computation = none →
    ∃ t, exec .cadenceExpiry s = .next t
      ∧ (∀ g, (t.gate g).state ≠ .absent →
          (t.gate g).measured = min (t.meas.slots.get (t.gateCfg g).positionSlot).value 1000
            ∧ ((t.gate g).fresh = true ↔
                (t.meas.slots.get (t.gateCfg g).positionSlot).quality = .good
                  ∨ (t.meas.slots.get (t.gateCfg g).positionSlot).quality = .clamped))
      ∧ (s.mgmt.switchPending = false → s.mode.effective ≠ .initial →
          ∀ g c, (s.gate g).state = .active ∨ (s.gate g).state = .held → (s.gate g).commanded = some c →
            let n :=
              if (t.gate g).fresh = true then
                (if s.mgmt.active.t10.trackingBand < (t.gate g).measured - c + (c - (t.gate g).measured) then
                  (s.gate g).count + 1 else 0)
              else (s.gate g).count
            if s.mgmt.active.t10.trackingLimit ≤ n then
              (t.gate g).state = .fault .stuck ∧ (t.gate g).count = 0 ∧ flagIn .gateFault t.report.flags = true
            else (t.gate g).state = (s.gate g).state ∧ (t.gate g).count = n)
      ∧ (s.mgmt.switchPending = false → s.mode.effective ≠ .initial → ∀ g, (s.gate g).state = .localControl →
          (t.gate g).state = .localControl ∧ (t.gate g).count = (s.gate g).count
            ∧ (t.gate g).commanded
                = if (t.gate g).fresh = true then some (t.gate g).measured else (s.gate g).commanded)
      ∧ (s.mgmt.switchPending = false → ∀ g,
          let r := s.gate g
          (t.gate g).target = r.target
            ∧ (r.state ≠ .localControl → (t.gate g).commanded = r.commanded)
            ∧ (r.state = .absent → t.gate g = r)
            ∧ (r.state = .offline ∨ r.state.isFault = true ∨ r.state = .unreachable ∨ r.commanded = none
                  ∨ s.mode.effective = .initial →
                (t.gate g).state = r.state ∧ (t.gate g).count = r.count)
            ∧ (s.mode.effective = .initial → (t.gate g).commanded = r.commanded))
      ∧ (Quiet s →
          let raised : Flag → Prop := fun f =>
            flagIn f t.report.flags = true ∧ flagIn f s.report.flags = false ∧ flagIn f t.mgmt.active.t10.mask = false
          let frames := reportFrames 4 t
          (∃ u, t = closeEvent u ∧ u.ring = s.ring ∧ u.marks.placed = true ∧ (u.marks.reportDue = true ↔ ∃ f, raised f)
              ∧ reportFrames 4 u = frames)
            ∧ ((∀ f, ¬ raised f) → t.report.allowance = true ∧ t.report.waiting = s.report.waiting)
            ∧ ((∃ f, raised f) →
                t.report.allowance = false ∧ (t.report.waiting = true ↔ ∃ f f', f ≠ f' ∧ raised f ∧ raised f'))
            ∧ (s.ring.ro ≠ none ∨ ¬ InService s →
                ((∀ f, ¬ raised f) →
                    t.ring.feed = s.ring.feed ∧ t.counter .reportDrops = s.counter .reportDrops)
                  ∧ ((∃ f, raised f) → frames.length ≤ s.feedRoom →
                      t.ring.feed = s.ring.feed ++ frames ∧ t.counter .reportDrops = s.counter .reportDrops)
                  ∧ ((∃ f, raised f) → s.feedRoom < frames.length →
                      t.ring.feed = s.ring.feed
                        ∧ t.counter .reportDrops = min (s.counter .reportDrops + 1) 65535)))
      ∧ (t.mode.effective ≠ .initial →
          (t.mode.duty = true ↔
            t.mgmt.active.t10.compGate ≠ none
              ∧ ∀ g, (t.gateCfg g).cls = .unit → (t.gate g).commanded = none ∨ (t.gate g).commanded = some 0))
      ∧ (t.mode.effective = .initial → t.mode.duty = s.mode.duty)
      ∧ (t.meas.hw.fresh = false → t.mode.dwellStart = none ∧ flagIn .headStale t.report.flags = true)
      ∧ (t.meas.tw.fresh = false → flagIn .headStale t.report.flags = true)
      ∧ (s.mgmt.switchPending = false → t.meas.hw.fresh = true → t.mode.dwellStart = s.mode.dwellStart)
      ∧ (t.mode.effective ≠ .initial → t.mode.effective ≠ t.mode.requested.toMode →
          flagIn .demoted t.report.flags = true)
      ∧ ((∃ g, (t.gate g).state.isFault = true) → flagIn .gateFault t.report.flags = true)
      ∧ ((∃ g, (t.gate g).state = .unreachable) → flagIn .gateUnreachable t.report.flags = true)
      ∧ ((∃ g, (t.gate g).state = .localControl) → flagIn .gateLocal t.report.flags = true)

/-- R103, R104, R115, R116: what an expiry does with the plan position, the run state and the report interval count, on the position as
the check of a switch leaves it, and the two report events: periodic at the interval, and plan point when a cadence of the plan
begins at the report point. -/
def Obligations.ExpiryAdvancesPlan : Prop :=
  ∀ s : State, Awake s → Settled s → s.clock.expiryDue = true → s.engine.computation = none →
    ∃ t, exec .cadenceExpiry s = .next t
      ∧ (let set := if s.mgmt.switchPending = true then s.mgmt.shadow else s.mgmt.active
         let now : Timer :=
           if s.mgmt.switchPending = false then s.timer
           else if set.plan.count = 0 then
             { s.timer with run := .stopped, step := 0, cadence := 0, startPending := false }
           else if set.plan.count ≤ s.timer.step then
             { s.timer with step := set.plan.count - 1, cadence := (stepAt set (set.plan.count - 1)).duration - 1 }
           else if (stepAt set s.timer.step).duration ≤ s.timer.cadence then
             { s.timer with cadence := (stepAt set s.timer.step).duration - 1 }
           else s.timer
         t.timer.gateOpen = s.timer.gateOpen
          ∧ t.timer.reportCount
              = (if set.t10.reportInterval ≤ s.timer.reportCount + 1 then 0 else s.timer.reportCount + 1)
          ∧ (t.report.periodicDue = true ↔
              s.report.periodicDue = true ∨ set.t10.reportInterval ≤ s.timer.reportCount + 1)
          ∧ (t.report.pointDue = true ↔
              s.report.pointDue = true
                ∨ (t.timer.run = .running ∧ t.timer.cadence = set.plan.pointCadence
                    ∧ (set.plan.pointMode = .once → t.timer.step = set.plan.pointStep)))
          ∧ (now.run ≠ .running →
              t.timer.run = now.run ∧ t.timer.step = now.step ∧ t.timer.cadence = now.cadence
                ∧ t.timer.startPending = now.startPending)
          ∧ (now.run = .running →
              t.timer.startPending = false
                ∧ if now.startPending = true then
                    t.timer.run = .running ∧ t.timer.step = now.step ∧ t.timer.cadence = now.cadence
                  else if now.cadence + 1 < (stepAt set now.step).duration then
                    t.timer.run = .running ∧ t.timer.step = now.step ∧ t.timer.cadence = now.cadence + 1
                  else if now.step + 1 < set.plan.count then
                    t.timer.run = .running ∧ t.timer.step = now.step + 1 ∧ t.timer.cadence = 0
                  else if set.plan.kind = .cyclic then
                    t.timer.run = .running ∧ t.timer.step = 0 ∧ t.timer.cadence = 0
                  else
                    t.timer.run = .ended ∧ t.timer.step = now.step ∧ t.timer.cadence = now.cadence
                      ∧ flagIn .planEnded t.report.flags = true))

/-! ### The completion -/

/-- R60: the completion of an INITIAL computation whose test did not pass writes the Q_A of its snapshot and nothing else of the
results record, and leaves the gate records, the orders and the mode alone. -/
def Obligations.CompletionInInitial : Prop :=
  ∀ (s : State) (sn : Snapshot), Awake s → Settled s → s.engine.computation = some sn → sn.mode = .initial →
    ¬ (sn.hw.fresh = true ∧ sn.tw.fresh = true ∧ ∃ g, (sn.gates.get g).state = .active) →
    ∃ t, exec .computationCompletion s = .next t
      ∧ t.engine = { results := { s.engine.results with qA := sn.qA }, computation := none }
      ∧ t.gates = s.gates ∧ t.mode = s.mode ∧ t.meas = s.meas ∧ t.reach = s.reach ∧ t.timer = s.timer
      ∧ t.mgmt = s.mgmt ∧ t.clock = s.clock ∧ t.orders.lost = s.orders.lost
      ∧ ∀ o ∈ t.orders.queue, o ∈ s.orders.queue

/-- R19, R60, R130: the completion that leaves INITIAL: the effective mode by Table 7-3, the bumpless start of every present gate
from the positions of the snapshot, and the results record. A LOCAL or UNREACHABLE record, which Table of R19 does not list, is
log entry 6. The sum of R60 over the present gates, each at its effective opening (R20) as the bumpless start leaves it. R130, R21, R27: it
raises DEMOTED when the new effective mode is demoted, GATE_FAULT when the bumpless start puts a gate in FAULT, and HEAD_RANGE when the
head of the snapshot exceeds the last band end, and no other flag. R7, R60, R151: the orders requested at it, all NORMAL, less the one
that the arbiter takes when RO is idle. -/
def Obligations.CompletionLeavesInitial : Prop :=
  ∀ (s : State) (sn : Snapshot), Awake s → Settled s → s.engine.computation = some sn → sn.mode = .initial →
    sn.hw.fresh = true → sn.tw.fresh = true → (∃ g, (sn.gates.get g).state = .active) →
    ∃ t, exec .computationCompletion s = .next t
      ∧ t.mode = { s.mode with effective := effectiveMode s.mode.requested s.mode.stage }
      ∧ (∀ g, (s.gate g).state = .absent → t.gate g = s.gate g)
      ∧ (∀ g, (s.gate g).state ≠ .absent → (sn.gates.get g).fresh = true →
          t.gate g = { s.gate g with commanded := some (sn.gates.get g).measured })
      ∧ (∀ g, (s.gate g).state ≠ .absent → (sn.gates.get g).fresh = false →
          (t.gate g).commanded = some (s.gateCfg g).minOpening
            ∧ (t.gate g).state
                = if (s.gate g).state = .active ∨ (s.gate g).state = .held then .fault .stuck else (s.gate g).state)
      ∧ (let sum :=
           sumGates fun g =>
             if (t.gate g).state = .absent then 0
             else
               forwardRating (sn.govSet.t3.get (sn.govSet.t1.get g).ratingSet) (bandOf sn.govSet.t4 sn.head.value)
                 (if (sn.gates.get g).fresh = true then (sn.gates.get g).measured else (t.gate g).commanded.getD 0)
         t.engine
           = { results :=
                 { qT := sum, qTPrev := sum, frozen := sum, qA := sn.qA, fixed := 0, qR := 0, qR2 := 0, remainder := 0,
                   allot := Tab.const 16 0, qD := sum, shortfall := 0, cause := .none, excess := 0 }
               computation := none })
      ∧ (∀ f,
          flagIn f t.report.flags = true ↔
            flagIn f s.report.flags = true
              ∨ (f = .demoted ∧ effectiveMode s.mode.requested s.mode.stage ≠ s.mode.requested.toMode)
              ∨ (f = .gateFault ∧ ∃ g, (s.gate g).state.isFault = false ∧ (t.gate g).state.isFault = true)
              ∨ (f = .headRange ∧ sn.govSet.t4.get 7 < sn.head.value))
      ∧ t.meas = s.meas ∧ t.reach = s.reach ∧ t.timer = s.timer ∧ t.mgmt = s.mgmt ∧ t.clock = s.clock
      ∧ (let unsent := s.orders.queue.filter fun o =>
           !((t.gate o.gate).state.isFault && !(s.gate o.gate).state.isFault)
         let r := requestOrders .initial { s with gates := t.gates, orders := { s.orders with queue := unsent } }
         (t.orders.queue = r.orders.queue ∨ ∃ o, r.orders.queue = o :: t.orders.queue)
          ∧ (s.ring.ro ≠ none ∨ ¬ InService s → t.orders.queue = r.orders.queue)
          ∧ t.orders.lost = s.orders.lost ∧ t.counter .superseded = r.counter .superseded)

/-- R7, R77: the completion outside INITIAL writes the target and the commanded opening of exactly the gates that were ACTIVE in the
snapshot and are ACTIVE still, writes the results record, and leaves the other blocks alone. R7, R151, R141: it then requests the
orders of the cadence (their forms are those of `OrderQueueEffects`); with RO busy they wait in the order queue, and with RO idle, the
relay buffer below 3 and room in the in-flight list, the head of that queue goes out at once. In a quiet state the completion ends as
every event does (`SendEndServesFeeds`), with a frame placed exactly when some gate is ordered or a report has joined its queue. The
model's choices in it: that an order which only supersedes a waiting one counts as placed (log entry 19), and that a gate which left
ACTIVE in between and is ACTIVE again is written (log entry 20). -/
def Obligations.CompletionGoverned : Prop :=
  ∀ (s : State) (sn : Snapshot), Awake s → Settled s → s.engine.computation = some sn → sn.mode ≠ .initial →
    ∃ t, exec .computationCompletion s = .next t
      ∧ t.engine = { results := (compute sn).results, computation := none }
      ∧ (∀ g,
          t.gate g
            = if (sn.gates.get g).state = .active ∧ (s.gate g).state = .active then
                { s.gate g with target := (compute sn).targets.get g, commanded := (compute sn).commands.get g }
              else s.gate g)
      ∧ ((compute sn).shortfallRaised = true → flagIn .shortfall t.report.flags = true)
      ∧ ((compute sn).excessRaised = true → flagIn .excess t.report.flags = true)
      ∧ ((sn.govSet.t4.get 7) < sn.head.value → flagIn .headRange t.report.flags = true)
      ∧ t.mode = s.mode ∧ t.meas = s.meas ∧ t.reach = s.reach ∧ t.timer = s.timer ∧ t.mgmt = s.mgmt
      ∧ t.clock = s.clock ∧ t.orders.lost = s.orders.lost
      ∧ (let r := requestOrders sn.mode { s with gates := t.gates }
         (t.orders.queue = r.orders.queue ∨ ∃ o, r.orders.queue = o :: t.orders.queue)
          ∧ (s.ring.ro ≠ none ∨ ¬ InService s → t.orders.queue = r.orders.queue)
          ∧ (InService s → s.ring.ro = none → s.ring.relay.length < 3 → s.ring.inFlight.length < 24 →
              (∃ g, (t.gate g).state.ordered = true ∧ (t.gate g).commanded ≠ none) →
              ∃ o f, r.orders.queue = o :: t.orders.queue ∧ t.ring.ro = some f
                ∧ f.dest = o.dest ∧ f.kind = 0x21 ∧ f.payload = orderPayload o)
          ∧ t.counter .superseded = r.counter .superseded
          ∧ (Quiet s → ∃ u, t = closeEvent u ∧ u.orders.queue = r.orders.queue ∧ u.marks.reportDue = false
              ∧ u.ring = { s.ring with feed := u.ring.feed }
              ∧ (u.marks.placed = true ↔
                  u.ring.feed ≠ s.ring.feed ∨ ∃ g, (t.gate g).state.ordered = true ∧ (t.gate g).commanded ≠ none)))

/-- R151, R152: the order requests of a completion: each gate in ACTIVE, HELD, LOCAL or UNREACHABLE with a commanded opening has one
unsent order, the one of Table 9-1; an order already waiting for another gate stays as it was; the orders that were waiting keep their
places, a superseding one its predecessor's, and the new ones follow in gate order; each superseded order is counted. R153: a withdrawal
removes the unsent orders of the gates named, and no other, and counts them. -/
def Obligations.OrderQueueEffects : Prop :=
  (∀ (m : Mode) (s : State), OneOrderPerGate s →
    OneOrderPerGate (requestOrders m s)
      ∧ (∀ g c, (s.gate g).state = .active ∨ (s.gate g).state = .held ∨ (s.gate g).state = .localControl
            ∨ (s.gate g).state = .unreachable →
          (s.gate g).commanded = some c →
          { dest := (s.gateCfg g).node, gate := g, opening := c,
            urgent := decide (m = .surcharge ∧ (s.gateCfg g).cls = .spill),
            cadenceLength := s.mgmt.active.t10.cadenceLength : Order } ∈ (requestOrders m s).orders.queue)
      ∧ (∀ g, (s.gate g).commanded = none ∨ (s.gate g).state = .absent ∨ (s.gate g).state = .offline
            ∨ (s.gate g).state.isFault = true →
          ∀ o : Order, o.gate = g → (o ∈ (requestOrders m s).orders.queue ↔ o ∈ s.orders.queue))
      ∧ ((requestOrders m s).orders.queue.map (·.gate)
          = s.orders.queue.map (·.gate)
            ++ (List.finRange 16).filter fun g =>
                (s.gate g).state.ordered && (s.gate g).commanded.isSome && decide (g ∉ s.orders.queue.map (·.gate)))
      ∧ (s.counter .superseded ≤ 65535 →
          (requestOrders m s).counter .superseded
            = min (s.counter .superseded
                + ((List.finRange 16).filter fun g =>
                    (s.gate g).state.ordered && (s.gate g).commanded.isSome
                      && decide (g ∈ s.orders.queue.map (·.gate))).length) 65535)
      ∧ (requestOrders m s).gates = s.gates ∧ (requestOrders m s).orders.lost = s.orders.lost)
    ∧ (∀ st : GateState,
        st.ordered = true ↔ st = .active ∨ st = .held ∨ st = .localControl ∨ st = .unreachable)
    ∧ ∀ (gone : GateNo → Bool) (s : State),
    let t := withdraw gone s
    t.orders.queue = s.orders.queue.filter (fun o => !gone o.gate)
      ∧ t.counter .withdrawn
          = min (s.counter .withdrawn + (s.orders.queue.filter fun o => gone o.gate).length) 65535
      ∧ t.orders.lost = s.orders.lost ∧ t.gates = s.gates ∧ t.ring = s.ring ∧ t.mgmt = s.mgmt

/-! ### The ring: milliseconds, sending, sequence numbers -/

/-- R142, R144, R155: milliseconds of the ring count always pass, each one higher. A millisecond removes every entry whose age reaches
the return limit and counts it LOST; each LOST expiry of an ORDER goes to the lost count of the entry's gate, and the third loss in a
row puts a gate in ACTIVE, HELD or LOCAL in UNREACHABLE. At the end of the event the arbiter may add one entry, for a condition report
that the losses raised, only when RO is idle. With no entry expired nothing else changes. Over several milliseconds an entry stays
exactly when its age is below the limit at each of them, and passing milliseconds one after another is passing their sum. -/
def Obligations.MillisecondEffect : Prop :=
  (∀ s : State, Awake s → Settled s → Quiet s → CountersInRange s →
    ∃ t, exec (.returnLimitExpiry 1) s = .next t
      ∧ t.ring.ms = s.ring.ms + 1
      ∧ (∃ more,
          t.ring.inFlight
              = (s.ring.inFlight.filter fun e =>
                  decide ((s.ring.ms + 1 - e.sent).toNat < s.mgmt.active.t10.returnLimit)) ++ more
            ∧ more.length ≤ 1 ∧ (∀ e ∈ more, e.sent = s.ring.ms + 1)
            ∧ (s.ring.ro ≠ none → more = []))
      ∧ t.counter .lost
          = min (s.counter .lost
              + (s.ring.inFlight.filter fun e =>
                  decide (s.mgmt.active.t10.returnLimit ≤ (s.ring.ms + 1 - e.sent).toNat)).length) 65535
      ∧ (∀ g,
          let losses :=
            (s.ring.inFlight.filter fun e =>
              decide (s.mgmt.active.t10.returnLimit ≤ (s.ring.ms + 1 - e.sent).toNat ∧ e.kind = .order
                ∧ e.gate = some g)).length
          let lost := s.orders.lost.get g
          let st := (s.gate g).state
          t.orders.lost.get g = (if losses = 0 then lost else min (lost + losses) 3)
            ∧ (losses = 0 ∨ lost + losses < 3 → t.gate g = s.gate g)
            ∧ (1 ≤ losses → 3 ≤ lost + losses → st = .active ∨ st = .held ∨ st = .localControl →
                t.gate g = { s.gate g with state := .unreachable, count := 0 }
                  ∧ flagIn .gateUnreachable t.report.flags = true)
            ∧ (¬ (st = .active ∨ st = .held ∨ st = .localControl) → t.gate g = s.gate g))
      ∧ ((∀ e ∈ s.ring.inFlight, (s.ring.ms + 1 - e.sent).toNat < s.mgmt.active.t10.returnLimit) →
          t = { s with ring := { s.ring with ms := s.ring.ms + 1 } }))
    ∧ (∀ (n : Nat) (s : State), Awake s →
        ∃ t, exec (.returnLimitExpiry n) s = .next t
          ∧ t.ring.ms = s.ring.ms + BitVec.ofNat 16 n
          ∧ (s.ring.ro ≠ none →
              t.ring.ro = s.ring.ro
                ∧ t.ring.inFlight
                    = s.ring.inFlight.filter fun e =>
                        (List.range n).all fun k =>
                          decide ((s.ring.ms + BitVec.ofNat 16 (k + 1) - e.sent).toNat
                            < s.mgmt.active.t10.returnLimit)))
    ∧ ∀ (m n : Nat) (s t : State), exec (.returnLimitExpiry m) s = .next t →
        exec (.returnLimitExpiry (m + n)) s = exec (.returnLimitExpiry n) t

/-- R141: at the end of a send RO is free, and the arbiter's choice on the state with RO idle follows. What the choice is: case 1, the
head of a relay buffer of 3 or 4; case 2, the head of the order queue while the in-flight list has room; case 3, the head of the relay
buffer; case 4, the head of the response/report queue while the in-flight list has room; else RO stays idle. R141, R175: the end of every
event: the condition report that the event called for is queued, or dropped for want of room; then, when the event has placed a frame in
a feed, that report among them, the arbiter chooses once if RO is idle, and nothing starts otherwise; and the marks of the event are
cleared (log entry 5). While RO is sending, or the ports are not in service, the arbiter does nothing. -/
def Obligations.SendEndServesFeeds : Prop :=
  (∀ s : State,
    let ended : State → State := fun u => { u with marks := { reportDue := false, placed := false } }
    let report := reportFrames 4 s
    (s.marks.reportDue = false → s.marks.placed = false → closeEvent s = ended s)
      ∧ (s.marks.reportDue = false → s.marks.placed = true → closeEvent s = ended (arbitrate s))
      ∧ (s.marks.reportDue = true → report.length ≤ s.feedRoom →
          closeEvent s = ended (arbitrate { s with ring := { s.ring with feed := s.ring.feed ++ report } }))
      ∧ (s.marks.reportDue = true → s.feedRoom < report.length → s.marks.placed = false →
          closeEvent s = ended (bump .reportDrops s))
      ∧ (s.marks.reportDue = true → s.feedRoom < report.length → s.marks.placed = true →
          closeEvent s = ended (arbitrate (bump .reportDrops s)))
      ∧ (s.ring.ro ≠ none ∨ ¬ InService s → arbitrate s = s)
      ∧ s.feedRoom = 8 - s.ring.feed.length)
    ∧ (∀ (s : State) (f : Frame), InService s → Settled s → Quiet s → s.ring.ro = some f →
    exec .sendEnd s = .next (arbitrate { s with ring := { s.ring with ro := none } }))
    ∧ ∀ s : State, InService s → s.ring.ro = none →
        (∀ f rest, s.ring.relay = f :: rest →
            3 ≤ s.ring.relay.length ∨ s.orders.queue = [] ∨ 24 ≤ s.ring.inFlight.length →
            arbitrate s = { s with ring := { s.ring with relay := rest, ro := some f } })
          ∧ (∀ o rest, s.orders.queue = o :: rest → s.ring.relay.length < 3 → s.ring.inFlight.length < 24 →
              arbitrate s
                = { s with
                    orders := { s.orders with queue := rest }
                    ring := originate o.dest .order (some o.gate) (orderPayload o) s.ring })
          ∧ (∀ f rest, s.ring.feed = f :: rest → s.ring.relay = [] → s.orders.queue = [] →
              s.ring.inFlight.length < 24 →
              arbitrate s = { s with ring := originate f.dest f.kind none f.payload { s.ring with feed := rest } })
          ∧ (s.ring.relay = [] → (s.orders.queue = [] ∧ s.ring.feed = []) ∨ 24 ≤ s.ring.inFlight.length →
              arbitrate s = s)

/-- R142: an originated frame takes the first sequence number, counting on from the counter with wrap, that no in-flight entry
holds; the counter is set to one past it; the frame's other fields, and its in-flight entry, are those of R142. -/
def Obligations.OriginatedFrame : Prop :=
  ∀ (dest : Byte) (kind : OwnKind) (gate : Option GateNo) (payload : List Byte) (r : Ring), r.inFlight.length ≤ 24 →
    ∃ k : Nat, k < 25
      ∧ (∀ j : Nat, j < k → r.seqCounter + BitVec.ofNat 8 j ∈ r.inFlight.map (·.seq))
      ∧ r.seqCounter + BitVec.ofNat 8 k ∉ r.inFlight.map (·.seq)
      ∧ originate dest kind gate payload r
          = { r with
              ro :=
                some
                  { dest := dest, src := r.nodeAddr, kind := kind.code, seq := r.seqCounter + BitVec.ofNat 8 k,
                    payload := payload, result := 0, hops := 0 }
              seqCounter := r.seqCounter + BitVec.ofNat 8 k + 1
              inFlight :=
                r.inFlight
                  ++ [{ kind := kind, seq := r.seqCounter + BitVec.ofNat 8 k, gate := gate, sent := r.ms }] }

/-! ### The frames taken in -/

/-- R137 to R140: a SAMPLE of 1 to 12 entries, a NOTICE and a PHASE are taken in by their blocks, whatever their DEST; one that is not
addressed to the part then meets the relay decision. -/
def Obligations.CopiedFramesAreHeard : Prop :=
  ∀ (h : Header) (s : State), InService s → Settled s → h.src ≠ s.ring.nodeAddr →
    (∀ es, 1 ≤ es.length → es.length ≤ 12 →
      exec (.sampleArrival h es) s
        = .next (closeEvent
            (if h.dest = s.ring.nodeAddr then takeSample h.src es s
             else relayFrame (frameOf h kindSample (sampleBytes es)) (takeSample h.src es s))))
    ∧ (∀ n,
      exec (.noticeArrival h n) s
        = .next (closeEvent
            (if h.dest = s.ring.nodeAddr then takeNotice n s
             else relayFrame (frameOf h kindNotice (noticeBytes n)) (takeNotice n s))))
    ∧ (∀ p,
      exec (.phaseArrival h p) s
        = .next (closeEvent
            (if h.dest = s.ring.nodeAddr then takePhase p s
             else relayFrame (frameOf h kindPhase (phaseBytes p)) (takePhase p s))))

/-- R37 to R41, R46: what the arrival of a SAMPLE of one entry does to the slots and to the counters of the Measurement Unit, and that
a taken value, and no other, is followed by the vote of the groups that its slot touches. R34, R37: the slot of a source and a channel
is the one of 0 to 31 that an in-use subscription of that pair names, where no two in use have one pair (check 10); there is none exactly
when no in-use subscription of the pair names one. -/
def Obligations.SampleEntryTaking : Prop :=
  (∀ set : GovSet,
    (∀ i j, (set.t6.get i).inUse = true → (set.t6.get j).inUse = true → (set.t6.get i).source = (set.t6.get j).source →
      (set.t6.get i).channel = (set.t6.get j).channel → i = j) →
    ∀ (src channel : Byte) (n : SlotNo),
      slotFor set src channel = some n ↔
        ∃ i, (set.t6.get i).inUse = true ∧ (set.t6.get i).source = src ∧ (set.t6.get i).channel = channel
          ∧ (set.t6.get i).slot.toNat = n.val)
    ∧ ∀ (src : Byte) (e : SampleEntry) (s : State),
    let t := takeSample src [e] s
    (slotFor s.mgmt.active src e.channel = none → t = s)
      ∧ ∀ n, slotFor s.mgmt.active src e.channel = some n →
          let p := s.mgmt.active.t7.get n
          let sl := s.meas.slots.get n
          let eng : Int := ((e.raw.toNat * p.gain / 4096 : Nat) : Int) + p.offset
          let v : Nat := (max 0 (min eng 65535)).toNat
          let q : Quality := if e.quality = 1 then .suspect else if eng < 0 ∨ 65535 < eng then .clamped else .good
          let near : Nat → Prop := fun a => a - v + (v - a) ≤ p.jumpLimit
          (∀ m, m ≠ n → t.meas.slots.get m = s.meas.slots.get m)
            ∧ (e.quality ≠ 0 → e.quality ≠ 1 → t = bump .badSamples s)
            ∧ (e.quality = 0 ∨ e.quality = 1 →
                (p.jumpLimit = 0 ∨ sl.quality = .empty ∨ near sl.value ∨ (∃ c, sl.candidate = some c ∧ near c) →
                    t.meas.slots.get n = { value := v, quality := q, age := 0, candidate := none }
                      ∧ t = voteTouched [n]
                          { s with
                            meas :=
                              { s.meas with
                                slots := s.meas.slots.set n
                                  { value := v, quality := q, age := 0, candidate := none } } })
                  ∧ (p.jumpLimit ≠ 0 → sl.quality ≠ .empty → ¬ near sl.value →
                      (∀ c, sl.candidate = some c → ¬ near c) →
                      t = bump .jumpHolds
                            { s with
                              meas :=
                                { s.meas with slots := s.meas.slots.set n { sl with candidate := some v } } }))

/-- R46 to R48, R50: a vote counts the fresh slots of a group, those in GOOD or CLAMPED that the roles of T8 name, one for each role:
three give the median, two the floor of the mean, one its value, none the level before, held; the order of the roles plays no part.
The head is the difference of the levels, 0 where it would be negative, fresh when both are. An event votes once, for the groups that
name a slot it touched: a SAMPLE after all its entries, for the slots into which a value was taken; the slot of an entry is the one that
an in-use subscription of its source and channel names (R34, R37), and R38 and R41 give the value offered and the test it passes. A
headwater vote that leaves HW
fresh hands HW to the Mode Supervisor; nothing else is handed. -/
def Obligations.VoteRules : Prop :=
  (∀ set : GovSet,
    (∀ i j, (set.t6.get i).inUse = true → (set.t6.get j).inUse = true → (set.t6.get i).source = (set.t6.get j).source →
      (set.t6.get i).channel = (set.t6.get j).channel → i = j) →
    ∀ (src channel : Byte) (n : SlotNo),
      slotFor set src channel = some n ↔
        ∃ i, (set.t6.get i).inUse = true ∧ (set.t6.get i).source = src ∧ (set.t6.get i).channel = channel
          ∧ (set.t6.get i).slot.toNat = n.val)
    ∧ (∀ (sl : Slot) (limit v : Nat),
        sl.accepts limit v = true ↔
          limit = 0 ∨ sl.quality = .empty ∨ sl.value - v + (v - sl.value) ≤ limit
            ∨ ∃ c, sl.candidate = some c ∧ c - v + (v - c) ≤ limit)
    ∧ (∀ (p : SlotParams) (raw : Nat),
        (scaledValue p raw : Int) = max 0 (min (((raw * p.gain / 4096 : Nat) : Int) + p.offset) 65535))
    ∧ (∀ p, voteOf p [] = ⟨p.value, false⟩)
    ∧ (∀ p a, voteOf p [a] = ⟨a, true⟩)
    ∧ (∀ p a b, voteOf p [a, b] = ⟨(a + b) / 2, true⟩)
    ∧ (∀ p a b c, ∃ m, voteOf p [a, b, c] = ⟨m, true⟩ ∧ (m = a ∨ m = b ∨ m = c)
        ∧ 2 ≤ ([a, b, c].filter fun x => decide (x ≤ m)).length
        ∧ 2 ≤ ([a, b, c].filter fun x => decide (m ≤ x)).length)
    ∧ (∀ p l l', l.Perm l' → l.length ≤ 3 → voteOf p l = voteOf p l')
    ∧ (∀ slots group,
        freshValues slots group
          = (((group.map slots.get).filter fun sl => decide (sl.quality = .good ∨ sl.quality = .clamped)).map
              (·.value)))
    ∧ (∀ r : LevelRoles,
        r.headwater = r.hw1.toList ++ r.hw2.toList ++ r.hw3.toList ∧ r.tailwater = r.tw1.toList ++ r.tw2.toList)
    ∧ (∀ (hwGroup twGroup : Bool) (s : State),
        let t := formVotes hwGroup twGroup s
        let roles := s.mgmt.active.t8
        t.meas.head.value + min t.meas.hw.value t.meas.tw.value = t.meas.hw.value
          ∧ (t.meas.head.fresh = true ↔ t.meas.hw.fresh = true ∧ t.meas.tw.fresh = true)
          ∧ t.meas.slots = s.meas.slots
          ∧ (hwGroup = true → t.meas.hw = voteOf s.meas.hw (freshValues s.meas.slots roles.headwater))
          ∧ (twGroup = true → t.meas.tw = voteOf s.meas.tw (freshValues s.meas.slots roles.tailwater))
          ∧ (hwGroup = false → t.meas.hw = s.meas.hw) ∧ (twGroup = false → t.meas.tw = s.meas.tw)
          ∧ ((t.meas.hw.fresh = false ∨ t.meas.tw.fresh = false) → flagIn .headStale t.report.flags = true)
          ∧ t.mode = s.mode)
    ∧ (∀ (touched : List SlotNo) (s : State),
        let t := voteTouched touched s
        let roles := s.mgmt.active.t8
        let hwGroup := decide (∃ n ∈ roles.headwater, n ∈ touched)
        let twGroup := decide (∃ n ∈ roles.tailwater, n ∈ touched)
        let u := formVotes hwGroup twGroup s
        (hwGroup = false → twGroup = false → t = s)
          ∧ (hwGroup = true ∨ twGroup = true → t.meas = u.meas)
          ∧ (hwGroup = true → u.meas.hw.fresh = true → t = evaluateStage u.meas.hw.value u)
          ∧ (twGroup = true → hwGroup = false ∨ u.meas.hw.fresh = false → t = u)
          ∧ (hwGroup = true → u.meas.hw.fresh = false → t = u))
    ∧ ∀ (src : Byte) (entries : List SampleEntry) (s : State),
        let offered := fun es : List SampleEntry => (es.foldl (offerEntry src) (s, [])).1
        ∃ touched : List SlotNo,
          takeSample src entries s = voteTouched touched (offered entries)
            ∧ (offered entries).meas.hw = s.meas.hw ∧ (offered entries).meas.tw = s.meas.tw
            ∧ (offered entries).mode = s.mode
            ∧ ∀ n, n ∈ touched ↔
                ∃ before e rest, entries = before ++ e :: rest ∧ slotFor s.mgmt.active src e.channel = some n
                  ∧ (e.quality = 0 ∨ e.quality = 1)
                  ∧ ((offered before).meas.slots.get n).accepts (s.mgmt.active.t7.get n).jumpLimit
                      (scaledValue (s.mgmt.active.t7.get n) e.raw.toNat) = true

/-- R118, R120, R121, R125: one fresh headwater raises the stage at once to the highest threshold it reaches, else lets it fall by at
most one stage, and that only from below the fall level after the dwell. The fall level of a stage above NORMAL is its threshold less
HYS; where that is below 0, and at NORMAL, there is none. After a fall the dwell restarts when the headwater is below the new stage's
fall level too, and is absent otherwise; a dwell that is still running is kept. The effective mode follows Table 7-3 outside INITIAL; its
twelve entries. -/
def Obligations.FreshHeadwaterMovesStage : Prop :=
  ∀ (hw : Nat) (s : State), ModeByTable s →
    let p := s.mgmt.active.t10
    let t := evaluateStage hw s
    let reached : Stage :=
      if p.tExtreme ≤ hw then .extreme else if p.tFlood ≤ hw then .flood else if p.tAlert ≤ hw then .alert else .normal
    let threshold : Stage → Option Nat := fun st => match st with
      | .normal => none
      | .alert => some p.tAlert
      | .flood => some p.tFlood
      | .extreme => some p.tExtreme
    let low : Stage → Prop := fun st => ∃ l, threshold st = some l ∧ 0 ≤ (l : Int) - p.hys ∧ (hw : Int) < (l : Int) - p.hys
    (s.mode.stage.rank < reached.rank →
        t.mode.stage = reached ∧ t.mode.dwellStart = none ∧ flagIn .stageRise t.report.flags = true)
      ∧ (reached.rank ≤ s.mode.stage.rank →
          (t.mode.stage = s.mode.stage
            ∨ (t.mode.stage = s.mode.stage.below ∧ low s.mode.stage ∧ flagIn .stageFall t.report.flags = true
                ∧ ∃ d, s.mode.dwellStart = some d ∧ p.fallDwell ≤ s.clock.ssc - d))
            ∧ (¬ low s.mode.stage →
                t.mode.stage = s.mode.stage
                  ∧ t.mode.dwellStart = if s.mode.stage = .normal then s.mode.dwellStart else none)
            ∧ (low s.mode.stage → s.mode.dwellStart = none →
                t.mode.stage = s.mode.stage ∧ t.mode.dwellStart = some s.clock.ssc)
            ∧ (∀ d, low s.mode.stage → s.mode.dwellStart = some d → p.fallDwell ≤ s.clock.ssc - d →
                t.mode.stage = s.mode.stage.below ∧ flagIn .stageFall t.report.flags = true
                  ∧ (low s.mode.stage.below → t.mode.dwellStart = some s.clock.ssc)
                  ∧ (¬ low s.mode.stage.below → t.mode.dwellStart = none))
            ∧ (∀ d, low s.mode.stage → s.mode.dwellStart = some d → s.clock.ssc - d < p.fallDwell → t = s))
      ∧ (Stage.extreme.below = .flood ∧ Stage.flood.below = .alert ∧ Stage.alert.below = .normal)
      ∧ [Stage.normal, .alert, .flood, .extreme].map Stage.rank = [0, 1, 2, 3]
      ∧ ([Stage.normal, .alert, .flood, .extreme].map (effectiveMode .schedule)
            = [.schedule, .schedule, .passThrough, .surcharge]
          ∧ [Stage.normal, .alert, .flood, .extreme].map (effectiveMode .passThrough)
              = [.passThrough, .passThrough, .passThrough, .surcharge]
          ∧ [Stage.normal, .alert, .flood, .extreme].map (effectiveMode .hold)
              = [.hold, .passThrough, .passThrough, .surcharge])
      ∧ (s.mode.effective ≠ .initial → t.mode.effective ≠ .initial
          ∧ t.mode.effective = effectiveMode t.mode.requested t.mode.stage)
      ∧ ModeByTable t
      ∧ (s.mode.effective = .initial → t.mode.effective = .initial)
      ∧ t.mode.requested = s.mode.requested ∧ t.mode.duty = s.mode.duty

/-- R84 to R89: what a NOTICE does: dropped in silence for the part's own station; FOREIGN; DUPLICATE; STALE; else accepted, with the due
second of R86 (by the travel time of the first band whose end the release does not exceed, the last band's when it exceeds all) after
the clamp of R87, applied at once when it is late and inserted in the queue when it is not; and the counters
CLAMPED_DUE, LATE and EARLY_APPLY. A station is followed by the record in use that names it, where no two in use name one station
(check 12), and by none exactly when no record in use names it. The latest due of a due second below 0 is log entry 2, and is not stated. -/
def Obligations.NoticeOutcomes : Prop :=
  (∀ set : GovSet,
    (∀ n m, (set.t9.get n).inUse = true → (set.t9.get m).inUse = true →
      (set.t9.get n).station = (set.t9.get m).station → n = m) →
    ∀ (station : Byte) (n : OriginNo),
      followerOf set station = some n ↔ (set.t9.get n).inUse = true ∧ (set.t9.get n).station = station)
    ∧ ∀ (nf : NoticeFields) (s : State),
    let t := takeNotice nf s
    (nf.origin.toNat = s.ring.station.toNat → t = s)
      ∧ (nf.origin.toNat ≠ s.ring.station.toNat → followerOf s.mgmt.active nf.origin = none → t = bump .foreign s)
      ∧ ∀ n, nf.origin.toNat ≠ s.ring.station.toNat → followerOf s.mgmt.active nf.origin = some n →
          let o := s.reach.origins.get n
          let release := min nf.release.toNat 1048575
          let followed := s.mgmt.active.t9.get n
          let travel :=
            if release ≤ followed.bands.get 0 then followed.times.get 0
            else if release ≤ followed.bands.get 1 then followed.times.get 1
            else if release ≤ followed.bands.get 2 then followed.times.get 2
            else followed.times.get 3
          let exact : Int := min ((s.clock.ssc : Int) - nf.age.toNat + travel) 4294967295
          let due : Int := match o.latestDue with
            | none => exact
            | some l => max exact l
          (o.lastSeq = some nf.seqNo → t = bump .duplicate s)
            ∧ (∀ l, o.lastSeq = some l → nf.seqNo ≠ l → 32768 ≤ (nf.seqNo - l).toNat → t = bump .stale s)
            ∧ ((∀ l, o.lastSeq = some l → nf.seqNo ≠ l ∧ (nf.seqNo - l).toNat ≤ 32767) →
                (t.reach.origins.get n).lastSeq = some nf.seqNo
                  ∧ (0 ≤ due → (t.reach.origins.get n).latestDue = some due.toNat)
                  ∧ t.counter .clampedDue
                      = (if exact < due then min (s.counter .clampedDue + 1) 65535 else s.counter .clampedDue)
                  ∧ t.counter .late
                      = (if due ≤ s.clock.ssc then min (s.counter .late + 1) 65535 else s.counter .late)
                  ∧ t.counter .earlyApply
                      = (if (s.clock.ssc : Int) < due ∧ 32 ≤ s.reach.queue.length then
                          min (s.counter .earlyApply + 1) 65535 else s.counter .earlyApply)
                  ∧ (due ≤ s.clock.ssc →
                      t.reach.queue = s.reach.queue ∧ (t.reach.origins.get n).arriving = release
                        ∧ ∀ m, m ≠ n → t.reach.origins.get m = s.reach.origins.get m)
                  ∧ ((s.clock.ssc : Int) < due → s.reach.queue.length < 32 →
                      t.reach.queue
                          = insertByDue { origin := n, seqNo := nf.seqNo, release := release, due := due.toNat }
                              s.reach.queue
                        ∧ (t.reach.origins.get n).arriving = o.arriving
                        ∧ ∀ m, m ≠ n → t.reach.origins.get m = s.reach.origins.get m)
                  ∧ (∀ x rest, (s.clock.ssc : Int) < due → 32 ≤ s.reach.queue.length → s.reach.queue = x :: rest →
                      t.reach.queue
                          = insertByDue { origin := n, seqNo := nf.seqNo, release := release, due := due.toNat } rest
                        ∧ (t.reach.origins.get x.origin).arriving = x.release
                        ∧ flagIn .earlyApply t.report.flags = true))

/-- R89: an entry is inserted after every entry due no later and before every entry due later, the others keeping their order. -/
def Obligations.QueueInsertionPlace : Prop :=
  ∀ (e : ReachEntry) (q : List ReachEntry), (q.Pairwise fun a b => a.due ≤ b.due) →
    ∃ before after, q = before ++ after ∧ insertByDue e q = before ++ e :: after
      ∧ (∀ x ∈ before, x.due ≤ e.due) ∧ (∀ x ∈ after, e.due < x.due)
      ∧ ((insertByDue e q).Pairwise fun a b => a.due ≤ b.due)

/-- R111 to R113: what a PHASE does, and that the position it loads is a valid one of the plan, at the plan index of R112. -/
def Obligations.PhaseReload : Prop :=
  ∀ (p : PhaseFields) (s : State),
    let set := s.mgmt.active
    let t := takePhase p s
    (set.plan.phaseFollow = false ∨ p.origin.toNat ≠ set.plan.followed → t = s)
      ∧ (set.plan.phaseFollow = true → p.origin.toNat = set.plan.followed → set.plan.count ≤ p.step.toNat →
          t = bump .phaseRange s)
      ∧ (∀ i : Fin 48, stepAt set i.val = set.steps.get i)
      ∧ durations set = ((List.range set.plan.count).map fun i => (stepAt set i).duration)
      ∧ (set.plan.phaseFollow = true → p.origin.toNat = set.plan.followed → p.step.toNat < set.plan.count →
          (∀ d ∈ durations set, 1 ≤ d) →
          t = { s with timer := t.timer }
            ∧ t.timer.step < set.plan.count
            ∧ t.timer.cadence < (stepAt set t.timer.step).duration
            ∧ (let a : Int :=
                ((((durations set).take p.step.toNat).sum : Nat) : Int) + p.cadence.toNat + set.plan.phaseOffset
               let c : Int := ((durations set).sum : Nat)
               ((((durations set).take t.timer.step).sum + t.timer.cadence : Nat) : Int)
                 = match set.plan.kind with
                   | .cyclic => a % c
                   | .oneShot => min (max a 0) (c - 1))
            ∧ t.timer.startPending = false
            ∧ t.timer.schedule = min (s.clock.ssc + set.t10.cadenceLength) 4294967295
            ∧ t.timer.gateOpen = s.timer.gateOpen ∧ t.timer.reportCount = s.timer.reportCount
            ∧ t.timer.run
                = if s.timer.run = .ended
                      ∧ ¬ (t.timer.step + 1 = set.plan.count
                            ∧ t.timer.cadence + 1 = (stepAt set t.timer.step).duration) then .running
                  else s.timer.run)

/-! ### Returns, relays and drops -/

/-- R143, R154: the return of an ORDER, a RESPONSE or a REPORT: matched to the entry of its kind and sequence number, which is removed,
an ORDER's result going to the gate of the entry; without a match it is STRAY. R137, R143: so is every frame with the part's own address
as SRC whose kind is none of these three, whatever its DEST and its length, and a REQUEST from that address. -/
def Obligations.ReturnsAreMatched : Prop :=
  ∀ (h : Header) (s : State), InService s → Settled s → h.src = s.ring.nodeAddr → InFlightDistinct s →
    (∀ o : OrderFields,
      (∀ e g, e ∈ s.ring.inFlight → e.kind = .order → e.seq = h.seq → e.gate = some g →
        exec (.orderReturn h o) s
          = .next (closeEvent (applyResult g h.result (some o.opening.toNat)
              { s with ring := { s.ring with inFlight := s.ring.inFlight.filter fun x => decide (x.seq ≠ h.seq) } })))
        ∧ ((∀ e ∈ s.ring.inFlight, e.kind = .order → e.seq ≠ h.seq) →
            exec (.orderReturn h o) s = .next (closeEvent (bump .stray s))))
    ∧ (∀ (kind : OwnKind) (payload : List Byte), kind ≠ .order → payload.length ≤ 60 →
        (∀ e ∈ s.ring.inFlight, e.kind = kind → e.seq = h.seq →
          exec (.ownFrameReturn h kind.code payload) s
            = .next (closeEvent
                { s with
                  ring := { s.ring with inFlight := s.ring.inFlight.filter fun x => decide (x.seq ≠ h.seq) } }))
          ∧ ((∀ e ∈ s.ring.inFlight, e.kind = kind → e.seq ≠ h.seq) →
              exec (.ownFrameReturn h kind.code payload) s = .next (closeEvent (bump .stray s))))
    ∧ (OwnKind.order.code = 0x21 ∧ OwnKind.response.code = 0x42 ∧ OwnKind.report.code = 0x51)
    ∧ (∀ (kind : Byte) (payload : List Byte), kind ≠ 0x21 → kind ≠ 0x42 → kind ≠ 0x51 → payload.length ≤ 60 →
        ∀ command ∈ [Instr.ownFrameReturn, Instr.frameRelay, Instr.unexpectedKindFrame, Instr.malformedFrame],
          exec (command h kind payload) s = .next (closeEvent (bump .stray s)))
    ∧ (∀ es, es.length ≤ 15 → exec (.sampleArrival h es) s = .next (closeEvent (bump .stray s)))
    ∧ (∀ n, exec (.noticeArrival h n) s = .next (closeEvent (bump .stray s)))
    ∧ ∀ p, exec (.phaseArrival h p) s = .next (closeEvent (bump .stray s))

/-- R15, R16, R154, R155: what the result of an ORDER does to the lost count and the gate record, and the counters BAD_RESULT (a code
above 4) and IGNORED_RESULTS (an outcome delivered to a gate in ABSENT, OFFLINE or FAULT). The opening that a LOCAL gate takes
from a returned field above 1,000 is log entry 1, and is not stated. -/
def Obligations.OrderResultTable : Prop :=
  ∀ (g : GateNo) (result : Byte) (opening : Option Nat) (s : State),
    let t := applyResult g result opening s
    let st := (s.gate g).state
    let lost := s.orders.lost.get g
    (∀ g', g' ≠ g → t.gate g' = s.gate g' ∧ t.orders.lost.get g' = s.orders.lost.get g')
      ∧ (result = 0 ∨ 5 ≤ result.toNat →
          (lost < 2 → t.orders.lost.get g = lost + 1 ∧ t.gate g = s.gate g)
            ∧ (2 ≤ lost → t.orders.lost.get g = 3
                ∧ (st = .active ∨ st = .held ∨ st = .localControl →
                    t.gate g = { s.gate g with state := .unreachable, count := 0 }
                      ∧ flagIn .gateUnreachable t.report.flags = true)
                ∧ (¬ (st = .active ∨ st = .held ∨ st = .localControl) → t.gate g = s.gate g)))
      ∧ (1 ≤ result.toNat → result.toNat ≤ 4 → t.orders.lost.get g = 0)
      ∧ (st = .absent ∨ st = .offline ∨ st.isFault = true → t.gate g = s.gate g)
      ∧ t.counter .badResult
          = (if 5 ≤ result.toNat then min (s.counter .badResult + 1) 65535 else s.counter .badResult)
      ∧ t.counter .ignoredResults
          = (if (st = .absent ∨ st = .offline ∨ st.isFault = true)
                ∧ ((1 ≤ result.toNat ∧ result.toNat ≤ 4) ∨ 2 ≤ lost) then
              min (s.counter .ignoredResults + 1) 65535
            else s.counter .ignoredResults)
      ∧ (result = 1 →
          (st = .active ∨ st = .held → t.gate g = s.gate g)
            ∧ (st = .unreachable → t.gate g = { s.gate g with state := .active, count := 0 })
            ∧ (st = .localControl →
                (t.gate g).state = .active ∧ (t.gate g).count = 0
                  ∧ (t.gate g).measured = min (s.positionSlot g).value 1000
                  ∧ (t.gate g).fresh = (s.positionSlot g).quality.fresh
                  ∧ ((s.positionSlot g).quality.fresh = true → (t.gate g).commanded = some (t.gate g).measured)
                  ∧ (∀ n, (s.positionSlot g).quality.fresh = false → opening = some n → n ≤ 1000 →
                      (t.gate g).commanded = some n)))
      ∧ (result = 2 → st = .active ∨ st = .held ∨ st = .unreachable →
          t.gate g = { s.gate g with state := .localControl, count := 0 } ∧ flagIn .gateLocal t.report.flags = true)
      ∧ (result = 2 → st = .localControl → t.gate g = s.gate g)
      ∧ (result = 3 → st = .active ∨ st = .held ∨ st = .localControl ∨ st = .unreachable →
          t.gate g = { s.gate g with state := .fault .drive, count := 0 }
            ∧ (∀ o ∈ t.orders.queue, o.gate ≠ g) ∧ flagIn .gateFault t.report.flags = true)
      ∧ (result = 4 → st = .active ∨ st = .held ∨ st = .localControl ∨ st = .unreachable →
          t.gate g = { s.gate g with state := .fault .travel, count := 0 }
            ∧ (∀ o ∈ t.orders.queue, o.gate ≠ g) ∧ flagIn .gateFault t.report.flags = true)

/-- R139, R140: the relay decision on a frame: relayed with HOPS one higher and nothing else changed; dropped at the hop limit; dropped,
counted and flagged when the relay buffer is full. R137, R138: a frame of another node, for another node, meets it as it comes when its
kind is not copied in; a SAMPLE, NOTICE or PHASE of unlawful length is counted MALFORMED, is not copied in, and meets it after that. -/
def Obligations.RelayDecision : Prop :=
  (∀ (f : Frame) (s : State),
    (62 ≤ f.hops.toNat → relayFrame f s = bump .hopDrops s)
      ∧ (f.hops.toNat < 62 → s.ring.relay.length < 4 →
          relayFrame f s
            = { s with
                ring := { s.ring with relay := s.ring.relay ++ [{ f with hops := f.hops + 1 }] }
                marks := { s.marks with placed := true } })
      ∧ (f.hops.toNat < 62 → 4 ≤ s.ring.relay.length → relayFrame f s = raise .relayOverflow (bump .relayOverflow s)))
    ∧ ∀ (h : Header) (kind : Byte) (payload : List Byte) (s : State), InService s → Settled s →
    h.src ≠ s.ring.nodeAddr → h.dest ≠ s.ring.nodeAddr → payload.length ≤ 60 →
    let f : Frame :=
      { dest := h.dest, src := h.src, kind := kind, seq := h.seq, payload := payload, result := h.result, hops := h.hops }
    ∀ command ∈ [Instr.frameRelay, Instr.malformedFrame, Instr.unexpectedKindFrame, Instr.ownFrameReturn],
      (kind ≠ 0x11 → kind ≠ 0x31 → kind ≠ 0x32 → exec (command h kind payload) s = .next (closeEvent (relayFrame f s)))
        ∧ ((kind = 0x11 ∧ (payload.length % 4 ≠ 0 ∨ payload.length = 0 ∨ 48 < payload.length))
              ∨ (kind = 0x31 ∧ payload.length ≠ 8) ∨ (kind = 0x32 ∧ payload.length ≠ 4) →
            exec (command h kind payload) s = .next (closeEvent (relayFrame f (bump .malformed s))))

/-- R136 to R138: the frames that are dropped and counted, and that a dropped frame changes nothing but its counter. -/
def Obligations.CountedDrops : Prop :=
  ∀ (h : Header) (kind : Byte) (payload : List Byte) (s : State), InService s → Settled s → Quiet s →
    (∀ check, 60 < payload.length ∨ check ≠ frameCheck (frameOf h kind payload) →
      exec (.checkErrorFrame h kind payload check) s = .next (bump .checkErrors s))
    ∧ (payload.length ≤ 60 → h.src ≠ s.ring.nodeAddr → h.dest = s.ring.nodeAddr →
        kind ≠ 0x11 → kind ≠ 0x31 → kind ≠ 0x32 → kind ≠ 0x41 →
        exec (.unexpectedKindFrame h kind payload) s = .next (bump .unexpectedKind s))
    ∧ (payload.length ≤ 60 → h.src ≠ s.ring.nodeAddr → h.dest = s.ring.nodeAddr →
        (kind = 0x11 ∧ (payload.length % 4 ≠ 0 ∨ payload.length = 0 ∨ 48 < payload.length))
          ∨ (kind = 0x31 ∧ payload.length ≠ 8) ∨ (kind = 0x32 ∧ payload.length ≠ 4)
          ∨ (kind = 0x41 ∧ payload.length < 2) →
        exec (.malformedFrame h kind payload) s = .next (bump .malformed s))
    ∧ ∀ c : Counter, ∀ n,
        (bumpBy c n s)
            = { s with report := { s.report with counters := (bumpBy c n s).report.counters } }
          ∧ (bumpBy c n s).counter c = min (s.counter c + n) 65535
          ∧ (∀ d, d ≠ c → (bumpBy c n s).counter d = s.counter d)
          ∧ bump c s = bumpBy c 1 s

/-! ### Requests: reading, writing, committing -/

/-- R162 to R164: READ_ENTRY of a pairing of copy and table that R164 allows, from an entry of the table, with a count of at least 1,
when the response/report queue has room for its parts: the response carries the read header and the entries as they stand, and nothing
else changes. The count returned is the largest that R164 allows. Another pairing is refused BAD_TABLE, a first entry beyond the table
BAD_INDEX, and a count of 0 BAD_VALUE. That they are tested in this order is the model's choice, log entry 39, and that a copy code above 2
is answered BAD_TABLE too is log entry 21. With room for some of
its parts but not for all it is not taken and is answered BUSY. R163, Table 8-3: the frames of a response: its data in parts of 57 bytes,
each behind the tag, the status and the part byte, with DEST the requesting node. R177, Tables 10-10 and 10-11: the live entries of T11
to T14, field by field in their order, each of the size of Table 10-1, those of T14 with the entry numbers of Table 10-7; the fields of
an unused entry of the reach queue are 0 (log entry 9). -/
def Obligations.ReadEntryEffect : Prop :=
  (∀ (q : Requester) (st : Status) (data : List Byte) (s : State),
    let parts := max 1 ((data.length + 56) / 57)
    respond q ⟨st, data⟩ s
        = { s with
            ring := { s.ring with feed := s.ring.feed ++ responseFrames q ⟨st, data⟩ }
            marks := { s.marks with placed := true } }
      ∧ (responseFrames q ⟨st, data⟩).length = parts ∧ (responseParts data).length = parts
      ∧ ∀ i, i < parts →
          (responseFrames q ⟨st, data⟩)[i]?
            = some
                { dest := q.src, kind := .response,
                  payload := q.tag :: st.code :: byte (i + if i + 1 = parts then 128 else 0) :: (data.drop (57 * i)).take 57 })
    ∧ (∀ s : State,
        let opt2 : Option Nat → List Byte := fun o => match o with
          | none => [0, 0, 0]
          | some n => 1 :: be2 n
        let opt4 : Option Nat → List Byte := fun o => match o with
          | none => [0, 0, 0, 0, 0]
          | some n => 1 :: be4 n
        let bit : Bool → Byte := fun b => if b = true then 1 else 0
        let res := s.engine.results
        let m := s.mgmt
        (∀ n : Nat, be2 n = [byte (n / 256), byte n] ∧ be3 n = byte (n / 65536) :: be2 n ∧ be4 n = byte (n / 16777216) :: be3 n)
          ∧ (∀ table entry, 11 ≤ table → table ≤ 14 → entry ≤ lastEntry table →
              (liveBytes s table entry).length = entrySize table entry)
          ∧ (∀ n : SlotNo,
              let sl := s.meas.slots.get n
              liveBytes s 11 n.val = be2 sl.value ++ [sl.quality.code] ++ be2 sl.age ++ opt2 sl.candidate)
          ∧ (∀ i, i < 32 →
              (s.reach.queue.length ≤ i → liveBytes s 12 i = List.replicate 11 0)
                ∧ ∀ e, s.reach.queue[i]? = some e →
                    liveBytes s 12 i = [1, byte e.origin.val] ++ be2 e.seqNo.toNat ++ be3 e.release ++ be4 e.due)
          ∧ (∀ n : OriginNo,
              let o := s.reach.origins.get n
              liveBytes s 12 (32 + n.val) = be3 o.arriving ++ opt2 (o.lastSeq.map (·.toNat)) ++ opt4 o.latestDue)
          ∧ (∀ g : GateNo,
              let r := s.gate g
              liveBytes s 13 g.val
                = [r.state.code, r.state.reasonCode] ++ be2 r.target ++ opt2 r.commanded ++ be2 r.measured
                  ++ [bit r.fresh, byte r.count])
          ∧ liveBytes s 13 16
              = ([res.qT, res.qTPrev, res.frozen, res.qA, res.fixed, res.qR, res.qR2, res.remainder].flatMap be3)
                ++ ((List.finRange 16).flatMap fun g => be2 (res.allot.get g)) ++ be3 res.qD ++ be3 res.shortfall
                ++ [res.cause.code] ++ be3 res.excess
          ∧ liveBytes s 13 17
              = [s.timer.run.code, byte s.timer.step] ++ be2 s.timer.cadence
                ++ [bit (!s.timer.gateOpen), bit s.timer.startPending] ++ be4 s.timer.schedule ++ [byte s.timer.reportCount]
          ∧ liveBytes s 13 18
              = [s.mode.stage.code] ++ opt4 s.mode.dwellStart
                ++ [s.mode.requested.toMode.code, s.mode.effective.code, bit s.mode.duty]
          ∧ (s.orders.queue.length ≤ 16 →
              liveBytes s 13 19
                = ((List.finRange 16).map fun g => byte (s.orders.lost.get g)) ++ [byte s.orders.queue.length]
                  ++ (s.orders.queue.map fun o => byte o.gate.val) ++ List.replicate (16 - s.orders.queue.length) 0xff)
          ∧ (m.openWrite = none →
              liveBytes s 13 20
                = be2 m.generation.toNat ++ [bit m.lock, bit m.switchPending] ++ [0, 0, 0, 0, 0]
                  ++ be2 s.report.flags.toNat ++ [bit s.report.allowance, bit s.report.waiting])
          ∧ (∀ w, m.openWrite = some w →
              liveBytes s 13 20
                = be2 m.generation.toNat ++ [bit m.lock, bit m.switchPending] ++ [1, w.node, w.table, w.first, byte w.next]
                  ++ be2 s.report.flags.toNat ++ [bit s.report.allowance, bit s.report.waiting])
          ∧ (∀ c : Counter, liveBytes s 14 c.entry.val = be2 (s.counter c))
          ∧ [Counter.checkErrors, .malformed, .unexpectedKind, .hopDrops, .relayOverflow, .stray, .lost, .superseded, .withdrawn,
            .badResult, .ignoredResults, .badSamples, .jumpHolds, .foreign, .duplicate, .stale, .clampedDue, .late, .earlyApply,
            .phaseRange, .reportDrops, .requestDrops].map (·.entry.val) = List.range 22)
    ∧ ([GateState.absent, .offline, .active, .held, .localControl, .fault .stuck, .unreachable].map GateState.code
          = [0, 1, 2, 3, 4, 5, 6]
        ∧ [GateState.active, .fault .stuck, .fault .drive, .fault .travel].map GateState.reasonCode = [0, 1, 2, 3]
        ∧ [Mode.initial, .schedule, .passThrough, .hold, .surcharge].map Mode.code = [0, 1, 2, 3, 4]
        ∧ [Stage.normal, .alert, .flood, .extreme].map Stage.code = [0, 1, 2, 3]
        ∧ [RunState.stopped, .running, .ended].map RunState.code = [0, 1, 2]
        ∧ [Quality.empty, .good, .suspect, .clamped, .stale].map Quality.code = [0, 1, 2, 3, 4]
        ∧ [Cause.none, .capacity, .rate, .capacityAndRate].map Cause.code = [0, 1, 2, 3]
        ∧ [Status.ok, .badTable, .badIndex, .badValue, .locked, .busy, .noPlan, .invalidSet, .segmentGap, .wrongState,
            .stalePosition, .notManager].map Status.code = [0, 1, 2, 3, 4, 5, 6, 7, 8, 9, 10, 11])
    ∧ (∀ (q : Requester) (copy table first count : Byte) (s : State), Takeable q 4 s →
    (((copy = 0 ∨ copy = 1) ∧ 1 ≤ table.toNat ∧ table.toNat ≤ 10)
      ∨ (copy = 2 ∧ 11 ≤ table.toNat ∧ table.toNat ≤ 14)) →
    first.toNat ≤ lastEntry table.toNat → 1 ≤ count.toNat →
    ∃ n : Nat, 1 ≤ n ∧ n ≤ count.toNat ∧ first.toNat + n ≤ lastEntry table.toNat + 1
      ∧ ((List.range n).map fun i => entrySize table.toNat (first.toNat + i)).sum ≤ 8 * 57 - 4
      ∧ (n < count.toNat → first.toNat + n < lastEntry table.toNat + 1 →
          8 * 57 - 4 < ((List.range (n + 1)).map fun i => entrySize table.toNat (first.toNat + i)).sum)
      ∧ (let data :=
          [copy, table, first, byte n]
            ++ (List.range n).flatMap fun i => copyEntry s copy table.toNat (first.toNat + i)
         let run := exec (.readEntry q [copy, table, first, count]) s
         ((responseParts data).length ≤ s.feedRoom → run = .next (closeEvent (respond q ⟨.ok, data⟩ s)))
          ∧ (s.feedRoom < (responseParts data).length → run = .next (closeEvent (respond q ⟨.busy, []⟩ s)))))
    ∧ ∀ (q : Requester) (copy table first count : Byte) (s : State), Takeable q 4 s →
    let paired := ((copy = 0 ∨ copy = 1) ∧ 1 ≤ table.toNat ∧ table.toNat ≤ 10)
      ∨ (copy = 2 ∧ 11 ≤ table.toNat ∧ table.toNat ≤ 14)
    let run := exec (.readEntry q [copy, table, first, count]) s
    (¬ paired → run = .next (closeEvent (respond q ⟨.badTable, []⟩ s)))
      ∧ (paired → lastEntry table.toNat < first.toNat → run = .next (closeEvent (respond q ⟨.badIndex, []⟩ s)))
      ∧ (paired → first.toNat ≤ lastEntry table.toNat → count = 0 →
          run = .next (closeEvent (respond q ⟨.badValue, []⟩ s)))

/-- R165: the table of cases of a WRITE_ENTRY segment, row by row, on a taken request whose segment byte is lawful. -/
def Obligations.WriteSegmentCases : Prop :=
  ∀ (q : Requester) (table first : Byte) (segment : Nat) (isLast : Bool) (data : List Byte) (s : State),
    segment ≤ 15 → Takeable q (data.length + 3) s →
    let run := exec (.writeEntry q (table :: first :: byte (segment + if isLast then 128 else 0) :: data)) s
    let pending := s.mgmt.switchPending
    let tabled := 1 ≤ table.toNat ∧ table.toNat ≤ 10
    (pending = true → run = .next (closeEvent (respond q ⟨.busy, []⟩ s)))
      ∧ (pending = false → ¬ tabled → run = .next (closeEvent (respond q ⟨.badTable, []⟩ s)))
      ∧ (∀ w, pending = false → tabled → s.mgmt.openWrite = some w → q.src ≠ w.node →
          run = .next (closeEvent (respond q ⟨.busy, []⟩ s)))
      ∧ (∀ w, pending = false → tabled → s.mgmt.openWrite = some w → q.src = w.node → segment = 15 → isLast = false →
          run = .next (closeEvent (respond q ⟨.badValue, []⟩ { s with mgmt := { s.mgmt with openWrite := none } })))
      ∧ (pending = false → tabled → s.mgmt.openWrite = none → segment = 15 → isLast = false →
          run = .next (closeEvent (respond q ⟨.badValue, []⟩ s)))
      ∧ (pending = false → tabled → s.mgmt.openWrite = none → segment = 0 → isLast = false →
          run = .next (closeEvent (respond q ⟨.ok, [1]⟩
            { s with
              mgmt :=
                { s.mgmt with
                  openWrite := some { node := q.src, table := table, first := first, next := 1, data := data } } })))
      ∧ (pending = false → tabled → s.mgmt.openWrite = none → 1 ≤ segment → (segment = 15 → isLast = true) →
          run = .next (closeEvent (respond q ⟨.segmentGap, []⟩ s)))
      ∧ (∀ w, pending = false → tabled → s.mgmt.openWrite = some w → q.src = w.node → segment = w.next →
          table = w.table → first = w.first → isLast = false → segment < 15 →
          run = .next (closeEvent (respond q ⟨.ok, [byte (segment + 1)]⟩
            { s with
              mgmt := { s.mgmt with openWrite := some { w with next := segment + 1, data := w.data ++ data } } })))
      ∧ (∀ w, pending = false → tabled → s.mgmt.openWrite = some w → q.src = w.node →
          ¬ (segment = w.next ∧ table = w.table ∧ first = w.first) → (segment = 15 → isLast = true) →
          run = .next (closeEvent (respond q ⟨.segmentGap, []⟩ { s with mgmt := { s.mgmt with openWrite := none } })))

/-- R165, R166: a WRITE_ENTRY of one entry in one frame, with no write open and no switch pending: refused BAD_VALUE with the entry
number when a field is outside its range; refused LOCKED with the entry number when the lock is set and it would change a limit
field; else written into the shadow. Nothing else of the sets changes. The same of every LAST segment that is in place, over the data
held before it and its own: data that is not whole entries of the table is refused BAD_INDEX; else the first entry out of range, then
the first that the lock refuses, decides; else all the entries are written in order. The write is closed in each case. That a write of
no data at all writes nothing and is answered OK is log entry 25. When an entry is out of range, and what writing one does to a set, is
in `EntriesReadBack`. -/
def Obligations.WriteEntryEffect : Prop :=
  (∀ (q : Requester) (table first : Byte) (data : List Byte) (s : State), Takeable q (data.length + 3) s →
    s.mgmt.switchPending = false → s.mgmt.openWrite = none → 1 ≤ table.toNat → table.toNat ≤ 10 →
    first.toNat ≤ lastEntry table.toNat → data.length = entrySize table.toNat first.toNat →
    (writeEntryIn table.toNat first.toNat data s.mgmt.shadow = none →
        exec (.writeEntry q (table :: first :: 0x80 :: data)) s
          = .next (closeEvent (respond q ⟨.badValue, [first]⟩ s)))
      ∧ ∀ set, writeEntryIn table.toNat first.toNat data s.mgmt.shadow = some set →
          (s.mgmt.lock = true → set.limits ≠ s.mgmt.shadow.limits →
            exec (.writeEntry q (table :: first :: 0x80 :: data)) s
              = .next (closeEvent (respond q ⟨.locked, [first]⟩ s)))
            ∧ (s.mgmt.lock = false ∨ set.limits = s.mgmt.shadow.limits →
              exec (.writeEntry q (table :: first :: 0x80 :: data)) s
                = .next (closeEvent (respond q ⟨.ok, [1]⟩ { s with mgmt := { s.mgmt with shadow := set } }))))
    ∧ ∀ (q : Requester) (table first : Byte) (segment : Nat) (held data : List Byte) (s : State),
    Takeable q (data.length + 3) s → s.mgmt.switchPending = false → 1 ≤ table.toNat → table.toNat ≤ 10 → segment ≤ 15 →
    (s.mgmt.openWrite = none ∧ segment = 0 ∧ held = []
      ∨ s.mgmt.openWrite
          = some { node := q.src, table := table, first := first, next := segment, data := held }) →
    let last := lastEntry table.toNat
    let shadow := s.mgmt.shadow
    let size := fun i => entrySize table.toNat (first.toNat + i)
    let written := fun (i : Nat) (e : List Byte) (set : GovSet) => writeEntryIn table.toNat (first.toNat + i) e set
    let run := exec (.writeEntry q (table :: first :: byte (segment + 128) :: data)) s
    let closed := fun (r : Reply) (set : GovSet) =>
      .next (closeEvent (respond q r { s with mgmt := { s.mgmt with shadow := set, openWrite := none } }))
    (last < first.toNat ∨ (∀ n, first.toNat + n ≤ last + 1 →
        (held ++ data).length ≠ ((List.range n).map size).sum) → run = closed ⟨.badIndex, []⟩ shadow)
      ∧ ∀ es : List (List Byte), first.toNat ≤ last → first.toNat + es.length ≤ last + 1 →
          (∀ i e, es[i]? = some e → e.length = size i) → held ++ data = es.flatten →
          (∀ i e, es[i]? = some e → written i e shadow = none →
              (∀ j e', j < i → es[j]? = some e' → written j e' shadow ≠ none) →
              run = closed ⟨.badValue, [byte (first.toNat + i)]⟩ shadow)
            ∧ ((∀ i e, es[i]? = some e → written i e shadow ≠ none) →
                (∀ i e set, s.mgmt.lock = true → es[i]? = some e → written i e shadow = some set →
                    set.limits ≠ shadow.limits →
                    (∀ j e' set', j < i → es[j]? = some e' → written j e' shadow = some set' →
                      set'.limits = shadow.limits) →
                    run = closed ⟨.locked, [byte (first.toNat + i)]⟩ shadow)
                  ∧ ((s.mgmt.lock = false
                        ∨ ∀ i e set, es[i]? = some e → written i e shadow = some set → set.limits = shadow.limits) →
                      run = closed ⟨.ok, [byte (segment + 1)]⟩
                        (es.zipIdx.foldl (fun set p => (written p.2 p.1 set).getD set) shadow)))

/-- R167, R169, R170: COMMIT, CANCEL and LOCK. The twelve commit checks of Table 10-5 in their order (R24, R1, R161, R100, R118, R34, R45,
R81): each holds exactly when its condition does, and a set passes exactly when all twelve hold. R170: two sets agree in their limit
fields exactly when they agree in the min opening, max opening, rate limit and urgent rate limit of every T1 entry and in T_ALERT,
T_FLOOD, T_EXTREME, Q_MIN_ENV and RLIM. -/
def Obligations.CommitCancelLockEffects : Prop :=
  (∀ (node : Byte) (stn : BitVec 3) (set : GovSet),
    let holds : Nat → Prop := fun k => (commitChecks node stn set)[k - 1]? = some true
    let present : GateNo → Prop := fun g => (set.t1.get g).cls ≠ .absent
    ((commitChecks node stn set).length = 12)
      ∧ (passesChecks node stn set = true ↔ ∀ k, 1 ≤ k → k ≤ 12 → holds k)
      ∧ (holds 1 ↔ ∀ (r : RatingSetNo) (i j : Fin 9), i ≤ j → (set.t3.get r).q.get i ≤ (set.t3.get r).q.get j)
      ∧ (holds 2 ↔ ∀ (r : RatingSetNo) (b : BandNo), 1 ≤ (set.t3.get r).f.get b ∧ (set.t3.get r).f.get b ≤ 8191)
      ∧ (holds 3 ↔ ∀ i j : BandNo, i < j → set.t4.get i < set.t4.get j)
      ∧ (holds 4 ↔ ∀ g, (set.t1.get g).minOpening ≤ (set.t1.get g).maxOpening
          ∧ (set.t1.get g).rate ≤ (set.t1.get g).urgentRate)
      ∧ (holds 5 ↔ (∀ p ∈ set.t2, present p.gate) ∧ (set.t2.map (·.gate)).Nodup)
      ∧ (holds 6 ↔
          (∀ g, present g → 1 ≤ (set.t1.get g).node.toNat ∧ (set.t1.get g).node.toNat ≤ 254 ∧ (set.t1.get g).node ≠ node)
            ∧ ∀ g g', g ≠ g' → present g → present g' → (set.t1.get g).node ≠ (set.t1.get g').node)
      ∧ (holds 7 ↔ ∀ i : Fin 48, i.val < set.plan.count → 1 ≤ (set.steps.get i).duration)
      ∧ (holds 8 ↔ set.t10.tAlert < set.t10.tFlood ∧ set.t10.tFlood < set.t10.tExtreme)
      ∧ (holds 9 ↔ ∀ g, set.t10.compGate = some g → (set.t1.get g).cls = .bypass ∨ (set.t1.get g).cls = .spill)
      ∧ (holds 10 ↔ ∀ i j : Fin 32, i ≠ j → (set.t6.get i).inUse = true → (set.t6.get j).inUse = true →
          ((set.t6.get i).source ≠ (set.t6.get j).source ∨ (set.t6.get i).channel ≠ (set.t6.get j).channel)
            ∧ (set.t6.get i).slot ≠ (set.t6.get j).slot)
      ∧ (holds 11 ↔ ∀ role ∈ [set.t8.hw1, set.t8.hw2, set.t8.hw3, set.t8.tw1, set.t8.tw2, set.t8.inflow], ∀ n : SlotNo,
          role = some n → ∃ i, (set.t6.get i).inUse = true ∧ (set.t6.get i).slot.toNat = n.val)
      ∧ (holds 12 ↔
          (∀ n, (set.t9.get n).inUse = true →
            (∀ i j : Fin 4, i < j → (set.t9.get n).bands.get i < (set.t9.get n).bands.get j)
              ∧ (set.t9.get n).station.toNat ≠ stn.toNat)
            ∧ ∀ n m, n ≠ m → (set.t9.get n).inUse = true → (set.t9.get m).inUse = true →
                (set.t9.get n).station ≠ (set.t9.get m).station))
    ∧ (∀ a b : GovSet,
        a.limits = b.limits ↔
          (∀ g,
            (a.t1.get g).minOpening = (b.t1.get g).minOpening ∧ (a.t1.get g).maxOpening = (b.t1.get g).maxOpening
              ∧ (a.t1.get g).rate = (b.t1.get g).rate ∧ (a.t1.get g).urgentRate = (b.t1.get g).urgentRate)
            ∧ a.t10.tAlert = b.t10.tAlert ∧ a.t10.tFlood = b.t10.tFlood ∧ a.t10.tExtreme = b.t10.tExtreme
            ∧ a.t10.qMinEnv = b.t10.qMinEnv ∧ a.t10.rlim = b.t10.rlim)
    ∧ ∀ (q : Requester) (s : State), Takeable q 0 s →
    let open? := s.mgmt.openWrite.isSome = true ∨ s.mgmt.switchPending = true
    (open? →
        exec (.commit q []) s = .next (closeEvent (respond q ⟨.busy, []⟩ s))
          ∧ exec (.lock q []) s = .next (closeEvent (respond q ⟨.busy, []⟩ s)))
      ∧ (¬ open? → passesChecks s.ring.nodeAddr s.ring.station s.mgmt.shadow = true →
          exec (.commit q []) s
            = .next (closeEvent (respond q ⟨.ok, be2 s.mgmt.generation.toNat⟩
                { s with mgmt := { s.mgmt with switchPending := true } })))
      ∧ (∀ k : Nat, ¬ open? →
          (∀ j : Nat, j < k → (commitChecks s.ring.nodeAddr s.ring.station s.mgmt.shadow)[j]? = some true) →
          (commitChecks s.ring.nodeAddr s.ring.station s.mgmt.shadow)[k]? = some false →
          exec (.commit q []) s = .next (closeEvent (respond q ⟨.invalidSet, [byte (k + 1)]⟩ s)))
      ∧ (¬ open? → s.mgmt.shadow.limits = s.mgmt.active.limits →
          exec (.lock q []) s
            = .next (closeEvent (respond q ⟨.ok, []⟩ { s with mgmt := { s.mgmt with lock := true } })))
      ∧ (¬ open? → s.mgmt.shadow.limits ≠ s.mgmt.active.limits →
          exec (.lock q []) s = .next (closeEvent (respond q ⟨.wrongState, []⟩ s)))
      ∧ exec (.cancel q []) s
          = .next (closeEvent (respond q
              ⟨.ok, [byte ((if s.mgmt.openWrite.isSome = true then 1 else 0)
                  + if s.mgmt.switchPending = true then 2 else 0)]⟩
              { s with
                mgmt := { s.mgmt with openWrite := none, switchPending := false, shadow := s.mgmt.active } }))

/-- R171: COMPARE in form COPIES lists in ascending order the entries whose layouts differ between the copies, and in form DATA the
supplied entries that differ from the named copy; neither changes anything but the response queue. A table outside the form's range, or
the LIVE copy, is refused BAD_TABLE; entries beyond the table, or data that is not whole entries, BAD_INDEX; a copy code outside its
range BAD_VALUE, before the others (log entry 21), and BAD_TABLE before BAD_INDEX (log entry 39). That a first entry beyond the table is
refused so with no data too is log entry 37. -/
def Obligations.CompareEffects : Prop :=
  ∀ (q : Requester) (s : State),
    (∀ table : Byte, Takeable q 2 s → table.toNat ≤ 10 →
      ∃ ps : List (Nat × Nat),
        (∀ t e, (t, e) ∈ ps ↔
          1 ≤ t ∧ t ≤ 10 ∧ (table = 0 ∨ t = table.toNat) ∧ e ≤ lastEntry t
            ∧ entryBytes s.mgmt.active t e ≠ entryBytes s.mgmt.shadow t e)
        ∧ (ps.Pairwise fun a b => a.1 < b.1 ∨ (a.1 = b.1 ∧ a.2 < b.2))
        ∧ exec (.compareCopies q [table]) s
            = .next (closeEvent (respond q
                ⟨.ok, [byte ps.length, yesNo (27 < ps.length)] ++ (ps.take 27).flatMap fun p => [byte p.1, byte p.2]⟩
                s)))
    ∧ (∀ table : Byte, Takeable q 2 s → 10 < table.toNat →
        exec (.compareCopies q [table]) s = .next (closeEvent (respond q ⟨.badTable, []⟩ s)))
    ∧ (∀ (table copy first : Byte) (data : List Byte), Takeable q (data.length + 4) s → 2 < copy.toNat →
        exec (.compareData q (table :: copy :: first :: data)) s = .next (closeEvent (respond q ⟨.badValue, []⟩ s)))
    ∧ (∀ (table copy first : Byte) (data : List Byte), Takeable q (data.length + 4) s → copy.toNat ≤ 2 →
        let run := exec (.compareData q (table :: copy :: first :: data)) s
        let last := lastEntry table.toNat
        let size := fun i => entrySize table.toNat (first.toNat + i)
        let set := if copy = 0 then s.mgmt.active else s.mgmt.shadow
        let tabled := copy ≠ 2 ∧ 1 ≤ table.toNat ∧ table.toNat ≤ 10
        (¬ tabled → run = .next (closeEvent (respond q ⟨.badTable, []⟩ s)))
          ∧ (tabled → last < first.toNat ∨ (∀ n, first.toNat + n ≤ last + 1 →
                data.length ≠ ((List.range n).map size).sum) →
              run = .next (closeEvent (respond q ⟨.badIndex, []⟩ s)))
          ∧ ∀ es : List (List Byte), tabled → first.toNat ≤ last → first.toNat + es.length ≤ last + 1 →
              (∀ i e, es[i]? = some e → e.length = size i) → data = es.flatten →
              let ds := (List.range es.length).filter fun i =>
                decide ((writeEntryIn table.toNat (first.toNat + i) (es.getD i []) set).map
                    (entryBytes · table.toNat (first.toNat + i))
                  ≠ some (entryBytes set table.toNat (first.toNat + i)))
              run
                = .next (closeEvent (respond q
                    ⟨.ok, [byte ds.length, yesNo (54 < ds.length)]
                      ++ (ds.take 54).map fun i => byte (first.toNat + i)⟩ s)))
    ∧ ∀ (table first : Byte) (data : List Byte), Takeable q (data.length + 4) s →
        1 ≤ table.toNat → table.toNat ≤ 10 → first.toNat ≤ lastEntry table.toNat →
        data.length = entrySize table.toNat first.toNat →
        ∀ copy : Byte, copy = 0 ∨ copy = 1 →
          let set := if copy = 0 then s.mgmt.active else s.mgmt.shadow
          let written := (writeEntryIn table.toNat first.toNat data set).map (entryBytes · table.toNat first.toNat)
          (written = some (entryBytes set table.toNat first.toNat) →
              exec (.compareData q (table :: copy :: first :: data)) s
                = .next (closeEvent (respond q ⟨.ok, [0, 0]⟩ s)))
            ∧ (written ≠ some (entryBytes set table.toNat first.toNat) →
              exec (.compareData q (table :: copy :: first :: data)) s
                = .next (closeEvent (respond q ⟨.ok, [1, 0, first]⟩ s)))

/-! ### Requests: gates, mode, plan, flags, restart -/

/-- R12 to R14: the five actions of GATE_CONTROL on a present gate, by its state. The position read of ENABLE and CLEAR_FAULT stands
in the record also when the action is then refused (log entry 14). -/
def Obligations.GateControlEffects : Prop :=
  ∀ (q : Requester) (g : GateNo) (s : State), Takeable q 2 s → (s.gate g).state ≠ .absent →
    let r := { s.gate g with
      measured := min (s.positionSlot g).value 1000, fresh := (s.positionSlot g).quality.fresh }
    let st := (s.gate g).state
    let gb := byte g.val
    (st = .offline → s.mode.effective = .initial →
        exec (.enable q gb []) s
          = .next (closeEvent (respond q ⟨.ok, [2]⟩ (setGate g { r with state := .active, count := 0 } s))))
      ∧ (st = .offline → s.mode.effective ≠ .initial → r.fresh = true →
          exec (.enable q gb []) s
            = .next (closeEvent (respond q ⟨.ok, [2]⟩
                (setGate g { r with state := .active, count := 0, commanded := some r.measured } s))))
      ∧ (st = .offline → s.mode.effective ≠ .initial → r.fresh = false →
          exec (.enable q gb []) s = .next (closeEvent (respond q ⟨.stalePosition, []⟩ (setGate g r s))))
      ∧ (st = .active → exec (.enable q gb []) s = .next (closeEvent (respond q ⟨.ok, [2]⟩ (setGate g r s))))
      ∧ (st ≠ .offline → st ≠ .active →
          exec (.enable q gb []) s = .next (closeEvent (respond q ⟨.wrongState, []⟩ (setGate g r s))))
      ∧ (st = .offline → exec (.disable q gb []) s = .next (closeEvent (respond q ⟨.ok, [1]⟩ s)))
      ∧ (st ≠ .offline →
          exec (.disable q gb []) s
            = .next (closeEvent (respond q ⟨.ok, [1]⟩
                (withdraw (fun x => decide (x = g)) (setGate g { s.gate g with state := .offline, count := 0 } s)))))
      ∧ (st = .active →
          exec (.hold q gb []) s
            = .next (closeEvent (respond q ⟨.ok, [3]⟩ (setGate g { s.gate g with state := .held } s))))
      ∧ (st = .held → exec (.hold q gb []) s = .next (closeEvent (respond q ⟨.ok, [3]⟩ s)))
      ∧ (st ≠ .active → st ≠ .held →
          exec (.hold q gb []) s = .next (closeEvent (respond q ⟨.wrongState, []⟩ s)))
      ∧ (st = .held →
          exec (.release q gb []) s
            = .next (closeEvent (respond q ⟨.ok, [2]⟩ (setGate g { s.gate g with state := .active } s))))
      ∧ (st ≠ .held → exec (.release q gb []) s = .next (closeEvent (respond q ⟨.wrongState, []⟩ s)))
      ∧ (st.isFault = true → r.fresh = true →
          exec (.clearFault q gb []) s
            = .next (closeEvent (respond q ⟨.ok, [2]⟩
                (setGate g { r with state := .active, count := 0, commanded := some r.measured } s))))
      ∧ (st.isFault = true → r.fresh = false →
          exec (.clearFault q gb []) s = .next (closeEvent (respond q ⟨.stalePosition, []⟩ (setGate g r s))))
      ∧ (st.isFault = false →
          exec (.clearFault q gb []) s = .next (closeEvent (respond q ⟨.wrongState, []⟩ (setGate g r s))))
      ∧ (st.isFault = true ↔ ∃ reason, st = .fault reason)
      ∧ s.positionSlot g = s.meas.slots.get (s.mgmt.active.t1.get g).positionSlot
      ∧ ((s.positionSlot g).quality.fresh = true ↔
          (s.positionSlot g).quality = .good ∨ (s.positionSlot g).quality = .clamped)
      ∧ ∀ x : Gate, setGate g x s = { s with gates := s.gates.set g x }

/-- R125 to R127: MODE_REQUEST, by its operand byte: 1 is SCHEDULE, 2 is PASS_THROUGH, 3 is HOLD, and no other byte names a mode. The
mode asked for is set and the effective mode outside INITIAL becomes the entry of Table 7-3, whose twelve entries are given. -/
def Obligations.ModeRequestEffect : Prop :=
  ∀ (q : Requester) (b : Byte) (s : State), Takeable q 1 s →
    let now := [s.mode.requested.toMode.code, s.mode.effective.code]
    (b ≠ 1 → b ≠ 2 → b ≠ 3 → exec (.modeRequest q [b]) s = .next (closeEvent (respond q ⟨.badValue, now⟩ s)))
      ∧ (b = 1 → s.mgmt.active.plan.count = 0 →
          exec (.modeRequest q [b]) s = .next (closeEvent (respond q ⟨.noPlan, now⟩ s)))
      ∧ ([Stage.normal, .alert, .flood, .extreme].map (effectiveMode .schedule)
            = [.schedule, .schedule, .passThrough, .surcharge]
          ∧ [Stage.normal, .alert, .flood, .extreme].map (effectiveMode .passThrough)
              = [.passThrough, .passThrough, .passThrough, .surcharge]
          ∧ [Stage.normal, .alert, .flood, .extreme].map (effectiveMode .hold)
              = [.hold, .passThrough, .passThrough, .surcharge])
      ∧ [ReqMode.schedule, .passThrough, .hold].map ReqMode.toMode = [.schedule, .passThrough, .hold]
      ∧ ∀ m : ReqMode, (b = 1 ∧ m = .schedule) ∨ (b = 2 ∧ m = .passThrough) ∨ (b = 3 ∧ m = .hold) →
          (m = .schedule → s.mgmt.active.plan.count ≠ 0) →
          (m = s.mode.requested →
            exec (.modeRequest q [b]) s = .next (closeEvent (respond q ⟨.ok, now⟩ s)))
            ∧ (m ≠ s.mode.requested →
                let eff : Mode := if s.mode.effective = .initial then .initial else effectiveMode m s.mode.stage
                let set := { s with mode := { s.mode with requested := m, effective := eff } }
                exec (.modeRequest q [b]) s
                  = .next (closeEvent (respond q ⟨.ok, [b, eff.code]⟩
                      (if eff ≠ .initial ∧ eff ≠ m.toMode then raise .demoted set else set))))

/-- R107 to R109: PLAN_RUN, PLAN_STOP and PLAN_GATE. -/
def Obligations.PlanRequestEffects : Prop :=
  ∀ (q : Requester) (s : State),
    (Takeable q 1 s → ∀ fromStart : Bool,
      (s.mgmt.active.plan.count = 0 →
          exec (.planRun q [yesNo fromStart]) s = .next (closeEvent (respond q ⟨.noPlan, []⟩ s)))
        ∧ (s.mgmt.active.plan.count ≠ 0 →
            let t : Timer :=
              if fromStart = true then
                { s.timer with run := .running, step := 0, cadence := 0, startPending := true }
              else if s.timer.run = .stopped then { s.timer with run := .running, startPending := true }
              else if s.timer.run = .ended then { s.timer with run := .running, startPending := false }
              else s.timer
            exec (.planRun q [yesNo fromStart]) s
              = .next (closeEvent (respond q ⟨.ok, [1, byte t.step] ++ be2 t.cadence⟩ { s with timer := t }))))
    ∧ (Takeable q 0 s →
        let t : Timer :=
          if s.timer.run = .stopped then s.timer else { s.timer with run := .stopped, startPending := false }
        exec (.planStop q []) s
          = .next (closeEvent (respond q ⟨.ok, [0, byte t.step] ++ be2 t.cadence⟩ { s with timer := t })))
    ∧ (Takeable q 1 s →
        exec (.planGate q [0]) s
            = .next (closeEvent (respond q ⟨.ok, [0]⟩ { s with timer := { s.timer with gateOpen := true } }))
          ∧ exec (.planGate q [1]) s
              = .next (closeEvent (respond q ⟨.ok, [1]⟩ { s with timer := { s.timer with gateOpen := false } }))
          ∧ ∀ b : Byte, b ≠ 0 → b ≠ 1 →
              exec (.planGate q [b]) s = .next (closeEvent (respond q ⟨.badValue, []⟩ s))
                ∧ exec (.planRun q [b]) s = .next (closeEvent (respond q ⟨.badValue, []⟩ s)))

/-- R173, R174: CLEAR_CONDITIONS clears the flags named and answers with those still set; CLEAR_COUNTERS sets every counter to 0. Table
10-8: the sixteen flags in the order of their bits, from bit 0 up. Table 10-7: the 22 counters in the order of their entries of T14. -/
def Obligations.ClearEffects : Prop :=
  (∀ set : BitVec 16,
    [Flag.shortfall, .excess, .headStale, .headRange, .inflowStale, .gateFault, .gateUnreachable, .gateLocal, .stageRise,
        .stageFall, .demoted, .earlyApply, .relayOverflow, .planEnded, .setSwitched, .restarted].map (flagIn · set)
      = (List.range 16).map fun i => set.getLsbD i)
    ∧ (∀ s : State,
      [Counter.checkErrors, .malformed, .unexpectedKind, .hopDrops, .relayOverflow, .stray, .lost, .superseded, .withdrawn,
          .badResult, .ignoredResults, .badSamples, .jumpHolds, .foreign, .duplicate, .stale, .clampedDue, .late, .earlyApply,
          .phaseRange, .reportDrops, .requestDrops].map s.counter = s.report.counters.items)
    ∧ ∀ (q : Requester) (s : State),
    (∀ hi lo : Byte, Takeable q 2 s →
      let left : BitVec 16 := s.report.flags &&& ~~~ (hi ++ lo)
      exec (.clearConditions q [hi, lo]) s
        = .next (closeEvent (respond q ⟨.ok, be2 left.toNat⟩ { s with report := { s.report with flags := left } })))
    ∧ (Takeable q 0 s →
        exec (.clearCounters q []) s
          = .next (closeEvent (respond q ⟨.ok, []⟩
              { s with report := { s.report with counters := Tab.ofFn fun _ => 0 } })))

/-- R9, R44, R53, R97, R101, R119, R145, R157, R172: the effect of RESTART on every block. -/
def Obligations.RestartEffect : Prop :=
  ∀ (q : Requester) (s : State), Takeable q 0 s →
    ∃ t, exec (.restart q []) s = .next t
      ∧ t.mgmt = { s.mgmt with shadow := s.mgmt.active, switchPending := false, openWrite := none }
      ∧ (∀ g,
          t.gate g
            = { state :=
                  if (s.gate g).state = .held ∨ (s.gate g).state = .localControl ∨ (s.gate g).state = .unreachable then
                    .active
                  else (s.gate g).state
                target := (s.gateCfg g).minOpening, commanded := none, measured := (s.gate g).measured, fresh := false,
                count := 0 })
      ∧ (∀ n,
          t.meas.slots.get n
            = { value := (s.meas.slots.get n).value, quality := .empty, age := 0, candidate := none })
      ∧ t.meas.hw = ⟨s.meas.hw.value, false⟩ ∧ t.meas.tw = ⟨s.meas.tw.value, false⟩
      ∧ t.meas.head = ⟨s.meas.head.value, false⟩
      ∧ t.engine.computation = none
      ∧ t.engine.results
          = { qT := 0, qTPrev := 0, frozen := 0, qA := 0, fixed := 0, qR := 0, qR2 := 0, remainder := 0,
              allot := Tab.const 16 0, qD := 0, shortfall := 0, cause := .none, excess := 0 }
      ∧ t.reach.queue = []
      ∧ (∀ n, t.reach.origins.get n = { arriving := 0, lastSeq := none, latestDue := none })
      ∧ t.timer
          = { run := .stopped, step := 0, cadence := 0, gateOpen := true, startPending := false,
              schedule := min (s.clock.ssc + s.mgmt.active.t10.cadenceLength) 4294967295, reportCount := 0 }
      ∧ t.mode
          = { stage := .normal, dwellStart := none, requested := s.mode.requested, effective := .initial,
              duty := false }
      ∧ t.orders.queue = [] ∧ (∀ g, t.orders.lost.get g = 0)
      ∧ t.report.flags = (1 <<< 15 : BitVec 16) ∧ t.report.waiting = false
      ∧ t.report.allowance = flagIn .restarted s.mgmt.active.t10.mask
      ∧ (∀ c, c ≠ .reportDrops → t.counter c = s.counter c)
      ∧ (∀ e ∈ t.ring.inFlight, e.seq = s.ring.seqCounter ∧ e.sent = s.ring.ms)
      ∧ t.ring.nodeAddr = s.ring.nodeAddr ∧ t.ring.station = s.ring.station ∧ t.ring.ms = s.ring.ms
      ∧ (∀ f, s.ring.ro = some f → t.ring.ro = some f ∧ t.ring.relay = s.ring.relay
          ∧ t.ring.feed.take (s.ring.feed.length + 1)
              = s.ring.feed ++ responseFrames q ⟨.ok, be2 s.mgmt.generation.toNat⟩)
      ∧ t.clock = s.clock

/-- R162: a REQUEST of any kind that arrives while the response/report queue is full is dropped and counted, and one from a node that is
no manager is refused NOT_MANAGER (with the modes for MODE_REQUEST, R127) and not acted on; one that bears the part's own address as SRC
is STRAY (R137, R143). R162, test 1: with both manager addresses 0 every node is a manager; else exactly the two nodes named are, and a
node that is one is acted on when there is room. That an address of 0 beside one that is not names SRC 0 is log entry 27. The room test
of a READ_ENTRY of several parts is in `ReadEntryEffect`. R12, R162: a code that is not in Table 10-3; the refusals of GATE_CONTROL that
come before an action's own test, the same for all five actions; and operands too short or too long for the code, or with a bit of the
segment byte set that Table 10-12 gives as 0, which are refused BAD_VALUE (for MODE_REQUEST with the modes as they stand, R127). That
this test comes before a request's own is log entry 22. -/
def Obligations.RequestsNotActedOn : Prop :=
  (∀ (q : Requester) (ops : List Byte) (s : State), InService s → Settled s →
    let p := s.mgmt.active.t10
    let modes := [s.mode.requested.toMode.code, s.mode.effective.code]
    let turnedAway : Host.Outcome State Fault Refusal → List Byte → Prop := fun run data =>
      (q.src = s.ring.nodeAddr → run = .next (closeEvent (bump .stray s)))
        ∧ (q.src ≠ s.ring.nodeAddr → s.feedRoom = 0 → run = .next (closeEvent (bump .requestDrops s)))
        ∧ (q.src ≠ s.ring.nodeAddr → 0 < s.feedRoom → p.managerA ≠ 0 ∨ p.managerB ≠ 0 → q.src ≠ p.managerA →
            q.src ≠ p.managerB → run = .next (closeEvent (respond q ⟨.notManager, data⟩ s)))
    (ops.length ≤ 58 →
        (∀ request ∈ [Instr.readEntry, Instr.writeEntry, Instr.commit, Instr.cancel, Instr.lock, Instr.planRun,
            Instr.planStop, Instr.planGate, Instr.clearConditions, Instr.clearCounters, Instr.restart],
          turnedAway (exec (request q ops) s) [])
          ∧ turnedAway (exec (.modeRequest q ops) s) modes
          ∧ ∀ code, turnedAway (exec (.requestBadCode q code ops) s) (if code = 8 then modes else []))
      ∧ (ops.length ≤ 57 →
          turnedAway (exec (.compareCopies q ops) s) [] ∧ turnedAway (exec (.compareData q ops) s) [])
      ∧ (ops.length ≤ 56 → ∀ gate,
          ∀ action ∈ [Instr.enable, Instr.disable, Instr.hold, Instr.release, Instr.clearFault],
            turnedAway (exec (action q gate ops) s) []))
    ∧ (∀ (q : Requester) (needed : Nat) (data : List Byte) (act : State → Reply × State) (s : State),
    (s.feedRoom = 0 → takeRequest q needed data act s = bump .requestDrops s)
      ∧ (0 < s.feedRoom → s.feedRoom < needed → takeRequest q needed data act s = respond q ⟨.busy, []⟩ s)
      ∧ (0 < s.feedRoom → needed ≤ s.feedRoom →
          (s.mgmt.active.t10.managerA ≠ 0 ∨ s.mgmt.active.t10.managerB ≠ 0) →
          q.src ≠ s.mgmt.active.t10.managerA → q.src ≠ s.mgmt.active.t10.managerB →
          takeRequest q needed data act s = respond q ⟨.notManager, data⟩ s)
      ∧ (0 < s.feedRoom → needed ≤ s.feedRoom →
          (s.mgmt.active.t10.managerA = 0 ∧ s.mgmt.active.t10.managerB = 0)
            ∨ q.src = s.mgmt.active.t10.managerA ∨ q.src = s.mgmt.active.t10.managerB →
          takeRequest q needed data act s = respond q (act s).1 (act s).2))
    ∧ (∀ (p : PlantParams) (src : Byte),
        manages p src = true ↔ (p.managerA = 0 ∧ p.managerB = 0) ∨ src = p.managerA ∨ src = p.managerB)
    ∧ (∀ (q : Requester) (code : Byte) (operands : List Byte) (s : State), Takeable q operands.length s →
        code = 0 ∨ 14 < code.toNat →
        exec (.requestBadCode q code operands) s = .next (closeEvent (respond q ⟨.badValue, []⟩ s)))
    ∧ (∀ (q : Requester) (ops : List Byte) (s : State),
        let refused : Host.Outcome State Fault Refusal := .next (closeEvent (respond q ⟨.badValue, []⟩ s))
        (Takeable q ops.length s →
            (ops.length ≠ 4 → exec (.readEntry q ops) s = refused)
              ∧ (ops.length < 3 → exec (.writeEntry q ops) s = refused)
              ∧ (∀ table first seg : Byte, ∀ data, ops = table :: first :: seg :: data → seg &&& 0x70 ≠ 0 →
                  exec (.writeEntry q ops) s = refused)
              ∧ (ops ≠ [] → ∀ request ∈ [Instr.commit, Instr.cancel, Instr.lock, Instr.planStop, Instr.clearCounters,
                  Instr.restart], exec (request q ops) s = refused)
              ∧ (ops.length ≠ 1 → exec (.planRun q ops) s = refused ∧ exec (.planGate q ops) s = refused)
              ∧ (ops.length ≠ 1 → exec (.modeRequest q ops) s
                  = .next (closeEvent (respond q
                      ⟨.badValue, [s.mode.requested.toMode.code, s.mode.effective.code]⟩ s)))
              ∧ (ops.length ≠ 2 → exec (.clearConditions q ops) s = refused)
              ∧ (ops = [] → exec (.requestBadCode q 5 ops) s = refused)
              ∧ (ops.length < 2 → exec (.requestBadCode q 7 ops) s = refused))
          ∧ (Takeable q (ops.length + 1) s →
              (ops.length ≠ 1 → exec (.compareCopies q ops) s = refused)
                ∧ (ops.length < 3 → exec (.compareData q ops) s = refused)))
    ∧ ∀ (q : Requester) (gate : Byte) (s : State),
    ∀ action ∈ [Instr.enable, Instr.disable, Instr.hold, Instr.release, Instr.clearFault],
      (Takeable q 2 s → 16 ≤ gate.toNat →
          exec (action q gate []) s = .next (closeEvent (respond q ⟨.badIndex, []⟩ s)))
        ∧ (∀ g : GateNo, Takeable q 2 s → gate = byte g.val → (s.gate g).state = .absent →
            exec (action q gate []) s = .next (closeEvent (respond q ⟨.wrongState, []⟩ s)))
        ∧ (∀ b bs, Takeable q (bs.length + 3) s →
            exec (action q gate (b :: bs)) s = .next (closeEvent (respond q ⟨.badValue, []⟩ s)))

/-- R162, Tables 10-3 and 10-10: a request given by its code byte acts as the request of that code. -/
def Obligations.RequestCodesAgree : Prop :=
  ∀ (q : Requester) (ops : List Byte) (gate : Byte) (s : State),
    exec (.requestBadCode q 1 ops) s = exec (.readEntry q ops) s
      ∧ exec (.requestBadCode q 2 ops) s = exec (.writeEntry q ops) s
      ∧ exec (.requestBadCode q 3 ops) s = exec (.commit q ops) s
      ∧ exec (.requestBadCode q 4 ops) s = exec (.cancel q ops) s
      ∧ exec (.requestBadCode q 5 (0 :: ops)) s = exec (.compareCopies q ops) s
      ∧ exec (.requestBadCode q 5 (1 :: ops)) s = exec (.compareData q ops) s
      ∧ exec (.requestBadCode q 6 ops) s = exec (.lock q ops) s
      ∧ exec (.requestBadCode q 7 (gate :: 0 :: ops)) s = exec (.enable q gate ops) s
      ∧ exec (.requestBadCode q 7 (gate :: 1 :: ops)) s = exec (.disable q gate ops) s
      ∧ exec (.requestBadCode q 7 (gate :: 2 :: ops)) s = exec (.hold q gate ops) s
      ∧ exec (.requestBadCode q 7 (gate :: 3 :: ops)) s = exec (.release q gate ops) s
      ∧ exec (.requestBadCode q 7 (gate :: 4 :: ops)) s = exec (.clearFault q gate ops) s
      ∧ exec (.requestBadCode q 8 ops) s = exec (.modeRequest q ops) s
      ∧ exec (.requestBadCode q 9 ops) s = exec (.planRun q ops) s
      ∧ exec (.requestBadCode q 10 ops) s = exec (.planStop q ops) s
      ∧ exec (.requestBadCode q 11 ops) s = exec (.planGate q ops) s
      ∧ exec (.requestBadCode q 12 ops) s = exec (.clearConditions q ops) s
      ∧ exec (.requestBadCode q 13 ops) s = exec (.clearCounters q ops) s
      ∧ exec (.requestBadCode q 14 ops) s = exec (.restart q ops) s

/-- R137, R146, R147, Table 8-3: a frame given by its bytes acts as the command that its kind and payload make; the payloads of SAMPLE,
NOTICE, PHASE and ORDER, byte by byte. R148: CHECK covers DEST, SRC, KIND, SEQ, LEN and the payload; it is the 16-bit remainder with
generator 1021h and initial value FFFFh, each byte taken most significant bit first, the generator added whenever the bit shifted out
differs from the data bit, with nothing added at the end; the nine bytes 31h to 39h give 29B1h. So a change of any one covered byte changes
it, and over the bytes followed by their CHECK, high byte first, it is 0. -/
def Obligations.FrameBytesAgree : Prop :=
  (∀ f : Frame, frameCheck f = crc ([f.dest, f.src, f.kind, f.seq, byte f.payload.length] ++ f.payload))
    ∧ (∀ bs : List Byte,
        crc bs
          = (bs.flatMap fun b => [7, 6, 5, 4, 3, 2, 1, 0].map b.getLsbD).foldl
              (fun (reg : BitVec 16) (d : Bool) =>
                (reg <<< 1) ^^^ (if reg.getLsbD 15 = d then 0 else 0x1021)) 0xffff)
    ∧ crc [0x31, 0x32, 0x33, 0x34, 0x35, 0x36, 0x37, 0x38, 0x39] = 0x29b1
    ∧ (∀ (before after : List Byte) (a b : Byte), a ≠ b → crc (before ++ a :: after) ≠ crc (before ++ b :: after))
    ∧ (∀ bs : List Byte, crc (bs ++ be2 (crc bs).toNat) = 0)
    ∧ (∀ es : List SampleEntry,
        sampleBytes es
          = es.flatMap fun e => [e.channel, e.raw.extractLsb' 8 8, e.raw.extractLsb' 0 8, e.quality])
    ∧ (∀ n : NoticeFields,
        noticeBytes n
          = [n.origin, n.seqNo.extractLsb' 8 8, n.seqNo.extractLsb' 0 8, n.release.extractLsb' 16 8,
              n.release.extractLsb' 8 8, n.release.extractLsb' 0 8, n.age.extractLsb' 8 8, n.age.extractLsb' 0 8])
    ∧ (∀ p : PhaseFields,
        phaseBytes p = [p.origin, p.step, p.cadence.extractLsb' 8 8, p.cadence.extractLsb' 0 8])
    ∧ (∀ o : OrderFields,
        orderBytes o = [o.gate, o.opening.extractLsb' 8 8, o.opening.extractLsb' 0 8, o.urgency, o.cadenceLength])
    ∧ (∀ o : Order,
        orderPayload o
          = [byte o.gate.val, byte (o.opening / 256), byte o.opening, if o.urgent = true then 1 else 0,
              byte o.cadenceLength])
    ∧ ∀ (h : Header) (s : State),
    (∀ es, exec (.frameRelay h 0x11 (sampleBytes es)) s = exec (.sampleArrival h es) s)
      ∧ (∀ n, exec (.frameRelay h 0x31 (noticeBytes n)) s = exec (.noticeArrival h n) s)
      ∧ (∀ p, exec (.frameRelay h 0x32 (phaseBytes p)) s = exec (.phaseArrival h p) s)
      ∧ (∀ o, exec (.frameRelay h 0x21 (orderBytes o)) s = exec (.orderReturn h o) s)
      ∧ (∀ code tag ops, h.dest = s.ring.nodeAddr →
          exec (.frameRelay h 0x41 (code :: tag :: ops)) s = exec (.requestBadCode ⟨h.src, tag⟩ code ops) s)
      ∧ ∀ kind payload, (payload.length ≤ 60 →
          exec (.checkErrorFrame h kind payload (frameCheck (frameOf h kind payload))) s
            = exec (.frameRelay h kind payload) s)
      ∧ frameOf h kind payload
          = { dest := h.dest, src := h.src, kind := kind, seq := h.seq, payload := payload, result := h.result, hops := h.hops }

/-! ### Conditions and reports -/

/-- R174, R175: a raise event, the CONDITION output, and the condition report that closes an event which called for one. That it is
queued at the end of the event is log entry 5. R104, R115, R175, R176: a completion queues one report when a reason holds, periodic, plan
point or a condition (one waiting with the allowance standing, or one that the completion itself raised, log entry 5), with every reason
in its kind and the contents as the completion leaves them, or drops it when the queue has no room; no report stays due. The completion
then ends as every event does. R176, Tables 10-9 and 10-12: the frames of a report: the summary, field by field, then six bytes for each
present gate, nine gates to a frame, each frame behind the report kind and the part byte, with DEST 255. Two model's choices in the
summary: the plan position in it (log entry 36), and that the plan release of R106 is not in it (log entry 26). What an expiry does with
the allowance and its condition report is in `ExpiryReadsAndTracks`, what the end of every event does with the report in
`SendEndServesFeeds`. -/
def Obligations.ConditionsAndReports : Prop :=
  (∀ (f : Flag) (s : State),
    (flagIn f s.report.flags = true → raise f s = s)
      ∧ (flagIn f s.report.flags = false →
          (∀ f', flagIn f' (raise f s).report.flags = true ↔ f' = f ∨ flagIn f' s.report.flags = true)
            ∧ (flagIn f s.mgmt.active.t10.mask = true →
                (raise f s).report.allowance = s.report.allowance ∧ (raise f s).report.waiting = s.report.waiting
                  ∧ (raise f s).marks = s.marks)
            ∧ (flagIn f s.mgmt.active.t10.mask = false → s.report.allowance = true →
                (raise f s).report.allowance = false ∧ (raise f s).report.waiting = false
                  ∧ (raise f s).marks.reportDue = true)
            ∧ (flagIn f s.mgmt.active.t10.mask = false → s.report.allowance = false →
                (raise f s).report.allowance = false ∧ (raise f s).report.waiting = true
                  ∧ (raise f s).marks = s.marks)))
    ∧ (∀ s : State, s.conditionOutput = true ↔
        ∃ f, flagIn f s.report.flags = true ∧ flagIn f s.mgmt.active.t10.mask = false)
    ∧ (∀ s : State, s.marks.reportDue = true →
        ((reportFrames 4 s).length ≤ s.feedRoom →
            (queueConditionReport s).ring.feed = s.ring.feed ++ reportFrames 4 s)
          ∧ (s.feedRoom < (reportFrames 4 s).length → queueConditionReport s = bump .reportDrops s)
          ∧ (reportFrames 4 s).length = 1 + ((presentGates s.gates).length + 8) / 9)
    ∧ (∀ (kind : Byte) (s : State),
        let gates := (List.finRange 16).filter fun g => decide ((s.gate g).state ≠ .absent)
        let parts := 1 + (gates.length + 8) / 9
        let partByte : Nat → Byte := fun i => byte (i + if i + 1 = parts then 128 else 0)
        let bit : Bool → Nat → Nat := fun b n => if b = true then n else 0
        (reportFrames kind s).length = parts
          ∧ (reportFrames kind s)[0]?
              = some
                  { dest := 255, kind := .report,
                    payload :=
                      kind :: partByte 0
                        :: (be2 s.mgmt.generation.toNat
                          ++ [s.mode.requested.toMode.code, s.mode.effective.code, s.mode.stage.code, byte (bit s.mode.duty 1)]
                          ++ be3 s.engine.results.qT ++ be3 s.engine.results.qD ++ be3 s.engine.results.qA
                          ++ be2 s.meas.hw.value ++ be2 s.meas.tw.value ++ be2 s.meas.head.value
                          ++ [byte (bit s.meas.hw.fresh 1 + bit s.meas.tw.fresh 2 + bit s.meas.head.fresh 4)]
                          ++ [s.timer.run.code, byte s.timer.step] ++ be2 s.timer.cadence
                          ++ [byte (bit (!s.timer.gateOpen) 1)] ++ be2 s.report.flags.toNat) }
          ∧ ∀ k, k + 1 < parts →
              (reportFrames kind s)[k + 1]?
                = some
                    { dest := 255, kind := .report,
                      payload :=
                        kind :: partByte (k + 1)
                          :: ((gates.drop (9 * k)).take 9).flatMap fun g =>
                            [byte g.val, (s.gate g).state.code] ++ be2 ((s.gate g).commanded.getD 0xffff)
                              ++ be2 ((s.gate g).measured + bit (s.gate g).fresh 32768) })
    ∧ ∀ (s : State) (sn : Snapshot) (condition : Bool), Awake s → Settled s → Quiet s → s.engine.computation = some sn →
        ∃ t u, exec .computationCompletion s = .next t
          ∧ t = closeEvent u ∧ u.ring = { s.ring with feed := u.ring.feed } ∧ u.marks.reportDue = false
          ∧ (s.ring.ro ≠ none ∨ ¬ InService s → t.ring = u.ring)
          ∧ t.report.periodicDue = false ∧ t.report.pointDue = false
          ∧ ((condition = true ↔
                s.report.allowance = true
                  ∧ (s.report.waiting = true
                      ∨ ∃ f, flagIn f t.report.flags = true ∧ flagIn f s.report.flags = false
                          ∧ flagIn f s.mgmt.active.t10.mask = false)) →
              let reasons := (if s.report.periodicDue = true then 1 else 0) + (if s.report.pointDue = true then 2 else 0)
                + (if condition = true then 4 else 0)
              let frames := reportFrames (byte reasons) t
              (reasons = 0 → u.ring.feed = s.ring.feed ∧ t.counter .reportDrops = s.counter .reportDrops)
                ∧ (reasons ≠ 0 → frames.length ≤ s.feedRoom →
                    u.ring.feed = s.ring.feed ++ frames ∧ u.marks.placed = true
                      ∧ t.counter .reportDrops = s.counter .reportDrops)
                ∧ (reasons ≠ 0 → s.feedRoom < frames.length →
                    u.ring.feed = s.ring.feed
                      ∧ t.counter .reportDrops = min (s.counter .reportDrops + 1) 65535)
                ∧ (condition = true → t.report.allowance = false)
                ∧ (condition = false → t.report.allowance = s.report.allowance))

/-! ### Ratings and the release computation -/

/-- R29: the forward rating of an active rating set is monotone, exact at the references, with its end points as the rule gives, and
constant over a flat segment. -/
def Obligations.ForwardRatingProperties : Prop :=
  ∀ (r : RatingSet) (b : BandNo), ascending false r.q.items = true →
    (∀ o1 o2, o1 ≤ o2 → o2 ≤ 1000 → forwardRating r b o1 ≤ forwardRating r b o2)
      ∧ (∀ k : Fin 9, forwardRating r b (125 * k.val) = min (r.q.get k * r.f.get b / 4096) 65535)
      ∧ forwardRating r b 0 = min (r.q.get 0 * r.f.get b / 4096) 65535
      ∧ (∀ o, o ≤ 1000 → forwardRating r b o ≤ forwardRating r b 1000)
      ∧ ∀ k : Fin 8, r.q.get k.castSucc = r.q.get k.succ →
          ∀ o, 125 * k.val ≤ o → o ≤ 125 * (k.val + 1) → forwardRating r b o = forwardRating r b (125 * k.val)

/-- R31: when it is not capped, the inverse rating is the smallest opening whose forward rating is at least q. -/
def Obligations.InverseRatingIsLeast : Prop :=
  ∀ (r : RatingSet) (b : BandNo) (q : Nat), ascending false r.q.items = true → 1 ≤ r.f.get b → q ≤ 65535 →
    (referenceNeed r b q ≤ r.q.get 8 →
        inverseRating r b q ≤ 1000
          ∧ q ≤ forwardRating r b (inverseRating r b q)
          ∧ ∀ o, o < inverseRating r b q → forwardRating r b o < q)
      ∧ (∀ o, o ≤ 1000 → inverseRating r b (forwardRating r b o) ≤ o)
      ∧ ∀ o, o ≤ 1000 → q ≤ forwardRating r b o → referenceNeed r b q ≤ r.q.get 8 ∧ inverseRating r b q ≤ o

/-- R66: computation stage 3 of SCHEDULE and PASS_THROUGH. -/
def Obligations.PlantLimitsOfTarget : Prop :=
  ∀ sn : Snapshot, sn.mode = .schedule ∨ sn.mode = .passThrough →
    let p := sn.govSet.t10
    let raised := max sn.stage2 p.qMinEnv
    let lower := sn.qTPrev - p.rlim
    let upper := min (sn.qTPrev + p.rlim) 1048575
    (compute sn).results.qTPrev = (compute sn).results.qT
      ∧ (raised < lower → (compute sn).results.qT = lower)
      ∧ (lower ≤ raised → raised ≤ upper → (compute sn).results.qT = raised)
      ∧ (lower ≤ raised → upper < raised → sn.stage ≠ .flood → (compute sn).results.qT = upper)
      ∧ (lower ≤ raised → upper < raised → sn.stage = .flood → (compute sn).results.qT = raised)

/-- R69, R70: the headroom of a gate is the rating of its max opening less that of its effective minimum, at the band of the head. R70 to
R72: in every computation that runs stage 6, the allotments and the remainder sum to Q_R2, no allotment exceeds its gate's
headroom, a gate that is not ACTIVE or not in the list gets none, and a tier receives a share only when the tiers below are full. Within a
tier the split is even: beside a gate that stands below its headroom no gate of its tier has more than one unit more, and none that stands
after it in the list has more. -/
def Obligations.WaterFillingConserves : Prop :=
  ∀ sn : Snapshot, sn.Lawful → sn.mode = .schedule ∨ sn.mode = .passThrough →
    let res := (compute sn).results
    let rated : GateNo → Nat → Nat := fun g o =>
      forwardRating (sn.govSet.t3.get (sn.govSet.t1.get g).ratingSet) (bandOf sn.govSet.t4 sn.head.value) o
    let least : GateNo → Nat := fun g =>
      if sn.duty = true ∧ sn.govSet.t10.compGate = some g then
        min (max (sn.govSet.t1.get g).minOpening sn.govSet.t10.compOpening) (sn.govSet.t1.get g).maxOpening
      else (sn.govSet.t1.get g).minOpening
    (∀ g, sn.headroom g = rated g (sn.govSet.t1.get g).maxOpening - rated g (least g))
      ∧ (sumGates fun g => res.allot.get g) + res.remainder = res.qR2
      ∧ (∀ g, res.allot.get g ≤ sn.headroom g)
      ∧ (∀ g, (sn.gates.get g).state ≠ .active ∨ (∀ p ∈ sn.govSet.t2, p.gate ≠ g) → res.allot.get g = 0)
      ∧ (0 < res.remainder →
          ∀ p ∈ sn.govSet.t2, (sn.gates.get p.gate).state = .active → res.allot.get p.gate = sn.headroom p.gate)
      ∧ (∀ p ∈ sn.govSet.t2, ∀ p' ∈ sn.govSet.t2, p.tier < p'.tier → 0 < res.allot.get p'.gate →
          (sn.gates.get p.gate).state = .active → res.allot.get p.gate = sn.headroom p.gate)
      ∧ ∀ (i j : Nat) (p p' : AllocPair), sn.govSet.t2[i]? = some p → sn.govSet.t2[j]? = some p' → p.tier = p'.tier →
          (sn.gates.get p.gate).state = .active → (sn.gates.get p'.gate).state = .active →
          res.allot.get p.gate < sn.headroom p.gate →
          res.allot.get p'.gate ≤ res.allot.get p.gate + 1
            ∧ (i < j → res.allot.get p'.gate ≤ res.allot.get p.gate)

/-- R73, R74: for each gate that is ACTIVE in the snapshot, the target is the effective minimum with no allotment, the max opening when
the allotment is the whole headroom, and else the inverse rating of the discharge at the effective minimum plus the allotment, brought
within the effective minimum and the max opening. It lies within the gate's limits and, unless it is the max opening, rates at least the
discharge allotted; the new commanded opening is the target when that is within the rate limit, else the old one moved toward it by the
rate limit. R28, R32: the forward rating between two references, and the inverse rating when it is capped (uncapped it is the least
opening of R31, `InverseRatingIsLeast`). R26, R61 to R63, R67 to R69, R75, R76: the other stages of a SCHEDULE or PASS_THROUGH
computation: the band, the target of stage 2, the fixed contribution and what it leaves, the minimum openings and what they leave, the
EXCESS test, the frozen Q_T, the delivered estimate, the shortfall and its cause. -/
def Obligations.TargetsAndRateLimits : Prop :=
  (∀ (sn : Snapshot) (g : GateNo) (old : Nat), sn.Lawful → sn.mode = .schedule ∨ sn.mode = .passThrough →
    (sn.gates.get g).state = .active → (sn.gates.get g).commanded = some old →
    (sn.govSet.t1.get g).maxOpening ≤ 1000 →
    let target := (compute sn).targets.get g
    let set := sn.govSet.t3.get (sn.govSet.t1.get g).ratingSet
    let band := bandOf sn.govSet.t4 sn.head.value
    let most := (sn.govSet.t1.get g).maxOpening
    let least :=
      if sn.duty = true ∧ sn.govSet.t10.compGate = some g then
        min (max (sn.govSet.t1.get g).minOpening sn.govSet.t10.compOpening) most
      else (sn.govSet.t1.get g).minOpening
    let allot := (compute sn).results.allot.get g
    let headroom := forwardRating set band most - forwardRating set band least
    (allot = 0 → target = least)
      ∧ (0 < allot → allot = headroom → target = most)
      ∧ (0 < allot → allot < headroom →
          target = min (max (inverseRating set band (forwardRating set band least + allot)) least) most)
      ∧ (sn.govSet.t1.get g).minOpening ≤ target ∧ target ≤ (sn.govSet.t1.get g).maxOpening
      ∧ (target = (sn.govSet.t1.get g).maxOpening
          ∨ sn.qf g (sn.effMin g) + (compute sn).results.allot.get g ≤ sn.qf g target)
      ∧ ∃ new, (compute sn).commands.get g = some new
          ∧ min old target ≤ new ∧ new ≤ max old target
          ∧ new ≤ old + (sn.govSet.t1.get g).rate ∧ old ≤ new + (sn.govSet.t1.get g).rate
          ∧ (old ≤ target + (sn.govSet.t1.get g).rate → target ≤ old + (sn.govSet.t1.get g).rate → new = target)
          ∧ (old + (sn.govSet.t1.get g).rate < target → new = old + (sn.govSet.t1.get g).rate)
          ∧ (target + (sn.govSet.t1.get g).rate < old → new = old - (sn.govSet.t1.get g).rate))
    ∧ (∀ (r : RatingSet) (b : BandNo),
        (∀ (k : Fin 8) (o : Nat), 125 * k.val ≤ o → o ≤ 125 * (k.val + 1) →
          ascending false r.q.items = true →
          forwardRating r b o
            = min ((r.q.get k.castSucc + (r.q.get k.succ - r.q.get k.castSucc) * (o - 125 * k.val) / 125) * r.f.get b / 4096) 65535)
          ∧ ∀ q, 1 ≤ r.f.get b → r.q.get 8 * r.f.get b < q * 4096 → inverseRating r b q = 1000)
    ∧ (∀ f : GateNo → Nat, sumGates f = ∑ g : GateNo, f g)
    ∧ ∀ sn : Snapshot, sn.mode = .schedule ∨ sn.mode = .passThrough →
    let p := sn.govSet.t10
    let c := compute sn
    let res := c.results
    let b := bandOf sn.govSet.t4 sn.head.value
    let rated : GateNo → Nat → Nat := fun g o =>
      forwardRating (sn.govSet.t3.get (sn.govSet.t1.get g).ratingSet) b o
    let st : GateNo → GateState := fun g => (sn.gates.get g).state
    let least : GateNo → Nat := fun g =>
      if sn.duty = true ∧ p.compGate = some g then
        min (max (sn.govSet.t1.get g).minOpening p.compOpening) (sn.govSet.t1.get g).maxOpening
      else (sn.govSet.t1.get g).minOpening
    let fromPlan := sn.run ≠ .stopped ∧ sn.gateOpen = true ∧ sn.planRelease ≠ none
    let slow := ∃ g, st g = .active ∧ c.commands.get g ≠ some (c.targets.get g)
    ((∀ i : BandNo, i < b → sn.govSet.t4.get i < sn.head.value) ∧ (sn.head.value ≤ sn.govSet.t4.get b ∨ b = 7))
      ∧ (∀ q, sn.mode = .schedule → fromPlan → sn.planRelease = some q → sn.stage2 = q)
      ∧ (sn.mode = .schedule → ¬ fromPlan → sn.stage2 = sn.frozen)
      ∧ (sn.mode = .passThrough → sn.hw.fresh = true →
          (sn.stage2 : Int)
            = max 0 (min ((sn.qA : Int) + Int.tdiv (((sn.hw.value : Int) - p.hwSet) * p.kl) 16) 1048575))
      ∧ (sn.mode = .passThrough → sn.hw.fresh = false → sn.stage2 = min sn.qA 1048575)
      ∧ res.frozen = (if sn.mode = .schedule ∧ ¬ fromPlan then sn.frozen else res.qT)
      ∧ res.qA = sn.qA
      ∧ res.fixed
          = (sumGates fun g =>
              if st g ≠ .absent ∧ st g ≠ .active then
                rated g (if (sn.gates.get g).fresh = true then (sn.gates.get g).measured
                  else (sn.gates.get g).commanded.getD 0)
              else 0)
      ∧ res.qR = res.qT - res.fixed ∧ res.excess = res.fixed - res.qT
      ∧ (c.excessRaised = true ↔ res.qT + p.tolerance < res.fixed)
      ∧ res.qR2 = res.qR - (sumGates fun g => if st g = .active then rated g (least g) else 0)
      ∧ res.qD
          = min ((sumGates fun g => if st g = .active then ((c.commands.get g).map (rated g)).getD 0 else 0)
              + res.fixed) 1048575
      ∧ res.shortfall = res.qT - res.qD
      ∧ (c.shortfallRaised = true ↔ res.qD + p.tolerance < res.qT)
      ∧ (c.shortfallRaised = false → res.cause = .none)
      ∧ (c.shortfallRaised = true → p.tolerance < res.remainder → slow → res.cause = .capacityAndRate)
      ∧ (c.shortfallRaised = true → p.tolerance < res.remainder → ¬ slow → res.cause = .capacity)
      ∧ (c.shortfallRaised = true → ¬ p.tolerance < res.remainder → slow → res.cause = .rate)

/-- R64, R65, R74: a HOLD computation hands the ACTIVE gates their targets and commanded openings unchanged; a SURCHARGE computation
drives the ACTIVE SPILL gates to their max openings, each by its urgent rate a cadence until it is there, and leaves the others; both
set Q_T, Q_T_prev and the frozen Q_T to Q_D and record no share. R68, R75: the fixed contribution and the delivered estimate of both.
-/
def Obligations.HoldAndSurcharge : Prop :=
  ∀ sn : Snapshot, sn.mode = .hold ∨ sn.mode = .surcharge →
    let c := compute sn
    (∀ g, (sn.gates.get g).state = .active → sn.mode = .surcharge → (sn.govSet.t1.get g).cls = .spill →
        c.targets.get g = (sn.govSet.t1.get g).maxOpening
          ∧ ∀ old, (sn.gates.get g).commanded = some old →
              ∃ new, c.commands.get g = some new
                ∧ new ≤ old + (sn.govSet.t1.get g).urgentRate ∧ old ≤ new + (sn.govSet.t1.get g).urgentRate
                ∧ min old (sn.govSet.t1.get g).maxOpening ≤ new ∧ new ≤ max old (sn.govSet.t1.get g).maxOpening
                ∧ (old ≤ (sn.govSet.t1.get g).maxOpening + (sn.govSet.t1.get g).urgentRate →
                    (sn.govSet.t1.get g).maxOpening ≤ old + (sn.govSet.t1.get g).urgentRate →
                    new = (sn.govSet.t1.get g).maxOpening)
                ∧ (old + (sn.govSet.t1.get g).urgentRate < (sn.govSet.t1.get g).maxOpening →
                    new = old + (sn.govSet.t1.get g).urgentRate)
                ∧ ((sn.govSet.t1.get g).maxOpening + (sn.govSet.t1.get g).urgentRate < old →
                    new = old - (sn.govSet.t1.get g).urgentRate))
      ∧ (∀ g, (sn.gates.get g).state = .active → sn.mode = .hold ∨ (sn.govSet.t1.get g).cls ≠ .spill →
          c.targets.get g = (sn.gates.get g).target ∧ c.commands.get g = (sn.gates.get g).commanded)
      ∧ c.results.qT = c.results.qD ∧ c.results.qTPrev = c.results.qD ∧ c.results.frozen = c.results.qD
      ∧ c.results.qA = sn.qA ∧ c.results.qR = 0 ∧ c.results.qR2 = 0 ∧ c.results.remainder = 0
      ∧ (∀ g, c.results.allot.get g = 0) ∧ c.results.shortfall = 0 ∧ c.results.cause = .none
      ∧ c.shortfallRaised = false ∧ c.excessRaised = false
      ∧ c.results.fixed = sn.fixedSum ∧ c.results.excess = sn.fixedSum - c.results.qT
      ∧ (let rated : GateNo → Nat → Nat := fun g o =>
           forwardRating (sn.govSet.t3.get (sn.govSet.t1.get g).ratingSet) (bandOf sn.govSet.t4 sn.head.value) o
         c.results.fixed
           = (sumGates fun g =>
               if (sn.gates.get g).state ≠ .absent ∧ (sn.gates.get g).state ≠ .active then
                 rated g (if (sn.gates.get g).fresh = true then (sn.gates.get g).measured
                   else (sn.gates.get g).commanded.getD 0)
               else 0)
          ∧ c.results.qD
              = min ((sumGates fun g =>
                  if (sn.gates.get g).state = .active then ((c.commands.get g).map (rated g)).getD 0 else 0)
                + c.results.fixed) 1048575)

/-- R105: the plan release of a position. -/
def Obligations.PlanReleaseOfPosition : Prop :=
  ∀ (set : GovSet) (i c : Nat), i < set.plan.count → c < (stepAt set i).duration →
    let q := planReleaseAt set i c
    let step := (stepAt set i).release
    let prev :=
      if 0 < i then (stepAt set (i - 1)).release
      else if set.plan.kind = .cyclic then (stepAt set (set.plan.count - 1)).release else step
    ((stepAt set i).shape = .step → q = step)
      ∧ ((stepAt set i).shape = .ramp →
          (q : Int) = prev + Int.tdiv (((step : Int) - prev) * (c + 1)) (stepAt set i).duration)
      ∧ min prev step ≤ q ∧ q ≤ max prev step
      ∧ (c + 1 = (stepAt set i).duration → q = step)

/-! ### Layouts -/

/-- R166, R177, Table 10-11: an entry whose fields lie in their ranges, written out as bytes, has the size of Table 10-1 and reads back
as itself. Table 10-1: the sizes and the last entries of T1 to T14. Table 10-11: the bytes of every entry of T1 to T10, field by field in
their order, high byte first, codes as in Table 10-10 and a signed field in two's complement. R164: which copy a copy code reads. R1, R22,
R23, R34, R80, R99, R100, R118, R161, R166: a written entry is out of range exactly when one of its fields lies outside the range of its
table; else the named entry holds fields in their ranges that read back as the bytes written, and every other entry is as it was. Of T2 the
pairs beyond the number are not tested and read as 0 (Table 10-11). That the other fields of a T6 or T9 entry not in use are not held to
their ranges is log entry 10. -/
def Obligations.EntriesReadBack : Prop :=
  let bit : Bool → Byte := fun b => if b = true then 1 else 0
  let slotOr : Option SlotNo → Byte := fun o => match o with
    | none => 0xff
    | some n => byte n.val
  let gateOr : Option GateNo → Byte := fun o => match o with
    | none => 0xff
    | some n => byte n.val
  let signed : Int → List Byte := fun n => be2 (BitVec.ofInt 16 n).toNat
  let one : List Byte → Nat → Nat := fun bs i => (bs.getD i 0).toNat
  let two : List Byte → Nat → Nat := fun bs i => 256 * one bs i + one bs (i + 1)
  let three : List Byte → Nat → Nat := fun bs i => 65536 * one bs i + two bs (i + 1)
  let ranged : Nat → Nat → List Byte → Prop := fun table entry bs => match table with
    | 1 =>
      one bs 0 ≤ 3 ∧ one bs 2 ≤ 31 ∧ one bs 3 ≤ 7 ∧ two bs 4 ≤ 1000 ∧ two bs 6 ≤ 1000
        ∧ 1 ≤ two bs 8 ∧ two bs 8 ≤ 1000 ∧ 1 ≤ two bs 10 ∧ two bs 10 ≤ 1000
    | 2 => one bs 0 ≤ 16 ∧ ∀ k, k < one bs 0 → one bs (2 * k + 1) ≤ 15 ∧ one bs (2 * k + 2) ≤ 7
    | 3 => ∀ k, k < 8 → two bs (18 + 2 * k) ≤ 8191
    | 5 =>
      if entry = 0 then
        one bs 0 ≤ 48 ∧ one bs 1 ≤ 1 ∧ one bs 2 ≤ 47 ∧ one bs 5 ≤ 1 ∧ one bs 6 ≤ 1 ∧ one bs 7 ≤ 7
      else three bs 2 ≤ 1048575 ∧ one bs 5 ≤ 1
    | 6 =>
      one bs 0 ≤ 1
        ∧ (one bs 0 = 1 → 1 ≤ one bs 1 ∧ one bs 1 ≤ 254 ∧ one bs 2 ≤ 15 ∧ one bs 3 ≤ 31)
    | 7 => 1 ≤ one bs 4
    | 8 => ∀ k, k < 6 → one bs k ≤ 31 ∨ one bs k = 255
    | 9 => one bs 0 ≤ 1 ∧ (one bs 0 = 1 → one bs 1 ≤ 7 ∧ ∀ k, k < 4 → three bs (2 + 3 * k) ≤ 1048575)
    | 10 =>
      two bs 2 ≤ 4095 ∧ three bs 4 ≤ 1048575 ∧ 1 ≤ three bs 7 ∧ three bs 7 ≤ 1048575
        ∧ (one bs 12 ≤ 15 ∨ one bs 12 = 255) ∧ two bs 13 ≤ 1000 ∧ two bs 21 ≤ 500 ∧ two bs 23 ≤ 3600
        ∧ 1 ≤ one bs 25 ∧ one bs 25 ≤ 60 ∧ two bs 26 ≤ 3600 ∧ 5 ≤ one bs 28 ∧ one bs 28 ≤ 200
        ∧ 1 ≤ one bs 29 ∧ one bs 29 ≤ 15 ∧ 2 ≤ one bs 30 ∧ one bs 30 ≤ 250 ∧ 1 ≤ one bs 31
        ∧ one bs 34 ≤ 254 ∧ one bs 35 ≤ 254
    | _ => True
  (∀ c : GateCfg, c.InRange → c.bytes.length = 12 ∧ readGateCfg c.bytes = some c)
    ∧ (∀ l : List AllocPair, l.length ≤ 16 → (allocBytes l).length = 33 ∧ readAlloc (allocBytes l) = some l)
    ∧ (∀ r : RatingSet, r.InRange → r.bytes.length = 34 ∧ readRatingSet r.bytes = some r)
    ∧ (∀ e : Tab Nat 8, BandEndsInRange e → (e.items.flatMap be2).length = 16 ∧ readBandEnds (e.items.flatMap be2) = some e)
    ∧ (∀ h : PlanHeader, h.InRange → h.bytes.length = 10 ∧ readPlanHeader h.bytes = some h)
    ∧ (∀ p : PlanStep, p.InRange → p.bytes.length = 6 ∧ readPlanStep p.bytes = some p)
    ∧ (∀ u : Subscription, u.InRange → u.bytes.length = 4 ∧ readSubscription u.bytes = some u)
    ∧ (∀ p : SlotParams, p.InRange → p.bytes.length = 7 ∧ readSlotParams p.bytes = some p)
    ∧ (∀ r : LevelRoles, r.bytes.length = 6 ∧ readLevelRoles r.bytes = some r)
    ∧ (∀ r : OriginRecord, r.InRange → r.bytes.length = 22 ∧ readOriginRecord r.bytes = some r)
    ∧ (∀ p : PlantParams, p.InRange → p.bytes.length = 36 ∧ readPlantParams p.bytes = some p)
    ∧ ([1, 2, 3, 4, 5, 6, 7, 8, 9, 10, 11, 12, 13, 14].map lastEntry
          = [15, 0, 7, 0, 48, 31, 31, 0, 3, 0, 31, 35, 20, 21]
        ∧ (∀ e, [1, 2, 3, 4, 6, 7, 8, 9, 10, 11, 12, 14].map (entrySize · e) = [12, 33, 34, 16, 4, 7, 6, 22, 36, 8, 11, 2])
        ∧ entrySize 5 0 = 10 ∧ (∀ e, 1 ≤ e → entrySize 5 e = 6)
        ∧ (∀ e, e < 16 → entrySize 13 e = 11) ∧ [16, 17, 18, 19, 20].map (entrySize 13) = [66, 11, 9, 33, 13])
    ∧ (∀ (s : State) (table entry : Nat),
        copyEntry s 0 table entry = entryBytes s.mgmt.active table entry
          ∧ copyEntry s 1 table entry = entryBytes s.mgmt.shadow table entry
          ∧ copyEntry s 2 table entry = liveBytes s table entry)
    ∧ ((∀ n : Nat, be2 n = [byte (n / 256), byte n] ∧ be3 n = byte (n / 65536) :: be2 n)
        ∧ (∀ n : Nat, (byte n).toNat = n % 256)
        ∧ [GateClass.absent, .unit, .spill, .bypass].map GateClass.code = [0, 1, 2, 3]
        ∧ [PlanKind.cyclic, .oneShot].map PlanKind.code = [0, 1]
        ∧ [PointMode.once, .everyStep].map PointMode.code = [0, 1]
        ∧ [Shape.step, .ramp].map Shape.code = [0, 1])
    ∧ (∀ set : GovSet,
        (∀ g : GateNo,
            let c := set.t1.get g
            entryBytes set 1 g.val
              = [c.cls.code, c.node, byte c.positionSlot.val, byte c.ratingSet.val]
                ++ be2 c.minOpening ++ be2 c.maxOpening ++ be2 c.rate ++ be2 c.urgentRate)
          ∧ (set.t2.length ≤ 16 →
              entryBytes set 2 0
                = byte set.t2.length :: (set.t2.flatMap fun p => [byte p.gate.val, byte p.tier.val])
                  ++ List.replicate (32 - 2 * set.t2.length) 0)
          ∧ (∀ n : RatingSetNo,
              entryBytes set 3 n.val
                = ((List.finRange 9).flatMap fun i => be2 ((set.t3.get n).q.get i))
                  ++ (List.finRange 8).flatMap fun i => be2 ((set.t3.get n).f.get i))
          ∧ entryBytes set 4 0 = ((List.finRange 8).flatMap fun i => be2 (set.t4.get i))
          ∧ (let h := set.plan
             entryBytes set 5 0
               = [byte h.count, h.kind.code, byte h.pointStep] ++ be2 h.pointCadence
                 ++ [h.pointMode.code, bit h.phaseFollow, byte h.followed] ++ signed h.phaseOffset)
          ∧ (∀ i : Fin 48,
              let p := set.steps.get i
              entryBytes set 5 (i.val + 1) = be2 p.duration ++ be3 p.release ++ [p.shape.code])
          ∧ (∀ i : Fin 32,
              let u := set.t6.get i
              entryBytes set 6 i.val = [bit u.inUse, u.source, u.channel, u.slot])
          ∧ (∀ n : SlotNo,
              let p := set.t7.get n
              entryBytes set 7 n.val = be2 p.gain ++ signed p.offset ++ [byte p.staleLimit] ++ be2 p.jumpLimit)
          ∧ entryBytes set 8 0
              = [slotOr set.t8.hw1, slotOr set.t8.hw2, slotOr set.t8.hw3, slotOr set.t8.tw1, slotOr set.t8.tw2,
                  slotOr set.t8.inflow]
          ∧ (∀ n : OriginNo,
              let r := set.t9.get n
              entryBytes set 9 n.val
                = [bit r.inUse, r.station] ++ ((List.finRange 4).flatMap fun i => be3 (r.bands.get i))
                  ++ (List.finRange 4).flatMap fun i => be2 (r.times.get i))
          ∧ (let p := set.t10
             entryBytes set 10 0
               = be2 p.hwSet ++ be2 p.kl ++ be3 p.qMinEnv ++ be3 p.rlim ++ be2 p.tolerance ++ [gateOr p.compGate]
                 ++ be2 p.compOpening ++ be2 p.tAlert ++ be2 p.tFlood ++ be2 p.tExtreme ++ be2 p.hys ++ be2 p.fallDwell
                 ++ [byte p.cadenceLength] ++ be2 p.lookahead
                 ++ [byte p.trackingBand, byte p.trackingLimit, byte p.returnLimit, byte p.reportInterval]
                 ++ be2 p.mask.toNat ++ [p.managerA, p.managerB]))
    ∧ ∀ (table entry : Nat) (bs : List Byte) (set : GovSet), 1 ≤ table → table ≤ 10 → entry ≤ lastEntry table →
        bs.length = entrySize table entry →
        (writeEntryIn table entry bs set = none ↔ ¬ ranged table entry bs)
          ∧ ∀ new, writeEntryIn table entry bs set = some new →
              entryBytes new table entry
                  = (if table = 2 then bs.take (1 + 2 * one bs 0) ++ List.replicate (32 - 2 * one bs 0) 0 else bs)
                ∧ (∀ g : GateNo,
                    (table = 1 → entry = g.val → (new.t1.get g).InRange)
                      ∧ (¬ (table = 1 ∧ entry = g.val) → new.t1.get g = set.t1.get g))
                ∧ (table = 2 → new.t2.length ≤ 16) ∧ (table ≠ 2 → new.t2 = set.t2)
                ∧ (∀ n : RatingSetNo,
                    (table = 3 → entry = n.val → (new.t3.get n).InRange)
                      ∧ (¬ (table = 3 ∧ entry = n.val) → new.t3.get n = set.t3.get n))
                ∧ (table = 4 → BandEndsInRange new.t4) ∧ (table ≠ 4 → new.t4 = set.t4)
                ∧ (table = 5 → entry = 0 → new.plan.InRange) ∧ (¬ (table = 5 ∧ entry = 0) → new.plan = set.plan)
                ∧ (∀ i : Fin 48,
                    (table = 5 → entry = i.val + 1 → (new.steps.get i).InRange)
                      ∧ (¬ (table = 5 ∧ entry = i.val + 1) → new.steps.get i = set.steps.get i))
                ∧ (∀ i : Fin 32,
                    (table = 6 → entry = i.val → (new.t6.get i).InRange)
                      ∧ (¬ (table = 6 ∧ entry = i.val) → new.t6.get i = set.t6.get i))
                ∧ (∀ n : SlotNo,
                    (table = 7 → entry = n.val → (new.t7.get n).InRange)
                      ∧ (¬ (table = 7 ∧ entry = n.val) → new.t7.get n = set.t7.get n))
                ∧ (table ≠ 8 → new.t8 = set.t8)
                ∧ (∀ n : OriginNo,
                    (table = 9 → entry = n.val → (new.t9.get n).InRange)
                      ∧ (¬ (table = 9 ∧ entry = n.val) → new.t9.get n = set.t9.get n))
                ∧ (table = 10 → new.t10.InRange) ∧ (table ≠ 10 → new.t10 = set.t10)

/-! ### Invariants that every step keeps -/

/-- R140 to R143: the Ring Port's bounds, distinct sequence numbers and typed in-flight entries are kept by every step. -/
def Obligations.RingInvariantKept : Prop :=
  ∀ s t : State, RingInv s → step s = .next t → RingInv t

/-- R152, R153, R155: one unsent order per gate, orders only of ordered gates, none while the effective mode is INITIAL, and lost counts
of 0 to 3 are kept by every step, with what the snapshot of a computation in flight shows of INITIAL. R153: a command that ends in
INITIAL has originated no ORDER frame. -/
def Obligations.OrderInvariantKept : Prop :=
  (∀ s t : State, OrderInv s → step s = .next t → OrderInv t)
    ∧ ∀ (c : Instr) (s t : State), OrderInv s → exec c s = .next t → t.mode.effective = .initial →
        ∀ e ∈ t.ring.inFlight, e.kind = .order → e ∈ s.ring.inFlight

/-- R83, R88, R90: the reach queue's bound and order, that nothing in it is overdue once due processing is done, and that its entries
stand behind their origins' latest dues, are kept by every step. -/
def Obligations.ReachInvariantKept : Prop :=
  ∀ s t : State, ReachInv s → step s = .next t → ReachInv t

/-- R167, R170: the active set passes the commit checks, a pending shadow does too, and under the lock both copies agree in every limit
field, after every step; and while the lock is set no step but a release of RESET changes a limit field of either copy or clears the
lock. -/
def Obligations.SetInvariantKept : Prop :=
  (∀ s t : State, SetInv s → step s = .next t → SetInv t)
    ∧ ∀ (c : Instr) (s t : State), SetInv s → s.mgmt.lock = true → (∀ addr stn, c ≠ .resetRelease addr stn) →
        exec c s = .next t →
        t.mgmt.lock = true ∧ t.mgmt.active.limits = s.mgmt.active.limits
          ∧ t.mgmt.shadow.limits = s.mgmt.shadow.limits

/-- R101, R121, R125, R128, R132: the plan position stays valid, the effective mode stays the entry of Table 7-3 outside INITIAL,
SCHEDULE is never requested with an empty plan, and the duty and the dwell stay as their rules give, after every step. -/
def Obligations.PlanModeInvariantKept : Prop :=
  ∀ s t : State, SetInv s → PlanModeInv s → step s = .next t → PlanModeInv t

/-- R6, R11, R12: records are ABSENT as their classes are, targets lie within their limits, and the ordered gates have commanded
openings outside INITIAL, after every step. -/
def Obligations.GateInvariantKept : Prop :=
  ∀ s t : State, SetInv s → GateInv s → step s = .next t → GateInv t

/-- The state after a pin reset meets every invariant, whatever the straps (R160: the empty set passes the checks). -/
def Obligations.ResetMeetsInvariants : Prop :=
  ∀ (addr : Byte) (stn : BitVec 3) (pending : List Instr),
    let s := State.pinReset addr stn pending
    RingInv s ∧ OrderInv s ∧ ReachInv s ∧ SetInv s ∧ PlanModeInv s ∧ GateInv s ∧ CountersInRange s
end

