-- ==== Sys2Proof/Laws/Bytes.lean ====
section
/-! SUPPORT. Fields of two and three bytes and the payloads made of them: what is written is read back, and the CHECK computation keeps
registers apart (R148). -/

namespace Sys2Proof.Machine

theorem byte_pair (x : BitVec 16) : (byte (x.toNat / 256) ++ byte x.toNat : BitVec 16) = x := by
  apply BitVec.eq_of_getLsbD_eq
  intro i hi
  rw [BitVec.getLsbD_append]
  simp only [byte, BitVec.getLsbD_ofNat]
  by_cases h : i < 8
  · simp [h, BitVec.testBit_toNat]
  · have e : x.toNat / 256 = x.toNat >>> 8 := by rw [Nat.shiftRight_eq_div_pow]
    simp [h, show i - 8 < 8 by omega, e, Nat.testBit_shiftRight, BitVec.testBit_toNat, show 8 + (i - 8) = i by omega]

theorem byte_triple (x : BitVec 24) :
    ((byte (x.toNat / 65536) ++ byte (x.toNat / 256)) ++ byte x.toNat : BitVec 24) = x := by
  apply BitVec.eq_of_getLsbD_eq
  intro i hi
  simp only [BitVec.getLsbD_append, byte, BitVec.getLsbD_ofNat]
  by_cases h : i < 8
  · simp [h, BitVec.testBit_toNat]
  · have e : x.toNat / 256 = x.toNat >>> 8 := by rw [Nat.shiftRight_eq_div_pow]
    have e2 : x.toNat / 65536 = x.toNat >>> 16 := by rw [Nat.shiftRight_eq_div_pow]
    by_cases h2 : i - 8 < 8
    · simp [h, h2, e, Nat.testBit_shiftRight, BitVec.testBit_toNat, show 8 + (i - 8) = i by omega]
    · simp [h, h2, show i - 8 - 8 < 8 by omega, e2, Nat.testBit_shiftRight, BitVec.testBit_toNat,
        show 16 + (i - 8 - 8) = i by omega]

theorem byte_toNat (b : Byte) : byte b.toNat = b := by simp [byte]

/-- A field of two bytes gives back the number written, below 65,536. -/
theorem ofBytes_pair (n : Nat) (h : n < 65536) : ofBytes [byte (n / 256), byte n] = n := by
  simp [ofBytes, byte]; omega

theorem ofBytes_triple (n : Nat) (h : n < 16777216) : ofBytes [byte (n / 65536), byte (n / 256), byte n] = n := by
  simp [ofBytes, byte]; omega

theorem readBelow_byte {n : Nat} (hn : n ≤ 256) (i : Fin n) : readBelow n (byte i.val) = some i := by
  have : (byte i.val).toNat = i.val := by
    have := i.isLt; simp [byte]; omega
  simp [readBelow, this]

theorem sampleBytes_length (es : List SampleEntry) : (sampleBytes es).length = 4 * es.length := by
  induction es with
  | nil => rfl
  | cons e es ih => simp [sampleBytes, be2] at *; rw [ih]; omega

theorem readSamples_sampleBytes (es : List SampleEntry) : readSamples (sampleBytes es) = es := by
  induction es with
  | nil => rfl
  | cons e es ih =>
    have : sampleBytes (e :: es)
        = e.channel :: byte (e.raw.toNat / 256) :: byte e.raw.toNat :: e.quality :: sampleBytes es := rfl
    rw [this, readSamples, ih, byte_pair]

theorem readNotice_noticeBytes (n : NoticeFields) : readNotice (noticeBytes n) = some n := by
  show readNotice [n.origin, byte (n.seqNo.toNat / 256), byte n.seqNo.toNat, byte (n.release.toNat / 65536),
    byte (n.release.toNat / 256), byte n.release.toNat, byte (n.age.toNat / 256), byte n.age.toNat] = _
  rw [readNotice, byte_pair, byte_pair, byte_triple]

theorem readPhase_phaseBytes (p : PhaseFields) : readPhase (phaseBytes p) = some p := by
  show readPhase [p.origin, p.step, byte (p.cadence.toNat / 256), byte p.cadence.toNat] = _
  rw [readPhase, byte_pair]

theorem openingField_orderBytes (o : OrderFields) : openingField (orderBytes o) = some o.opening.toNat := by
  show some (ofBytes [byte (o.opening.toNat / 256), byte o.opening.toNat]) = _
  rw [ofBytes_pair _ o.opening.isLt]

/-! ### The CHECK computation (R148) -/

/-- One data bit shifts the register and adds the generator when the bit shifted out differs from it. -/
theorem crcBit_eq (reg : BitVec 16) (d : Bool) :
    crcBit reg d = (reg <<< 1) ^^^ (if reg.getLsbD 15 = d then 0 else 0x1021) := by
  unfold crcBit
  simp only [BitVec.msb_eq_getLsbD_last]
  split <;> simp_all

/-- The lowest bit of the register tells whether the generator was added, so no two registers give the same one. -/
theorem crcBit_injective (d : Bool) {a b : BitVec 16} (h : crcBit a d = crcBit b d) : a = b := by
  have low : ∀ r : BitVec 16, (crcBit r d).getLsbD 0 = (r.msb != d) := by
    intro r
    unfold crcBit
    split <;> simp_all
  have top : a.msb = b.msb := by
    have := (low a).symm.trans ((congrArg (·.getLsbD 0) h).trans (low b))
    revert this
    cases a.msb <;> cases b.msb <;> cases d <;> simp
  have rest : a <<< 1 = b <<< 1 := by
    unfold crcBit at h
    rw [top] at h
    split at h
    · exact h
    · simpa using h
  apply BitVec.eq_of_getLsbD_eq
  intro i hi
  by_cases h15 : i = 15
  · subst h15
    simpa [BitVec.msb_eq_getLsbD_last] using top
  · simpa [BitVec.getLsbD_shiftLeft, show i + 1 < 16 by omega, BitVec.getLsbD_eq_getElem hi] using congrArg (·.getLsbD (i + 1)) rest

/-- A byte taken in keeps registers apart. -/
theorem crcByte_injective (x : Byte) {a b : BitVec 16} (h : crcByte a x = crcByte b x) : a = b := by
  simp only [crcByte, List.foldl_cons, List.foldl_nil] at h
  iterate 8 replace h := crcBit_injective _ h
  exact h

/-- A run of bytes taken in keeps registers apart. -/
theorem foldl_crcByte_injective (bs : List Byte) {a b : BitVec 16} (h : bs.foldl crcByte a = bs.foldl crcByte b) : a = b := by
  induction bs generalizing a b with
  | nil => exact h
  | cons x bs ih => exact crcByte_injective x (ih h)

end Sys2Proof.Machine
end

