-- ==== Sys2Proof/Laws/Tab.lean ====
section
/-! SUPPORT. The laws of tables of a fixed number of entries: reading back what is put in, and when two tables are equal. -/

namespace Sys2Proof.Tab

variable {α β : Type} {n : Nat}

/-- Entry `i` is the list's entry `i`. -/
theorem get_eq (t : Tab α n) (i : Fin n) : t.get i = t.items[i.val]'(t.size.symm ▸ i.isLt) := rfl

@[simp] theorem get_ofFn (f : Fin n → α) (i : Fin n) : (ofFn f).get i = f i := by
  simp [get_eq, ofFn]

@[simp] theorem get_const (a : α) (i : Fin n) : (const n a).get i = a := by
  simp [get_eq, const]

@[simp] theorem get_map (f : α → β) (t : Tab α n) (i : Fin n) : (t.map f).get i = f (t.get i) := by
  simp [get_eq, map]

@[simp] theorem get_set_self (t : Tab α n) (i : Fin n) (x : α) : (t.set i x).get i = x := by
  simp [get_eq, set]

theorem get_set_ne (t : Tab α n) {i j : Fin n} (x : α) (h : j ≠ i) : (t.set i x).get j = t.get j := by
  have : i.val ≠ j.val := fun e => h (Fin.ext e.symm)
  simp [get_eq, set, this]

theorem get_set (t : Tab α n) (i j : Fin n) (x : α) : (t.set i x).get j = if j = i then x else t.get j := by
  by_cases h : j = i
  · subst h; simp
  · simp [h, get_set_ne t x h]

/-- Two tables that agree at every entry are equal. -/
theorem ext_get {t u : Tab α n} (h : ∀ i, t.get i = u.get i) : t = u := by
  obtain ⟨a, ha⟩ := t
  obtain ⟨b, hb⟩ := u
  have : a = b := List.ext_getElem (ha.trans hb.symm) fun i h1 _ => by
    simpa [get] using h ⟨i, ha ▸ h1⟩
  subst this; rfl

@[simp] theorem set_get_self (t : Tab α n) (i : Fin n) : t.set i (t.get i) = t :=
  ext_get fun j => by rw [get_set]; split <;> simp_all

@[simp] theorem set_set (t : Tab α n) (i : Fin n) (x y : α) : (t.set i x).set i y = t.set i y :=
  ext_get fun j => by simp only [get_set]; split <;> rfl

@[simp] theorem ofFn_get (t : Tab α n) : ofFn t.get = t := ext_get fun j => by simp

theorem mem_items_iff (t : Tab α n) (a : α) : a ∈ t.items ↔ ∃ i, t.get i = a := by
  obtain ⟨l, hl⟩ := t
  constructor
  · intro h
    obtain ⟨k, hk, rfl⟩ := List.getElem_of_mem h
    exact ⟨⟨k, hl ▸ hk⟩, rfl⟩
  · rintro ⟨i, rfl⟩
    exact List.getElem_mem _

theorem at?_eq_get (t : Tab α n) (i : Fin n) : t.at? i.val = some (t.get i) := by
  obtain ⟨l, hl⟩ := t
  simp [at?, get]

theorem at?_eq_none (t : Tab α n) {i : Nat} (h : n ≤ i) : t.at? i = none := by
  obtain ⟨l, hl⟩ := t
  simp [at?, hl, h]

theorem at?_put (t : Tab α n) (i j : Nat) (x : α) :
    (t.put i x).at? j = if i = j ∧ i < n then some x else t.at? j := by
  obtain ⟨l, hl⟩ := t
  simp only [at?, put, List.getElem?_set, hl]
  by_cases h : i = j
  · subst h
    by_cases h2 : i < n
    · simp [h2]
    · simp [h2, hl]
  · simp [h]

/-- The entries in order. -/
theorem items_eq_map_get (t : Tab α n) : t.items = (List.finRange n).map t.get := by
  apply List.ext_getElem
  · simp [t.size]
  · intro i h1 h2
    simp [get_eq]

/-- A table written out entry by entry. -/
theorem flatMap_items {β : Type} (t : Tab α n) (f : α → List β) :
    t.items.flatMap f = (List.finRange n).flatMap fun i => f (t.get i) := by
  rw [items_eq_map_get, List.flatMap_map]

end Sys2Proof.Tab
end

