-- ==== Sys2Proof/Laws/Checks.lean ====
section
/-! SUPPORT. What the tests that the commit checks share say of a table: all its entries, their order, no two alike. -/

namespace Sys2Proof.Machine

/-- A table ascends exactly when its entries are in order. -/
theorem ascending_iff {n : Nat} (strict : Bool) (t : Tab Nat n) :
    ascending strict t.items = true ↔ ∀ i j : Fin n, i < j → if strict then t.get i < t.get j else t.get i ≤ t.get j := by
  have key : ∀ l : List Nat, ascending strict l = true ↔ l.Pairwise fun a b => if strict then a < b else a ≤ b := by
    intro l
    have : IsTrans Nat (fun a b => if strict then a < b else a ≤ b) := ⟨by intro a b c; cases strict <;> simp <;> omega⟩
    rw [← List.isChain_iff_pairwise]
    induction l with
    | nil => simp [ascending]
    | cons a l ih =>
      cases l with
      | nil => simp [ascending]
      | cons b l => rw [ascending, Bool.and_eq_true, List.isChain_cons_cons]; exact and_congr (by cases strict <;> simp) ih
  rw [key, List.pairwise_iff_getElem]
  constructor
  · intro h i j hij
    exact h i.val j.val (by rw [t.size]; exact i.isLt) (by rw [t.size]; exact j.isLt) hij
  · intro h i j hi hj hij
    exact h ⟨i, t.size ▸ hi⟩ ⟨j, t.size ▸ hj⟩ hij

/-- No item stands twice in a list exactly when it has no duplicates. -/
theorem distinct_iff {α : Type} [DecidableEq α] (l : List α) : distinct l = true ↔ l.Nodup := by
  induction l with
  | nil => simp [distinct]
  | cons a l ih => simp [distinct, ih, List.nodup_cons]

/-- The entries of a table that `p` keeps, mapped, are distinct exactly when no two kept entries agree. -/
theorem distinct_filter_iff {α β : Type} [DecidableEq β] {n : Nat} (t : Tab α n) (p : α → Bool) (f : α → β) :
    distinct ((t.items.filter p).map f) = true
      ↔ ∀ i j : Fin n, i ≠ j → p (t.get i) = true → p (t.get j) = true → f (t.get i) ≠ f (t.get j) := by
  rw [distinct_iff, List.Nodup, List.pairwise_map, List.pairwise_filter, List.pairwise_iff_getElem]
  constructor
  · intro h i j hij hi hj
    have key : ∀ a b : Fin n, a < b → p (t.get a) = true → p (t.get b) = true → f (t.get a) ≠ f (t.get b) :=
      fun a b hab ha hb =>
      h a.val b.val (by rw [t.size]; exact a.isLt) (by rw [t.size]; exact b.isLt) hab ha hb
    rcases Nat.lt_or_gt_of_ne (fun h => hij (Fin.ext h)) with hlt | hgt
    · exact key i j hlt hi hj
    · exact (key j i hgt hj hi).symm
  · intro h i j hi hj hij
    exact h ⟨i, t.size ▸ hi⟩ ⟨j, t.size ▸ hj⟩ (fun e => absurd (congrArg Fin.val e) (Nat.ne_of_lt hij))

/-- A test holds of all the items exactly when it holds of every entry. -/
theorem all_items_iff {α : Type} {n : Nat} (t : Tab α n) (p : α → Bool) : t.items.all p = true ↔ ∀ i, p (t.get i) = true := by
  simp only [List.all_eq_true, Tab.mem_items_iff, forall_exists_index, forall_apply_eq_imp_iff]

end Sys2Proof.Machine
end

