-- ==== Sys2Proof/Laws/State.lean ====
section
/-! SUPPORT. What each update of the state leaves in each of its fields: one lemma per field per update, true by definition, so
that no later proof unfolds a record update. -/

namespace Sys2Proof.Machine

/-! ### setGate -/

@[simp] theorem setGate_ring (g : GateNo) (r : Gate) (s : State) : (setGate g r s).ring = s.ring := rfl
@[simp] theorem setGate_orders (g : GateNo) (r : Gate) (s : State) : (setGate g r s).orders = s.orders := rfl
@[simp] theorem setGate_mgmt (g : GateNo) (r : Gate) (s : State) : (setGate g r s).mgmt = s.mgmt := rfl
@[simp] theorem setGate_gates (g : GateNo) (r : Gate) (s : State) : (setGate g r s).gates = s.gates.set g r := rfl
@[simp] theorem setGate_meas (g : GateNo) (r : Gate) (s : State) : (setGate g r s).meas = s.meas := rfl
@[simp] theorem setGate_engine (g : GateNo) (r : Gate) (s : State) : (setGate g r s).engine = s.engine := rfl
@[simp] theorem setGate_reach (g : GateNo) (r : Gate) (s : State) : (setGate g r s).reach = s.reach := rfl
@[simp] theorem setGate_timer (g : GateNo) (r : Gate) (s : State) : (setGate g r s).timer = s.timer := rfl
@[simp] theorem setGate_mode (g : GateNo) (r : Gate) (s : State) : (setGate g r s).mode = s.mode := rfl
@[simp] theorem setGate_report (g : GateNo) (r : Gate) (s : State) : (setGate g r s).report = s.report := rfl
@[simp] theorem setGate_clock (g : GateNo) (r : Gate) (s : State) : (setGate g r s).clock = s.clock := rfl
@[simp] theorem setGate_marks (g : GateNo) (r : Gate) (s : State) : (setGate g r s).marks = s.marks := rfl
@[simp] theorem setGate_pending (g : GateNo) (r : Gate) (s : State) : (setGate g r s).pending = s.pending := rfl

/-! ### readPositions -/

@[simp] theorem readPositions_ring (s : State) : (readPositions s).ring = s.ring := rfl
@[simp] theorem readPositions_orders (s : State) : (readPositions s).orders = s.orders := rfl
@[simp] theorem readPositions_mgmt (s : State) : (readPositions s).mgmt = s.mgmt := rfl
@[simp] theorem readPositions_meas (s : State) : (readPositions s).meas = s.meas := rfl
@[simp] theorem readPositions_engine (s : State) : (readPositions s).engine = s.engine := rfl
@[simp] theorem readPositions_reach (s : State) : (readPositions s).reach = s.reach := rfl
@[simp] theorem readPositions_timer (s : State) : (readPositions s).timer = s.timer := rfl
@[simp] theorem readPositions_mode (s : State) : (readPositions s).mode = s.mode := rfl
@[simp] theorem readPositions_report (s : State) : (readPositions s).report = s.report := rfl
@[simp] theorem readPositions_clock (s : State) : (readPositions s).clock = s.clock := rfl
@[simp] theorem readPositions_marks (s : State) : (readPositions s).marks = s.marks := rfl
@[simp] theorem readPositions_pending (s : State) : (readPositions s).pending = s.pending := rfl

/-! ### setOrigin -/

@[simp] theorem setOrigin_ring (n : OriginNo) (o : OriginLive) (s : State) : (setOrigin n o s).ring = s.ring := rfl
@[simp] theorem setOrigin_orders (n : OriginNo) (o : OriginLive) (s : State) :
    (setOrigin n o s).orders = s.orders := rfl
@[simp] theorem setOrigin_mgmt (n : OriginNo) (o : OriginLive) (s : State) : (setOrigin n o s).mgmt = s.mgmt := rfl
@[simp] theorem setOrigin_gates (n : OriginNo) (o : OriginLive) (s : State) : (setOrigin n o s).gates = s.gates := rfl
@[simp] theorem setOrigin_meas (n : OriginNo) (o : OriginLive) (s : State) : (setOrigin n o s).meas = s.meas := rfl
@[simp] theorem setOrigin_engine (n : OriginNo) (o : OriginLive) (s : State) :
    (setOrigin n o s).engine = s.engine := rfl
@[simp] theorem setOrigin_reach (n : OriginNo) (o : OriginLive) (s : State) :
    (setOrigin n o s).reach = { s.reach with origins := s.reach.origins.set n o } := rfl
@[simp] theorem setOrigin_timer (n : OriginNo) (o : OriginLive) (s : State) : (setOrigin n o s).timer = s.timer := rfl
@[simp] theorem setOrigin_mode (n : OriginNo) (o : OriginLive) (s : State) : (setOrigin n o s).mode = s.mode := rfl
@[simp] theorem setOrigin_report (n : OriginNo) (o : OriginLive) (s : State) :
    (setOrigin n o s).report = s.report := rfl
@[simp] theorem setOrigin_clock (n : OriginNo) (o : OriginLive) (s : State) : (setOrigin n o s).clock = s.clock := rfl
@[simp] theorem setOrigin_marks (n : OriginNo) (o : OriginLive) (s : State) : (setOrigin n o s).marks = s.marks := rfl
@[simp] theorem setOrigin_pending (n : OriginNo) (o : OriginLive) (s : State) :
    (setOrigin n o s).pending = s.pending := rfl

/-! ### processDue -/

@[simp] theorem processDue_ring (s : State) : (processDue s).ring = s.ring := rfl
@[simp] theorem processDue_orders (s : State) : (processDue s).orders = s.orders := rfl
@[simp] theorem processDue_mgmt (s : State) : (processDue s).mgmt = s.mgmt := rfl
@[simp] theorem processDue_gates (s : State) : (processDue s).gates = s.gates := rfl
@[simp] theorem processDue_meas (s : State) : (processDue s).meas = s.meas := rfl
@[simp] theorem processDue_engine (s : State) : (processDue s).engine = s.engine := rfl
@[simp] theorem processDue_timer (s : State) : (processDue s).timer = s.timer := rfl
@[simp] theorem processDue_mode (s : State) : (processDue s).mode = s.mode := rfl
@[simp] theorem processDue_report (s : State) : (processDue s).report = s.report := rfl
@[simp] theorem processDue_clock (s : State) : (processDue s).clock = s.clock := rfl
@[simp] theorem processDue_marks (s : State) : (processDue s).marks = s.marks := rfl
@[simp] theorem processDue_pending (s : State) : (processDue s).pending = s.pending := rfl

/-! ### setLost -/

@[simp] theorem setLost_ring (g : GateNo) (n : Nat) (s : State) : (setLost g n s).ring = s.ring := rfl
@[simp] theorem setLost_orders (g : GateNo) (n : Nat) (s : State) :
    (setLost g n s).orders = { s.orders with lost := s.orders.lost.set g n } := rfl
@[simp] theorem setLost_mgmt (g : GateNo) (n : Nat) (s : State) : (setLost g n s).mgmt = s.mgmt := rfl
@[simp] theorem setLost_gates (g : GateNo) (n : Nat) (s : State) : (setLost g n s).gates = s.gates := rfl
@[simp] theorem setLost_meas (g : GateNo) (n : Nat) (s : State) : (setLost g n s).meas = s.meas := rfl
@[simp] theorem setLost_engine (g : GateNo) (n : Nat) (s : State) : (setLost g n s).engine = s.engine := rfl
@[simp] theorem setLost_reach (g : GateNo) (n : Nat) (s : State) : (setLost g n s).reach = s.reach := rfl
@[simp] theorem setLost_timer (g : GateNo) (n : Nat) (s : State) : (setLost g n s).timer = s.timer := rfl
@[simp] theorem setLost_mode (g : GateNo) (n : Nat) (s : State) : (setLost g n s).mode = s.mode := rfl
@[simp] theorem setLost_report (g : GateNo) (n : Nat) (s : State) : (setLost g n s).report = s.report := rfl
@[simp] theorem setLost_clock (g : GateNo) (n : Nat) (s : State) : (setLost g n s).clock = s.clock := rfl
@[simp] theorem setLost_marks (g : GateNo) (n : Nat) (s : State) : (setLost g n s).marks = s.marks := rfl
@[simp] theorem setLost_pending (g : GateNo) (n : Nat) (s : State) : (setLost g n s).pending = s.pending := rfl

/-! ### switchOrders -/

@[simp] theorem switchOrders_ring (old : GovSet) (s : State) : (switchOrders old s).ring = s.ring := rfl
@[simp] theorem switchOrders_mgmt (old : GovSet) (s : State) : (switchOrders old s).mgmt = s.mgmt := rfl
@[simp] theorem switchOrders_gates (old : GovSet) (s : State) : (switchOrders old s).gates = s.gates := rfl
@[simp] theorem switchOrders_meas (old : GovSet) (s : State) : (switchOrders old s).meas = s.meas := rfl
@[simp] theorem switchOrders_engine (old : GovSet) (s : State) : (switchOrders old s).engine = s.engine := rfl
@[simp] theorem switchOrders_reach (old : GovSet) (s : State) : (switchOrders old s).reach = s.reach := rfl
@[simp] theorem switchOrders_timer (old : GovSet) (s : State) : (switchOrders old s).timer = s.timer := rfl
@[simp] theorem switchOrders_mode (old : GovSet) (s : State) : (switchOrders old s).mode = s.mode := rfl
@[simp] theorem switchOrders_report (old : GovSet) (s : State) : (switchOrders old s).report = s.report := rfl
@[simp] theorem switchOrders_clock (old : GovSet) (s : State) : (switchOrders old s).clock = s.clock := rfl
@[simp] theorem switchOrders_marks (old : GovSet) (s : State) : (switchOrders old s).marks = s.marks := rfl
@[simp] theorem switchOrders_pending (old : GovSet) (s : State) : (switchOrders old s).pending = s.pending := rfl

/-! ### setShadow -/

@[simp] theorem setShadow_ring (set : GovSet) (s : State) : (setShadow set s).ring = s.ring := rfl
@[simp] theorem setShadow_orders (set : GovSet) (s : State) : (setShadow set s).orders = s.orders := rfl
@[simp] theorem setShadow_mgmt (set : GovSet) (s : State) :
    (setShadow set s).mgmt = { s.mgmt with shadow := set } := rfl
@[simp] theorem setShadow_gates (set : GovSet) (s : State) : (setShadow set s).gates = s.gates := rfl
@[simp] theorem setShadow_meas (set : GovSet) (s : State) : (setShadow set s).meas = s.meas := rfl
@[simp] theorem setShadow_engine (set : GovSet) (s : State) : (setShadow set s).engine = s.engine := rfl
@[simp] theorem setShadow_reach (set : GovSet) (s : State) : (setShadow set s).reach = s.reach := rfl
@[simp] theorem setShadow_timer (set : GovSet) (s : State) : (setShadow set s).timer = s.timer := rfl
@[simp] theorem setShadow_mode (set : GovSet) (s : State) : (setShadow set s).mode = s.mode := rfl
@[simp] theorem setShadow_report (set : GovSet) (s : State) : (setShadow set s).report = s.report := rfl
@[simp] theorem setShadow_clock (set : GovSet) (s : State) : (setShadow set s).clock = s.clock := rfl
@[simp] theorem setShadow_marks (set : GovSet) (s : State) : (setShadow set s).marks = s.marks := rfl
@[simp] theorem setShadow_pending (set : GovSet) (s : State) : (setShadow set s).pending = s.pending := rfl

/-! ### setOpenWrite -/

@[simp] theorem setOpenWrite_ring (w : Option OpenWrite) (s : State) : (setOpenWrite w s).ring = s.ring := rfl
@[simp] theorem setOpenWrite_orders (w : Option OpenWrite) (s : State) : (setOpenWrite w s).orders = s.orders := rfl
@[simp] theorem setOpenWrite_mgmt (w : Option OpenWrite) (s : State) :
    (setOpenWrite w s).mgmt = { s.mgmt with openWrite := w } := rfl
@[simp] theorem setOpenWrite_gates (w : Option OpenWrite) (s : State) : (setOpenWrite w s).gates = s.gates := rfl
@[simp] theorem setOpenWrite_meas (w : Option OpenWrite) (s : State) : (setOpenWrite w s).meas = s.meas := rfl
@[simp] theorem setOpenWrite_engine (w : Option OpenWrite) (s : State) : (setOpenWrite w s).engine = s.engine := rfl
@[simp] theorem setOpenWrite_reach (w : Option OpenWrite) (s : State) : (setOpenWrite w s).reach = s.reach := rfl
@[simp] theorem setOpenWrite_timer (w : Option OpenWrite) (s : State) : (setOpenWrite w s).timer = s.timer := rfl
@[simp] theorem setOpenWrite_mode (w : Option OpenWrite) (s : State) : (setOpenWrite w s).mode = s.mode := rfl
@[simp] theorem setOpenWrite_report (w : Option OpenWrite) (s : State) : (setOpenWrite w s).report = s.report := rfl
@[simp] theorem setOpenWrite_clock (w : Option OpenWrite) (s : State) : (setOpenWrite w s).clock = s.clock := rfl
@[simp] theorem setOpenWrite_marks (w : Option OpenWrite) (s : State) : (setOpenWrite w s).marks = s.marks := rfl
@[simp] theorem setOpenWrite_pending (w : Option OpenWrite) (s : State) :
    (setOpenWrite w s).pending = s.pending := rfl

/-! ### switchSets -/

@[simp] theorem switchSets_ring (s : State) : (switchSets s).ring = s.ring := rfl
@[simp] theorem switchSets_orders (s : State) : (switchSets s).orders = s.orders := rfl
@[simp] theorem switchSets_mgmt (s : State) :
    (switchSets s).mgmt = { s.mgmt with
        active := s.mgmt.shadow, switchPending := false, generation := s.mgmt.generation + 1 } := rfl
@[simp] theorem switchSets_gates (s : State) : (switchSets s).gates = s.gates := rfl
@[simp] theorem switchSets_meas (s : State) : (switchSets s).meas = s.meas := rfl
@[simp] theorem switchSets_engine (s : State) : (switchSets s).engine = s.engine := rfl
@[simp] theorem switchSets_reach (s : State) : (switchSets s).reach = s.reach := rfl
@[simp] theorem switchSets_timer (s : State) : (switchSets s).timer = s.timer := rfl
@[simp] theorem switchSets_mode (s : State) : (switchSets s).mode = s.mode := rfl
@[simp] theorem switchSets_report (s : State) : (switchSets s).report = s.report := rfl
@[simp] theorem switchSets_clock (s : State) : (switchSets s).clock = s.clock := rfl
@[simp] theorem switchSets_marks (s : State) : (switchSets s).marks = s.marks := rfl
@[simp] theorem switchSets_pending (s : State) : (switchSets s).pending = s.pending := rfl

/-! ### placeFrames -/

@[simp] theorem placeFrames_ring (fs : List Outgoing) (s : State) :
    (placeFrames fs s).ring = { s.ring with feed := s.ring.feed ++ fs } := rfl
@[simp] theorem placeFrames_orders (fs : List Outgoing) (s : State) : (placeFrames fs s).orders = s.orders := rfl
@[simp] theorem placeFrames_mgmt (fs : List Outgoing) (s : State) : (placeFrames fs s).mgmt = s.mgmt := rfl
@[simp] theorem placeFrames_gates (fs : List Outgoing) (s : State) : (placeFrames fs s).gates = s.gates := rfl
@[simp] theorem placeFrames_meas (fs : List Outgoing) (s : State) : (placeFrames fs s).meas = s.meas := rfl
@[simp] theorem placeFrames_engine (fs : List Outgoing) (s : State) : (placeFrames fs s).engine = s.engine := rfl
@[simp] theorem placeFrames_reach (fs : List Outgoing) (s : State) : (placeFrames fs s).reach = s.reach := rfl
@[simp] theorem placeFrames_timer (fs : List Outgoing) (s : State) : (placeFrames fs s).timer = s.timer := rfl
@[simp] theorem placeFrames_mode (fs : List Outgoing) (s : State) : (placeFrames fs s).mode = s.mode := rfl
@[simp] theorem placeFrames_report (fs : List Outgoing) (s : State) : (placeFrames fs s).report = s.report := rfl
@[simp] theorem placeFrames_clock (fs : List Outgoing) (s : State) : (placeFrames fs s).clock = s.clock := rfl
@[simp] theorem placeFrames_marks (fs : List Outgoing) (s : State) :
    (placeFrames fs s).marks = { s.marks with placed := true } := rfl
@[simp] theorem placeFrames_pending (fs : List Outgoing) (s : State) : (placeFrames fs s).pending = s.pending := rfl

/-! ### bumpBy -/

@[simp] theorem bumpBy_ring (c : Counter) (n : Nat) (s : State) : (bumpBy c n s).ring = s.ring := rfl
@[simp] theorem bumpBy_orders (c : Counter) (n : Nat) (s : State) : (bumpBy c n s).orders = s.orders := rfl
@[simp] theorem bumpBy_mgmt (c : Counter) (n : Nat) (s : State) : (bumpBy c n s).mgmt = s.mgmt := rfl
@[simp] theorem bumpBy_gates (c : Counter) (n : Nat) (s : State) : (bumpBy c n s).gates = s.gates := rfl
@[simp] theorem bumpBy_meas (c : Counter) (n : Nat) (s : State) : (bumpBy c n s).meas = s.meas := rfl
@[simp] theorem bumpBy_engine (c : Counter) (n : Nat) (s : State) : (bumpBy c n s).engine = s.engine := rfl
@[simp] theorem bumpBy_reach (c : Counter) (n : Nat) (s : State) : (bumpBy c n s).reach = s.reach := rfl
@[simp] theorem bumpBy_timer (c : Counter) (n : Nat) (s : State) : (bumpBy c n s).timer = s.timer := rfl
@[simp] theorem bumpBy_mode (c : Counter) (n : Nat) (s : State) : (bumpBy c n s).mode = s.mode := rfl
@[simp] theorem bumpBy_report (c : Counter) (n : Nat) (s : State) :
    (bumpBy c n s).report = { s.report with counters := s.report.counters.set c.entry (min (s.counter c + n) wordMax) } := rfl
@[simp] theorem bumpBy_clock (c : Counter) (n : Nat) (s : State) : (bumpBy c n s).clock = s.clock := rfl
@[simp] theorem bumpBy_marks (c : Counter) (n : Nat) (s : State) : (bumpBy c n s).marks = s.marks := rfl
@[simp] theorem bumpBy_pending (c : Counter) (n : Nat) (s : State) : (bumpBy c n s).pending = s.pending := rfl

/-! ### clearFlags -/

@[simp] theorem clearFlags_ring (named : BitVec 16) (s : State) : (clearFlags named s).ring = s.ring := rfl
@[simp] theorem clearFlags_orders (named : BitVec 16) (s : State) : (clearFlags named s).orders = s.orders := rfl
@[simp] theorem clearFlags_mgmt (named : BitVec 16) (s : State) : (clearFlags named s).mgmt = s.mgmt := rfl
@[simp] theorem clearFlags_gates (named : BitVec 16) (s : State) : (clearFlags named s).gates = s.gates := rfl
@[simp] theorem clearFlags_meas (named : BitVec 16) (s : State) : (clearFlags named s).meas = s.meas := rfl
@[simp] theorem clearFlags_engine (named : BitVec 16) (s : State) : (clearFlags named s).engine = s.engine := rfl
@[simp] theorem clearFlags_reach (named : BitVec 16) (s : State) : (clearFlags named s).reach = s.reach := rfl
@[simp] theorem clearFlags_timer (named : BitVec 16) (s : State) : (clearFlags named s).timer = s.timer := rfl
@[simp] theorem clearFlags_mode (named : BitVec 16) (s : State) : (clearFlags named s).mode = s.mode := rfl
@[simp] theorem clearFlags_report (named : BitVec 16) (s : State) :
    (clearFlags named s).report = { s.report with flags := s.report.flags &&& ~~~ named } := rfl
@[simp] theorem clearFlags_clock (named : BitVec 16) (s : State) : (clearFlags named s).clock = s.clock := rfl
@[simp] theorem clearFlags_marks (named : BitVec 16) (s : State) : (clearFlags named s).marks = s.marks := rfl
@[simp] theorem clearFlags_pending (named : BitVec 16) (s : State) : (clearFlags named s).pending = s.pending := rfl

/-! ### switchTimer -/

@[simp] theorem switchTimer_ring (s : State) : (switchTimer s).ring = s.ring := rfl
@[simp] theorem switchTimer_orders (s : State) : (switchTimer s).orders = s.orders := rfl
@[simp] theorem switchTimer_mgmt (s : State) : (switchTimer s).mgmt = s.mgmt := rfl
@[simp] theorem switchTimer_gates (s : State) : (switchTimer s).gates = s.gates := rfl
@[simp] theorem switchTimer_meas (s : State) : (switchTimer s).meas = s.meas := rfl
@[simp] theorem switchTimer_engine (s : State) : (switchTimer s).engine = s.engine := rfl
@[simp] theorem switchTimer_reach (s : State) : (switchTimer s).reach = s.reach := rfl
@[simp] theorem switchTimer_timer (s : State) : (switchTimer s).timer = checkPosition s.mgmt.active s.timer := rfl
@[simp] theorem switchTimer_mode (s : State) : (switchTimer s).mode = s.mode := rfl
@[simp] theorem switchTimer_report (s : State) : (switchTimer s).report = s.report := rfl
@[simp] theorem switchTimer_clock (s : State) : (switchTimer s).clock = s.clock := rfl
@[simp] theorem switchTimer_marks (s : State) : (switchTimer s).marks = s.marks := rfl
@[simp] theorem switchTimer_pending (s : State) : (switchTimer s).pending = s.pending := rfl

/-! ### switchReach -/

@[simp] theorem switchReach_ring (old : GovSet) (s : State) : (switchReach old s).ring = s.ring := rfl
@[simp] theorem switchReach_orders (old : GovSet) (s : State) : (switchReach old s).orders = s.orders := rfl
@[simp] theorem switchReach_mgmt (old : GovSet) (s : State) : (switchReach old s).mgmt = s.mgmt := rfl
@[simp] theorem switchReach_gates (old : GovSet) (s : State) : (switchReach old s).gates = s.gates := rfl
@[simp] theorem switchReach_meas (old : GovSet) (s : State) : (switchReach old s).meas = s.meas := rfl
@[simp] theorem switchReach_engine (old : GovSet) (s : State) : (switchReach old s).engine = s.engine := rfl
@[simp] theorem switchReach_timer (old : GovSet) (s : State) : (switchReach old s).timer = s.timer := rfl
@[simp] theorem switchReach_mode (old : GovSet) (s : State) : (switchReach old s).mode = s.mode := rfl
@[simp] theorem switchReach_report (old : GovSet) (s : State) : (switchReach old s).report = s.report := rfl
@[simp] theorem switchReach_clock (old : GovSet) (s : State) : (switchReach old s).clock = s.clock := rfl
@[simp] theorem switchReach_marks (old : GovSet) (s : State) : (switchReach old s).marks = s.marks := rfl
@[simp] theorem switchReach_pending (old : GovSet) (s : State) : (switchReach old s).pending = s.pending := rfl

/-! ### evaluateDuty -/

@[simp] theorem evaluateDuty_ring (s : State) : (evaluateDuty s).ring = s.ring := rfl
@[simp] theorem evaluateDuty_orders (s : State) : (evaluateDuty s).orders = s.orders := rfl
@[simp] theorem evaluateDuty_mgmt (s : State) : (evaluateDuty s).mgmt = s.mgmt := rfl
@[simp] theorem evaluateDuty_gates (s : State) : (evaluateDuty s).gates = s.gates := rfl
@[simp] theorem evaluateDuty_meas (s : State) : (evaluateDuty s).meas = s.meas := rfl
@[simp] theorem evaluateDuty_engine (s : State) : (evaluateDuty s).engine = s.engine := rfl
@[simp] theorem evaluateDuty_reach (s : State) : (evaluateDuty s).reach = s.reach := rfl
@[simp] theorem evaluateDuty_timer (s : State) : (evaluateDuty s).timer = s.timer := rfl
@[simp] theorem evaluateDuty_report (s : State) : (evaluateDuty s).report = s.report := rfl
@[simp] theorem evaluateDuty_clock (s : State) : (evaluateDuty s).clock = s.clock := rfl
@[simp] theorem evaluateDuty_marks (s : State) : (evaluateDuty s).marks = s.marks := rfl
@[simp] theorem evaluateDuty_pending (s : State) : (evaluateDuty s).pending = s.pending := rfl

/-! ### openExpiry -/

@[simp] theorem openExpiry_ring (s : State) : (openExpiry s).ring = s.ring := rfl
@[simp] theorem openExpiry_orders (s : State) : (openExpiry s).orders = s.orders := rfl
@[simp] theorem openExpiry_mgmt (s : State) : (openExpiry s).mgmt = s.mgmt := rfl
@[simp] theorem openExpiry_gates (s : State) : (openExpiry s).gates = s.gates := rfl
@[simp] theorem openExpiry_meas (s : State) : (openExpiry s).meas = s.meas := rfl
@[simp] theorem openExpiry_engine (s : State) : (openExpiry s).engine = s.engine := rfl
@[simp] theorem openExpiry_reach (s : State) : (openExpiry s).reach = s.reach := rfl
@[simp] theorem openExpiry_timer (s : State) : (openExpiry s).timer = s.timer := rfl
@[simp] theorem openExpiry_mode (s : State) : (openExpiry s).mode = s.mode := rfl
@[simp] theorem openExpiry_report (s : State) : (openExpiry s).report = { s.report with allowance := true } := rfl
@[simp] theorem openExpiry_clock (s : State) : (openExpiry s).clock = { s.clock with expiryDue := false } := rfl
@[simp] theorem openExpiry_marks (s : State) : (openExpiry s).marks = { s.marks with placed := true } := rfl
@[simp] theorem openExpiry_pending (s : State) : (openExpiry s).pending = s.pending := rfl

/-! ### beginComputation -/

@[simp] theorem beginComputation_ring (s : State) : (beginComputation s).ring = s.ring := rfl
@[simp] theorem beginComputation_orders (s : State) : (beginComputation s).orders = s.orders := rfl
@[simp] theorem beginComputation_mgmt (s : State) : (beginComputation s).mgmt = s.mgmt := rfl
@[simp] theorem beginComputation_gates (s : State) : (beginComputation s).gates = s.gates := rfl
@[simp] theorem beginComputation_meas (s : State) : (beginComputation s).meas = s.meas := rfl
@[simp] theorem beginComputation_engine (s : State) :
    (beginComputation s).engine = { s.engine with computation := some (snapshotOf s) } := rfl
@[simp] theorem beginComputation_reach (s : State) : (beginComputation s).reach = s.reach := rfl
@[simp] theorem beginComputation_timer (s : State) : (beginComputation s).timer = s.timer := rfl
@[simp] theorem beginComputation_mode (s : State) : (beginComputation s).mode = s.mode := rfl
@[simp] theorem beginComputation_report (s : State) : (beginComputation s).report = s.report := rfl
@[simp] theorem beginComputation_clock (s : State) : (beginComputation s).clock = s.clock := rfl
@[simp] theorem beginComputation_marks (s : State) : (beginComputation s).marks = s.marks := rfl
@[simp] theorem beginComputation_pending (s : State) : (beginComputation s).pending = s.pending := rfl

/-! ### writeTargets -/

@[simp] theorem writeTargets_ring (sn : Snapshot) (c : Computed) (s : State) :
    (writeTargets sn c s).ring = s.ring := rfl
@[simp] theorem writeTargets_orders (sn : Snapshot) (c : Computed) (s : State) :
    (writeTargets sn c s).orders = s.orders := rfl
@[simp] theorem writeTargets_mgmt (sn : Snapshot) (c : Computed) (s : State) :
    (writeTargets sn c s).mgmt = s.mgmt := rfl
@[simp] theorem writeTargets_meas (sn : Snapshot) (c : Computed) (s : State) :
    (writeTargets sn c s).meas = s.meas := rfl
@[simp] theorem writeTargets_engine (sn : Snapshot) (c : Computed) (s : State) :
    (writeTargets sn c s).engine = s.engine := rfl
@[simp] theorem writeTargets_reach (sn : Snapshot) (c : Computed) (s : State) :
    (writeTargets sn c s).reach = s.reach := rfl
@[simp] theorem writeTargets_timer (sn : Snapshot) (c : Computed) (s : State) :
    (writeTargets sn c s).timer = s.timer := rfl
@[simp] theorem writeTargets_mode (sn : Snapshot) (c : Computed) (s : State) :
    (writeTargets sn c s).mode = s.mode := rfl
@[simp] theorem writeTargets_report (sn : Snapshot) (c : Computed) (s : State) :
    (writeTargets sn c s).report = s.report := rfl
@[simp] theorem writeTargets_clock (sn : Snapshot) (c : Computed) (s : State) :
    (writeTargets sn c s).clock = s.clock := rfl
@[simp] theorem writeTargets_marks (sn : Snapshot) (c : Computed) (s : State) :
    (writeTargets sn c s).marks = s.marks := rfl
@[simp] theorem writeTargets_pending (sn : Snapshot) (c : Computed) (s : State) :
    (writeTargets sn c s).pending = s.pending := rfl

/-! ### writeResults -/

@[simp] theorem writeResults_ring (r : Results) (s : State) : (writeResults r s).ring = s.ring := rfl
@[simp] theorem writeResults_orders (r : Results) (s : State) : (writeResults r s).orders = s.orders := rfl
@[simp] theorem writeResults_mgmt (r : Results) (s : State) : (writeResults r s).mgmt = s.mgmt := rfl
@[simp] theorem writeResults_gates (r : Results) (s : State) : (writeResults r s).gates = s.gates := rfl
@[simp] theorem writeResults_meas (r : Results) (s : State) : (writeResults r s).meas = s.meas := rfl
@[simp] theorem writeResults_engine (r : Results) (s : State) :
    (writeResults r s).engine = { s.engine with results := r } := rfl
@[simp] theorem writeResults_reach (r : Results) (s : State) : (writeResults r s).reach = s.reach := rfl
@[simp] theorem writeResults_timer (r : Results) (s : State) : (writeResults r s).timer = s.timer := rfl
@[simp] theorem writeResults_mode (r : Results) (s : State) : (writeResults r s).mode = s.mode := rfl
@[simp] theorem writeResults_report (r : Results) (s : State) : (writeResults r s).report = s.report := rfl
@[simp] theorem writeResults_clock (r : Results) (s : State) : (writeResults r s).clock = s.clock := rfl
@[simp] theorem writeResults_marks (r : Results) (s : State) : (writeResults r s).marks = s.marks := rfl
@[simp] theorem writeResults_pending (r : Results) (s : State) : (writeResults r s).pending = s.pending := rfl

/-! ### secondTick -/

@[simp] theorem secondTick_ring (s : State) : (secondTick s).ring = s.ring := rfl
@[simp] theorem secondTick_orders (s : State) : (secondTick s).orders = s.orders := rfl
@[simp] theorem secondTick_mgmt (s : State) : (secondTick s).mgmt = s.mgmt := rfl
@[simp] theorem secondTick_gates (s : State) : (secondTick s).gates = s.gates := rfl
@[simp] theorem secondTick_meas (s : State) :
    (secondTick s).meas = { s.meas with slots := s.meas.slots.map Slot.aged } := rfl
@[simp] theorem secondTick_engine (s : State) : (secondTick s).engine = s.engine := rfl
@[simp] theorem secondTick_reach (s : State) : (secondTick s).reach = s.reach := rfl
@[simp] theorem secondTick_timer (s : State) : (secondTick s).timer = s.timer := rfl
@[simp] theorem secondTick_mode (s : State) : (secondTick s).mode = s.mode := rfl
@[simp] theorem secondTick_report (s : State) : (secondTick s).report = s.report := rfl
@[simp] theorem secondTick_marks (s : State) : (secondTick s).marks = s.marks := rfl
@[simp] theorem secondTick_pending (s : State) : (secondTick s).pending = s.pending := rfl

/-! ### assertReset -/

@[simp] theorem assertReset_ring (s : State) :
    (assertReset s).ring = { s.ring with port := .inReset, ro := none, inFlight := [] } := rfl
@[simp] theorem assertReset_orders (s : State) : (assertReset s).orders = s.orders := rfl
@[simp] theorem assertReset_mgmt (s : State) : (assertReset s).mgmt = s.mgmt := rfl
@[simp] theorem assertReset_gates (s : State) : (assertReset s).gates = s.gates := rfl
@[simp] theorem assertReset_meas (s : State) : (assertReset s).meas = s.meas := rfl
@[simp] theorem assertReset_engine (s : State) : (assertReset s).engine = { s.engine with computation := none } := rfl
@[simp] theorem assertReset_reach (s : State) : (assertReset s).reach = s.reach := rfl
@[simp] theorem assertReset_timer (s : State) : (assertReset s).timer = s.timer := rfl
@[simp] theorem assertReset_mode (s : State) : (assertReset s).mode = s.mode := rfl
@[simp] theorem assertReset_report (s : State) : (assertReset s).report = s.report := rfl
@[simp] theorem assertReset_clock (s : State) : (assertReset s).clock = s.clock := rfl
@[simp] theorem assertReset_marks (s : State) : (assertReset s).marks = s.marks := rfl
@[simp] theorem assertReset_pending (s : State) : (assertReset s).pending = s.pending := rfl

/-! ### restartState -/

@[simp] theorem restartState_ring (s : State) : (restartState s).ring = { s.ring with inFlight := [] } := rfl
@[simp] theorem restartState_orders (s : State) :
    (restartState s).orders = { queue := [], lost := Tab.const 16 0 } := rfl
@[simp] theorem restartState_mgmt (s : State) :
    (restartState s).mgmt = { s.mgmt with shadow := s.mgmt.active, switchPending := false, openWrite := none } := rfl
@[simp] theorem restartState_meas (s : State) : (restartState s).meas = s.meas.restarted := rfl
@[simp] theorem restartState_engine (s : State) :
    (restartState s).engine = { results := resetResults, computation := none } := rfl
@[simp] theorem restartState_reach (s : State) :
    (restartState s).reach = { origins := Tab.const 4 clearedOrigin, queue := [] } := rfl
@[simp] theorem restartState_timer (s : State) :
    (restartState s).timer = restartedTimer s.mgmt.active s.clock.ssc := rfl
@[simp] theorem restartState_report (s : State) :
    (restartState s).report = { s.report with flags := 0, allowance := true, waiting := false } := rfl
@[simp] theorem restartState_clock (s : State) : (restartState s).clock = s.clock := rfl
@[simp] theorem restartState_marks (s : State) : (restartState s).marks = s.marks := rfl
@[simp] theorem restartState_pending (s : State) : (restartState s).pending = s.pending := rfl

end Sys2Proof.Machine
end

