-- ==== Sys2Proof/Laws/Frames.lean ====
section
/-! SUPPORT. The fields that each composite operation leaves as they were: one lemma per operation, whose clauses simp uses
one by one. -/

namespace Sys2Proof.Machine

@[simp] theorem raise_same (f : Flag) (s : State) :
    (raise f s).ring = s.ring ∧ (raise f s).orders = s.orders ∧ (raise f s).mgmt = s.mgmt
      ∧ (raise f s).gates = s.gates ∧ (raise f s).meas = s.meas ∧ (raise f s).engine = s.engine
      ∧ (raise f s).reach = s.reach ∧ (raise f s).timer = s.timer ∧ (raise f s).mode = s.mode
      ∧ (raise f s).clock = s.clock ∧ (raise f s).pending = s.pending
      ∧ (raise f s).report.counters = s.report.counters ∧ (raise f s).report.periodicDue = s.report.periodicDue
      ∧ (raise f s).report.pointDue = s.report.pointDue := by
  unfold raise; repeat' split
  all_goals simp

@[simp] theorem raiseIf_same (c : Bool) (f : Flag) (s : State) :
    (raiseIf c f s).ring = s.ring ∧ (raiseIf c f s).orders = s.orders ∧ (raiseIf c f s).mgmt = s.mgmt
      ∧ (raiseIf c f s).gates = s.gates ∧ (raiseIf c f s).meas = s.meas ∧ (raiseIf c f s).engine = s.engine
      ∧ (raiseIf c f s).reach = s.reach ∧ (raiseIf c f s).timer = s.timer ∧ (raiseIf c f s).mode = s.mode
      ∧ (raiseIf c f s).clock = s.clock ∧ (raiseIf c f s).pending = s.pending
      ∧ (raiseIf c f s).report.counters = s.report.counters
      ∧ (raiseIf c f s).report.periodicDue = s.report.periodicDue
      ∧ (raiseIf c f s).report.pointDue = s.report.pointDue := by
  unfold raiseIf; split <;> simp

@[simp] theorem bump_same (c : Counter) (s : State) :
    (bump c s).ring = s.ring ∧ (bump c s).orders = s.orders ∧ (bump c s).mgmt = s.mgmt ∧ (bump c s).gates = s.gates
      ∧ (bump c s).meas = s.meas ∧ (bump c s).engine = s.engine ∧ (bump c s).reach = s.reach
      ∧ (bump c s).timer = s.timer ∧ (bump c s).mode = s.mode ∧ (bump c s).clock = s.clock
      ∧ (bump c s).marks = s.marks ∧ (bump c s).pending = s.pending
      ∧ (bump c s).report.periodicDue = s.report.periodicDue ∧ (bump c s).report.pointDue = s.report.pointDue
      ∧ (bump c s).report.flags = s.report.flags ∧ (bump c s).report.allowance = s.report.allowance
      ∧ (bump c s).report.waiting = s.report.waiting := by
  simp [bump, bumpBy]

@[simp] theorem withdraw_same (gone : GateNo → Bool) (s : State) :
    (withdraw gone s).ring = s.ring ∧ (withdraw gone s).mgmt = s.mgmt ∧ (withdraw gone s).gates = s.gates
      ∧ (withdraw gone s).meas = s.meas ∧ (withdraw gone s).engine = s.engine ∧ (withdraw gone s).reach = s.reach
      ∧ (withdraw gone s).timer = s.timer ∧ (withdraw gone s).mode = s.mode ∧ (withdraw gone s).clock = s.clock
      ∧ (withdraw gone s).marks = s.marks ∧ (withdraw gone s).pending = s.pending
      ∧ (withdraw gone s).orders.lost = s.orders.lost ∧ (withdraw gone s).report.periodicDue = s.report.periodicDue
      ∧ (withdraw gone s).report.pointDue = s.report.pointDue ∧ (withdraw gone s).report.flags = s.report.flags
      ∧ (withdraw gone s).report.allowance = s.report.allowance
      ∧ (withdraw gone s).report.waiting = s.report.waiting := by
  simp [withdraw, bumpBy]

@[simp] theorem raiseOnEntry_same (st : GateState) (s : State) :
    (raiseOnEntry st s).ring = s.ring ∧ (raiseOnEntry st s).orders = s.orders ∧ (raiseOnEntry st s).mgmt = s.mgmt
      ∧ (raiseOnEntry st s).gates = s.gates ∧ (raiseOnEntry st s).meas = s.meas
      ∧ (raiseOnEntry st s).engine = s.engine ∧ (raiseOnEntry st s).reach = s.reach
      ∧ (raiseOnEntry st s).timer = s.timer ∧ (raiseOnEntry st s).mode = s.mode
      ∧ (raiseOnEntry st s).clock = s.clock ∧ (raiseOnEntry st s).pending = s.pending
      ∧ (raiseOnEntry st s).report.counters = s.report.counters
      ∧ (raiseOnEntry st s).report.periodicDue = s.report.periodicDue
      ∧ (raiseOnEntry st s).report.pointDue = s.report.pointDue := by
  cases st <;> simp [raiseOnEntry]

@[simp] theorem readPosition_same (g : GateNo) (s : State) :
    (readPosition g s).ring = s.ring ∧ (readPosition g s).orders = s.orders ∧ (readPosition g s).mgmt = s.mgmt
      ∧ (readPosition g s).meas = s.meas ∧ (readPosition g s).engine = s.engine ∧ (readPosition g s).reach = s.reach
      ∧ (readPosition g s).timer = s.timer ∧ (readPosition g s).mode = s.mode ∧ (readPosition g s).report = s.report
      ∧ (readPosition g s).clock = s.clock ∧ (readPosition g s).marks = s.marks
      ∧ (readPosition g s).pending = s.pending := by
  simp [readPosition]

@[simp] theorem enterState_same (g : GateNo) (st : GateState) (s : State) :
    (enterState g st s).ring = s.ring ∧ (enterState g st s).mgmt = s.mgmt ∧ (enterState g st s).meas = s.meas
      ∧ (enterState g st s).engine = s.engine ∧ (enterState g st s).reach = s.reach
      ∧ (enterState g st s).timer = s.timer ∧ (enterState g st s).mode = s.mode
      ∧ (enterState g st s).clock = s.clock ∧ (enterState g st s).pending = s.pending
      ∧ (enterState g st s).orders.lost = s.orders.lost
      ∧ (enterState g st s).report.periodicDue = s.report.periodicDue
      ∧ (enterState g st s).report.pointDue = s.report.pointDue := by
  unfold enterState; split <;> simp

@[simp] theorem raiseGateFlags_same (s : State) :
    (raiseGateFlags s).ring = s.ring ∧ (raiseGateFlags s).orders = s.orders ∧ (raiseGateFlags s).mgmt = s.mgmt
      ∧ (raiseGateFlags s).gates = s.gates ∧ (raiseGateFlags s).meas = s.meas ∧ (raiseGateFlags s).engine = s.engine
      ∧ (raiseGateFlags s).reach = s.reach ∧ (raiseGateFlags s).timer = s.timer ∧ (raiseGateFlags s).mode = s.mode
      ∧ (raiseGateFlags s).clock = s.clock ∧ (raiseGateFlags s).pending = s.pending
      ∧ (raiseGateFlags s).report.counters = s.report.counters
      ∧ (raiseGateFlags s).report.periodicDue = s.report.periodicDue
      ∧ (raiseGateFlags s).report.pointDue = s.report.pointDue := by
  simp [raiseGateFlags]

@[simp] theorem trackGates_same (s : State) :
    (trackGates s).ring = s.ring ∧ (trackGates s).mgmt = s.mgmt ∧ (trackGates s).meas = s.meas
      ∧ (trackGates s).engine = s.engine ∧ (trackGates s).reach = s.reach ∧ (trackGates s).timer = s.timer
      ∧ (trackGates s).mode = s.mode ∧ (trackGates s).clock = s.clock ∧ (trackGates s).pending = s.pending
      ∧ (trackGates s).orders.lost = s.orders.lost ∧ (trackGates s).report.periodicDue = s.report.periodicDue
      ∧ (trackGates s).report.pointDue = s.report.pointDue := by
  simp [trackGates]

@[simp] theorem bumplessStart_same (snap : Tab Gate 16) (s : State) :
    (bumplessStart snap s).ring = s.ring ∧ (bumplessStart snap s).mgmt = s.mgmt
      ∧ (bumplessStart snap s).meas = s.meas ∧ (bumplessStart snap s).engine = s.engine
      ∧ (bumplessStart snap s).reach = s.reach ∧ (bumplessStart snap s).timer = s.timer
      ∧ (bumplessStart snap s).mode = s.mode ∧ (bumplessStart snap s).clock = s.clock
      ∧ (bumplessStart snap s).pending = s.pending ∧ (bumplessStart snap s).orders.lost = s.orders.lost
      ∧ (bumplessStart snap s).report.periodicDue = s.report.periodicDue
      ∧ (bumplessStart snap s).report.pointDue = s.report.pointDue := by
  simp [bumplessStart]

@[simp] theorem switchGates_same (old : GovSet) (s : State) :
    (switchGates old s).ring = s.ring ∧ (switchGates old s).mgmt = s.mgmt ∧ (switchGates old s).meas = s.meas
      ∧ (switchGates old s).engine = s.engine ∧ (switchGates old s).reach = s.reach
      ∧ (switchGates old s).timer = s.timer ∧ (switchGates old s).mode = s.mode
      ∧ (switchGates old s).clock = s.clock ∧ (switchGates old s).marks = s.marks
      ∧ (switchGates old s).pending = s.pending ∧ (switchGates old s).orders.lost = s.orders.lost
      ∧ (switchGates old s).report.periodicDue = s.report.periodicDue
      ∧ (switchGates old s).report.pointDue = s.report.pointDue ∧ (switchGates old s).report.flags = s.report.flags
      ∧ (switchGates old s).report.allowance = s.report.allowance
      ∧ (switchGates old s).report.waiting = s.report.waiting := by
  simp [switchGates]

@[simp] theorem queueOrder_same (o : Order) (s : State) :
    (queueOrder o s).ring = s.ring ∧ (queueOrder o s).mgmt = s.mgmt ∧ (queueOrder o s).gates = s.gates
      ∧ (queueOrder o s).meas = s.meas ∧ (queueOrder o s).engine = s.engine ∧ (queueOrder o s).reach = s.reach
      ∧ (queueOrder o s).timer = s.timer ∧ (queueOrder o s).mode = s.mode ∧ (queueOrder o s).clock = s.clock
      ∧ (queueOrder o s).pending = s.pending ∧ (queueOrder o s).orders.lost = s.orders.lost
      ∧ (queueOrder o s).marks.reportDue = s.marks.reportDue
      ∧ (queueOrder o s).report.periodicDue = s.report.periodicDue
      ∧ (queueOrder o s).report.pointDue = s.report.pointDue ∧ (queueOrder o s).report.flags = s.report.flags
      ∧ (queueOrder o s).report.allowance = s.report.allowance ∧ (queueOrder o s).report.waiting = s.report.waiting := by
  unfold queueOrder; dsimp only; split <;> simp

@[simp] theorem requestOrders_same (m : Mode) (s : State) :
    (requestOrders m s).ring = s.ring ∧ (requestOrders m s).mgmt = s.mgmt ∧ (requestOrders m s).gates = s.gates
      ∧ (requestOrders m s).meas = s.meas ∧ (requestOrders m s).engine = s.engine
      ∧ (requestOrders m s).reach = s.reach ∧ (requestOrders m s).timer = s.timer
      ∧ (requestOrders m s).mode = s.mode ∧ (requestOrders m s).clock = s.clock
      ∧ (requestOrders m s).pending = s.pending ∧ (requestOrders m s).orders.lost = s.orders.lost
      ∧ (requestOrders m s).marks.reportDue = s.marks.reportDue
      ∧ (requestOrders m s).report.periodicDue = s.report.periodicDue
      ∧ (requestOrders m s).report.pointDue = s.report.pointDue ∧ (requestOrders m s).report.flags = s.report.flags
      ∧ (requestOrders m s).report.allowance = s.report.allowance
      ∧ (requestOrders m s).report.waiting = s.report.waiting := by
  unfold requestOrders
  generalize List.filterMap (formOrder m s) (List.finRange 16) = os
  induction os generalizing s with
  | nil => simp
  | cons o os ih => simp only [List.foldl_cons]; simpa using ih (queueOrder o s)

@[simp] theorem deliverTaken_same (g : GateNo) (opening : Option Nat) (s : State) :
    (deliverTaken g opening s).ring = s.ring ∧ (deliverTaken g opening s).mgmt = s.mgmt
      ∧ (deliverTaken g opening s).meas = s.meas ∧ (deliverTaken g opening s).engine = s.engine
      ∧ (deliverTaken g opening s).reach = s.reach ∧ (deliverTaken g opening s).timer = s.timer
      ∧ (deliverTaken g opening s).mode = s.mode ∧ (deliverTaken g opening s).clock = s.clock
      ∧ (deliverTaken g opening s).pending = s.pending ∧ (deliverTaken g opening s).orders.lost = s.orders.lost
      ∧ (deliverTaken g opening s).report.periodicDue = s.report.periodicDue
      ∧ (deliverTaken g opening s).report.pointDue = s.report.pointDue := by
  unfold deliverTaken; split <;> simp

@[simp] theorem deliverLocal_same (g : GateNo) (s : State) :
    (deliverLocal g s).ring = s.ring ∧ (deliverLocal g s).mgmt = s.mgmt ∧ (deliverLocal g s).meas = s.meas
      ∧ (deliverLocal g s).engine = s.engine ∧ (deliverLocal g s).reach = s.reach
      ∧ (deliverLocal g s).timer = s.timer ∧ (deliverLocal g s).mode = s.mode ∧ (deliverLocal g s).clock = s.clock
      ∧ (deliverLocal g s).pending = s.pending ∧ (deliverLocal g s).orders.lost = s.orders.lost
      ∧ (deliverLocal g s).report.periodicDue = s.report.periodicDue
      ∧ (deliverLocal g s).report.pointDue = s.report.pointDue := by
  unfold deliverLocal; split <;> simp

@[simp] theorem deliverRefusal_same (reason : FaultReason) (g : GateNo) (s : State) :
    (deliverRefusal reason g s).ring = s.ring ∧ (deliverRefusal reason g s).mgmt = s.mgmt
      ∧ (deliverRefusal reason g s).meas = s.meas ∧ (deliverRefusal reason g s).engine = s.engine
      ∧ (deliverRefusal reason g s).reach = s.reach ∧ (deliverRefusal reason g s).timer = s.timer
      ∧ (deliverRefusal reason g s).mode = s.mode ∧ (deliverRefusal reason g s).clock = s.clock
      ∧ (deliverRefusal reason g s).pending = s.pending ∧ (deliverRefusal reason g s).orders.lost = s.orders.lost
      ∧ (deliverRefusal reason g s).report.periodicDue = s.report.periodicDue
      ∧ (deliverRefusal reason g s).report.pointDue = s.report.pointDue := by
  unfold deliverRefusal; split <;> simp

@[simp] theorem deliverUnreachable_same (g : GateNo) (s : State) :
    (deliverUnreachable g s).ring = s.ring ∧ (deliverUnreachable g s).mgmt = s.mgmt
      ∧ (deliverUnreachable g s).meas = s.meas ∧ (deliverUnreachable g s).engine = s.engine
      ∧ (deliverUnreachable g s).reach = s.reach ∧ (deliverUnreachable g s).timer = s.timer
      ∧ (deliverUnreachable g s).mode = s.mode ∧ (deliverUnreachable g s).clock = s.clock
      ∧ (deliverUnreachable g s).pending = s.pending ∧ (deliverUnreachable g s).orders.lost = s.orders.lost
      ∧ (deliverUnreachable g s).report.periodicDue = s.report.periodicDue
      ∧ (deliverUnreachable g s).report.pointDue = s.report.pointDue := by
  unfold deliverUnreachable; split <;> simp

@[simp] theorem countLoss_same (g : GateNo) (s : State) :
    (countLoss g s).ring = s.ring ∧ (countLoss g s).mgmt = s.mgmt ∧ (countLoss g s).meas = s.meas
      ∧ (countLoss g s).engine = s.engine ∧ (countLoss g s).reach = s.reach ∧ (countLoss g s).timer = s.timer
      ∧ (countLoss g s).mode = s.mode ∧ (countLoss g s).clock = s.clock ∧ (countLoss g s).pending = s.pending
      ∧ (countLoss g s).report.periodicDue = s.report.periodicDue
      ∧ (countLoss g s).report.pointDue = s.report.pointDue := by
  unfold countLoss; split <;> simp

@[simp] theorem applyResult_same (g : GateNo) (result : Byte) (opening : Option Nat) (s : State) :
    (applyResult g result opening s).ring = s.ring ∧ (applyResult g result opening s).mgmt = s.mgmt
      ∧ (applyResult g result opening s).meas = s.meas ∧ (applyResult g result opening s).engine = s.engine
      ∧ (applyResult g result opening s).reach = s.reach ∧ (applyResult g result opening s).timer = s.timer
      ∧ (applyResult g result opening s).mode = s.mode ∧ (applyResult g result opening s).clock = s.clock
      ∧ (applyResult g result opening s).pending = s.pending
      ∧ (applyResult g result opening s).report.periodicDue = s.report.periodicDue
      ∧ (applyResult g result opening s).report.pointDue = s.report.pointDue := by
  unfold applyResult; dsimp only; split <;> split <;> simp

@[simp] theorem recomputeMode_same (s : State) :
    (recomputeMode s).ring = s.ring ∧ (recomputeMode s).orders = s.orders ∧ (recomputeMode s).mgmt = s.mgmt
      ∧ (recomputeMode s).gates = s.gates ∧ (recomputeMode s).meas = s.meas ∧ (recomputeMode s).engine = s.engine
      ∧ (recomputeMode s).reach = s.reach ∧ (recomputeMode s).timer = s.timer ∧ (recomputeMode s).clock = s.clock
      ∧ (recomputeMode s).pending = s.pending ∧ (recomputeMode s).report.counters = s.report.counters
      ∧ (recomputeMode s).report.periodicDue = s.report.periodicDue
      ∧ (recomputeMode s).report.pointDue = s.report.pointDue := by
  unfold recomputeMode; split <;> simp

@[simp] theorem fallStage_same (hw : Nat) (s : State) :
    (fallStage hw s).ring = s.ring ∧ (fallStage hw s).orders = s.orders ∧ (fallStage hw s).mgmt = s.mgmt
      ∧ (fallStage hw s).gates = s.gates ∧ (fallStage hw s).meas = s.meas ∧ (fallStage hw s).engine = s.engine
      ∧ (fallStage hw s).reach = s.reach ∧ (fallStage hw s).timer = s.timer ∧ (fallStage hw s).clock = s.clock
      ∧ (fallStage hw s).pending = s.pending ∧ (fallStage hw s).report.counters = s.report.counters
      ∧ (fallStage hw s).report.periodicDue = s.report.periodicDue
      ∧ (fallStage hw s).report.pointDue = s.report.pointDue := by
  simp [fallStage]

@[simp] theorem fallTest_same (hw : Nat) (s : State) :
    (fallTest hw s).ring = s.ring ∧ (fallTest hw s).orders = s.orders ∧ (fallTest hw s).mgmt = s.mgmt
      ∧ (fallTest hw s).gates = s.gates ∧ (fallTest hw s).meas = s.meas ∧ (fallTest hw s).engine = s.engine
      ∧ (fallTest hw s).reach = s.reach ∧ (fallTest hw s).timer = s.timer ∧ (fallTest hw s).clock = s.clock
      ∧ (fallTest hw s).pending = s.pending ∧ (fallTest hw s).report.counters = s.report.counters
      ∧ (fallTest hw s).report.periodicDue = s.report.periodicDue
      ∧ (fallTest hw s).report.pointDue = s.report.pointDue := by
  unfold fallTest; repeat' split
  all_goals simp

@[simp] theorem evaluateStage_same (hw : Nat) (s : State) :
    (evaluateStage hw s).ring = s.ring ∧ (evaluateStage hw s).orders = s.orders ∧ (evaluateStage hw s).mgmt = s.mgmt
      ∧ (evaluateStage hw s).gates = s.gates ∧ (evaluateStage hw s).meas = s.meas
      ∧ (evaluateStage hw s).engine = s.engine ∧ (evaluateStage hw s).reach = s.reach
      ∧ (evaluateStage hw s).timer = s.timer ∧ (evaluateStage hw s).clock = s.clock
      ∧ (evaluateStage hw s).pending = s.pending ∧ (evaluateStage hw s).report.counters = s.report.counters
      ∧ (evaluateStage hw s).report.periodicDue = s.report.periodicDue
      ∧ (evaluateStage hw s).report.pointDue = s.report.pointDue := by
  unfold evaluateStage; dsimp only; split <;> simp

@[simp] theorem setRequested_same (m : ReqMode) (s : State) :
    (setRequested m s).ring = s.ring ∧ (setRequested m s).orders = s.orders ∧ (setRequested m s).mgmt = s.mgmt
      ∧ (setRequested m s).gates = s.gates ∧ (setRequested m s).meas = s.meas ∧ (setRequested m s).engine = s.engine
      ∧ (setRequested m s).reach = s.reach ∧ (setRequested m s).timer = s.timer ∧ (setRequested m s).clock = s.clock
      ∧ (setRequested m s).pending = s.pending ∧ (setRequested m s).report.counters = s.report.counters
      ∧ (setRequested m s).report.periodicDue = s.report.periodicDue
      ∧ (setRequested m s).report.pointDue = s.report.pointDue := by
  unfold setRequested; split <;> simp

@[simp] theorem switchMode_same (s : State) :
    (switchMode s).ring = s.ring ∧ (switchMode s).orders = s.orders ∧ (switchMode s).mgmt = s.mgmt
      ∧ (switchMode s).gates = s.gates ∧ (switchMode s).meas = s.meas ∧ (switchMode s).engine = s.engine
      ∧ (switchMode s).reach = s.reach ∧ (switchMode s).timer = s.timer ∧ (switchMode s).clock = s.clock
      ∧ (switchMode s).pending = s.pending ∧ (switchMode s).report.counters = s.report.counters
      ∧ (switchMode s).report.periodicDue = s.report.periodicDue
      ∧ (switchMode s).report.pointDue = s.report.pointDue := by
  unfold switchMode; split <;> simp

@[simp] theorem clearHeldDwell_same (s : State) :
    (clearHeldDwell s).ring = s.ring ∧ (clearHeldDwell s).orders = s.orders ∧ (clearHeldDwell s).mgmt = s.mgmt
      ∧ (clearHeldDwell s).gates = s.gates ∧ (clearHeldDwell s).meas = s.meas ∧ (clearHeldDwell s).engine = s.engine
      ∧ (clearHeldDwell s).reach = s.reach ∧ (clearHeldDwell s).timer = s.timer
      ∧ (clearHeldDwell s).report = s.report ∧ (clearHeldDwell s).clock = s.clock
      ∧ (clearHeldDwell s).marks = s.marks ∧ (clearHeldDwell s).pending = s.pending := by
  unfold clearHeldDwell; split <;> simp

@[simp] theorem formVotes_same (hwGroup twGroup : Bool) (s : State) :
    (formVotes hwGroup twGroup s).ring = s.ring ∧ (formVotes hwGroup twGroup s).orders = s.orders
      ∧ (formVotes hwGroup twGroup s).mgmt = s.mgmt ∧ (formVotes hwGroup twGroup s).gates = s.gates
      ∧ (formVotes hwGroup twGroup s).engine = s.engine ∧ (formVotes hwGroup twGroup s).reach = s.reach
      ∧ (formVotes hwGroup twGroup s).timer = s.timer ∧ (formVotes hwGroup twGroup s).mode = s.mode
      ∧ (formVotes hwGroup twGroup s).clock = s.clock ∧ (formVotes hwGroup twGroup s).pending = s.pending
      ∧ (formVotes hwGroup twGroup s).report.counters = s.report.counters
      ∧ (formVotes hwGroup twGroup s).report.periodicDue = s.report.periodicDue
      ∧ (formVotes hwGroup twGroup s).report.pointDue = s.report.pointDue := by
  simp [formVotes]

@[simp] theorem vote_same (hwGroup twGroup : Bool) (s : State) :
    (vote hwGroup twGroup s).ring = s.ring ∧ (vote hwGroup twGroup s).orders = s.orders
      ∧ (vote hwGroup twGroup s).mgmt = s.mgmt ∧ (vote hwGroup twGroup s).gates = s.gates
      ∧ (vote hwGroup twGroup s).engine = s.engine ∧ (vote hwGroup twGroup s).reach = s.reach
      ∧ (vote hwGroup twGroup s).timer = s.timer ∧ (vote hwGroup twGroup s).clock = s.clock
      ∧ (vote hwGroup twGroup s).pending = s.pending ∧ (vote hwGroup twGroup s).report.counters = s.report.counters
      ∧ (vote hwGroup twGroup s).report.periodicDue = s.report.periodicDue
      ∧ (vote hwGroup twGroup s).report.pointDue = s.report.pointDue := by
  unfold vote; dsimp only; repeat' split
  all_goals simp

@[simp] theorem voteTouched_same (touched : List SlotNo) (s : State) :
    (voteTouched touched s).ring = s.ring ∧ (voteTouched touched s).orders = s.orders
      ∧ (voteTouched touched s).mgmt = s.mgmt ∧ (voteTouched touched s).gates = s.gates
      ∧ (voteTouched touched s).engine = s.engine ∧ (voteTouched touched s).reach = s.reach
      ∧ (voteTouched touched s).timer = s.timer ∧ (voteTouched touched s).clock = s.clock
      ∧ (voteTouched touched s).pending = s.pending ∧ (voteTouched touched s).report.counters = s.report.counters
      ∧ (voteTouched touched s).report.periodicDue = s.report.periodicDue
      ∧ (voteTouched touched s).report.pointDue = s.report.pointDue := by
  simp [voteTouched]

@[simp] theorem evaluateStale_same (s : State) :
    (evaluateStale s).ring = s.ring ∧ (evaluateStale s).orders = s.orders ∧ (evaluateStale s).mgmt = s.mgmt
      ∧ (evaluateStale s).gates = s.gates ∧ (evaluateStale s).engine = s.engine ∧ (evaluateStale s).reach = s.reach
      ∧ (evaluateStale s).timer = s.timer ∧ (evaluateStale s).clock = s.clock
      ∧ (evaluateStale s).pending = s.pending ∧ (evaluateStale s).report.counters = s.report.counters
      ∧ (evaluateStale s).report.periodicDue = s.report.periodicDue
      ∧ (evaluateStale s).report.pointDue = s.report.pointDue := by
  simp [evaluateStale]

@[simp] theorem switchSlots_same (old : GovSet) (s : State) :
    (switchSlots old s).ring = s.ring ∧ (switchSlots old s).orders = s.orders ∧ (switchSlots old s).mgmt = s.mgmt
      ∧ (switchSlots old s).gates = s.gates ∧ (switchSlots old s).engine = s.engine
      ∧ (switchSlots old s).reach = s.reach ∧ (switchSlots old s).timer = s.timer
      ∧ (switchSlots old s).clock = s.clock ∧ (switchSlots old s).pending = s.pending
      ∧ (switchSlots old s).report.counters = s.report.counters
      ∧ (switchSlots old s).report.periodicDue = s.report.periodicDue
      ∧ (switchSlots old s).report.pointDue = s.report.pointDue := by
  simp [switchSlots]

theorem offerEntry_same (src : Byte) (acc : State × List SlotNo) (e : SampleEntry) :
    ∃ m c, (offerEntry src acc e).1
      = { acc.1 with meas := m, report := { acc.1.report with counters := c } } := by
  unfold offerEntry; dsimp only
  split
  · exact ⟨_, _, rfl⟩
  · split
    · exact ⟨_, _, rfl⟩
    · split <;> exact ⟨_, _, rfl⟩

theorem offerEntries_same (src : Byte) (es : List SampleEntry) (acc : State × List SlotNo) :
    ∃ m c, (es.foldl (offerEntry src) acc).1
      = { acc.1 with meas := m, report := { acc.1.report with counters := c } } := by
  induction es generalizing acc with
  | nil => exact ⟨_, _, rfl⟩
  | cons e es ih =>
    obtain ⟨m, c, h⟩ := offerEntry_same src acc e
    obtain ⟨m', c', h'⟩ := ih (offerEntry src acc e)
    exact ⟨m', c', by rw [List.foldl_cons, h', h]⟩

@[simp] theorem takeSample_same (src : Byte) (es : List SampleEntry) (s : State) :
    (takeSample src es s).ring = s.ring ∧ (takeSample src es s).orders = s.orders
      ∧ (takeSample src es s).mgmt = s.mgmt ∧ (takeSample src es s).gates = s.gates
      ∧ (takeSample src es s).engine = s.engine ∧ (takeSample src es s).reach = s.reach
      ∧ (takeSample src es s).timer = s.timer ∧ (takeSample src es s).clock = s.clock
      ∧ (takeSample src es s).pending = s.pending ∧ (takeSample src es s).report.periodicDue = s.report.periodicDue
      ∧ (takeSample src es s).report.pointDue = s.report.pointDue := by
  obtain ⟨m, c, h⟩ := offerEntries_same src es (s, [])
  simp [takeSample, h]

@[simp] theorem applyRelease_same (n : OriginNo) (release : Nat) (s : State) :
    (applyRelease n release s).ring = s.ring ∧ (applyRelease n release s).orders = s.orders
      ∧ (applyRelease n release s).mgmt = s.mgmt ∧ (applyRelease n release s).gates = s.gates
      ∧ (applyRelease n release s).meas = s.meas ∧ (applyRelease n release s).engine = s.engine
      ∧ (applyRelease n release s).timer = s.timer ∧ (applyRelease n release s).mode = s.mode
      ∧ (applyRelease n release s).report = s.report ∧ (applyRelease n release s).clock = s.clock
      ∧ (applyRelease n release s).marks = s.marks ∧ (applyRelease n release s).pending = s.pending := by
  simp [applyRelease]

@[simp] theorem applyHeadEarly_same (s : State) :
    (applyHeadEarly s).ring = s.ring ∧ (applyHeadEarly s).orders = s.orders ∧ (applyHeadEarly s).mgmt = s.mgmt
      ∧ (applyHeadEarly s).gates = s.gates ∧ (applyHeadEarly s).meas = s.meas ∧ (applyHeadEarly s).engine = s.engine
      ∧ (applyHeadEarly s).timer = s.timer ∧ (applyHeadEarly s).mode = s.mode ∧ (applyHeadEarly s).clock = s.clock
      ∧ (applyHeadEarly s).pending = s.pending ∧ (applyHeadEarly s).report.periodicDue = s.report.periodicDue
      ∧ (applyHeadEarly s).report.pointDue = s.report.pointDue := by
  unfold applyHeadEarly; repeat' split
  all_goals simp

@[simp] theorem insertNotice_same (e : ReachEntry) (s : State) :
    (insertNotice e s).ring = s.ring ∧ (insertNotice e s).orders = s.orders ∧ (insertNotice e s).mgmt = s.mgmt
      ∧ (insertNotice e s).gates = s.gates ∧ (insertNotice e s).meas = s.meas ∧ (insertNotice e s).engine = s.engine
      ∧ (insertNotice e s).timer = s.timer ∧ (insertNotice e s).mode = s.mode ∧ (insertNotice e s).clock = s.clock
      ∧ (insertNotice e s).pending = s.pending ∧ (insertNotice e s).report.periodicDue = s.report.periodicDue
      ∧ (insertNotice e s).report.pointDue = s.report.pointDue := by
  simp [insertNotice]

@[simp] theorem acceptNotice_same (n : OriginNo) (seqNo : BitVec 16) (release age : Nat) (s : State) :
    (acceptNotice n seqNo release age s).ring = s.ring ∧ (acceptNotice n seqNo release age s).orders = s.orders
      ∧ (acceptNotice n seqNo release age s).mgmt = s.mgmt ∧ (acceptNotice n seqNo release age s).gates = s.gates
      ∧ (acceptNotice n seqNo release age s).meas = s.meas ∧ (acceptNotice n seqNo release age s).engine = s.engine
      ∧ (acceptNotice n seqNo release age s).timer = s.timer ∧ (acceptNotice n seqNo release age s).mode = s.mode
      ∧ (acceptNotice n seqNo release age s).clock = s.clock
      ∧ (acceptNotice n seqNo release age s).pending = s.pending
      ∧ (acceptNotice n seqNo release age s).report.periodicDue = s.report.periodicDue
      ∧ (acceptNotice n seqNo release age s).report.pointDue = s.report.pointDue := by
  unfold acceptNotice; dsimp only; repeat' split
  all_goals simp

@[simp] theorem takeNotice_same (nf : NoticeFields) (s : State) :
    (takeNotice nf s).ring = s.ring ∧ (takeNotice nf s).orders = s.orders ∧ (takeNotice nf s).mgmt = s.mgmt
      ∧ (takeNotice nf s).gates = s.gates ∧ (takeNotice nf s).meas = s.meas ∧ (takeNotice nf s).engine = s.engine
      ∧ (takeNotice nf s).timer = s.timer ∧ (takeNotice nf s).mode = s.mode ∧ (takeNotice nf s).clock = s.clock
      ∧ (takeNotice nf s).pending = s.pending ∧ (takeNotice nf s).report.periodicDue = s.report.periodicDue
      ∧ (takeNotice nf s).report.pointDue = s.report.pointDue := by
  unfold takeNotice; dsimp only; repeat' split
  all_goals simp

@[simp] theorem takePhase_same (p : PhaseFields) (s : State) :
    (takePhase p s).ring = s.ring ∧ (takePhase p s).orders = s.orders ∧ (takePhase p s).mgmt = s.mgmt
      ∧ (takePhase p s).gates = s.gates ∧ (takePhase p s).meas = s.meas ∧ (takePhase p s).engine = s.engine
      ∧ (takePhase p s).reach = s.reach ∧ (takePhase p s).mode = s.mode ∧ (takePhase p s).clock = s.clock
      ∧ (takePhase p s).marks = s.marks ∧ (takePhase p s).pending = s.pending
      ∧ (takePhase p s).report.periodicDue = s.report.periodicDue
      ∧ (takePhase p s).report.pointDue = s.report.pointDue ∧ (takePhase p s).report.flags = s.report.flags
      ∧ (takePhase p s).report.allowance = s.report.allowance ∧ (takePhase p s).report.waiting = s.report.waiting := by
  unfold takePhase; dsimp only; repeat' split
  all_goals simp

@[simp] theorem timerExpiry_same (s : State) :
    (timerExpiry s).ring = s.ring ∧ (timerExpiry s).orders = s.orders ∧ (timerExpiry s).mgmt = s.mgmt
      ∧ (timerExpiry s).gates = s.gates ∧ (timerExpiry s).meas = s.meas ∧ (timerExpiry s).engine = s.engine
      ∧ (timerExpiry s).reach = s.reach ∧ (timerExpiry s).mode = s.mode ∧ (timerExpiry s).clock = s.clock
      ∧ (timerExpiry s).pending = s.pending ∧ (timerExpiry s).report.counters = s.report.counters := by
  simp [timerExpiry]

@[simp] theorem queueReport_same (kind : Byte) (s : State) :
    (queueReport kind s).orders = s.orders ∧ (queueReport kind s).mgmt = s.mgmt
      ∧ (queueReport kind s).gates = s.gates ∧ (queueReport kind s).meas = s.meas
      ∧ (queueReport kind s).engine = s.engine ∧ (queueReport kind s).reach = s.reach
      ∧ (queueReport kind s).timer = s.timer ∧ (queueReport kind s).mode = s.mode
      ∧ (queueReport kind s).clock = s.clock ∧ (queueReport kind s).pending = s.pending
      ∧ (queueReport kind s).ring.port = s.ring.port ∧ (queueReport kind s).ring.nodeAddr = s.ring.nodeAddr
      ∧ (queueReport kind s).ring.station = s.ring.station ∧ (queueReport kind s).ring.ro = s.ring.ro
      ∧ (queueReport kind s).ring.relay = s.ring.relay ∧ (queueReport kind s).ring.inFlight = s.ring.inFlight
      ∧ (queueReport kind s).ring.seqCounter = s.ring.seqCounter ∧ (queueReport kind s).ring.ms = s.ring.ms
      ∧ (queueReport kind s).report.periodicDue = s.report.periodicDue
      ∧ (queueReport kind s).report.pointDue = s.report.pointDue
      ∧ (queueReport kind s).report.flags = s.report.flags
      ∧ (queueReport kind s).report.allowance = s.report.allowance
      ∧ (queueReport kind s).report.waiting = s.report.waiting
      ∧ (queueReport kind s).marks.reportDue = s.marks.reportDue := by
  unfold queueReport; dsimp only; split <;> simp

@[simp] theorem queueConditionReport_same (s : State) :
    (queueConditionReport s).orders = s.orders ∧ (queueConditionReport s).mgmt = s.mgmt
      ∧ (queueConditionReport s).gates = s.gates ∧ (queueConditionReport s).meas = s.meas
      ∧ (queueConditionReport s).engine = s.engine ∧ (queueConditionReport s).reach = s.reach
      ∧ (queueConditionReport s).timer = s.timer ∧ (queueConditionReport s).mode = s.mode
      ∧ (queueConditionReport s).clock = s.clock ∧ (queueConditionReport s).pending = s.pending
      ∧ (queueConditionReport s).ring.port = s.ring.port ∧ (queueConditionReport s).ring.nodeAddr = s.ring.nodeAddr
      ∧ (queueConditionReport s).ring.station = s.ring.station ∧ (queueConditionReport s).ring.ro = s.ring.ro
      ∧ (queueConditionReport s).ring.relay = s.ring.relay
      ∧ (queueConditionReport s).ring.inFlight = s.ring.inFlight
      ∧ (queueConditionReport s).ring.seqCounter = s.ring.seqCounter ∧ (queueConditionReport s).ring.ms = s.ring.ms
      ∧ (queueConditionReport s).report.periodicDue = s.report.periodicDue
      ∧ (queueConditionReport s).report.pointDue = s.report.pointDue
      ∧ (queueConditionReport s).report.flags = s.report.flags
      ∧ (queueConditionReport s).report.allowance = s.report.allowance
      ∧ (queueConditionReport s).report.waiting = s.report.waiting
      ∧ (queueConditionReport s).marks.reportDue = s.marks.reportDue := by
  unfold queueConditionReport; split <;> simp

@[simp] theorem takeRelayThenFeed_same (s : State) :
    (takeRelayThenFeed s).mgmt = s.mgmt ∧ (takeRelayThenFeed s).gates = s.gates
      ∧ (takeRelayThenFeed s).meas = s.meas ∧ (takeRelayThenFeed s).engine = s.engine
      ∧ (takeRelayThenFeed s).reach = s.reach ∧ (takeRelayThenFeed s).timer = s.timer
      ∧ (takeRelayThenFeed s).mode = s.mode ∧ (takeRelayThenFeed s).report = s.report
      ∧ (takeRelayThenFeed s).clock = s.clock ∧ (takeRelayThenFeed s).marks = s.marks
      ∧ (takeRelayThenFeed s).pending = s.pending ∧ (takeRelayThenFeed s).orders.lost = s.orders.lost
      ∧ (takeRelayThenFeed s).ring.port = s.ring.port ∧ (takeRelayThenFeed s).ring.nodeAddr = s.ring.nodeAddr
      ∧ (takeRelayThenFeed s).ring.station = s.ring.station ∧ (takeRelayThenFeed s).ring.ms = s.ring.ms := by
  unfold takeRelayThenFeed; repeat' split
  all_goals simp [originate]

@[simp] theorem takeOrderThenRest_same (s : State) :
    (takeOrderThenRest s).mgmt = s.mgmt ∧ (takeOrderThenRest s).gates = s.gates
      ∧ (takeOrderThenRest s).meas = s.meas ∧ (takeOrderThenRest s).engine = s.engine
      ∧ (takeOrderThenRest s).reach = s.reach ∧ (takeOrderThenRest s).timer = s.timer
      ∧ (takeOrderThenRest s).mode = s.mode ∧ (takeOrderThenRest s).report = s.report
      ∧ (takeOrderThenRest s).clock = s.clock ∧ (takeOrderThenRest s).marks = s.marks
      ∧ (takeOrderThenRest s).pending = s.pending ∧ (takeOrderThenRest s).orders.lost = s.orders.lost
      ∧ (takeOrderThenRest s).ring.port = s.ring.port ∧ (takeOrderThenRest s).ring.nodeAddr = s.ring.nodeAddr
      ∧ (takeOrderThenRest s).ring.station = s.ring.station ∧ (takeOrderThenRest s).ring.ms = s.ring.ms := by
  unfold takeOrderThenRest; repeat' split
  all_goals simp [originate]

@[simp] theorem arbiterChoice_same (s : State) :
    (arbiterChoice s).mgmt = s.mgmt ∧ (arbiterChoice s).gates = s.gates ∧ (arbiterChoice s).meas = s.meas
      ∧ (arbiterChoice s).engine = s.engine ∧ (arbiterChoice s).reach = s.reach ∧ (arbiterChoice s).timer = s.timer
      ∧ (arbiterChoice s).mode = s.mode ∧ (arbiterChoice s).report = s.report ∧ (arbiterChoice s).clock = s.clock
      ∧ (arbiterChoice s).marks = s.marks ∧ (arbiterChoice s).pending = s.pending
      ∧ (arbiterChoice s).orders.lost = s.orders.lost ∧ (arbiterChoice s).ring.port = s.ring.port
      ∧ (arbiterChoice s).ring.nodeAddr = s.ring.nodeAddr ∧ (arbiterChoice s).ring.station = s.ring.station
      ∧ (arbiterChoice s).ring.ms = s.ring.ms := by
  unfold arbiterChoice; repeat' split
  all_goals simp

@[simp] theorem arbitrate_same (s : State) :
    (arbitrate s).mgmt = s.mgmt ∧ (arbitrate s).gates = s.gates ∧ (arbitrate s).meas = s.meas
      ∧ (arbitrate s).engine = s.engine ∧ (arbitrate s).reach = s.reach ∧ (arbitrate s).timer = s.timer
      ∧ (arbitrate s).mode = s.mode ∧ (arbitrate s).report = s.report ∧ (arbitrate s).clock = s.clock
      ∧ (arbitrate s).marks = s.marks ∧ (arbitrate s).pending = s.pending
      ∧ (arbitrate s).orders.lost = s.orders.lost ∧ (arbitrate s).ring.port = s.ring.port
      ∧ (arbitrate s).ring.nodeAddr = s.ring.nodeAddr ∧ (arbitrate s).ring.station = s.ring.station
      ∧ (arbitrate s).ring.ms = s.ring.ms := by
  unfold arbitrate; repeat' split
  all_goals simp

@[simp] theorem closeEvent_same (s : State) :
    (closeEvent s).mgmt = s.mgmt ∧ (closeEvent s).gates = s.gates ∧ (closeEvent s).meas = s.meas
      ∧ (closeEvent s).engine = s.engine ∧ (closeEvent s).reach = s.reach ∧ (closeEvent s).timer = s.timer
      ∧ (closeEvent s).mode = s.mode ∧ (closeEvent s).clock = s.clock ∧ (closeEvent s).pending = s.pending
      ∧ (closeEvent s).orders.lost = s.orders.lost ∧ (closeEvent s).ring.port = s.ring.port
      ∧ (closeEvent s).ring.nodeAddr = s.ring.nodeAddr ∧ (closeEvent s).ring.station = s.ring.station
      ∧ (closeEvent s).ring.ms = s.ring.ms ∧ (closeEvent s).report.periodicDue = s.report.periodicDue
      ∧ (closeEvent s).report.pointDue = s.report.pointDue ∧ (closeEvent s).report.flags = s.report.flags
      ∧ (closeEvent s).report.allowance = s.report.allowance ∧ (closeEvent s).report.waiting = s.report.waiting := by
  unfold closeEvent; dsimp only; split <;> simp

@[simp] theorem staleWork_same (s : State) :
    (staleWork s).mgmt = s.mgmt ∧ (staleWork s).gates = s.gates ∧ (staleWork s).engine = s.engine
      ∧ (staleWork s).reach = s.reach ∧ (staleWork s).timer = s.timer ∧ (staleWork s).pending = s.pending
      ∧ (staleWork s).orders.lost = s.orders.lost ∧ (staleWork s).ring.port = s.ring.port
      ∧ (staleWork s).ring.nodeAddr = s.ring.nodeAddr ∧ (staleWork s).ring.station = s.ring.station
      ∧ (staleWork s).ring.ms = s.ring.ms ∧ (staleWork s).report.periodicDue = s.report.periodicDue
      ∧ (staleWork s).report.pointDue = s.report.pointDue ∧ (staleWork s).clock.ssc = s.clock.ssc
      ∧ (staleWork s).clock.expiryDue = s.clock.expiryDue ∧ (staleWork s).clock.reachDue = s.clock.reachDue := by
  unfold staleWork; split <;> simp

@[simp] theorem reachWork_same (s : State) :
    (reachWork s).ring = s.ring ∧ (reachWork s).orders = s.orders ∧ (reachWork s).mgmt = s.mgmt
      ∧ (reachWork s).gates = s.gates ∧ (reachWork s).meas = s.meas ∧ (reachWork s).engine = s.engine
      ∧ (reachWork s).timer = s.timer ∧ (reachWork s).mode = s.mode ∧ (reachWork s).report = s.report
      ∧ (reachWork s).marks = s.marks ∧ (reachWork s).pending = s.pending ∧ (reachWork s).clock.ssc = s.clock.ssc
      ∧ (reachWork s).clock.expiryDue = s.clock.expiryDue ∧ (reachWork s).clock.staleDue = s.clock.staleDue := by
  simp [reachWork]

@[simp] theorem settleTick_same (s : State) :
    (settleTick s).mgmt = s.mgmt ∧ (settleTick s).gates = s.gates ∧ (settleTick s).engine = s.engine
      ∧ (settleTick s).timer = s.timer ∧ (settleTick s).pending = s.pending
      ∧ (settleTick s).orders.lost = s.orders.lost ∧ (settleTick s).ring.port = s.ring.port
      ∧ (settleTick s).ring.nodeAddr = s.ring.nodeAddr ∧ (settleTick s).ring.station = s.ring.station
      ∧ (settleTick s).ring.ms = s.ring.ms ∧ (settleTick s).report.periodicDue = s.report.periodicDue
      ∧ (settleTick s).report.pointDue = s.report.pointDue ∧ (settleTick s).clock.ssc = s.clock.ssc
      ∧ (settleTick s).clock.expiryDue = s.clock.expiryDue := by
  unfold settleTick; dsimp only; split <;> simp

@[simp] theorem expireEntry_same (e : InFlight) (s : State) :
    (expireEntry s e).ring = s.ring ∧ (expireEntry s e).mgmt = s.mgmt ∧ (expireEntry s e).meas = s.meas
      ∧ (expireEntry s e).engine = s.engine ∧ (expireEntry s e).reach = s.reach ∧ (expireEntry s e).timer = s.timer
      ∧ (expireEntry s e).mode = s.mode ∧ (expireEntry s e).clock = s.clock ∧ (expireEntry s e).pending = s.pending
      ∧ (expireEntry s e).report.periodicDue = s.report.periodicDue
      ∧ (expireEntry s e).report.pointDue = s.report.pointDue := by
  unfold expireEntry; dsimp only; repeat' split
  all_goals simp

@[simp] theorem expireEntries_same (es : List InFlight) (s : State) :
    (es.foldl expireEntry s).ring = s.ring ∧ (es.foldl expireEntry s).mgmt = s.mgmt
      ∧ (es.foldl expireEntry s).meas = s.meas ∧ (es.foldl expireEntry s).engine = s.engine
      ∧ (es.foldl expireEntry s).reach = s.reach ∧ (es.foldl expireEntry s).timer = s.timer
      ∧ (es.foldl expireEntry s).mode = s.mode ∧ (es.foldl expireEntry s).clock = s.clock
      ∧ (es.foldl expireEntry s).pending = s.pending
      ∧ (es.foldl expireEntry s).report.periodicDue = s.report.periodicDue
      ∧ (es.foldl expireEntry s).report.pointDue = s.report.pointDue := by
  induction es generalizing s with
  | nil => simp
  | cons e es ih => simp only [List.foldl_cons]; simpa using ih (expireEntry s e)

@[simp] theorem millisecond_same (s : State) :
    (millisecond s).mgmt = s.mgmt ∧ (millisecond s).meas = s.meas ∧ (millisecond s).engine = s.engine
      ∧ (millisecond s).reach = s.reach ∧ (millisecond s).timer = s.timer ∧ (millisecond s).mode = s.mode
      ∧ (millisecond s).clock = s.clock ∧ (millisecond s).pending = s.pending
      ∧ (millisecond s).ring.port = s.ring.port ∧ (millisecond s).ring.nodeAddr = s.ring.nodeAddr
      ∧ (millisecond s).ring.station = s.ring.station ∧ (millisecond s).ring.ro = s.ring.ro
      ∧ (millisecond s).ring.relay = s.ring.relay ∧ (millisecond s).ring.feed = s.ring.feed
      ∧ (millisecond s).ring.seqCounter = s.ring.seqCounter := by
  simp [millisecond]

@[simp] theorem setSwitch_same (s : State) :
    (setSwitch s).ring = s.ring ∧ (setSwitch s).engine = s.engine ∧ (setSwitch s).clock = s.clock
      ∧ (setSwitch s).pending = s.pending ∧ (setSwitch s).report.periodicDue = s.report.periodicDue
      ∧ (setSwitch s).report.pointDue = s.report.pointDue := by
  simp [setSwitch]

@[simp] theorem takePendingSwitch_same (s : State) :
    (takePendingSwitch s).ring = s.ring ∧ (takePendingSwitch s).engine = s.engine
      ∧ (takePendingSwitch s).clock = s.clock ∧ (takePendingSwitch s).pending = s.pending
      ∧ (takePendingSwitch s).report.periodicDue = s.report.periodicDue
      ∧ (takePendingSwitch s).report.pointDue = s.report.pointDue := by
  unfold takePendingSwitch; split <;> simp

@[simp] theorem gateExpiry_same (s : State) :
    (gateExpiry s).ring = s.ring ∧ (gateExpiry s).mgmt = s.mgmt ∧ (gateExpiry s).meas = s.meas
      ∧ (gateExpiry s).engine = s.engine ∧ (gateExpiry s).reach = s.reach ∧ (gateExpiry s).timer = s.timer
      ∧ (gateExpiry s).mode = s.mode ∧ (gateExpiry s).clock = s.clock ∧ (gateExpiry s).pending = s.pending
      ∧ (gateExpiry s).orders.lost = s.orders.lost ∧ (gateExpiry s).report.periodicDue = s.report.periodicDue
      ∧ (gateExpiry s).report.pointDue = s.report.pointDue := by
  unfold gateExpiry; dsimp only; split <;> simp

@[simp] theorem measurementExpiry_same (s : State) :
    (measurementExpiry s).ring = s.ring ∧ (measurementExpiry s).orders = s.orders
      ∧ (measurementExpiry s).mgmt = s.mgmt ∧ (measurementExpiry s).gates = s.gates
      ∧ (measurementExpiry s).meas = s.meas ∧ (measurementExpiry s).engine = s.engine
      ∧ (measurementExpiry s).reach = s.reach ∧ (measurementExpiry s).timer = s.timer
      ∧ (measurementExpiry s).mode = s.mode ∧ (measurementExpiry s).clock = s.clock
      ∧ (measurementExpiry s).pending = s.pending ∧ (measurementExpiry s).report.counters = s.report.counters
      ∧ (measurementExpiry s).report.periodicDue = s.report.periodicDue
      ∧ (measurementExpiry s).report.pointDue = s.report.pointDue := by
  simp [measurementExpiry]

@[simp] theorem reachExpiry_same (s : State) :
    (reachExpiry s).ring = s.ring ∧ (reachExpiry s).orders = s.orders ∧ (reachExpiry s).mgmt = s.mgmt
      ∧ (reachExpiry s).gates = s.gates ∧ (reachExpiry s).meas = s.meas ∧ (reachExpiry s).engine = s.engine
      ∧ (reachExpiry s).reach = s.reach ∧ (reachExpiry s).timer = s.timer ∧ (reachExpiry s).mode = s.mode
      ∧ (reachExpiry s).clock = s.clock ∧ (reachExpiry s).pending = s.pending
      ∧ (reachExpiry s).report.counters = s.report.counters
      ∧ (reachExpiry s).report.periodicDue = s.report.periodicDue
      ∧ (reachExpiry s).report.pointDue = s.report.pointDue := by
  simp [reachExpiry]

@[simp] theorem modeExpiry_same (s : State) :
    (modeExpiry s).ring = s.ring ∧ (modeExpiry s).orders = s.orders ∧ (modeExpiry s).mgmt = s.mgmt
      ∧ (modeExpiry s).gates = s.gates ∧ (modeExpiry s).meas = s.meas ∧ (modeExpiry s).engine = s.engine
      ∧ (modeExpiry s).reach = s.reach ∧ (modeExpiry s).timer = s.timer ∧ (modeExpiry s).clock = s.clock
      ∧ (modeExpiry s).pending = s.pending ∧ (modeExpiry s).report.counters = s.report.counters
      ∧ (modeExpiry s).report.periodicDue = s.report.periodicDue
      ∧ (modeExpiry s).report.pointDue = s.report.pointDue := by
  unfold modeExpiry; dsimp only; split <;> simp

@[simp] theorem expiryWork_same (s : State) :
    (expiryWork s).ring = s.ring ∧ (expiryWork s).engine = s.engine
      ∧ (expiryWork s).clock = { s.clock with expiryDue := false } ∧ (expiryWork s).pending = s.pending := by
  simp [expiryWork]

@[simp] theorem cadenceExpiry_same (s : State) :
    (cadenceExpiry s).ring = s.ring ∧ (cadenceExpiry s).engine.results = s.engine.results
      ∧ (cadenceExpiry s).clock.ssc = s.clock.ssc ∧ (cadenceExpiry s).clock.staleDue = s.clock.staleDue
      ∧ (cadenceExpiry s).clock.reachDue = s.clock.reachDue ∧ (cadenceExpiry s).pending = s.pending := by
  simp [cadenceExpiry]

@[simp] theorem completeGoverned_same (sn : Snapshot) (s : State) :
    (completeGoverned sn s).ring = s.ring ∧ (completeGoverned sn s).mgmt = s.mgmt
      ∧ (completeGoverned sn s).meas = s.meas ∧ (completeGoverned sn s).reach = s.reach
      ∧ (completeGoverned sn s).timer = s.timer ∧ (completeGoverned sn s).mode = s.mode
      ∧ (completeGoverned sn s).clock = s.clock ∧ (completeGoverned sn s).pending = s.pending
      ∧ (completeGoverned sn s).orders.lost = s.orders.lost
      ∧ (completeGoverned sn s).engine.computation = s.engine.computation
      ∧ (completeGoverned sn s).report.periodicDue = s.report.periodicDue
      ∧ (completeGoverned sn s).report.pointDue = s.report.pointDue := by
  simp [completeGoverned]

@[simp] theorem leaveInitial_same (s : State) :
    (leaveInitial s).ring = s.ring ∧ (leaveInitial s).orders = s.orders ∧ (leaveInitial s).mgmt = s.mgmt
      ∧ (leaveInitial s).gates = s.gates ∧ (leaveInitial s).meas = s.meas ∧ (leaveInitial s).engine = s.engine
      ∧ (leaveInitial s).reach = s.reach ∧ (leaveInitial s).timer = s.timer ∧ (leaveInitial s).clock = s.clock
      ∧ (leaveInitial s).pending = s.pending ∧ (leaveInitial s).report.counters = s.report.counters
      ∧ (leaveInitial s).report.periodicDue = s.report.periodicDue
      ∧ (leaveInitial s).report.pointDue = s.report.pointDue := by
  simp [leaveInitial]

@[simp] theorem completeLeaving_same (sn : Snapshot) (s : State) :
    (completeLeaving sn s).ring = s.ring ∧ (completeLeaving sn s).mgmt = s.mgmt
      ∧ (completeLeaving sn s).meas = s.meas ∧ (completeLeaving sn s).reach = s.reach
      ∧ (completeLeaving sn s).timer = s.timer ∧ (completeLeaving sn s).clock = s.clock
      ∧ (completeLeaving sn s).pending = s.pending ∧ (completeLeaving sn s).orders.lost = s.orders.lost
      ∧ (completeLeaving sn s).engine.computation = s.engine.computation
      ∧ (completeLeaving sn s).report.periodicDue = s.report.periodicDue
      ∧ (completeLeaving sn s).report.pointDue = s.report.pointDue := by
  simp [completeLeaving]

@[simp] theorem completeBody_same (sn : Snapshot) (s : State) :
    (completeBody sn s).ring = s.ring ∧ (completeBody sn s).mgmt = s.mgmt ∧ (completeBody sn s).meas = s.meas
      ∧ (completeBody sn s).reach = s.reach ∧ (completeBody sn s).timer = s.timer
      ∧ (completeBody sn s).clock = s.clock ∧ (completeBody sn s).pending = s.pending
      ∧ (completeBody sn s).orders.lost = s.orders.lost
      ∧ (completeBody sn s).engine.computation = s.engine.computation
      ∧ (completeBody sn s).report.periodicDue = s.report.periodicDue
      ∧ (completeBody sn s).report.pointDue = s.report.pointDue := by
  unfold completeBody; repeat' split
  all_goals simp [completeInitial]

@[simp] theorem completionReport_same (s : State) :
    (completionReport s).orders = s.orders ∧ (completionReport s).mgmt = s.mgmt
      ∧ (completionReport s).gates = s.gates ∧ (completionReport s).meas = s.meas
      ∧ (completionReport s).engine = s.engine ∧ (completionReport s).reach = s.reach
      ∧ (completionReport s).timer = s.timer ∧ (completionReport s).mode = s.mode
      ∧ (completionReport s).clock = s.clock ∧ (completionReport s).pending = s.pending
      ∧ (completionReport s).ring.port = s.ring.port ∧ (completionReport s).ring.nodeAddr = s.ring.nodeAddr
      ∧ (completionReport s).ring.station = s.ring.station ∧ (completionReport s).ring.ro = s.ring.ro
      ∧ (completionReport s).ring.relay = s.ring.relay ∧ (completionReport s).ring.inFlight = s.ring.inFlight
      ∧ (completionReport s).ring.seqCounter = s.ring.seqCounter ∧ (completionReport s).ring.ms = s.ring.ms
      ∧ (completionReport s).report.flags = s.report.flags := by
  unfold completionReport; dsimp only; repeat' split
  all_goals simp

@[simp] theorem respond_same (q : Requester) (r : Reply) (s : State) :
    (respond q r s).orders = s.orders ∧ (respond q r s).mgmt = s.mgmt ∧ (respond q r s).gates = s.gates
      ∧ (respond q r s).meas = s.meas ∧ (respond q r s).engine = s.engine ∧ (respond q r s).reach = s.reach
      ∧ (respond q r s).timer = s.timer ∧ (respond q r s).mode = s.mode ∧ (respond q r s).report = s.report
      ∧ (respond q r s).clock = s.clock ∧ (respond q r s).pending = s.pending
      ∧ (respond q r s).ring.port = s.ring.port ∧ (respond q r s).ring.nodeAddr = s.ring.nodeAddr
      ∧ (respond q r s).ring.station = s.ring.station ∧ (respond q r s).ring.ro = s.ring.ro
      ∧ (respond q r s).ring.relay = s.ring.relay ∧ (respond q r s).ring.inFlight = s.ring.inFlight
      ∧ (respond q r s).ring.seqCounter = s.ring.seqCounter ∧ (respond q r s).ring.ms = s.ring.ms
      ∧ (respond q r s).marks.reportDue = s.marks.reportDue := by
  simp [respond]

end Sys2Proof.Machine
end

