-- ==== Sys2Proof/Laws/Events.lean ====
section
/-! SUPPORT. How an event is taken: once the work of the last second tick is done, what is left of a command is its body and the end
of the event. -/

namespace Sys2Proof.Machine

variable {s : State}

theorem settleTick_of_settled (h : Settled s) : settleTick s = s := by
  simp [settleTick, staleWork, h.1, h.2]

theorem settled_settleTick (s : State) : Settled (settleTick s) := by
  unfold settleTick; dsimp only
  have hs : (staleWork s).clock.staleDue = false := by
    unfold staleWork; split
    · simp
    · simp_all
  split
  · simp [Settled, reachWork, hs]
  · simp_all [Settled]

theorem takeEvent_awake (body : State → State) (h : Awake s) : takeEvent body s = closeEvent (body (settleTick s)) :=
  if_neg h

theorem takeEvent_settled (body : State → State) (h : Awake s) (hs : Settled s) :
    takeEvent body s = closeEvent (body s) := by
  rw [takeEvent_awake body h, settleTick_of_settled hs]

theorem takeEvent_inReset (body : State → State) (h : ¬ Awake s) : takeEvent body s = s :=
  if_pos (Decidable.not_not.mp h)

theorem takeRingEvent_inService (body : State → State) (h : InService s) :
    takeRingEvent body s = closeEvent (body (settleTick s)) :=
  if_pos h

theorem takeRingEvent_settled (body : State → State) (h : InService s) (hs : Settled s) :
    takeRingEvent body s = closeEvent (body s) := by
  rw [takeRingEvent_inService body h, settleTick_of_settled hs]

theorem takeRingEvent_bypass (body : State → State) (h : ¬ InService s) : takeRingEvent body s = s := if_neg h

theorem InService.awake (h : InService s) : Awake s := by
  intro h'; rw [InService] at h; rw [h] at h'; cases h'

/-- Settling a tick leaves it settled, so the events taken on the settled state are those taken on the state itself. -/
theorem takeEvent_settleTick (body : State → State) (h : Awake s) :
    takeEvent body s = takeEvent body (settleTick s) := by
  have h' : Awake (settleTick s) := by simpa [Awake] using h
  rw [takeEvent_awake body h, takeEvent_settled body h' (settled_settleTick s)]

theorem takeRingEvent_settleTick (body : State → State) (h : InService s) :
    takeRingEvent body s = takeRingEvent body (settleTick s) := by
  have h' : InService (settleTick s) := by simpa [InService] using h
  rw [takeRingEvent_inService body h, takeRingEvent_settled body h' (settled_settleTick s)]

/-- An event that called for no condition report and placed no frame ends with nothing but its marks clear. -/
theorem closeEvent_unmarked (h1 : s.marks.reportDue = false) (h2 : s.marks.placed = false) :
    closeEvent s = { s with marks := ⟨false, false⟩ } := by
  simp [closeEvent, queueConditionReport, h1, h2]

theorem closeEvent_quiet (h : Quiet s) : closeEvent s = s := by
  rw [closeEvent_unmarked (by rw [h]) (by rw [h])]
  show { s with marks := _ } = s
  rw [← show s.marks = _ from h]

/-- The marks are clear once an event has ended. -/
@[simp] theorem closeEvent_marks (s : State) : (closeEvent s).marks = ⟨false, false⟩ := rfl

theorem closeEvent_closes (s : State) : Quiet (closeEvent s) := rfl

/-- A request that is taken is answered after it has acted. -/
theorem receiveRequest_takeable {q : Requester} {len : Nat} (h : Takeable q len s) (take : State → State) :
    takeRingEvent (receiveRequest q len take) s = closeEvent (take s) := by
  rw [takeRingEvent_settled _ h.1 h.2.1]
  have h3 := h.2.2.1
  simp only [receiveRequest, if_neg (show ¬ payloadMax < len + 2 by simp only [payloadMax]; omega),
    if_neg h.2.2.2.1]

theorem takeRequest_takeable {q : Requester} {len : Nat} (h : Takeable q len s) (data : List Byte)
    (act : State → Reply × State) :
    takeRequest q 1 data act s = respond q (act s).1 (act s).2 := by
  have h1 := h.2.2.2.2.1
  have h2 := h.2.2.2.2.2
  simp only [takeRequest, if_neg (show ¬ s.feedRoom = 0 by omega), if_neg (show ¬ s.feedRoom < 1 by omega), h2,
    if_true]

end Sys2Proof.Machine
end

