-- ==== Sys2Proof/Laws/Management.lean ====
section
/-! SUPPORT. The Management Agent: what a write request can do to the management record, the entries that a write's data is cut into, and
the ring operations' frames on the management record. -/

namespace Sys2Proof.Machine

/-- A frame addressed to the part leaves the management record and the straps. -/
theorem stripFrame_mgmt (f) (s : State) : (stripFrame f s).mgmt = s.mgmt ∧ (stripFrame f s).ring.nodeAddr = s.ring.nodeAddr ∧ (stripFrame f s).ring.station = s.ring.station := by
  unfold stripFrame handReturn; repeat' split
  all_goals simp

theorem relayFrame_mgmt (f) (s : State) : (relayFrame f s).mgmt = s.mgmt ∧ (relayFrame f s).ring.nodeAddr = s.ring.nodeAddr ∧ (relayFrame f s).ring.station = s.ring.station := by
  unfold relayFrame; repeat' split
  all_goals simp

theorem endSend_mgmt (s : State) : (endSend s).mgmt = s.mgmt ∧ (endSend s).ring.nodeAddr = s.ring.nodeAddr ∧ (endSend s).ring.station = s.ring.station := by
  unfold endSend; repeat' split
  all_goals simp

/-- The management record after an expiry (R168). -/
theorem cadenceExpiry_mgmt (s : State) : (cadenceExpiry s).mgmt = if s.mgmt.switchPending then { s.mgmt with active := s.mgmt.shadow, switchPending := false, generation := s.mgmt.generation + 1 } else s.mgmt := by
  simp only [cadenceExpiry, expiryWork, beginComputation_mgmt, modeExpiry_same, reachExpiry_same, measurementExpiry_same, gateExpiry_same, timerExpiry_same]
  by_cases h : s.mgmt.switchPending = true <;> simp [takePendingSwitch, setSwitch, h]

theorem writeEntryIn_limits (table : Nat) (e : Nat × List Byte) (set new : GovSet) (h : writeEntryIn table e.1 e.2 set = some new) (hn : changesLimits table set e = false) : new.limits = set.limits := by
  simp [changesLimits, h] at hn; exact hn

/-- The entries of a write lie in the table, from the first on. -/
theorem cutEntries_bound (table fuel first) (bs es) (h : cutEntries table fuel first bs = some es) : ∀ e ∈ es, first ≤ e.1 ∧ e.1 ≤ lastEntry table := by
  induction fuel generalizing first bs es with
  | zero => unfold cutEntries at h; split at h <;> cases h; simp
  | succ n ih =>
    unfold cutEntries at h
    split at h
    · cases h; simp
    · split at h
      · cases h
      · dsimp only at h
        split at h
        · cases h
        · cases hc : cutEntries table n (first + 1) (bs.drop (entrySize table first)) with
          | none => rw [hc] at h; cases h
          | some es' =>
            rw [hc] at h; simp at h; subst h
            intro e he
            rcases List.mem_cons.1 he with rfl | he
            · simp; omega
            · have := ih _ _ _ hc e he; omega

/-- The entries of a write are distinct. -/
theorem cutEntries_distinct (table fuel first) (bs es) (h : cutEntries table fuel first bs = some es) : es.Pairwise (fun a b => a.1 < b.1) := by
  induction fuel generalizing first bs es with
  | zero => unfold cutEntries at h; split at h <;> cases h; simp
  | succ n ih =>
    unfold cutEntries at h
    split at h
    · cases h; simp
    · split at h
      · cases h
      · dsimp only at h
        split at h
        · cases h
        · cases hc : cutEntries table n (first + 1) (bs.drop (entrySize table first)) with
          | none => rw [hc] at h; cases h
          | some es' =>
            rw [hc] at h; simp at h; subst h
            rw [List.pairwise_cons]
            refine ⟨fun e he => ?_, ih _ _ _ hc⟩
            have := cutEntries_bound _ _ _ _ _ hc e he
            simp; omega

theorem limits_of_set_eq (l : List GateCfg) (i : Nat) (hi : i < l.length) (c : GateCfg) (h : (l.set i c).flatMap GateCfg.limits = l.flatMap GateCfg.limits) : c.limits = (l[i]).limits := by
  induction l generalizing i with
  | nil => simp at hi
  | cons a l ih =>
    cases i with
    | zero =>
      simp at h
      exact h
    | succ i =>
      simp only [List.set_cons_succ, List.flatMap_cons, List.append_cancel_left_eq] at h
      exact ih i (by simpa using hi) h

theorem set_of_limits_eq (l : List GateCfg) (i : Nat) (c : GateCfg) (h : ∀ hi : i < l.length, c.limits = (l[i]).limits) : (l.set i c).flatMap GateCfg.limits = l.flatMap GateCfg.limits := by
  induction l generalizing i with
  | nil => simp
  | cons a l ih =>
    cases i with
    | zero => have := h (by simp); simp at this; simp [this]
    | succ i =>
      simp only [List.set_cons_succ, List.flatMap_cons]
      rw [ih i (fun hi => by have := h (by simpa using hi); simpa using this)]

/-- An entry that keeps the limits of one set keeps those of another that agrees with it in limits (R170). -/
theorem writeEntryIn_limits_any (table : Nat) (e : Nat × List Byte) (s1 s2 : GovSet) (hl : s1.limits = s2.limits) (h1 : ∀ n, writeEntryIn table e.1 e.2 s1 = some n → n.limits = s1.limits)
   (hsome : (writeEntryIn table e.1 e.2 s1).isSome) : ∀ n, writeEntryIn table e.1 e.2 s2 = some n → n.limits = s2.limits := by
  have hsplit : ∀ a b : GovSet, a.limits = b.limits → a.t1.items.map GateCfg.limits = b.t1.items.map GateCfg.limits ∧ a.t10.limits = b.t10.limits := by
    intro a b h
    have len : ∀ l : List GateCfg, (l.flatMap GateCfg.limits).length = 4 * l.length := by
      intro l; induction l with
      | nil => rfl
      | cons x l ih => rw [List.flatMap_cons, List.length_append, ih]; simp [GateCfg.limits]; omega
    have := List.append_inj h (by rw [len, len, a.t1.size, b.t1.size])
    refine ⟨?_, this.2⟩
    have inj : ∀ l m : List GateCfg, l.length = m.length → l.flatMap GateCfg.limits = m.flatMap GateCfg.limits → l.map GateCfg.limits = m.map GateCfg.limits := by
      intro l
      induction l with
      | nil => intro m hm _; have : m = [] := List.eq_nil_of_length_eq_zero (by simpa using hm.symm); subst this; rfl
      | cons x l ih =>
        intro m hm h
        cases m with
        | nil => simp at hm
        | cons y m =>
          simp only [List.flatMap_cons] at h
          have := List.append_inj h (by simp [GateCfg.limits])
          simp [this.1, ih m (by simpa using hm) this.2]
    exact inj _ _ (by rw [a.t1.size, b.t1.size]) this.1
  unfold writeEntryIn at *
  split at h1 
  case h_1 =>
    intro n hn
    cases hr : readGateCfg e.2 with
    | none => rw [hr] at hn; cases hn
    | some c =>
      rw [hr] at hn h1; simp at hn; subst hn
      have := h1 _ rfl
      have t := hsplit _ _ this
      have hl' := hsplit _ _ hl
      show (s2.t1.items.set e.1 c).flatMap GateCfg.limits ++ s2.t10.limits = s2.t1.items.flatMap GateCfg.limits ++ s2.t10.limits
      congr 1
      apply set_of_limits_eq
      intro hi
      have hi1 : e.1 < s1.t1.items.length := by rw [s1.t1.size]; rw [s2.t1.size] at hi; exact hi
      have e1 : c.limits = s1.t1.items[e.1].limits := by
        apply limits_of_set_eq _ _ hi1
        have : (s1.t1.items.set e.1 c).flatMap GateCfg.limits ++ s1.t10.limits = s1.t1.items.flatMap GateCfg.limits ++ s1.t10.limits := this
        exact List.append_cancel_right this
      rw [e1]
      have := congrArg (fun l => l[e.1]?) hl'.1
      simp only [List.getElem?_map, List.getElem?_eq_getElem hi1, List.getElem?_eq_getElem hi] at this
      simpa using this
  case h_10 =>
    intro n hn
    cases hr : readPlantParams e.2 with
    | none => rw [hr] at hn; cases hn
    | some c =>
      rw [hr] at hn h1; simp at hn; subst hn
      have := (hsplit _ _ (h1 _ rfl)).2
      have hl' := (hsplit _ _ hl).2
      show s2.t1.items.flatMap GateCfg.limits ++ c.limits = s2.t1.items.flatMap GateCfg.limits ++ s2.t10.limits
      rw [show c.limits = s1.t10.limits from this, hl']
  case h_5 =>
    intro n hn
    split at hn
    · cases hr : readPlanHeader e.2 <;> rw [hr] at hn <;> simp at hn; subst hn; rfl
    · cases hr : readPlanStep e.2 <;> rw [hr] at hn <;> simp at hn; subst hn; rfl
  all_goals
    intro n hn
    first
      | (simp at hn; done)
      | (simp only [Option.map_eq_some_iff] at hn; obtain ⟨x, -, rfl⟩ := hn; rfl)

theorem writeAll_limits (table : Nat) (es : List (Nat × List Byte)) (base set : GovSet) (hl : base.limits = set.limits)
   (h0 : ∀ e ∈ es, (writeEntryIn table e.1 e.2 base).isSome) (h1 : ∀ e ∈ es, changesLimits table base e = false) : (writeAll table es set).limits = base.limits := by
  induction es generalizing set with
  | nil => exact hl.symm
  | cons e es ih =>
    simp only [writeAll, List.foldl_cons]
    apply ih
    · have := writeEntryIn_limits_any table e base set hl (fun n hn => writeEntryIn_limits _ _ _ _ hn (h1 e List.mem_cons_self)) (h0 e List.mem_cons_self)
      cases hw : writeEntryIn table e.1 e.2 set with
      | none => exact hl
      | some n => simp [this n hw, hl]
    · intro e he; exact h0 e (List.mem_cons_of_mem _ he)
    · intro e he; exact h1 e (List.mem_cons_of_mem _ he)

/-- A write taken under the lock keeps the limits (R170). -/
theorem applyWrite_limits_locked {table first data shadow set} (h : applyWrite table first data true shadow = .ok set) : set.limits = shadow.limits := by
  unfold applyWrite at h
  split at h
  · cases h
  · rename_i es hes
    split at h
    · cases h
    · rename_i h1
      split at h
      · cases h
      · rename_i h2
        cases h
        apply writeAll_limits _ _ _ _ rfl
        · intro e he
          have := List.find?_eq_none.1 h1 e he
          cases hh : writeEntryIn table e.1 e.2 shadow <;> simp_all
        · intro e he
          have := List.find?_eq_none.1 h2 e he
          simpa using this

/-- What a write request may do to the management record (R165, R170). -/
theorem writeRequest_mgmt (src ops) (s : State) : let t := (writeRequest src ops s).2
   t.ring = s.ring ∧ t.mgmt.active = s.mgmt.active ∧ t.mgmt.lock = s.mgmt.lock ∧ t.mgmt.switchPending = s.mgmt.switchPending ∧
   (s.mgmt.switchPending = true → t = s) ∧ (s.mgmt.lock = true → t.mgmt.shadow.limits = s.mgmt.shadow.limits) := by
  have hold : ∀ w l (u : State), u.mgmt.switchPending = false → let t := (holdSegment w l u).2
     t.ring = u.ring ∧ t.mgmt.active = u.mgmt.active ∧ t.mgmt.lock = u.mgmt.lock ∧ t.mgmt.switchPending = u.mgmt.switchPending ∧ (u.mgmt.switchPending = true → t = u) ∧ (u.mgmt.lock = true → t.mgmt.shadow.limits = u.mgmt.shadow.limits) := by
    intro w l u hu
    unfold holdSegment
    split
    · split
      · simp [hu]
      · rename_i set hset
        refine ⟨rfl, rfl, rfl, rfl, by simp [hu], fun hl => ?_⟩
        rw [hl] at hset
        exact applyWrite_limits_locked hset
    · simp [hu]
  unfold writeRequest takeSegment firstSegment nextSegment
  repeat' split
  all_goals first
    | (simp; done)
    | (refine ⟨rfl, rfl, rfl, rfl, ?_, fun _ => rfl⟩; intro h; simp_all)
    | (apply hold; simp_all)

/-- The entries a READ_ENTRY returns are the most that fit (R164). -/
theorem wholeEntries_spec (table : Nat) (c f room : Nat) :
   wholeEntries table c f room ≤ c ∧ ((List.range (wholeEntries table c f room)).map fun i => entrySize table (f + i)).sum ≤ room ∧
   (wholeEntries table c f room < c → room < ((List.range (wholeEntries table c f room + 1)).map fun i => entrySize table (f + i)).sum) := by
  induction c generalizing f room with
  | zero => simp [wholeEntries]
  | succ c ih =>
    unfold wholeEntries
    split
    · rename_i h
      obtain ⟨a, b, d⟩ := ih (f + 1) (room - entrySize table f)
      have e : ∀ n, ((List.range (1 + n)).map fun i => entrySize table (f + i)).sum = entrySize table f + ((List.range n).map fun i => entrySize table (f + 1 + i)).sum := by
        intro n
        rw [Nat.add_comm 1 n, List.range_succ_eq_map]
        simp [List.map_map, Function.comp_def, Nat.add_assoc, Nat.add_comm 1]
      refine ⟨by omega, by rw [e]; omega, ?_⟩
      intro hh
      have := d (by omega)
      rw [Nat.add_assoc, e]; omega
    · rename_i h
      refine ⟨by omega, by simp, fun _ => ?_⟩
      simp; omega

/-- The parts of a segment byte (R165). -/
theorem segment_byte_parts : ∀ n : Fin 16, ∀ b : Bool, ((byte (n.val + if b then 128 else 0)) &&& 0x70 = 0) ∧ (byte (n.val + if b then 128 else 0)).toNat % 16 = n.val ∧ (byte (n.val + if b then 128 else 0)).msb = b := by
  decide

end Sys2Proof.Machine
end

