-- ==== Sys2Proof/Laws/Cutting.lean ====
section
/-! SUPPORT. The data of a write or a comparison cut into entries (R166, R171). -/

namespace Sys2Proof.Machine

theorem entrySize_pos (table i : Nat) : 0 < entrySize table i := by
    unfold entrySize; split <;> (try omega)
    all_goals repeat' split
    all_goals omega

theorem lastEntry_le (t : Nat) : lastEntry t ≤ 48 := by unfold lastEntry; split <;> omega

/-- Whole entries that end inside the table are cut as they are. -/
theorem cutEntries_whole (table : Nat) (es : List (List Byte)) :
    ∀ (fuel first : Nat), es.length ≤ fuel → first + es.length ≤ lastEntry table + 1 →
   (∀ i e, es[i]? = some e → e.length = entrySize table (first + i)) → (∀ i, 0 < entrySize table i) →
   cutEntries table fuel first es.flatten = some (es.zipIdx.map fun p => (first + p.2, p.1)) := by
  induction es with
  | nil => intro fuel first _ _ _ _; cases fuel <;> simp [cutEntries]
  | cons x es ih =>
    intro fuel first hf hl hs hp
    cases fuel with
    | zero => simp at hf
    | succ fuel =>
      have hx : x.length = entrySize table first := by simpa using hs 0 x rfl
      have hne : x ≠ [] := by rintro rfl; have := hp first; simp at hx; omega
      unfold cutEntries
      simp only [List.length_cons] at hf hl
      rw [if_neg (by simp [hne]), if_neg (by omega)]
      dsimp only
      rw [if_neg (by simp [hx])]
      have h1 : (x :: es).flatten.drop (entrySize table first) = es.flatten := by simp [← hx]
      have h2 : (x :: es).flatten.take (entrySize table first) = x := by simp [← hx]
      rw [h1, h2, ih fuel (first+1) (by omega) (by omega) (by
        intro i e he; have := hs (i+1) e (by simpa using he); rw [this]; congr 1; omega) hp]
      simp [List.zipIdx_cons, List.zipIdx_succ, List.map_map, Function.comp_def]
      intro a b _; omega

/-- Data that is cut holds whole entries inside the table. -/
theorem cutEntries_lengths (table : Nat) :
    ∀ (fuel first : Nat) (bs : List Byte) (r), first ≤ lastEntry table + 1 → cutEntries table fuel first bs = some r →
   ∃ n, first + n ≤ lastEntry table + 1 ∧ bs.length = ((List.range n).map fun i => entrySize table (first + i)).sum := by
  intro fuel
  induction fuel with
  | zero => intro first bs r hl h; unfold cutEntries at h; split at h
            · rename_i hb; exact ⟨0, by omega, by simp [hb]⟩
            · cases h
  | succ fuel ih =>
    intro first bs r hl h
    unfold cutEntries at h
    split at h
    · rename_i hb; exact ⟨0, by omega, by simp [hb]⟩
    · split at h
      · cases h
      · dsimp only at h
        split at h
        · cases h
        · rename_i h1 h2 h3
          cases hc : cutEntries table fuel (first + 1) (bs.drop (entrySize table first)) with
          | none => rw [hc] at h; cases h
          | some r' =>
            obtain ⟨n, a, b⟩ := ih _ _ _ (by omega) hc
            refine ⟨n + 1, by omega, ?_⟩
            rw [List.range_succ_eq_map]
            simp [List.map_map, Function.comp_def, Nat.add_assoc, Nat.add_comm 1] at b ⊢
            omega

/-- R166: whole entries inside the table are taken each with its index. -/
theorem entriesOf_whole (table first : Nat) (es : List (List Byte)) (hf : first ≤ lastEntry table)
    (hl : first + es.length ≤ lastEntry table + 1) (hs : ∀ i e, es[i]? = some e → e.length = entrySize table (first + i)) :
   entriesOf table first es.flatten = some (es.zipIdx.map fun p => (first + p.2, p.1)) := by
  unfold entriesOf; rw [if_neg (by omega)]
  have := lastEntry_le table
  exact cutEntries_whole table es 50 first (by omega) hl hs (entrySize_pos table)

/-- R166: data that ends on no whole entry, or runs past the table, or a first entry past it, is refused. -/
theorem entriesOf_none (table first : Nat) (bs : List Byte)
    (h : lastEntry table < first ∨ ∀ n, first + n ≤ lastEntry table + 1 →
      bs.length ≠ ((List.range n).map fun i => entrySize table (first + i)).sum) :
    entriesOf table first bs = none := by
  unfold entriesOf
  split
  · rfl
  · rename_i hl
    rcases h with h | h
    · exact absurd h hl
    · cases hc : cutEntries table 50 first bs with
      | none => rfl
      | some r => obtain ⟨n, a, b⟩ := cutEntries_lengths table 50 first bs r (by omega) hc; exact absurd b (h n a)

end Sys2Proof.Machine
end

