-- ==== Sys2Proof/Laws/Flags.lean ====
section
/-! SUPPORT. What raise events do to the condition flags, that no work of an event clears a flag, and what a count does to the
counters. -/

namespace Sys2Proof.Machine

variable {f g : Flag} {s : State}

theorem flagIn_mask (f g : Flag) : flagIn f g.mask = decide (f = g) := by cases f <;> cases g <;> rfl

theorem flagIn_or (f : Flag) (a b : BitVec 16) : flagIn f (a ||| b) = (flagIn f a || flagIn f b) := by simp [flagIn]

theorem mask_getLsbD (f : Flag) (i : Nat) (h : i < 16) : f.mask.getLsbD i = decide (i = f.bit) := by
  have : ∀ i : Fin 16, f.mask.getLsbD i.val = decide (i.val = f.bit) := by cases f <;> decide
  exact this ⟨i, h⟩

/-- A raise event sets its flag, whether or not it was set before. -/
theorem raise_flags (f : Flag) (s : State) : (raise f s).report.flags = s.report.flags ||| f.mask := by
  unfold raise
  split
  · rename_i h
    have h : s.report.flags.getLsbD f.bit = true := h
    apply BitVec.eq_of_getLsbD_eq
    intro i hi
    rw [BitVec.getLsbD_or, mask_getLsbD f i hi]
    by_cases hh : i = f.bit
    · subst hh; simp [h]
    · simp [hh]
  · repeat' split
    all_goals rfl

theorem flagIn_raise (f g : Flag) (s : State) :
    flagIn f (raise g s).report.flags = (flagIn f s.report.flags || decide (f = g)) := by
  rw [raise_flags, flagIn_or, flagIn_mask]

theorem flagIn_raiseIf (c : Bool) (f g : Flag) (s : State) :
    flagIn f (raiseIf c g s).report.flags = (flagIn f s.report.flags || (c && decide (f = g))) := by
  unfold raiseIf; split <;> simp_all [flagIn_raise]

theorem flagIn_raise_of (h : flagIn f s.report.flags = true) : flagIn f (raise g s).report.flags = true := by
  simp [flagIn_raise, h]

theorem flagIn_raiseIf_of {c : Bool} (h : flagIn f s.report.flags = true) :
    flagIn f (raiseIf c g s).report.flags = true := by
  simp [flagIn_raiseIf, h]

theorem flagIn_recomputeMode_of (h : flagIn f s.report.flags = true) :
    flagIn f (recomputeMode s).report.flags = true := by
  unfold recomputeMode; split
  · exact h
  · exact flagIn_raiseIf_of h

theorem flagIn_evaluateStage_of (hw : Nat) (h : flagIn f s.report.flags = true) :
    flagIn f (evaluateStage hw s).report.flags = true := by
  unfold evaluateStage fallTest fallStage; dsimp only; repeat' split
  all_goals first | exact h | exact flagIn_recomputeMode_of (flagIn_raise_of h)

theorem flagIn_formVotes_of {a b : Bool} (h : flagIn f s.report.flags = true) :
    flagIn f (formVotes a b s).report.flags = true := by
  unfold formVotes; exact flagIn_raiseIf_of h

theorem flagIn_vote_of {a b : Bool} (h : flagIn f s.report.flags = true) :
    flagIn f (vote a b s).report.flags = true := by
  unfold vote; dsimp only
  by_cases h1 : (a || b) = true
  · rw [if_pos h1]
    by_cases h2 : (a && (formVotes a b s).meas.hw.fresh) = true
    · rw [if_pos h2]; exact flagIn_evaluateStage_of _ (flagIn_formVotes_of h)
    · rw [if_neg h2]; exact flagIn_formVotes_of h
  · rw [if_neg h1]; exact h

theorem flagIn_gateExpiry_of (h : flagIn f s.report.flags = true) : flagIn f (gateExpiry s).report.flags = true := by
  unfold gateExpiry raiseGateFlags trackGates; dsimp only
  apply flagIn_raiseIf_of; apply flagIn_raiseIf_of; apply flagIn_raiseIf_of
  split
  · exact h
  · apply flagIn_raiseIf_of; simpa using h

theorem flagIn_modeExpiry_of (h : flagIn f s.report.flags = true) : flagIn f (modeExpiry s).report.flags = true := by
  unfold modeExpiry; dsimp only
  apply flagIn_raiseIf_of
  split <;> simpa using h

/-- What a count does to the counters. -/
theorem counter_bumpBy (c d : Counter) (n : Nat) (s : State) :
    (bumpBy c n s).counter d = if d = c then min (s.counter c + n) wordMax else s.counter d := by
  have inj : d.entry = c.entry ↔ d = c := by cases c <;> cases d <;> decide
  simp only [State.counter, bumpBy_report, Tab.get_set, inj]

theorem counter_bump (c d : Counter) (s : State) :
    (bump c s).counter d = if d = c then min (s.counter c + 1) wordMax else s.counter d := counter_bumpBy c d 1 s

end Sys2Proof.Machine
end

