-- ==== Sys2Proof/Laws/Gates.lean ====
section
/-! SUPPORT. The Gate Table and the Order Unit: a state entry, the tracking monitor, the placing of orders, and the order requests of a
completion. -/

namespace Sys2Proof.Machine

@[simp] theorem gate_setGate (g : GateNo) (r : Gate) (s : State) : (setGate g r s).gate g = r := by simp [State.gate]

@[simp] theorem setGate_setGate (g : GateNo) (r r' : Gate) (s : State) : setGate g r (setGate g r' s) = setGate g r s := by
  simp [setGate]

@[simp] theorem setGate_self (g : GateNo) (s : State) : setGate g (s.gate g) s = s := by simp [setGate, State.gate]

/-- A state entry replaces one record (R10). -/
theorem enterState_gates (g : GateNo) (st : GateState) (s : State) :
    (enterState g st s).gates = s.gates.set g ((s.gate g).entering st) := by
  unfold enterState raiseOnEntry; dsimp only
  cases st <;> simp [GateState.withdraws]

/-- An entry into OFFLINE, FAULT or ABSENT leaves the gate no unsent order (R153). -/
theorem enterState_withdraws (g : GateNo) (st : GateState) (s : State) (h : st.withdraws = true) :
    ∀ o ∈ (enterState g st s).orders.queue, o.gate ≠ g := by
  intro o
  unfold enterState
  simp only [h, if_true]
  have : ∀ s, (raiseOnEntry st s).orders = s.orders := by intro s; simp
  rw [this]
  simp [withdraw, bumpBy]

/-- The tracking monitor and the LOCAL tracking leave the position read and whether a gate is present. -/
theorem tracking_keeps (band limit : Nat) (r : Gate) :
    (r.tracking band limit).measured = r.measured ∧ (r.tracking band limit).fresh = r.fresh
      ∧ ((r.tracking band limit).state = .absent ↔ r.state = .absent) := by
  unfold Gate.tracking; dsimp only
  split
  · split <;> simp
  · split
    · rename_i h
      split
      · simp [Gate.entering]; intro hh; rw [hh] at h; cases h
      · simp
    · split <;> simp

/-- The gate records after the Gate Table's work of an expiry (R5, R17, R18). -/
theorem gateExpiry_gates (s : State) :
    (gateExpiry s).gates
      = if s.mode.effective = .initial then (readPositions s).gates
        else (readPositions s).gates.map (Gate.tracking s.mgmt.active.t10.trackingBand s.mgmt.active.t10.trackingLimit) := by
  unfold gateExpiry; dsimp only
  simp only [raiseGateFlags_same, readPositions_mode]
  by_cases h : s.mode.effective = .initial
  · simp [h]
  · simp [h, trackGates]

/-- The gates of a queue once an order is placed (R152). -/
theorem placeOrder_gates (o : Order) (q : List Order) :
    (placeOrder o q).map (·.gate)
      = if o.gate ∈ q.map (·.gate) then q.map (·.gate) else q.map (·.gate) ++ [o.gate] := by
  induction q with
  | nil => simp [placeOrder]
  | cons x rest ih =>
    unfold placeOrder
    by_cases h : x.gate = o.gate
    · simp [h]
    · simp only [h, if_false, List.map_cons, ih]
      by_cases h2 : o.gate ∈ rest.map (·.gate)
      · simp only [h2, if_true, List.mem_cons, or_true]
      · simp only [h2, if_false, List.mem_cons, or_false, if_neg (fun e => h (Eq.symm e)), List.cons_append]

theorem mem_placeOrder_self (o : Order) (q : List Order) : o ∈ placeOrder o q := by
  induction q with
  | nil => simp [placeOrder]
  | cons x rest ih => unfold placeOrder; split <;> simp [ih]

theorem mem_placeOrder_ne (o x : Order) (q : List Order) (h : x.gate ≠ o.gate) : x ∈ placeOrder o q ↔ x ∈ q := by
  induction q with
  | nil => simp [placeOrder]; rintro rfl; exact h rfl
  | cons y rest ih =>
    unfold placeOrder; split
    · rename_i hy
      simp only [List.mem_cons]
      constructor
      · rintro (rfl | h'); exact absurd rfl h; exact .inr h'
      · rintro (rfl | h'); exact absurd hy h; exact .inr h'
    · simp [ih]

theorem queueOrder_queue (o : Order) (s : State) : (queueOrder o s).orders.queue = placeOrder o s.orders.queue := by
  unfold queueOrder
  have : ∀ b : Bool, (if b = true then bump .superseded s else s).orders = s.orders := by intro b; cases b <;> rfl
  simp only [this]

theorem oneOrderPerGate_queueOrder (o : Order) (s : State) (h : OneOrderPerGate s) : OneOrderPerGate (queueOrder o s) := by
  unfold OneOrderPerGate at *
  rw [queueOrder_queue, placeOrder_gates]
  split
  · exact h
  · rename_i hn
    rw [List.nodup_append]
    refine ⟨h, by simp, ?_⟩
    intro a ha b hb; simp at hb; subst hb; rintro rfl; exact hn ha

theorem formOrder_gate {m : Mode} {s : State} {g : GateNo} {o : Order} (h : formOrder m s g = some o) : o.gate = g := by
  unfold formOrder at h; split at h
  · cases hc : (s.gate g).commanded <;> simp [hc] at h; subst h; rfl
  · cases h

theorem formOrders_nodup (m : Mode) (s : State) (l : List GateNo) (h : l.Nodup) :
    ((l.filterMap (formOrder m s)).map (·.gate)).Nodup := by
  induction l with
  | nil => simp
  | cons g l ih =>
    simp only [List.nodup_cons] at h
    rw [List.filterMap_cons]
    split
    · exact ih h.2
    · rename_i o ho
      simp only [List.map_cons, List.nodup_cons]
      refine ⟨?_, ih h.2⟩
      intro hm
      obtain ⟨x, hx, e⟩ := List.mem_map.1 hm
      obtain ⟨g', hg', hf⟩ := List.mem_filterMap.1 hx
      rw [formOrder_gate hf, formOrder_gate ho] at e
      exact h.1 (e ▸ hg')

/-- Orders of different gates placed one after another: each is in the queue, and the orders of other gates are as before. -/
theorem queueOrders_spec (os : List Order) (hd : (os.map (·.gate)).Nodup) (s : State) (h : OneOrderPerGate s) :
    OneOrderPerGate (os.foldl (fun s o => queueOrder o s) s)
      ∧ (∀ o ∈ os, o ∈ (os.foldl (fun s o => queueOrder o s) s).orders.queue)
      ∧ ∀ x : Order, (∀ o ∈ os, o.gate ≠ x.gate) →
          (x ∈ (os.foldl (fun s o => queueOrder o s) s).orders.queue ↔ x ∈ s.orders.queue) := by
  induction os generalizing s with
  | nil => simp [h]
  | cons o os ih =>
    simp only [List.map_cons, List.nodup_cons] at hd
    obtain ⟨a, b, c⟩ := ih hd.2 (queueOrder o s) (oneOrderPerGate_queueOrder o s h)
    refine ⟨a, ?_, ?_⟩
    · intro x hx
      rcases List.mem_cons.1 hx with rfl | hx
      · rw [List.foldl_cons, c x, queueOrder_queue]
        · exact mem_placeOrder_self _ _
        · intro y hy e; exact hd.1 (List.mem_map.2 ⟨y, hy, e⟩)
      · exact b x hx
    · intro x hx
      rw [List.foldl_cons, c x (fun o ho => hx o (List.mem_cons_of_mem _ ho)), queueOrder_queue, mem_placeOrder_ne]
      exact fun e => hx o List.mem_cons_self e.symm

end Sys2Proof.Machine
end

