-- ==== Sys2Proof/Laws/Plans.lean ====
section
/-! SUPPORT. Due processing of the reach queue, the place of a plan index, and the slots after a vote. -/

namespace Sys2Proof.Machine

/-- Due processing removes the due entries, and each origin takes the release of its entry removed last (R91). -/
theorem dueEntries_spec (ssc : Nat) (q : List ReachEntry) (os : Tab OriginLive 4) :
    (dueEntries ssc q os).2 = q.dropWhile (fun e => decide (e.due ≤ ssc))
      ∧ ∀ n,
          (dueEntries ssc q os).1.get n
            = match ((q.takeWhile fun e => decide (e.due ≤ ssc)).filter fun e => decide (e.origin = n)).getLast? with
              | some e => { os.get n with arriving := e.release }
              | none => os.get n := by
  induction q generalizing os with
  | nil => exact ⟨rfl, fun n => rfl⟩
  | cons x rest ih =>
    unfold dueEntries
    by_cases h : x.due ≤ ssc
    · obtain ⟨h1, h2⟩ := ih (os.set x.origin { os.get x.origin with arriving := x.release })
      refine ⟨by simp [h, h1], fun n => ?_⟩
      simp only [h, if_true]
      rw [h2 n]
      simp only [List.takeWhile_cons, h, decide_true, if_true]
      by_cases hn : x.origin = n
      · subst hn
        simp only [List.filter_cons, decide_true, if_true, List.getLast?_cons]
        cases hh : (List.filter (fun e => decide (e.origin = x.origin))
            (List.takeWhile (fun e => decide (e.due ≤ ssc)) rest)).getLast? with
        | none => simp [Tab.get_set_self]
        | some e => simp [Tab.get_set_self]
      · rw [Tab.get_set_ne _ _ (fun e => hn e.symm)]
        simp only [List.filter_cons, hn, decide_false, Bool.false_eq_true, if_false]
    · simp [h]

/-- A plan index inside the plan is found at a step and a cadence of it (R112). -/
theorem locate_spec (l : List Nat) (i a : Nat) (h : a < l.sum) :
    ∃ k, (locate l i a).1 = i + k ∧ k < l.length ∧ (locate l i a).2 < l[k]!
      ∧ (l.take k).sum + (locate l i a).2 = a := by
  induction l generalizing i a with
  | nil => simp at h
  | cons d rest ih =>
    unfold locate
    by_cases hd : a < d
    · exact ⟨0, by simp [hd]⟩
    · obtain ⟨k, h1, h2, h3, h4⟩ := ih (i + 1) (a - d) (by simp at h; omega)
      refine ⟨k + 1, ?_, ?_, ?_, ?_⟩
      · simp [hd, h1]; omega
      · simp; omega
      · simpa [hd] using h3
      · simp [hd]; omega

/-- A vote changes no slot (R46). -/
theorem vote_slots (a b : Bool) (s : State) : (vote a b s).meas.slots = s.meas.slots := by
  unfold vote; dsimp only; repeat' split
  all_goals first | rfl | simp [formVotes]

theorem voteTouched_slots (l : List SlotNo) (s : State) : (voteTouched l s).meas.slots = s.meas.slots := vote_slots _ _ _

theorem voteTouched_nil (s : State) : voteTouched [] s = s := by simp [voteTouched, vote]

end Sys2Proof.Machine
end

