-- ==== Sys2Proof/Laws/Expiry.lean ====
section
/-! SUPPORT. The cadence expiry: what an expiry that is taken answers, where each block's state after it comes from, and what a set
switch does to each block. -/

namespace Sys2Proof.Machine

variable {s : State} {f : Flag}

/-- An expiry that is due and meets no computation is taken (R102, R55). -/
theorem exec_cadenceExpiry (ha : Awake s) (hs : Settled s) (he : s.clock.expiryDue = true)
    (hc : s.engine.computation = none) :
    exec .cadenceExpiry s = .next (closeEvent (beginComputation (expiryWork s))) := by
  show Host.Outcome.next (takeEvent _ _) = _
  rw [takeEvent_settled _ ha hs, takeExpiry, if_pos ⟨he, hc⟩]; rfl

/-- The state that the blocks' work of an expiry starts from: the switch taken, if one is pending (R168). -/
def switched (s : State) : State := takePendingSwitch (openExpiry s)

theorem switched_none (h : s.mgmt.switchPending = false) : switched s = openExpiry s := by
  simp [switched, takePendingSwitch, h]

theorem switched_some (h : s.mgmt.switchPending = true) : switched s = setSwitch (openExpiry s) := by
  simp [switched, takePendingSwitch, h]

@[simp] theorem switched_same (s : State) :
    (switched s).ring = s.ring ∧ (switched s).engine = s.engine
      ∧ (switched s).clock = { s.clock with expiryDue := false } ∧ (switched s).pending = s.pending
      ∧ (switched s).report.periodicDue = s.report.periodicDue ∧ (switched s).report.pointDue = s.report.pointDue := by
  simp [switched]

/-- Where the state after an expiry comes from, block by block. -/
theorem expiryWork_fields (s : State) :
    (expiryWork s).mgmt = (switched s).mgmt ∧ (expiryWork s).meas = (switched s).meas
      ∧ (expiryWork s).reach = (switched s).reach ∧ (expiryWork s).orders.lost = (switched s).orders.lost
      ∧ (expiryWork s).timer = (timerExpiry (switched s)).timer
      ∧ (expiryWork s).report.periodicDue = (timerExpiry (switched s)).report.periodicDue
      ∧ (expiryWork s).report.pointDue = (timerExpiry (switched s)).report.pointDue
      ∧ (expiryWork s).gates = (gateExpiry (timerExpiry (switched s))).gates
      ∧ (expiryWork s).orders = (gateExpiry (timerExpiry (switched s))).orders := by
  simp [expiryWork, switched]

/-- The mode record after an expiry (R122, R132). -/
theorem expiryWork_mode (s : State) :
    (expiryWork s).mode
      = { (switched s).mode with
          dwellStart := if (switched s).meas.hw.fresh = true then (switched s).mode.dwellStart else none
          duty :=
            if (switched s).mode.effective = .initial then (switched s).mode.duty
            else (switched s).mgmt.active.t10.compGate.isSome
              && noUnitPasses (switched s).mgmt.active (expiryWork s).gates } := by
  have hg := (expiryWork_fields s).2.2.2.2.2.2.2.1
  rw [hg]
  show (modeExpiry (reachExpiry (measurementExpiry (gateExpiry (timerExpiry (switched s)))))).mode = _
  unfold modeExpiry clearHeldDwell; dsimp only
  simp only [raiseIf_same, reachExpiry_same, measurementExpiry_same, gateExpiry_same, timerExpiry_same]
  by_cases h1 : (switched s).meas.hw.fresh = true <;> by_cases h2 : (switched s).mode.effective = .initial <;>
    simp [h1, h2, evaluateDuty]
  rw [← h2]

/-- The records after an expiry (R5, R17, R18), from those that the switch has left. -/
theorem expiryWork_gate (s : State) (g : GateNo) :
    (expiryWork s).gates.get g
      = let r := (switched s).gate g
        let read := if r.state = .absent then r else r.read ((switched s).positionSlot g)
        if (switched s).mode.effective = .initial then read
        else read.tracking (switched s).mgmt.active.t10.trackingBand (switched s).mgmt.active.t10.trackingLimit := by
  rw [(expiryWork_fields s).2.2.2.2.2.2.2.1, gateExpiry_gates]
  simp only [timerExpiry_same]
  have hr : (readPositions (timerExpiry (switched s))).gates.get g
      = if ((switched s).gate g).state = .absent then (switched s).gate g
        else ((switched s).gate g).read ((switched s).positionSlot g) := by
    by_cases hx : ((switched s).gates.get g).state = .absent <;>
      simp [readPositions, State.gate, State.positionSlot, State.gateCfg, hx]
  split
  · exact hr
  · rw [Tab.get_map, hr]

theorem flagIn_setSwitch_of (h : flagIn f s.report.flags = true) : flagIn f (setSwitch s).report.flags = true := by
  unfold setSwitch switchMode; dsimp only
  have : flagIn f (switchReach s.mgmt.active (switchSlots s.mgmt.active (switchOrders s.mgmt.active
      (switchGates s.mgmt.active (raise .setSwitched (switchSets s)))))).report.flags = true := by
    simp only [switchReach_report, switchSlots]
    apply flagIn_vote_of
    simp [flagIn_raise, h]
  split
  · apply flagIn_recomputeMode_of; apply flagIn_raise_of; simpa using this
  · simpa using this

theorem flagIn_setSwitch_setSwitched (s : State) : flagIn .setSwitched (setSwitch s).report.flags = true := by
  unfold setSwitch switchMode; dsimp only
  have : flagIn .setSwitched (switchReach s.mgmt.active (switchSlots s.mgmt.active (switchOrders s.mgmt.active
      (switchGates s.mgmt.active (raise .setSwitched (switchSets s)))))).report.flags = true := by
    simp only [switchReach_report, switchSlots]
    apply flagIn_vote_of
    simp [flagIn_raise]
  split
  · apply flagIn_recomputeMode_of; apply flagIn_raise_of; simpa using this
  · simpa using this

/-- No work of an expiry clears a flag. The flags after the Gate Table's work stand after the expiry. -/
theorem flagIn_expiryWork_of_gate (h : flagIn f (gateExpiry (timerExpiry (switched s))).report.flags = true) :
    flagIn f (expiryWork s).report.flags = true :=
  flagIn_modeExpiry_of (flagIn_raiseIf_of (flagIn_raiseIf_of h))

theorem flagIn_expiryWork_of_timer (h : flagIn f (timerExpiry (switched s)).report.flags = true) :
    flagIn f (expiryWork s).report.flags = true :=
  flagIn_expiryWork_of_gate (flagIn_gateExpiry_of h)

theorem flagIn_expiryWork_of (h : flagIn f (switched s).report.flags = true) :
    flagIn f (expiryWork s).report.flags = true :=
  flagIn_expiryWork_of_timer (by unfold timerExpiry; dsimp only; exact flagIn_raiseIf_of h)

/-- The flags that an expiry raises while their cause stands (R21, R49, R94, R126). -/
theorem expiryWork_raises (s : State) :
    let t := expiryWork s
    ((t.meas.hw.fresh && t.meas.tw.fresh) = false → flagIn .headStale t.report.flags = true)
      ∧ (t.localInflow.fresh = false → flagIn .inflowStale t.report.flags = true)
      ∧ (t.mode.demoted = true → flagIn .demoted t.report.flags = true)
      ∧ ((∃ g, (t.gate g).state.isFault = true) → flagIn .gateFault t.report.flags = true)
      ∧ ((∃ g, (t.gate g).state = .unreachable) → flagIn .gateUnreachable t.report.flags = true)
      ∧ ((∃ g, (t.gate g).state = .localControl) → flagIn .gateLocal t.report.flags = true) := by
  dsimp only
  have hany : ∀ (p : GateState → Bool) g, p (((gateExpiry (timerExpiry (switched s))).gates).get g).state = true →
      ((gateExpiry (timerExpiry (switched s))).gates.items.any fun r => p r.state) = true := fun p g h =>
    List.any_eq_true.2 ⟨_, (Tab.mem_items_iff _ _).2 ⟨g, rfl⟩, h⟩
  have hg := (expiryWork_fields s).2.2.2.2.2.2.2.1
  simp only [State.gate, hg]
  refine ⟨fun h => ?_, fun h => ?_, fun h => ?_, ?_, ?_, ?_⟩
  · apply flagIn_modeExpiry_of; apply flagIn_raiseIf_of
    rw [(expiryWork_fields s).2.1] at h
    simp [measurementExpiry, flagIn_raiseIf, switched] at h ⊢
    by_cases hh : (takePendingSwitch (openExpiry s)).meas.hw.fresh = true <;> simp_all
  · apply flagIn_modeExpiry_of
    have : (expiryWork s).localInflow = (switched s).localInflow := by
      simp [State.localInflow, expiryWork_fields s]
    rw [this] at h
    have h2 : (measurementExpiry (gateExpiry (timerExpiry (switched s)))).localInflow = (switched s).localInflow := by
      simp [State.localInflow]
    show flagIn _ (raiseIf (!(measurementExpiry (gateExpiry (timerExpiry (switched s)))).localInflow.fresh) _ _).report.flags
      = true
    rw [h2, h, flagIn_raiseIf]; simp
  · simp only [expiryWork, modeExpiry, raiseIf_same] at h ⊢
    rw [flagIn_raiseIf, h]; simp
  all_goals
    rintro ⟨g, h⟩
    apply flagIn_expiryWork_of_gate
    unfold gateExpiry at h hany ⊢
    simp only [raiseGateFlags_same] at h hany
    unfold raiseGateFlags; dsimp only
  · apply flagIn_raiseIf_of; apply flagIn_raiseIf_of
    rw [flagIn_raiseIf, hany _ g h]; simp
  · apply flagIn_raiseIf_of
    rw [flagIn_raiseIf]
    simp only at h ⊢
    have := hany (fun st => decide (st = .unreachable)) g (by simpa using h)
    rw [this]; simp
  · rw [flagIn_raiseIf]
    simp only at h ⊢
    have := hany (fun st => decide (st = .localControl)) g (by simpa using h)
    rw [this]; simp

/-! ### Votes and stages -/

/-- The levels that a vote forms (R47, R48). -/
theorem formVotes_meas (a b : Bool) (s : State) :
    (formVotes a b s).meas
      = let roles := s.mgmt.active.t8
        let hw := if a then voteOf s.meas.hw (freshValues s.meas.slots roles.headwater) else s.meas.hw
        let tw := if b then voteOf s.meas.tw (freshValues s.meas.slots roles.tailwater) else s.meas.tw
        { slots := s.meas.slots, hw := hw, tw := tw, head := headOf hw tw } := by
  simp [formVotes]

theorem vote_meas (a b : Bool) (s : State) :
    (vote a b s).meas = if (a || b) = true then (formVotes a b s).meas else s.meas := by
  unfold vote; dsimp only
  by_cases h : (a || b) = true
  · rw [if_pos h, if_pos h]; split <;> simp
  · rw [if_neg h, if_neg h]

theorem recomputeMode_mode (s : State) :
    (recomputeMode s).mode
      = if s.mode.effective = .initial then s.mode
        else { s.mode with effective := effectiveMode s.mode.requested s.mode.stage } := by
  unfold recomputeMode; split <;> simp

/-- The mode record after a fresh headwater reads the mode record, the parameters and the second count alone (R120, R121). -/
theorem evaluateStage_mode_congr (hw : Nat) {s u : State} (hm : s.mode = u.mode)
    (hp : s.mgmt.active.t10 = u.mgmt.active.t10) (hc : s.clock.ssc = u.clock.ssc) :
    (evaluateStage hw s).mode = (evaluateStage hw u).mode := by
  unfold evaluateStage fallTest fallStage; dsimp only
  rw [hm, hp, hc]
  repeat' split
  all_goals simp_all [recomputeMode_mode]

/-- A headwater vote that leaves HW fresh hands it to the Mode Supervisor (R50). -/
theorem vote_mode (a b : Bool) (s : State) :
    (vote a b s).mode
      = if a = true ∧ (formVotes a b s).meas.hw.fresh = true then
          (evaluateStage (formVotes a b s).meas.hw.value s).mode
        else s.mode := by
  have hc : (evaluateStage (formVotes a b s).meas.hw.value (formVotes a b s)).mode
      = (evaluateStage (formVotes a b s).meas.hw.value s).mode :=
    evaluateStage_mode_congr _ (by simp) (by simp) (by simp)
  unfold vote; dsimp only
  cases a <;> cases b <;> simp only [Bool.or_false, Bool.or_true, Bool.false_and, Bool.true_and, if_true, false_and,
    Bool.false_eq_true, if_false, true_and, formVotes_same] <;> split <;> first | exact hc | simp

/-! ### The set switch -/

/-- Where the state after a set switch comes from, block by block. -/
theorem setSwitch_fields (s : State) :
    (setSwitch s).mgmt
        = { s.mgmt with active := s.mgmt.shadow, switchPending := false, generation := s.mgmt.generation + 1 }
      ∧ (setSwitch s).gates = (switchGates s.mgmt.active (switchSets s)).gates
      ∧ ((setSwitch s).orders.queue
          = s.orders.queue.filter fun o =>
              !decide ((s.mgmt.active.t1.get o.gate).cls ≠ (s.mgmt.shadow.t1.get o.gate).cls))
      ∧ (setSwitch s).orders.lost = (switchOrders s.mgmt.active (switchSets s)).orders.lost
      ∧ (setSwitch s).reach = (switchReach s.mgmt.active (switchSets s)).reach
      ∧ (setSwitch s).timer = checkPosition s.mgmt.shadow s.timer
      ∧ (setSwitch s).meas = (switchSlots s.mgmt.active (switchSets s)).meas := by
  refine ⟨by simp [setSwitch], ?_, ?_, ?_, ?_, ?_, ?_⟩
  · simp [setSwitch, switchGates, State.gate, State.gateCfg]
  · simp [setSwitch, switchGates, switchOrders, State.gateCfg, withdraw, bumpBy]
  · simp [setSwitch, switchOrders, State.gateCfg]; rfl
  · simp [setSwitch, switchReach]; rfl
  · simp [setSwitch, switchTimer]
  · simp only [setSwitch, switchMode_same, switchTimer_meas, switchReach_meas]
    simp [switchSlots, vote_meas, formVotes_meas]

/-- The records after a set switch (R11, R6). -/
theorem setSwitch_gate (s : State) (g : GateNo) :
    (setSwitch s).gate g
      = { (s.gate g).switchClass (s.mgmt.active.t1.get g).cls (s.mgmt.shadow.t1.get g).cls with
          target := clampOpening (s.mgmt.shadow.t1.get g)
            ((s.gate g).switchClass (s.mgmt.active.t1.get g).cls (s.mgmt.shadow.t1.get g).cls).target } := by
  simp only [State.gate, (setSwitch_fields s).2.1]
  simp [switchGates, State.gate, State.gateCfg]

/-- The slots and the levels after a set switch (R43, R46). -/
theorem setSwitch_meas (s : State) :
    (∀ n, (setSwitch s).meas.slots.get n = (s.meas.slots.get n).switched s.mgmt.active s.mgmt.shadow n)
      ∧ (setSwitch s).meas.hw
          = voteOf s.meas.hw (freshValues (setSwitch s).meas.slots s.mgmt.shadow.t8.headwater)
      ∧ (setSwitch s).meas.tw
          = voteOf s.meas.tw (freshValues (setSwitch s).meas.slots s.mgmt.shadow.t8.tailwater)
      ∧ (setSwitch s).meas.head = headOf (setSwitch s).meas.hw (setSwitch s).meas.tw := by
  simp [(setSwitch_fields s).2.2.2.2.2.2, switchSlots, vote_meas, formVotes_meas]

theorem switchMode_mode (s : State) :
    (switchMode s).mode
      = if s.mgmt.active.plan.count = 0 ∧ s.mode.requested = .schedule then
          (if s.mode.effective = .initial then { s.mode with requested := .hold }
           else { s.mode with requested := .hold, effective := effectiveMode .hold s.mode.stage })
        else s.mode := by
  unfold switchMode; split
  · simp [recomputeMode_mode]
  · rfl

/-- The mode record that the votes of a set switch leave (R46, R50). -/
def votedMode (s : State) : ModeRecord :=
  if (setSwitch s).meas.hw.fresh = true then
    (evaluateStage (setSwitch s).meas.hw.value { s with mgmt := (setSwitch s).mgmt }).mode
  else s.mode

/-- The mode record after a set switch (R123, R128). -/
theorem setSwitch_mode (s : State) :
    (setSwitch s).mode
      = if s.mgmt.shadow.plan.count = 0 ∧ (votedMode s).requested = .schedule then
          (if (votedMode s).effective = .initial then { votedMode s with requested := .hold }
           else { votedMode s with requested := .hold, effective := effectiveMode .hold (votedMode s).stage })
        else votedMode s := by
  have key : (switchSlots s.mgmt.active (switchOrders s.mgmt.active (switchGates s.mgmt.active
      (raise .setSwitched (switchSets s))))).mode = votedMode s := by
    unfold votedMode
    rw [(setSwitch_fields s).2.2.2.2.2.2, (setSwitch_fields s).1]
    simp only [switchSlots, vote_mode, vote_meas, formVotes_meas]
    simp
    split
    · apply evaluateStage_mode_congr <;> simp
    · rfl
  have hs : setSwitch s = switchMode (switchTimer (switchReach s.mgmt.active (switchSlots s.mgmt.active
      (switchOrders s.mgmt.active (switchGates s.mgmt.active (raise .setSwitched (switchSets s))))))) := rfl
  rw [hs, switchMode_mode, switchTimer_mode, switchReach_mode, key]
  simp

end Sys2Proof.Machine
end

