-- ==== Sys2Proof/Laws/Filling.lean ====
section
/-! SUPPORT. The filling of one tier: what the passes of R71 give, and that the split is even. -/

namespace Sys2Proof.Machine

/-- The provisional shares go to the gates of the pass. -/
theorem provisional_map_fst (s r u) : (provisional s r u).map (·.1) = u := by
  induction u generalizing r with
  | nil => cases r <;> rfl
  | cons x u ih => cases r <;> simp [provisional, ih]

/-- The provisional shares sum to the amount of the pass. -/
theorem provisional_sum (s r u) (h : r ≤ u.length) : ((provisional s r u).map (·.2)).sum = s * u.length + r := by
  induction u generalizing r with
  | nil => simp at h; subst h; rfl
  | cons x u ih =>
    cases r with
    | zero => simp [provisional, ih]; ring
    | succ r => simp [provisional, ih r (by simpa using h)]; ring

/-- A sum is the sum over a part and over the rest. -/
theorem sum_filter_split {α} (l : List α) (p : α → Bool) (f : α → Nat) :
    (l.map f).sum = ((l.filter p).map f).sum + ((l.filter (fun x => !p x)).map f).sum := by
  induction l with
  | nil => rfl
  | cons a l ih => by_cases h : p a <;> simp [h, ih] <;> omega

/-- What the passes give: the whole amount, to every gate of the tier once, none above its headroom, and each its headroom when the amount
is the sum of them (R71). -/
theorem fillPasses_spec (fuel : Nat) (u : List Share) (left : Nat) (hl : left ≤ headroomSum u) (hf : u.length < fuel) :
   ((fillPasses fuel u left).map (·.2)).sum = left ∧
   (∀ p ∈ fillPasses fuel u left, ∃ x ∈ u, p.1 = x.gate ∧ p.2 ≤ x.headroom) ∧
   ((fillPasses fuel u left).map (·.1)).Perm (u.map (·.gate)) ∧
   (left = headroomSum u → ∀ p ∈ fillPasses fuel u left, ∃ x ∈ u, p.1 = x.gate ∧ p.2 = x.headroom) := by
  induction fuel generalizing u left with
  | zero => omega
  | succ fuel ih =>
    by_cases hu : u = []
    · subst hu; simp [headroomSum] at hl; subst hl; simp [fillPasses, provisional]
    have hpos : 0 < u.length := List.length_pos_iff.2 hu
    have hsh : ∀ p ∈ provisional (left / u.length) (left % u.length) u, p.1 ∈ u := by
      intro p hp
      have : p.1 ∈ (provisional (left / u.length) (left % u.length) u).map (·.1) := List.mem_map.2 ⟨p, hp, rfl⟩
      rwa [provisional_map_fst] at this
    have hsum := provisional_sum (left / u.length) (left % u.length) u (Nat.le_of_lt (Nat.mod_lt _ hpos))
    have hmap := provisional_map_fst (left / u.length) (left % u.length) u
    rw [Nat.mul_comm, Nat.div_add_mod] at hsum
    unfold fillPasses
    dsimp only
    generalize provisional (left / u.length) (left % u.length) u = shares at *
    have hneg : (shares.filter fun p => decide (p.2 < p.1.headroom)) = shares.filter (fun p => !decide (p.1.headroom ≤ p.2)) := by
      congr 1; funext p; rw [← decide_not]; exact decide_eq_decide.2 (by omega)
    by_cases hfull : (shares.filter fun p => decide (p.1.headroom ≤ p.2)).isEmpty = true
    · rw [if_pos hfull]
      have hall : ∀ p ∈ shares, p.2 < p.1.headroom := by
        rw [List.isEmpty_iff, List.filter_eq_nil_iff] at hfull
        intro p hp; have := hfull p hp; simp at this; exact this
      refine ⟨?_, ?_, ?_, ?_⟩
      · rw [List.map_map]; exact hsum
      · intro p hp
        obtain ⟨x, hx, rfl⟩ := List.mem_map.1 hp
        exact ⟨x.1, hsh x hx, rfl, (hall x hx).le⟩
      · rw [List.map_map]; rw [← hmap, List.map_map]; exact List.Perm.refl _
      · intro he
        exfalso
        have h1 : headroomSum u = (shares.map (fun p => p.1.headroom)).sum := by
          rw [headroomSum, ← hmap, List.map_map]; rfl
        have hne : shares ≠ [] := by rintro rfl; exact hu hmap.symm
        have : (shares.map (·.2)).sum < (shares.map (fun p => p.1.headroom)).sum := List.sum_lt_sum_of_ne_nil hne _ _ hall
        omega
    · rw [if_neg hfull]
      have hfs : (shares.filter fun p => decide (p.1.headroom ≤ p.2)) ≠ [] := by simpa using hfull
      set full := shares.filter fun p => decide (p.1.headroom ≤ p.2) with hfd
      rw [hneg]
      set rest := shares.filter (fun p => !decide (p.1.headroom ≤ p.2)) with hrd
      have hfh : headroomSum (full.map (·.1)) ≤ (full.map (·.2)).sum := by
        unfold headroomSum; rw [List.map_map]
        apply List.sum_le_sum
        intro p hp; have := (List.mem_filter.1 hp).2; simpa using this
      have hrh : (rest.map (·.2)).sum ≤ headroomSum (rest.map (·.1)) := by
        unfold headroomSum; rw [List.map_map]
        apply List.sum_le_sum
        intro p hp; have := (List.mem_filter.1 hp).2; simp at this; exact this.le
      have hs2 := sum_filter_split shares (fun p => decide (p.1.headroom ≤ p.2)) (·.2)
      have hs3 := sum_filter_split shares (fun p => decide (p.1.headroom ≤ p.2)) (fun p => p.1.headroom)
      rw [← hfd, ← hrd] at hs2 hs3
      have hhu : headroomSum u = (shares.map (fun p => p.1.headroom)).sum := by
        rw [headroomSum, ← hmap, List.map_map]; rfl
      have e1 : headroomSum (full.map (·.1)) = (full.map (fun p => p.1.headroom)).sum := by rw [headroomSum, List.map_map]; rfl
      have e2 : headroomSum (rest.map (·.1)) = (rest.map (fun p => p.1.headroom)).sum := by rw [headroomSum, List.map_map]; rfl
      have hlen : (rest.map (·.1)).length < fuel := by
        have := List.length_eq_length_filter_add (l := shares) (fun p => decide (p.1.headroom ≤ p.2))
        have h2 : shares.length = u.length := by rw [← hmap, List.length_map]
        have h3 : 0 < full.length := List.length_pos_iff.2 hfs
        simp only [List.length_map]
        rw [← hfd, ← hrd] at this
        omega
      obtain ⟨a, b, c, d⟩ := ih (rest.map (·.1)) (left - headroomSum (full.map (·.1))) (by omega) hlen
      refine ⟨?_, ?_, ?_, ?_⟩
      · rw [List.map_append, List.sum_append, a, List.map_map]
        have : (List.map ((fun x => x.2) ∘ fun p : Share × Nat => (p.1.gate, p.1.headroom)) full).sum
            = headroomSum (full.map (·.1)) := by
          rw [e1]; rfl
        omega
      · intro p hp
        rcases List.mem_append.1 hp with hp | hp
        · obtain ⟨x, hx, rfl⟩ := List.mem_map.1 hp
          exact ⟨x.1, hsh x (List.mem_of_mem_filter hx), rfl, le_rfl⟩
        · obtain ⟨x, hx, h1, h2⟩ := b p hp
          obtain ⟨y, hy, rfl⟩ := List.mem_map.1 hx
          exact ⟨y.1, hsh y (List.mem_of_mem_filter hy), h1, h2⟩
      · rw [List.map_append, List.map_map]
        refine (List.Perm.append_left _ c).trans ?_
        rw [List.map_map]
        have : u.map (·.gate) = shares.map (fun p => p.1.gate) := by rw [← hmap, List.map_map]; rfl
        rw [this]
        have := (List.filter_append_perm (fun p : Share × Nat => decide (p.1.headroom ≤ p.2)) shares).map (fun p => p.1.gate)
        rw [List.map_append] at this
        exact this
      · intro he p hp
        rcases List.mem_append.1 hp with hp | hp
        · obtain ⟨x, hx, rfl⟩ := List.mem_map.1 hp
          exact ⟨x.1, hsh x (List.mem_of_mem_filter hx), rfl, rfl⟩
        · obtain ⟨x, hx, h1, h2⟩ := d (by omega) p hp
          obtain ⟨y, hy, rfl⟩ := List.mem_map.1 hx
          exact ⟨y.1, hsh y (List.mem_of_mem_filter hy), h1, h2⟩

/-- A provisional share for every gate of the pass. -/
theorem provisional_length (s r u) : (provisional s r u).length = u.length := by
  rw [← List.length_map (f := Prod.fst), provisional_map_fst]

/-- The provisional share at a place of the pass. -/
theorem provisional_get (s r : Nat) (u : List Share) (i : Nat) :
    (provisional s r u)[i]? = u[i]?.map fun x => (x, s + if i < r then 1 else 0) := by
  induction u generalizing r i with
  | nil => cases r <;> simp [provisional]
  | cons x u ih =>
    cases r with
    | zero =>
      cases i with
      | zero => simp [provisional]
      | succ i => simp [provisional, ih]
    | succ r =>
      cases i with
      | zero => simp [provisional]
      | succ i => simp [provisional, ih]

/-- A part of a run of provisional shares is one too. -/
theorem provisional_filter (q : Share × Nat → Bool) (s r : Nat) (u : List Share) (h : r ≤ u.length) :
    ∃ r', (provisional s r u).filter q = provisional s r' (((provisional s r u).filter q).map (·.1))
      ∧ r' ≤ (((provisional s r u).filter q).map (·.1)).length := by
  induction u generalizing r with
  | nil => cases r <;> exact ⟨0, by simp [provisional]⟩
  | cons x u ih =>
    cases r with
    | zero =>
      obtain ⟨r', h1, h2⟩ := ih 0 (by omega)
      have hz : r' = 0 ∨ provisional s r' (((provisional s 0 u).filter q).map (·.1))
          = provisional s 0 (((provisional s 0 u).filter q).map (·.1)) := by
        by_cases h0 : r' = 0
        · exact .inl h0
        · exfalso
          have hne : 0 < (((provisional s 0 u).filter q).map (·.1)).length := by omega
          have hg := provisional_get s r' (((provisional s 0 u).filter q).map (·.1)) 0
          rw [← h1] at hg
          generalize hf : (provisional s 0 u).filter q = f at *
          cases f with
          | nil => simp at hne
          | cons p f =>
            simp [Nat.pos_of_ne_zero h0] at hg
            have hp : p ∈ provisional s 0 u := (List.mem_filter.1 (hf ▸ List.mem_cons_self)).1
            obtain ⟨k, hk⟩ := List.getElem?_of_mem hp
            rw [provisional_get] at hk
            cases hu : u[k]? with
            | none => rw [hu] at hk; cases hk
            | some y => rw [hu] at hk; simp at hk; rw [← hk] at hg; simp at hg
      refine ⟨0, ?_, by omega⟩
      have h1' : (provisional s 0 u).filter q = provisional s 0 (((provisional s 0 u).filter q).map (·.1)) := by
        rcases hz with hz | hz
        · rw [hz] at h1; exact h1
        · rw [hz] at h1; exact h1
      simp only [provisional, List.filter_cons]
      split
      · simp only [List.map_cons, provisional]; rw [← h1']
      · exact h1'
    | succ r =>
      obtain ⟨r', h1, h2⟩ := ih r (by simpa using h)
      simp only [provisional, List.filter_cons]
      split
      · refine ⟨r' + 1, ?_, by simpa using h2⟩
        simp only [List.map_cons, provisional]; rw [← h1]
      · exact ⟨r', h1, h2⟩

/-- Of two runs of provisional shares over the same gates the one of the greater sum is the greater at every gate. -/
theorem provisional_mono (s r s' r' n i : Nat) (hr' : r' < n)
    (h : s * n + r ≤ s' * n + r') :
    (s + if i < r then 1 else 0) ≤ s' + if i < r' then 1 else 0 := by
  rcases Nat.lt_trichotomy s s' with hs | rfl | hs
  · split <;> split <;> omega
  · split <;> split <;> omega
  · exfalso
    have : (s' + 1) * n ≤ s * n := Nat.mul_le_mul_right _ hs
    rw [Nat.add_mul] at this; omega

/-- The provisional shares of a pass with `left` of the amount still to give (R71, step 2). -/
abbrev passShares (u : List Share) (left : Nat) : List (Share × Nat) := provisional (left / u.length) (left % u.length) u

/-- The provisional shares of a pass sum to its amount. -/
theorem passShares_sum (u : List Share) (left : Nat) (h : 0 < u.length) : ((passShares u left).map (·.2)).sum = left := by
  rw [provisional_sum _ _ _ (Nat.le_of_lt (Nat.mod_lt _ h)), Nat.mul_comm, Nat.div_add_mod]

/-- The gates of a pass that are not saturated, with their provisional shares. -/
abbrev passRest (u : List Share) (left : Nat) : List (Share × Nat) :=
  (passShares u left).filter fun p => decide (p.2 < p.1.headroom)

/-- The gates of a pass that are saturated, with their provisional shares. -/
abbrev passFull (u : List Share) (left : Nat) : List (Share × Nat) :=
  (passShares u left).filter fun p => decide (p.1.headroom ≤ p.2)

/-- What a pass leaves for the next: the unsaturated gates, fewer of them, with an amount that covers their provisional shares and that
their headrooms hold (R71, R72). -/
theorem passRest_amount (u : List Share) (left : Nat) (h : 0 < u.length) (hl : left ≤ headroomSum u)
    (hfull : passFull u left ≠ []) :
    ((passRest u left).map (·.2)).sum ≤ left - headroomSum ((passFull u left).map (·.1))
      ∧ left - headroomSum ((passFull u left).map (·.1)) ≤ headroomSum ((passRest u left).map (·.1))
      ∧ ((passRest u left).map (·.1)).length < u.length := by
  have hneg : passRest u left = (passShares u left).filter (fun p => !decide (p.1.headroom ≤ p.2)) := by
    unfold passRest; congr 1; funext p; rw [← decide_not]; exact decide_eq_decide.2 (by omega)
  have hsum := passShares_sum u left h
  have hmap : (passShares u left).map (·.1) = u := provisional_map_fst _ _ _
  have s2 := sum_filter_split (passShares u left) (fun p => decide (p.1.headroom ≤ p.2)) (·.2)
  have s3 := sum_filter_split (passShares u left) (fun p => decide (p.1.headroom ≤ p.2)) (fun p => p.1.headroom)
  have hhu : headroomSum u = ((passShares u left).map fun p => p.1.headroom).sum := by
    conv_lhs => rw [headroomSum, ← hmap, List.map_map]
    rfl
  have hfh : headroomSum ((passFull u left).map (·.1)) ≤ ((passFull u left).map (·.2)).sum := by
    unfold headroomSum; rw [List.map_map]
    apply List.sum_le_sum
    intro p hp; have := (List.mem_filter.1 hp).2; simpa using this
  have e1 : headroomSum ((passFull u left).map (·.1)) = ((passFull u left).map fun p => p.1.headroom).sum := by
    rw [headroomSum, List.map_map]; rfl
  have e2 : headroomSum ((passRest u left).map (·.1)) = ((passRest u left).map fun p => p.1.headroom).sum := by
    rw [headroomSum, List.map_map]; rfl
  have hlen := List.length_eq_length_filter_add (l := passShares u left) (fun p => decide (p.1.headroom ≤ p.2))
  have h2 : (passShares u left).length = u.length := by rw [← List.length_map (f := Prod.fst), hmap]
  have h3 : 0 < (passFull u left).length := List.length_pos_iff.2 hfull
  rw [e2, List.length_map]
  rw [e1] at hfh ⊢
  rw [← hneg] at s2 s3 hlen
  change _ = ((passFull u left).map (·.2)).sum + _ at s2
  change _ = ((passFull u left).map fun p => p.1.headroom).sum + _ at s3
  change _ = (passFull u left).length + _ at hlen
  rw [h2] at hlen
  refine ⟨by omega, by omega, by omega⟩

/-- The unsaturated gates stand in the order of the pass. -/
theorem passRest_sublist (u : List Share) (left : Nat) : ((passRest u left).map (·.1)).Sublist u := by
  have : ((passRest u left).map (·.1)).Sublist ((passShares u left).map (·.1)) := (List.filter_sublist).map _
  rwa [provisional_map_fst] at this

/-- One pass: the split, or the headrooms of the saturated gates and the passes after (R71). -/
theorem fillPasses_succ (fuel : Nat) (u : List Share) (left : Nat) :
    fillPasses (fuel + 1) u left
      = if passFull u left = [] then (passShares u left).map fun p => (p.1.gate, p.2)
        else (passFull u left).map (fun p => (p.1.gate, p.1.headroom))
          ++ fillPasses fuel ((passRest u left).map (·.1)) (left - headroomSum ((passFull u left).map (·.1))) := by
  conv_lhs => unfold fillPasses
  simp only [List.isEmpty_iff]

/-- The provisional share of each unsaturated gate in the next pass is at least the one it has. -/
theorem passRest_next (u : List Share) (left : Nat) (h : 0 < u.length) (hl : left ≤ headroomSum u)
    (hfull : passFull u left ≠ []) (x : Share) (c : Nat) (hx : (x, c) ∈ passRest u left) :
    ∃ d, (x, d) ∈ passShares ((passRest u left).map (·.1)) (left - headroomSum ((passFull u left).map (·.1))) ∧ c ≤ d := by
  obtain ⟨r', h1, h2⟩ := provisional_filter (fun p => decide (p.2 < p.1.headroom)) (left / u.length) (left % u.length) u
    (Nat.le_of_lt (Nat.mod_lt _ h))
  obtain ⟨a1, -, -⟩ := passRest_amount u left h hl hfull
  change passRest u left = provisional _ r' ((passRest u left).map (·.1)) at h1
  change r' ≤ ((passRest u left).map (·.1)).length at h2
  generalize (passRest u left).map (·.1) = v at *
  generalize left - headroomSum ((passFull u left).map (·.1)) = l at *
  rw [h1] at hx a1
  obtain ⟨k, hk⟩ := List.getElem?_of_mem hx
  rw [provisional_get] at hk
  rw [provisional_sum _ _ _ h2] at a1
  cases hv : v[k]? with
  | none => rw [hv] at hk; cases hk
  | some y =>
    rw [hv] at hk
    simp only [Option.map_some, Option.some.injEq, Prod.mk.injEq] at hk
    obtain ⟨rfl, rfl⟩ := hk
    have hkl := (List.getElem?_eq_some_iff.1 hv).1
    refine ⟨l / v.length + if k < l % v.length then 1 else 0, ?_, ?_⟩
    · apply List.mem_of_getElem? (i := k); rw [provisional_get, hv]; rfl
    · apply provisional_mono _ _ _ _ v.length k (Nat.mod_lt _ (by omega)) ?_
      rw [Nat.mul_comm (l / v.length), Nat.div_add_mod]; exact a1

/-- Each gate has one provisional share. -/
theorem passShares_unique (u : List Share) (left : Nat) (hn : (u.map (·.gate)).Nodup) {p q : Share × Nat}
    (hp : p ∈ passShares u left) (hq : q ∈ passShares u left) (h : p.1.gate = q.1.gate) : p = q := by
  have : (passShares u left).map (fun p => p.1.gate) = u.map (·.gate) := by
    rw [← congrArg (List.map Share.gate) (provisional_map_fst (left / u.length) (left % u.length) u), List.map_map]; rfl
  exact List.inj_on_of_nodup_map (this ▸ hn) hp hq h

/-- The allotments that the passes after a pass give are those of its unsaturated gates. -/
theorem fillPasses_mem (fuel : Nat) (u : List Share) (left : Nat) (hl : left ≤ headroomSum u) (hf : u.length < fuel) :
    ∀ p ∈ fillPasses fuel u left, ∃ x ∈ u, p.1 = x.gate :=
  fun p hp => ((fillPasses_spec fuel u left hl hf).2.1 p hp).imp fun _ h => ⟨h.1, h.2.1⟩

/-- Every gate of a pass ends with at least its provisional share of that pass, or with its headroom (R71). -/
theorem fillPasses_least (fuel : Nat) (u : List Share) (left : Nat) (hl : left ≤ headroomSum u) (hf : u.length < fuel)
    (hn : (u.map (·.gate)).Nodup) :
    ∀ x c b, (x, c) ∈ passShares u left → (x.gate, b) ∈ fillPasses fuel u left → min x.headroom c ≤ b := by
  induction fuel generalizing u left with
  | zero => omega
  | succ fuel ih =>
    intro x c b hx hb
    have hpos : 0 < u.length := by
      by_contra h0
      have : u = [] := List.length_eq_zero_iff.1 (by omega)
      subst this; simp [passShares, provisional] at hx
    rw [fillPasses_succ] at hb
    split at hb
    · obtain ⟨p, hp, e⟩ := List.mem_map.1 hb
      simp only [Prod.mk.injEq] at e
      have := passShares_unique u left hn hp hx e.1; subst this
      simp at e; omega
    · rename_i hfull
      obtain ⟨a1, a2, a3⟩ := passRest_amount u left hpos hl hfull
      have hsub := passRest_sublist u left
      rcases List.mem_append.1 hb with hb | hb
      · obtain ⟨p, hp, e⟩ := List.mem_map.1 hb
        simp only [Prod.mk.injEq] at e
        have := passShares_unique u left hn (List.mem_filter.1 hp).1 hx e.1; subst this
        simp at e; omega
      · obtain ⟨y, hy, e⟩ := fillPasses_mem _ _ _ a2 (by omega) _ hb
        obtain ⟨p, hp, rfl⟩ := List.mem_map.1 hy
        have := passShares_unique u left hn (List.mem_filter.1 hp).1 hx e.symm; subst this
        obtain ⟨d, hd, hcd⟩ := passRest_next u left hpos hl hfull x c hp
        have := ih _ _ a2 (by omega) (hn.sublist (hsub.map _)) x d b hd hb
        omega

/-- The split of a tier is even (R71): beside a gate that ends below its headroom no gate of the tier has more than one unit more, and none
that stands after it has more. -/
theorem fillPasses_even (fuel : Nat) (u : List Share) (left : Nat) (hl : left ≤ headroomSum u) (hf : u.length < fuel)
    (hn : (u.map (·.gate)).Nodup) :
    ∀ x y a b, x ∈ u → y ∈ u → (x.gate, a) ∈ fillPasses fuel u left → (y.gate, b) ∈ fillPasses fuel u left →
      a < x.headroom →
      b ≤ a + 1 ∧ ([x, y].Sublist u → b ≤ a) := by
  induction fuel generalizing u left with
  | zero => omega
  | succ fuel ih =>
    intro x y a b hxu hyu hx hy ha
    have hpos : 0 < u.length := List.length_pos_of_mem hxu
    have share : ∀ z ∈ u, ∃ i c, u[i]? = some z ∧ (z, c) ∈ passShares u left
        ∧ c = left / u.length + if i < left % u.length then 1 else 0 := by
      intro z hz
      obtain ⟨i, hi⟩ := List.getElem?_of_mem hz
      refine ⟨i, _, hi, ?_, rfl⟩
      apply List.mem_of_getElem? (i := i); rw [provisional_get, hi]; rfl
    obtain ⟨i, c, hi, hxc, rfl⟩ := share x hxu
    obtain ⟨j, d, hj, hyd, rfl⟩ := share y hyu
    have hgn : ∀ (i j : Nat) (z w : Share), u[i]? = some z → u[j]? = some w → z.gate = w.gate → i = j := by
      intro i j z w h1 h2 e
      have hl1 := (List.getElem?_eq_some_iff.1 h1)
      have hl2 := (List.getElem?_eq_some_iff.1 h2)
      obtain ⟨l1, e1⟩ := hl1; obtain ⟨l2, e2⟩ := hl2
      exact (List.Nodup.getElem_inj_iff hn (hi := by simpa using l1) (hj := by simpa using l2)).1 (by simp [e1, e2, e])
    have hord : [x, y].Sublist u → i < j := by
      intro h
      obtain ⟨f, hs⟩ := List.sublist_iff_exists_orderEmbedding_getElem?_eq.1 h
      have e0 := hgn _ _ _ _ hi (hs 0).symm rfl
      have e1 := hgn _ _ _ _ hj (hs 1).symm rfl
      rw [e0, e1]; exact f.lt_iff_lt.2 Nat.zero_lt_one
    have hxm : ∀ p ∈ passShares u left, p.1.gate = x.gate → p = (x, _) := fun p hp e => passShares_unique u left hn hp hxc e
    have hym : ∀ p ∈ passShares u left, p.1.gate = y.gate → p = (y, _) := fun p hp e => passShares_unique u left hn hp hyd e
    have hle : ∀ s r : Nat, (s + if j < r then 1 else 0) ≤ (s + if i < r then 1 else 0) + 1
        ∧ (i < j → (s + if j < r then 1 else 0) ≤ s + if i < r then 1 else 0) := by
      intro s r; split <;> split <;> omega
    obtain ⟨l1, l2⟩ := hle (left / u.length) (left % u.length)
    have least := fillPasses_least (fuel + 1) u left hl hf hn x _ a hxc hx
    rw [fillPasses_succ] at hx hy
    split at hx
    · rename_i hfull
      rw [if_pos hfull] at hy
      obtain ⟨p, hp, e⟩ := List.mem_map.1 hx
      obtain ⟨q, hq, e'⟩ := List.mem_map.1 hy
      simp only [Prod.mk.injEq] at e e'
      have h1 := hxm p hp e.1; have h2 := hym q hq e'.1
      subst h1 h2
      obtain ⟨-, rfl⟩ := e; obtain ⟨-, rfl⟩ := e'
      exact ⟨l1, fun h => l2 (hord h)⟩
    · rename_i hfull
      rw [if_neg hfull] at hy
      obtain ⟨a1, a2, a3⟩ := passRest_amount u left hpos hl hfull
      have hsub := passRest_sublist u left
      rcases List.mem_append.1 hx with hx | hx
      · obtain ⟨p, hp, e⟩ := List.mem_map.1 hx
        simp only [Prod.mk.injEq] at e
        have h1 := hxm p (List.mem_filter.1 hp).1 e.1
        subst h1; exact absurd e.2 (by simp; omega)
      obtain ⟨x', hx', e⟩ := fillPasses_mem _ _ _ a2 (by omega) _ hx
      obtain ⟨p, hp, rfl⟩ := List.mem_map.1 hx'
      have h1 := hxm p (List.mem_filter.1 hp).1 e.symm
      subst h1
      have hc := (List.mem_filter.1 hp).2
      simp only [decide_eq_true_eq] at hc
      rcases List.mem_append.1 hy with hy | hy
      · obtain ⟨q, hq, e'⟩ := List.mem_map.1 hy
        simp only [Prod.mk.injEq] at e'
        have h2 := hym q (List.mem_filter.1 hq).1 e'.1
        subst h2
        have hd := (List.mem_filter.1 hq).2
        simp only [decide_eq_true_eq] at hd
        obtain ⟨-, rfl⟩ := e'
        dsimp only at *
        rw [Nat.min_eq_right hc.le] at least
        exact ⟨by omega, fun h => by have := l2 (hord h); omega⟩
      · obtain ⟨y', hy', e'⟩ := fillPasses_mem _ _ _ a2 (by omega) _ hy
        obtain ⟨q, hq, rfl⟩ := List.mem_map.1 hy'
        have h2 := hym q (List.mem_filter.1 hq).1 e'.symm
        subst h2
        have hd := (List.mem_filter.1 hq).2
        obtain ⟨r1, r2⟩ := ih _ _ a2 (by omega) (hn.sublist (hsub.map _)) x y a b hx' hy' hx hy ha
        refine ⟨r1, fun h => r2 ?_⟩
        have h' : [x, y].Sublist ((passShares u left).map (·.1)) := by rw [provisional_map_fst]; exact h
        obtain ⟨l', hs, e3⟩ := List.sublist_map_iff.1 h'
        match l', e3 with
        | [p', q'], e3 =>
          simp only [List.map_cons, List.map_nil, List.cons.injEq, and_true] at e3
          have hp' := hxm p' (hs.subset (by simp)) (by rw [← e3.1])
          have hq' := hym q' (hs.subset (by simp)) (by rw [← e3.2])
          subst hp' hq'
          have := (hs.filter fun p => decide (p.2 < p.1.headroom)).map (·.1)
          rw [List.filter_cons_of_pos (by simpa using hc), List.filter_cons_of_pos (by simpa using hd)] at this
          simpa using this
end Sys2Proof.Machine
end

