-- ==== Sys2Proof/Laws/Parts.lean ====
section
/-! SUPPORT. The parts of a response and of a report: how many there are, and what each carries (R163, R176, Table 8-3). -/

namespace Sys2Proof.Machine

/-- The pieces of `bs`: one at least, and else as many as it takes. -/
theorem piecesOf_length (k fuel : Nat) (bs : List Byte) (hk : 0 < k) (h : bs.length ≤ k * fuel) (hf : 0 < fuel) :
    (piecesOf k fuel bs).length = max 1 ((bs.length + (k - 1)) / k) := by
  induction fuel generalizing bs with
  | zero => omega
  | succ fuel ih =>
    unfold piecesOf
    split
    · rename_i hl
      have : (bs.length + (k - 1)) / k ≤ 1 := by
        rw [Nat.div_le_iff_le_mul hk]; omega
      simp; omega
    · rename_i hl
      rw [Nat.mul_succ] at h
      have hfuel : 0 < fuel := Nat.pos_of_ne_zero (by rintro rfl; omega)
      rw [List.length_cons, ih (bs.drop k) (by simp; omega) hfuel, List.length_drop]
      have e : bs.length + (k - 1) = (bs.length - k + (k - 1)) + k := by omega
      rw [e, Nat.add_div_right _ hk]
      have : 1 ≤ (bs.length - k + (k - 1)) / k := (Nat.le_div_iff_mul_le hk).2 (by omega)
      omega

/-- A piece of `bs`. -/
theorem piecesOf_get (k fuel : Nat) (bs : List Byte) (i : Nat) (hi : i < (piecesOf k fuel bs).length) :
    (piecesOf k fuel bs)[i]? = some ((bs.drop (k * i)).take k) := by
  induction fuel generalizing bs i with
  | zero => exact absurd hi (by simp [piecesOf])
  | succ fuel ih =>
    unfold piecesOf at hi ⊢
    split at hi
    · rename_i hl
      obtain rfl : i = 0 := by simpa using hi
      simp [hl, List.take_of_length_le hl]
    · rename_i hl
      rw [if_neg hl]
      cases i with
      | zero => simp
      | succ i => simp [ih (bs.drop k) i (by simpa using hi), Nat.mul_succ, Nat.add_comm]

/-- The parts are numbered in order, and the last flag stands on the last (Table 8-3). -/
theorem numberParts_get (i : Nat) (ds : List (List Byte)) (k : Nat) :
    (numberParts i ds)[k]? = ds[k]?.map fun d => (byte (i + k + if k + 1 = ds.length then 128 else 0), d) := by
  induction ds generalizing i k with
  | nil => simp [numberParts]
  | cons d ds ih =>
    cases ds with
    | nil => cases k <;> simp [numberParts]
    | cons e rest =>
      cases k with
      | zero => simp [numberParts]
      | succ k =>
        simp only [numberParts, List.getElem?_cons_succ, ih, List.length_cons]
        congr 1; funext d; congr 2
        split <;> split <;> omega

/-- Each part is numbered once. -/
theorem numberParts_length (i : Nat) (ds : List (List Byte)) : (numberParts i ds).length = ds.length := by
  induction ds generalizing i with
  | nil => rfl
  | cons d ds ih => cases ds <;> simp_all [numberParts]

end Sys2Proof.Machine
end

