-- ==== Sys2Proof/Laws/Keeps.lean ====
section
/-! SUPPORT. What a step can do, said once: a property that each piece of work of the blocks keeps is kept by every command. The
invariants of the blocks come from it by one lemma per piece of work. -/

namespace Sys2Proof.Machine

/-! ### What a request's reply is -/

/-- A reply that fits one response part, from an act that leaves the response/report queue as it is. -/
def Brief (act : State → Reply × State) : Prop :=
  ∀ s, (act s).1.data.length ≤ 57 ∧ (act s).2.ring.feed = s.ring.feed

theorem responseFrames_length (q : Requester) (r : Reply) :
    (responseFrames q r).length = (responseParts r.data).length := by
  simp [responseFrames, numberParts_length]

/-- Data of up to 57 bytes makes one response part (R163). -/
theorem responseFrames_one (q : Requester) (r : Reply) (h : r.data.length ≤ 57) : (responseFrames q r).length = 1 := by
  rw [responseFrames_length, responseParts, piecesOf, if_pos h]; rfl

theorem brief_same {reply : State → Reply} (h : ∀ s, (reply s).data.length ≤ 57) : Brief fun s => (reply s, s) :=
  fun s => ⟨h s, rfl⟩

theorem brief_withoutOperands {act : State → Reply × State} (h : Brief act) (ops : List Byte) :
    Brief (withoutOperands ops act) := by
  intro s; unfold withoutOperands; split
  · exact h s
  · exact ⟨by simp [bare], rfl⟩

theorem brief_writeRequest (src : Byte) (ops : List Byte) : Brief (writeRequest src ops) := by
  have hold : ∀ w l, Brief (holdSegment w l) := by
    intro w l s; unfold holdSegment
    split
    · split
      · rename_i r hr
        refine ⟨?_, rfl⟩
        unfold applyWrite at hr
        repeat' split at hr
        all_goals cases hr
        all_goals simp [bare]
      · exact ⟨by simp, rfl⟩
    · exact ⟨by simp, rfl⟩
  intro s
  unfold writeRequest takeSegment firstSegment nextSegment; repeat' split
  all_goals first | exact hold _ _ s | exact ⟨by simp [bare], rfl⟩

theorem brief_commit : Brief commitRequest := by
  intro s; unfold commitRequest; repeat' split
  all_goals exact ⟨by simp [bare, be2], rfl⟩

theorem brief_cancel : Brief cancelRequest := fun s => ⟨by simp [cancelRequest], rfl⟩

theorem brief_lock : Brief lockRequest := by
  intro s; unfold lockRequest; repeat' split
  all_goals exact ⟨by simp [bare], rfl⟩

theorem brief_compareCopies (ops : List Byte) : Brief fun s => (compareCopiesReply ops s, s) := by
  refine brief_same fun s => ?_
  unfold compareCopiesReply; repeat' split
  · simp [bare]
  · have hl : ∀ ps : List (Nat × Nat), (ps.flatMap fun p => [byte p.1, byte p.2]).length = 2 * ps.length := by
      intro ps
      induction ps with
      | nil => rfl
      | cons p ps ih => simp only [List.flatMap_cons, List.length_append, List.length_cons, List.length_nil, ih]; omega
    simp only [List.length_append, List.length_cons, List.length_nil, hl, List.length_take]
    omega
  · simp [bare]

theorem brief_compareData (ops : List Byte) : Brief fun s => (compareDataReply ops s, s) := by
  refine brief_same fun s => ?_
  unfold compareDataReply compareDataWith; repeat' split
  all_goals simp [bare]
  all_goals omega

theorem brief_compare (ops : List Byte) : Brief fun s => (compareReply ops s, s) := by
  refine brief_same fun s => ?_
  unfold compareReply; repeat' split
  · exact (brief_compareCopies _ s).1
  · exact (brief_compareData _ s).1
  · simp [bare]
  · simp [bare]

theorem brief_controlGate {act : GateNo → State → Reply × State} (h : ∀ g, Brief (act g)) (gate : Byte)
    (extra : List Byte) : Brief (controlGate act gate extra) := by
  intro s; unfold controlGate onPresentGate refuse; repeat' split
  all_goals first | exact h _ s | exact ⟨by simp [bare], rfl⟩

theorem brief_enable (g : GateNo) : Brief (enableGate g) := by
  intro s; unfold enableGate gateReply refuse; dsimp only; repeat' split
  all_goals simp

theorem brief_disable (g : GateNo) : Brief (disableGate g) := by
  intro s; unfold disableGate gateReply; repeat' split
  all_goals simp

theorem brief_hold (g : GateNo) : Brief (holdGate g) := by
  intro s; unfold holdGate gateReply refuse; repeat' split
  all_goals simp

theorem brief_release (g : GateNo) : Brief (releaseGate g) := by
  intro s; unfold releaseGate gateReply refuse; repeat' split
  all_goals simp

theorem brief_clearFault (g : GateNo) : Brief (clearFaultGate g) := by
  intro s; unfold clearFaultGate gateReply refuse; dsimp only; repeat' split
  all_goals simp

theorem brief_control (ops : List Byte) : Brief (controlRequest ops) := by
  intro s
  unfold controlRequest
  split
  · rename_i gate action extra
    split
    · rename_i act ha
      unfold gateAction at ha
      repeat' split at ha
      · cases ha; exact brief_controlGate brief_enable _ _ s
      · cases ha; exact brief_controlGate brief_disable _ _ s
      · cases ha; exact brief_controlGate brief_hold _ _ s
      · cases ha; exact brief_controlGate brief_release _ _ s
      · cases ha; exact brief_controlGate brief_clearFault _ _ s
      · cases ha
    · split <;> exact ⟨by simp [bare], rfl⟩
  · exact ⟨by simp [bare], rfl⟩

theorem brief_mode (ops : List Byte) : Brief (requestMode ops) := by
  intro s; unfold requestMode; dsimp only; repeat' split
  all_goals exact ⟨by simp [modeData], by simp⟩

theorem brief_run (ops : List Byte) : Brief (runPlan ops) := by
  intro s; unfold runPlan; dsimp only; repeat' split
  all_goals exact ⟨by simp [timerData, be2], rfl⟩

theorem brief_stop (ops : List Byte) : Brief (stopPlan ops) := by
  intro s; unfold stopPlan; dsimp only; split <;> exact ⟨by simp [timerData, be2], rfl⟩

theorem brief_output (ops : List Byte) : Brief (setOutputGate ops) := by
  intro s; unfold setOutputGate; repeat' split
  all_goals exact ⟨by simp, rfl⟩

theorem brief_clear (ops : List Byte) : Brief (clearRequest ops) := by
  intro s; unfold clearRequest; dsimp only; split <;> exact ⟨by simp [bare, be2], rfl⟩

theorem brief_counters : Brief clearCountersRequest := fun s => ⟨by simp [clearCountersRequest, bare], rfl⟩

theorem brief_restart : Brief restartRequest := fun s => ⟨by simp [restartRequest, be2], by simp [restartRequest]⟩

/-! ### What a step keeps -/

/-- The property is kept by each piece of work that a command other than a release of RESET can do. -/
structure Keeps (P : State → Prop) : Prop where
  assertReset : ∀ s, P s → P (assertReset s)
  close : ∀ s, P s → P (closeEvent s)
  count : ∀ c n s, P s → P (bumpBy c n s)
  answer : ∀ q r s, (responseFrames q r).length ≤ s.feedRoom → P s → P (respond q r s)
  stale : ∀ s, P s → P (evaluateStale { s with clock := { s.clock with staleDue := false } })
  due : ∀ s, P s → P (reachWork s)
  tick : ∀ s, P s → P (secondTick s)
  expiry : ∀ s, s.clock.expiryDue = true → s.engine.computation = none → P s → P (cadenceExpiry s)
  completion : ∀ sn s, s.engine.computation = some sn → P s → P (completeComputation sn s)
  millisecond : ∀ s, P s → P (millisecond s)
  sent : ∀ s, P s → P (endSend s)
  sample : ∀ src es s, P s → P (takeSample src es s)
  notice : ∀ n s, P s → P (takeNotice n s)
  phase : ∀ p s, P s → P (takePhase p s)
  strip : ∀ f s, P s → P (stripFrame f s)
  relay : ∀ f s, P s → P (relayFrame f s)
  write : ∀ src ops s, P s → P (writeRequest src ops s).2
  commit : ∀ s, P s → P (commitRequest s).2
  cancel : ∀ s, P s → P (cancelRequest s).2
  lock : ∀ s, P s → P (lockRequest s).2
  enable : ∀ g s, (s.gate g).state ≠ .absent → P s → P (enableGate g s).2
  disable : ∀ g s, (s.gate g).state ≠ .absent → P s → P (disableGate g s).2
  hold : ∀ g s, (s.gate g).state ≠ .absent → P s → P (holdGate g s).2
  release : ∀ g s, (s.gate g).state ≠ .absent → P s → P (releaseGate g s).2
  clearFault : ∀ g s, (s.gate g).state ≠ .absent → P s → P (clearFaultGate g s).2
  mode : ∀ ops s, P s → P (requestMode ops s).2
  run : ∀ ops s, P s → P (runPlan ops s).2
  stop : ∀ ops s, P s → P (stopPlan ops s).2
  output : ∀ ops s, P s → P (setOutputGate ops s).2
  clear : ∀ ops s, P s → P (clearRequest ops s).2
  counters : ∀ s, P s → P (clearCountersRequest s).2
  restart : ∀ s, P s → P (restartRequest s).2

namespace Keeps

variable {P : State → Prop} {s : State}

theorem settle (k : Keeps P) (h : P s) : P (settleTick s) := by
  have hs : P (staleWork s) := by
    unfold staleWork; split
    · exact k.close _ (k.stale _ h)
    · exact h
  unfold settleTick; dsimp only
  split
  · exact k.due _ hs
  · exact hs

theorem event (k : Keeps P) {body : State → State} (hb : ∀ s, P s → P (body s)) (h : P s) : P (takeEvent body s) := by
  unfold takeEvent; split
  · exact h
  · exact k.close _ (hb _ (k.settle h))

theorem ringEvent (k : Keeps P) {body : State → State} (hb : ∀ s, P s → P (body s)) (h : P s) :
    P (takeRingEvent body s) := by
  unfold takeRingEvent; split
  · exact k.close _ (hb _ (k.settle h))
  · exact h

theorem bump (k : Keeps P) (c : Counter) (h : P s) : P (bump c s) := k.count _ _ _ h

theorem request (k : Keeps P) {act : State → Reply × State} (ha : ∀ s, P s → P (act s).2) (hb : Brief act)
    (q : Requester) (n : Nat) {d : List Byte} (hd : d.length ≤ 57) (h : P s) : P (takeRequest q n d act s) := by
  have one : ∀ r : Reply, r.data.length ≤ 57 → ¬ s.feedRoom = 0 → (responseFrames q r).length ≤ s.feedRoom := by
    intro r hr h0; rw [responseFrames_one q r hr]; omega
  unfold takeRequest; dsimp only; split
  · exact k.bump _ h
  · rename_i h0
    split
    · exact k.answer _ _ _ (one _ (by simp [bare]) h0) h
    · split
      · refine k.answer _ _ _ ?_ (ha _ h)
        have : (act s).2.feedRoom = s.feedRoom := by simp [State.feedRoom, (hb s).2]
        rw [this]; exact one _ (hb s).1 h0
      · exact k.answer _ _ _ (one _ hd h0) h

theorem read (k : Keeps P) (q : Requester) (ops : List Byte) (h : P s) : P (takeRead q ops s) := by
  have one : ∀ st, ¬ s.feedRoom = 0 → (responseFrames q ⟨st, []⟩).length ≤ s.feedRoom := by
    intro st h0; rw [responseFrames_one q _ (by simp)]; omega
  unfold takeRead takeRequest
  by_cases h0 : s.feedRoom = 0
  · rw [if_pos h0]; exact k.bump _ h
  · rw [if_neg h0]
    by_cases hr : s.feedRoom < readParts q.src ops s
    · rw [if_pos hr]; exact k.answer _ _ _ (one _ h0) h
    · rw [if_neg hr]
      by_cases hm : manages s.mgmt.active.t10 q.src = true
      · rw [if_pos hm]
        unfold readParts at hr; rw [if_pos hm] at hr
        exact k.answer _ _ _ (by rw [responseFrames_length]; exact Nat.le_of_not_lt hr) h
      · rw [if_neg hm]; exact k.answer _ _ _ (one _ h0) h

theorem received (k : Keeps P) {take : State → State} (ht : ∀ s, P s → P (take s)) (q : Requester) (n : Nat) (h : P s) :
    P (receiveRequest q n take s) := by
  unfold receiveRequest; repeat' split
  · exact k.bump _ h
  · exact k.bump _ h
  · exact ht _ h

theorem bareAct {act : State → Reply × State} (ha : ∀ s, P s → P (act s).2) (ops : List Byte) (s : State) (h : P s) :
    P (withoutOperands ops act s).2 := by
  unfold withoutOperands; split
  · exact ha _ h
  · exact h

theorem gateAct {act : GateNo → State → Reply × State}
    (ha : ∀ g s, (s.gate g).state ≠ .absent → P s → P (act g s).2) (gate : Byte) (extra : List Byte) (s : State)
    (h : P s) : P (controlGate act gate extra s).2 := by
  unfold controlGate onPresentGate refuse; repeat' split
  · exact h
  · exact h
  · rename_i hn; exact ha _ _ hn h
  · exact h

theorem control (k : Keeps P) (ops : List Byte) (s : State) (h : P s) : P (controlRequest ops s).2 := by
  unfold controlRequest
  split
  · rename_i gate action extra
    split
    · rename_i act ha
      unfold gateAction at ha
      repeat' split at ha
      · cases ha; exact gateAct k.enable _ _ _ h
      · cases ha; exact gateAct k.disable _ _ _ h
      · cases ha; exact gateAct k.hold _ _ _ h
      · cases ha; exact gateAct k.release _ _ _ h
      · cases ha; exact gateAct k.clearFault _ _ _ h
      · cases ha
    · split <;> exact h
  · exact h

theorem coded (k : Keeps P) (q : Requester) (code : Byte) (ops : List Byte) (h : P s) : P (takeCoded q code ops s) := by
  have nil : ([] : List Byte).length ≤ 57 := by simp
  unfold takeCoded
  cases readRequestCode code with
  | none => exact k.request (fun s h => h) (brief_same fun s => by simp [bare]) _ _ nil h
  | some r =>
    cases r
    · exact k.read _ _ h
    · exact k.request (k.write _ _) (brief_writeRequest _ _) _ _ nil h
    · exact k.request (bareAct k.commit _) (brief_withoutOperands brief_commit _) _ _ nil h
    · exact k.request (bareAct k.cancel _) (brief_withoutOperands brief_cancel _) _ _ nil h
    · exact k.request (fun s h => h) (brief_compare _) _ _ nil h
    · exact k.request (bareAct k.lock _) (brief_withoutOperands brief_lock _) _ _ nil h
    · exact k.request (k.control _) (brief_control _) _ _ nil h
    · exact k.request (k.mode _) (brief_mode _) _ _ (by simp [modeData]) h
    · exact k.request (k.run _) (brief_run _) _ _ nil h
    · exact k.request (k.stop _) (brief_stop _) _ _ nil h
    · exact k.request (k.output _) (brief_output _) _ _ nil h
    · exact k.request (k.clear _) (brief_clear _) _ _ nil h
    · exact k.request (bareAct k.counters _) (brief_withoutOperands brief_counters _) _ _ nil h
    · exact k.request (bareAct k.restart _) (brief_withoutOperands brief_restart _) _ _ nil h

theorem taken (k : Keeps P) (f : Frame) (h : P s) : P (takeFrame f s) := by
  unfold takeFrame; repeat' split
  · exact k.sample _ _ _ h
  · exact k.notice _ _ h
  · exact h
  · exact k.phase _ _ h
  · exact h
  · exact k.coded _ _ _ h
  · exact h

theorem frame (k : Keeps P) (f : Frame) {takeIn : State → State} (ht : ∀ s, P s → P (takeIn s)) (h : P s) :
    P (receiveWith f takeIn s) := by
  have hl : ∀ s, P s → P (takeLawful f takeIn s) := by
    intro s h; unfold takeLawful; split
    · exact ht _ h
    · exact k.bump _ h
  unfold receiveWith; repeat' split
  · exact k.bump _ h
  · exact k.strip _ _ h
  · unfold consumeFrame; split
    · exact hl _ h
    · exact k.bump _ h
  · apply k.relay
    unfold copyIn; split
    · exact hl _ h
    · exact h

theorem received_any (k : Keeps P) (f : Frame) (h : P s) : P (receive f s) := k.frame f (fun _ h => k.taken f h) h

theorem expiries (k : Keeps P) (h : P s) : P (takeExpiry s) := by
  unfold takeExpiry; split
  · rename_i hc; exact k.expiry _ hc.1 hc.2 h
  · exact h

theorem completions (k : Keeps P) (h : P s) : P (takeCompletion s) := by
  unfold takeCompletion; split
  · rename_i sn hc; exact k.completion sn _ hc h
  · exact h

theorem ticks (k : Keeps P) (n : Nat) (h : P s) : P (milliseconds n s) := by
  induction n generalizing s with
  | zero => exact h
  | succ n ih => exact ih (k.event k.millisecond h)

/-- Every command but a release of RESET keeps the property. -/
theorem exec (k : Keeps P) {c : Instr} {t : State} (hc : ∀ addr stn, c ≠ .resetRelease addr stn) (h : P s)
    (he : exec c s = .next t) : P t := by
  have req : ∀ (q : Requester) (n m : Nat) (act : State → Reply × State), (∀ s, P s → P (act s).2) → Brief act →
      P (takeRingEvent (receiveRequest q n (takeRequest q m [] act)) s) := fun q n m act ha hb =>
    k.ringEvent (fun s h => k.received (fun s h => k.request ha hb q m (by simp) h) q n h) h
  have any : ∀ f, P (takeRingEvent (receive f) s) := fun f => k.ringEvent (fun s h => k.received_any f h) h
  have own : ∀ f takeIn, (∀ s, P s → P (takeIn s)) → P (takeRingEvent (receiveWith f takeIn) s) := fun f _ ht =>
    k.ringEvent (fun s h => k.frame f ht h) h
  cases c <;> injection he with he <;> subst he
  case resetAssert => exact k.assertReset _ h
  case resetRelease => exact absurd rfl (hc _ _)
  case secondTick => exact k.event k.tick h
  case slotStale =>
    split
    · exact h
    · unfold staleWork; split
      · exact k.close _ (k.stale _ h)
      · exact h
  case reachDueProcessing => split; exact h; exact k.due _ h
  case cadenceExpiry => exact k.event (fun _ h => k.expiries h) h
  case computationCompletion => exact k.event (fun _ h => k.completions h) h
  case returnLimitExpiry => exact k.ticks _ h
  case sendEnd => exact k.ringEvent k.sent h
  case sampleArrival => exact own _ _ (k.sample _ _)
  case noticeArrival => exact own _ _ (k.notice _)
  case phaseArrival => exact own _ _ (k.phase _)
  case orderReturn => exact any _
  case ownFrameReturn => exact any _
  case frameRelay => exact any _
  case readEntry => exact k.ringEvent (fun s h => k.received (fun s h => k.read _ _ h) _ _ h) h
  case writeEntry => exact req _ _ _ _ (k.write _ _) (brief_writeRequest _ _)
  case commit => exact req _ _ _ _ (bareAct k.commit _) (brief_withoutOperands brief_commit _)
  case cancel => exact req _ _ _ _ (bareAct k.cancel _) (brief_withoutOperands brief_cancel _)
  case compareCopies => exact req _ _ _ _ (fun _ h => h) (brief_compareCopies _)
  case compareData => exact req _ _ _ _ (fun _ h => h) (brief_compareData _)
  case lock => exact req _ _ _ _ (bareAct k.lock _) (brief_withoutOperands brief_lock _)
  case enable => exact req _ _ _ _ (gateAct k.enable _ _) (brief_controlGate brief_enable _ _)
  case disable => exact req _ _ _ _ (gateAct k.disable _ _) (brief_controlGate brief_disable _ _)
  case hold => exact req _ _ _ _ (gateAct k.hold _ _) (brief_controlGate brief_hold _ _)
  case release => exact req _ _ _ _ (gateAct k.release _ _) (brief_controlGate brief_release _ _)
  case clearFault => exact req _ _ _ _ (gateAct k.clearFault _ _) (brief_controlGate brief_clearFault _ _)
  case modeRequest =>
    exact k.ringEvent
      (fun s h => k.received (fun s h => k.request (k.mode _) (brief_mode _) _ _ (by simp [modeData]) h) _ _ h) h
  case planRun => exact req _ _ _ _ (k.run _) (brief_run _)
  case planStop => exact req _ _ _ _ (k.stop _) (brief_stop _)
  case planGate => exact req _ _ _ _ (k.output _) (brief_output _)
  case clearConditions => exact req _ _ _ _ (k.clear _) (brief_clear _)
  case clearCounters => exact req _ _ _ _ (bareAct k.counters _) (brief_withoutOperands brief_counters _)
  case restart => exact req _ _ _ _ (bareAct k.restart _) (brief_withoutOperands brief_restart _)
  case requestBadCode => exact k.ringEvent (fun s h => k.received (fun s h => k.coded _ _ _ h) _ _ h) h
  case checkErrorFrame =>
    refine k.ringEvent (fun s h => ?_) h
    unfold receiveChecked; split
    · exact k.received_any _ h
    · exact k.bump _ h
  case unexpectedKindFrame => exact any _
  case malformedFrame => exact any _

/-- A property that the pin reset has, and that does not look at the queue, is kept by every step. -/
theorem step (k : Keeps P) (reset : ∀ addr stn q, P (State.pinReset addr stn q))
    (queue : ∀ s q, P s → P { s with pending := q }) {t : State} (h : P s) (he : step s = .next t) : P t := by
  unfold Machine.step at he
  split at he
  · rename_i c rest _
    by_cases hc : ∃ addr stn, c = .resetRelease addr stn
    · obtain ⟨addr, stn, rfl⟩ := hc
      injection he with he; subst he; exact reset _ _ _
    · exact k.exec (fun a b e => hc ⟨a, b, e⟩) (queue _ _ h) he
  · injection he with he; subst he; exact k.event k.millisecond h

end Keeps

end Sys2Proof.Machine
end

