-- ==== Sys2Proof/Laws/Lookups.lean ====
section
/-! SUPPORT. What the lookups in the active set find: the slot of a subscription, the slot that a source and a channel feed, what feeds
a slot, and the record that follows a station. -/

namespace Sys2Proof.Machine

/-- A subscription names a slot exactly when it is in use and its slot field is that number (R34). -/
theorem slotNo_eq_some_iff (u : Subscription) (n : SlotNo) : u.slotNo = some n ↔ u.inUse = true ∧ u.slot.toNat = n.val := by
  unfold Subscription.slotNo
  split
  · unfold readBelow
    split
    · simp_all [Fin.ext_iff]
    · simp
      intro _ h3
      omega
  · simp_all

/-- What a search of T6 finds, when at most one entry passes its test. -/
theorem find_t6_iff (set : GovSet) (p : Subscription → Bool) (u : Subscription)
    (h : ∀ i j, p (set.t6.get i) = true → p (set.t6.get j) = true → i = j) :
    set.t6.items.find? p = some u ↔ ∃ i, set.t6.get i = u ∧ p u = true := by
  constructor
  · intro hf
    obtain ⟨i, hi⟩ := (Tab.mem_items_iff _ _).1 (List.mem_of_find?_eq_some hf)
    exact ⟨i, hi, List.find?_some hf⟩
  · rintro ⟨i, rfl, hp⟩
    cases hf : set.t6.items.find? p with
    | none => simpa [hp] using List.find?_eq_none.1 hf (set.t6.get i) ((Tab.mem_items_iff _ _).2 ⟨i, rfl⟩)
    | some v =>
      obtain ⟨j, rfl⟩ := (Tab.mem_items_iff _ _).1 (List.mem_of_find?_eq_some hf)
      rw [h j i (List.find?_some hf) hp]

/-- R34, R37: the slot that a source and a channel feed, where no two subscriptions in use have the same pair. -/
theorem slotFor_eq_some_iff (set : GovSet)
    (h : ∀ i j, (set.t6.get i).inUse = true → (set.t6.get j).inUse = true → (set.t6.get i).source = (set.t6.get j).source →
      (set.t6.get i).channel = (set.t6.get j).channel → i = j) (src channel : Byte) (n : SlotNo) :
    slotFor set src channel = some n ↔
      ∃ i, (set.t6.get i).inUse = true ∧ (set.t6.get i).source = src ∧ (set.t6.get i).channel = channel
        ∧ (set.t6.get i).slot.toNat = n.val := by
  have hp : ∀ i j, ((set.t6.get i).inUse && decide ((set.t6.get i).source = src) && decide ((set.t6.get i).channel = channel)) = true →
      ((set.t6.get j).inUse && decide ((set.t6.get j).source = src) && decide ((set.t6.get j).channel = channel)) = true → i = j := by
    intro i j hi hj
    simp only [Bool.and_eq_true, decide_eq_true_eq] at hi hj
    exact h i j hi.1.1 hj.1.1 (hi.1.2.trans hj.1.2.symm) (hi.2.trans hj.2.symm)
  unfold slotFor
  simp only [Option.bind_eq_some_iff, find_t6_iff set (fun u => u.inUse && u.source = src && u.channel = channel) _ hp,
    slotNo_eq_some_iff, Bool.and_eq_true, decide_eq_true_eq]
  constructor
  · rintro ⟨u, ⟨i, rfl, ⟨h1, h2⟩, h3⟩, _, h4⟩
    exact ⟨i, h1, h2, h3, h4⟩
  · rintro ⟨i, h1, h2, h3, h4⟩
    exact ⟨_, ⟨i, rfl, ⟨h1, h2⟩, h3⟩, h1, h4⟩

/-- R34: what feeds a slot, where no two subscriptions in use name the same slot. -/
theorem feederOf_eq_some_iff (set : GovSet)
    (h : ∀ i j, (set.t6.get i).inUse = true → (set.t6.get j).inUse = true → (set.t6.get i).slot = (set.t6.get j).slot → i = j)
    (n : SlotNo) (src channel : Byte) :
    feederOf set n = some (src, channel) ↔
      ∃ i, (set.t6.get i).inUse = true ∧ (set.t6.get i).slot.toNat = n.val ∧ (set.t6.get i).source = src
        ∧ (set.t6.get i).channel = channel := by
  have hp : ∀ i j, decide ((set.t6.get i).slotNo = some n) = true → decide ((set.t6.get j).slotNo = some n) = true → i = j := by
    intro i j hi hj
    simp only [decide_eq_true_eq, slotNo_eq_some_iff] at hi hj
    exact h i j hi.1 hj.1 (BitVec.eq_of_toNat_eq (hi.2.trans hj.2.symm))
  unfold feederOf
  simp only [Option.map_eq_some_iff, find_t6_iff set (fun u => u.slotNo = some n) _ hp]
  simp only [decide_eq_true_eq, slotNo_eq_some_iff, Prod.mk.injEq]
  constructor
  · rintro ⟨u, ⟨i, rfl, h1, h2⟩, h3, h4⟩
    exact ⟨i, h1, h2, h3, h4⟩
  · rintro ⟨i, h1, h2, h3, h4⟩
    exact ⟨_, ⟨i, rfl, h1, h2⟩, h3, h4⟩

/-- R84: the record that follows a station, where no two records in use name the same station. -/
theorem followerOf_eq_some_iff (set : GovSet)
    (h : ∀ n m, (set.t9.get n).inUse = true → (set.t9.get m).inUse = true →
      (set.t9.get n).station = (set.t9.get m).station → n = m) (station : Byte) (n : OriginNo) :
    followerOf set station = some n ↔ (set.t9.get n).inUse = true ∧ (set.t9.get n).station = station := by
  unfold followerOf
  constructor
  · intro hf
    simpa using List.find?_some hf
  · rintro ⟨h1, h2⟩
    cases hf : (List.finRange 4).find? fun n => (set.t9.get n).inUse && (set.t9.get n).station = station with
    | none => simpa [h1, h2] using List.find?_eq_none.1 hf n (List.mem_finRange n)
    | some m =>
      have hm := List.find?_some hf
      simp only [Bool.and_eq_true, decide_eq_true_eq] at hm
      rw [h m n hm.1 h1 (hm.2.trans h2.symm)]

end Sys2Proof.Machine
end

