-- ==== Sys2Proof/Laws/Ring.lean ====
section
/-! SUPPORT. The Ring Port: the free sequence number, the match of a return, what the arbiter and the end of an event leave in the
order queue and the counters, and a millisecond's count of the lost. -/

namespace Sys2Proof.Machine

/-- What the search for a sequence number gives (R142): the first one from `c` on that is not in use, unless the fuel runs out. -/
theorem freeSeq_spec (used : List Byte) (fuel : Nat) (c : Byte) :
    ∃ k, k ≤ fuel ∧ freeSeq used fuel c = c + BitVec.ofNat 8 k
      ∧ (∀ j, j < k → c + BitVec.ofNat 8 j ∈ used) ∧ (k < fuel → c + BitVec.ofNat 8 k ∉ used) := by
  induction fuel generalizing c with
  | zero => exact ⟨0, by simp [freeSeq]⟩
  | succ n ih =>
    unfold freeSeq
    by_cases hc : c ∈ used
    · obtain ⟨k, h1, h2, h3, h4⟩ := ih (c + 1)
      have e : ∀ j, c + 1 + BitVec.ofNat 8 j = c + BitVec.ofNat 8 (j + 1) := by
        intro j; rw [BitVec.add_assoc]; congr 1; rw [BitVec.add_comm]; simp [BitVec.ofNat_add]
      refine ⟨k + 1, by omega, ?_, ?_, ?_⟩
      · rw [if_pos hc, h2, e]
      · intro j hj
        cases j with
        | zero => simpa using hc
        | succ j => rw [← e]; exact h3 j (by omega)
      · intro hk; rw [← e]; exact h4 (by omega)
    · exact ⟨0, by omega, by simp [hc], by intro j hj; omega, by intro _; simpa using hc⟩

/-- Up to 24 sequence numbers in use leave one of 25 consecutive ones free. -/
theorem some_seq_free (used : List Byte) (c : Byte) (h : used.length ≤ 24) :
    ¬ ∀ j, j < 25 → c + BitVec.ofNat 8 j ∈ used := by
  intro hall
  have hsub : (List.range 25).map (fun j => c + BitVec.ofNat 8 j) ⊆ used := by
    intro x hx
    obtain ⟨j, hj, rfl⟩ := List.mem_map.1 hx
    exact hall j (List.mem_range.1 hj)
  have hnd : ((List.range 25).map (fun j => c + BitVec.ofNat 8 j)).Nodup := by
    refine (List.nodup_range).map_on ?_
    intro a ha b hb e
    have ha := List.mem_range.1 ha
    have hb := List.mem_range.1 hb
    have e : BitVec.ofNat 8 a = BitVec.ofNat 8 b := by bv_omega
    have := congrArg BitVec.toNat e
    simp at this; omega
  have := (hnd.subperm hsub).length_le
  simp at this; omega

/-- With sequence numbers distinct, the entry that a return matches is the one found, and its removal removes its sequence number
(R143). -/
theorem match_removes (l : List InFlight) (e : InFlight) (h : e ∈ l) (hn : (l.map (·.seq)).Nodup) (f : Frame)
    (hm : InFlight.matches f e = true) :
    l.find? (InFlight.matches f) = some e
      ∧ l.eraseP (InFlight.matches f) = l.filter fun x => decide (x.seq ≠ f.seq) := by
  have hs : e.seq = f.seq := by simp [InFlight.matches] at hm; exact hm.2
  induction l with
  | nil => cases h
  | cons x l ih =>
    simp only [List.map_cons, List.nodup_cons] at hn
    by_cases hx : x.seq = f.seq
    · have hex : e = x := by
        rcases List.mem_cons.1 h with h | h
        · exact h
        · exact absurd (List.mem_map.2 ⟨e, h, by rw [hs, hx]⟩) hn.1
      subst hex
      refine ⟨by simp [hm], ?_⟩
      rw [List.eraseP_cons_of_pos hm, List.filter_cons, if_neg (by simp [hs])]
      symm; rw [List.filter_eq_self]
      intro y hy; simp; intro hh; exact hn.1 (List.mem_map.2 ⟨y, hy, by rw [hh, hx]⟩)
    · have hmx : InFlight.matches f x = false := by simp [InFlight.matches, hx]
      have hel : e ∈ l := by
        rcases List.mem_cons.1 h with h | h
        · exact absurd (h ▸ hs) hx
        · exact h
      obtain ⟨a, b⟩ := ih hel hn.2
      refine ⟨by rw [List.find?_cons, hmx]; exact a, ?_⟩
      rw [List.eraseP_cons_of_neg (by simp [hmx]), b, List.filter_cons, if_pos (by simpa using hx)]

theorem takeRelayThenFeed_orders (s : State) : (takeRelayThenFeed s).orders = s.orders := by
  unfold takeRelayThenFeed; repeat' split
  all_goals rfl

/-- The arbiter takes an order from the queue, or leaves the queue alone. -/
theorem arbitrate_queue (s : State) : ∀ o ∈ (arbitrate s).orders.queue, o ∈ s.orders.queue := by
  intro o
  have hr : o ∈ (takeOrderThenRest s).orders.queue → o ∈ s.orders.queue := by
    unfold takeOrderThenRest; split
    · rename_i x rest hq
      split
      · intro h; rw [hq]; exact List.mem_cons_of_mem _ h
      · rw [takeRelayThenFeed_orders]; exact id
    · rw [takeRelayThenFeed_orders]; exact id
  unfold arbitrate arbiterChoice; repeat' split
  · exact id
  · exact hr
  · exact hr
  · exact id

theorem closeEvent_queue (s : State) : ∀ o ∈ (closeEvent s).orders.queue, o ∈ s.orders.queue := by
  have h1 : (queueConditionReport s).orders = s.orders := by simp
  intro o
  unfold closeEvent; dsimp only
  split
  · intro h; rw [← h1]; exact arbitrate_queue _ o h
  · rw [h1]; exact id

/-- The end of an event changes no counter but REPORT DROPS. -/
theorem closeEvent_counter (s : State) (c : Counter) (h : c ≠ .reportDrops) : (closeEvent s).counter c = s.counter c := by
  have hrep : (queueConditionReport s).counter c = s.counter c := by
    unfold queueConditionReport queueReport; dsimp only; repeat' split
    · rfl
    · rw [counter_bump, if_neg h]
    · rfl
  rw [← hrep]
  unfold closeEvent State.counter; dsimp only; split <;> simp

/-- One expiry counts one lost frame (R144). -/
theorem expireEntry_lost (e : InFlight) (s : State) :
    (expireEntry s e).counter .lost = min (s.counter .lost + 1) wordMax := by
  have hw : ∀ f (s : State), (withdraw f s).counter .lost = s.counter .lost := by
    intro f s; unfold withdraw; dsimp only; rw [counter_bumpBy]; simp [State.counter]
  have hr : ∀ f (s : State), (raise f s).counter .lost = s.counter .lost := by intro f s; simp [State.counter]
  have hb : ∀ c (s : State), c ≠ .lost → (bump c s).counter .lost = s.counter .lost := by
    intro c s h; rw [counter_bump, if_neg (Ne.symm h)]
  have hen : ∀ g st (s : State), (enterState g st s).counter .lost = s.counter .lost := by
    intro g st s
    unfold enterState raiseOnEntry; dsimp only
    cases st <;> simp [GateState.withdraws, hw, hr] <;> rfl
  have hd : ∀ g (s : State), (deliverUnreachable g s).counter .lost = s.counter .lost := by
    intro g s; unfold deliverUnreachable; split <;> simp [hen, hb]
  have hc : ∀ g (s : State), (countLoss g s).counter .lost = s.counter .lost := by
    intro g s; unfold countLoss; split
    · rfl
    · rw [hd]; rfl
  unfold expireEntry; dsimp only
  split
  · split
    · rw [hc, counter_bump]; rfl
    · rw [counter_bump]; rfl
  · rw [counter_bump]; rfl

end Sys2Proof.Machine
end

