-- ==== Sys2Proof/Laws/Orders.lean ====
section
/-! SUPPORT. Orders as a computation requests them, what the end of an event takes from their queue, and how a completion is taken. -/

namespace Sys2Proof.Machine

/-- A completion that meets its computation is taken (R77). -/
theorem exec_completion {s : State} {sn} (ha : Awake s) (hs : Settled s) (hc : s.engine.computation = some sn) :
    exec .computationCompletion s = .next (closeEvent (completeComputation sn s)) := by
  show Host.Outcome.next (takeEvent _ _) = _
  rw [takeEvent_settled _ ha hs, takeCompletion, hc]

/-- R130: when the INITIAL test passes. -/
theorem initialTest_iff (sn : Snapshot) :
    initialTest sn = true ↔ (sn.hw.fresh = true ∧ sn.tw.fresh = true ∧ ∃ g, (sn.gates.get g).state = .active) := by
  simp [initialTest, List.any_eq_true, Snapshot.active, Snapshot.gate, and_assoc]
  intro _ _; constructor
  · rintro ⟨g, h⟩; exact ⟨g, of_decide_eq_true h⟩
  · rintro ⟨g, h⟩; exact ⟨g, decide_eq_true h⟩

/-- An order is formed from the gate records and the active set alone (R151). -/
theorem formOrder_congr {m : Mode} {s u : State} (hg : s.gates = u.gates) (hm : s.mgmt.active = u.mgmt.active) :
    formOrder m s = formOrder m u := by
  funext g; unfold formOrder State.gate State.gateCfg; rw [hg, hm]

/-- The queue after some orders are placed, one after the other (R152). -/
theorem queueOrders_queue (os : List Order) (s : State) :
    (os.foldl (fun s o => queueOrder o s) s).orders.queue = os.foldl (fun q o => placeOrder o q) s.orders.queue := by
  induction os generalizing s with
  | nil => rfl
  | cons o os ih => rw [List.foldl_cons, ih, queueOrder_queue]; rfl

/-- The requested queue depends on the gate records, the active set and the queue alone. -/
theorem requestOrders_congr {m : Mode} {s u : State} (hg : s.gates = u.gates) (hm : s.mgmt.active = u.mgmt.active)
    (hq : s.orders.queue = u.orders.queue) : (requestOrders m s).orders.queue = (requestOrders m u).orders.queue := by
  unfold requestOrders; rw [queueOrders_queue, queueOrders_queue, hq, formOrder_congr hg hm]

/-- R152: an order that takes the place of one is counted. -/
theorem queueOrder_superseded (o : Order) (s : State) :
    (queueOrder o s).counter .superseded = if o.gate ∈ s.orders.queue.map (·.gate)
      then min (s.counter .superseded + 1) wordMax else s.counter .superseded := by
  have e : (s.orders.queue.any (·.gate = o.gate)) = decide (o.gate ∈ s.orders.queue.map (·.gate)) := by
    rw [Bool.eq_iff_iff]; simp
  unfold queueOrder; dsimp only; rw [e]
  by_cases h : o.gate ∈ s.orders.queue.map (·.gate)
  · rw [if_pos h, if_pos (by simpa using h)]; exact counter_bump .superseded .superseded s
  · rw [if_neg h, if_neg (by simpa using h)]; rfl

theorem requestOrders_superseded_congr {m : Mode} {s u : State} (hg : s.gates = u.gates) (hm : s.mgmt.active = u.mgmt.active)
    (hq : s.orders.queue = u.orders.queue) (hc : s.counter .superseded = u.counter .superseded) :
        (requestOrders m s).counter .superseded = (requestOrders m u).counter .superseded := by
  unfold requestOrders; rw [formOrder_congr hg hm]
  generalize List.filterMap (formOrder m u) (List.finRange 16) = os
  clear hg hm
  induction os generalizing s u with
  | nil => exact hc
  | cons o os ih =>
    rw [List.foldl_cons, List.foldl_cons]
    apply ih
    · rw [queueOrder_queue, queueOrder_queue, hq]
    · rw [queueOrder_superseded, queueOrder_superseded, hq, hc]

/-- A request that places an order marks the event. -/
theorem requestOrders_placed (m : Mode) (s : State) :
    (requestOrders m s).marks.placed = (s.marks.placed || ((List.finRange 16).filterMap (formOrder m s)).length ≠ 0) := by
  unfold requestOrders
  generalize (List.finRange 16).filterMap (formOrder m s) = os
  have : ∀ (os : List Order) (s : State), s.marks.placed = true → (os.foldl (fun s o => queueOrder o s) s).marks.placed = true := by
    intro os; induction os with
    | nil => intro s h; exact h
    | cons o os ih => intro s h; exact ih _ rfl
  cases os with
  | nil => simp
  | cons o os => rw [List.foldl_cons, this _ _ rfl]; simp

/-- The arbiter takes no order, or the one at the head of the queue (R141). -/
theorem arbitrate_takes (s : State) :
    (arbitrate s).orders.queue = s.orders.queue ∨ ∃ o, s.orders.queue = o :: (arbitrate s).orders.queue := by
  have hr : (takeOrderThenRest s).orders.queue = s.orders.queue ∨ ∃ o, s.orders.queue = o :: (takeOrderThenRest s).orders.queue := by
    unfold takeOrderThenRest; split
    · rename_i x rest hq
      split
      · exact .inr ⟨x, hq⟩
      · rw [takeRelayThenFeed_orders]; exact .inl rfl
    · rw [takeRelayThenFeed_orders]; exact .inl rfl
  unfold arbitrate arbiterChoice; repeat' split
  · exact .inl rfl
  · exact hr
  · exact hr
  · exact .inl rfl

/-- While RO is sending, or the ports are in bypass, the arbiter takes nothing (R135, R141). -/
theorem arbitrate_busy (s : State) (h : s.ring.ro ≠ none ∨ ¬ InService s) : arbitrate s = s := by
  unfold arbitrate; rw [if_neg]; rintro ⟨a, b⟩; rcases h with h | h
  · exact h b
  · exact h a

/-- A condition report touches the response/report queue alone of the ring's state. -/
theorem queueConditionReport_ring (s : State) :
    (queueConditionReport s).ring = { s.ring with feed := (queueConditionReport s).ring.feed } := by
    unfold queueConditionReport queueReport placeFrames bump bumpBy; dsimp only; repeat' split
    all_goals rfl

/-- A report touches the response/report queue alone of the ring's state. -/
theorem queueReport_ring (k) (s : State) : (queueReport k s).ring = { s.ring with feed := (queueReport k s).ring.feed } := by
    unfold queueReport placeFrames bump bumpBy; dsimp only; repeat' split
    all_goals rfl

/-- The end of an event takes no order, or the one at the head of the queue. -/
theorem closeEvent_takes (s : State) :
    (closeEvent s).orders.queue = s.orders.queue ∨ ∃ o, s.orders.queue = o :: (closeEvent s).orders.queue := by
  have h1 : (queueConditionReport s).orders = s.orders := by simp
  unfold closeEvent; dsimp only
  split
  · rw [← h1]; exact arbitrate_takes _
  · exact .inl (congrArg _ h1)

theorem closeEvent_busy (s : State) (h : s.ring.ro ≠ none ∨ ¬ InService s) : (closeEvent s).orders.queue = s.orders.queue := by
  have h1 : (queueConditionReport s).orders = s.orders := by simp
  unfold closeEvent; dsimp only
  split
  · rw [arbitrate_busy, h1]; unfold InService; rw [queueConditionReport_ring]; exact h
  · rw [h1]

/-- What the report of a completion leaves as it is. -/
theorem completionReport_same_orders (s : State) : (completionReport s).orders = s.orders ∧ (completionReport s).gates = s.gates
   ∧ (completionReport s).ring = { s.ring with feed := (completionReport s).ring.feed }
   ∧ (completionReport s).counter .superseded = s.counter .superseded
       ∧ (s.marks.placed = true → (completionReport s).marks.placed = true) := by
  have hq : ∀ k (s : State), (queueReport k s).orders = s.orders ∧ (queueReport k s).gates = s.gates
      ∧ (queueReport k s).counter .superseded = s.counter .superseded
      ∧ (s.marks.placed = true → (queueReport k s).marks.placed = true) := by
    intro k s; unfold queueReport placeFrames; dsimp only; split
    · exact ⟨rfl, rfl, rfl, fun _ => rfl⟩
    · exact ⟨rfl, rfl, by rw [counter_bump]; rfl, id⟩
  unfold completionReport; dsimp only
  split
  · refine ⟨(hq _ _).1, (hq _ _).2.1, ?_, (hq _ _).2.2.1, fun h => (hq _ _).2.2.2 h⟩
    rw [queueReport_ring]
  · exact ⟨rfl, rfl, rfl, rfl, id⟩

theorem counter_raiseIf (c f k) (s : State) : (raiseIf c f s).counter k = s.counter k := by simp [State.counter]

theorem raise_placed (f) (s : State) : (raise f s).marks.placed = s.marks.placed := by
  unfold raise; repeat' split
  all_goals rfl

theorem raiseIf_placed (c f) (s : State) : (raiseIf c f s).marks.placed = s.marks.placed := by
  unfold raiseIf; split
  · exact raise_placed f s
  · rfl

/-- R152: the gates of the queue after orders of distinct gates are placed: a superseding order keeps the place. -/
theorem placeOrders_gates (os : List Order) (q : List Order) (hd : (os.map (·.gate)).Nodup) :
   (os.foldl (fun q o => placeOrder o q) q).map (·.gate) = q.map (·.gate) ++ (os.map (·.gate)).filter fun g =>
       decide (g ∉ q.map (·.gate)) := by
  induction os generalizing q with
  | nil => simp
  | cons o os ih =>
    simp only [List.map_cons, List.nodup_cons] at hd
    rw [List.foldl_cons, ih _ hd.2, placeOrder_gates, List.map_cons, List.filter_cons]
    by_cases h : o.gate ∈ q.map (·.gate)
    · simp only [h, if_true, not_true, decide_false, Bool.false_eq_true, if_false]
    · simp only [h, if_false, not_false_eq_true, decide_true, if_true, List.append_assoc, List.singleton_append]
      congr 2
      apply List.filter_congr
      intro g hg
      have : g ≠ o.gate := by rintro rfl; exact hd.1 hg
      simp [this]

/-- R151: the gates for which orders are formed, in gate order. -/
theorem formOrders_gates (m s) (l : List GateNo) :
    ((l.filterMap (formOrder m s)).map (·.gate)) = l.filter fun g => (s.gate g).state.ordered && (s.gate g).commanded.isSome := by
  induction l with
  | nil => rfl
  | cons g l ih =>
    rw [List.filterMap_cons, List.filter_cons]
    cases hf : formOrder m s g with
    | none =>
      have : ((s.gate g).state.ordered && (s.gate g).commanded.isSome) = false := by
        unfold formOrder at hf
        cases h1 : (s.gate g).state.ordered <;> cases h2 : (s.gate g).commanded <;> simp [h1, h2] at hf ⊢
      simp [this, ih]
    | some o =>
      have : ((s.gate g).state.ordered && (s.gate g).commanded.isSome) = true := by
        unfold formOrder at hf
        cases h1 : (s.gate g).state.ordered <;> cases h2 : (s.gate g).commanded <;> simp [h1, h2] at hf ⊢
      simp [this, ih, formOrder_gate hf]

/-- R152: the superseded orders are counted. -/
theorem queueOrders_superseded (os : List Order) (s : State) (hd : (os.map (·.gate)).Nodup) (hl : s.counter .superseded ≤ 65535) :
   (os.foldl (fun s o => queueOrder o s) s).counter .superseded = min (s.counter .superseded
       + ((os.map (·.gate)).filter fun g => decide (g ∈ s.orders.queue.map (·.gate))).length) 65535 := by
  induction os generalizing s with
  | nil => simp [hl]
  | cons o os ih =>
    simp only [List.map_cons, List.nodup_cons] at hd
    rw [List.foldl_cons, ih _ hd.2, queueOrder_superseded, queueOrder_queue, placeOrder_gates]
    · rw [List.map_cons, List.filter_cons]
      by_cases h : o.gate ∈ s.orders.queue.map (·.gate)
      · simp only [h, if_true, decide_true, List.length_cons, wordMax]; omega
      · simp only [h, if_false, decide_false, Bool.false_eq_true]
        congr 3
        apply List.filter_congr
        intro g hg
        have : g ≠ o.gate := by rintro rfl; exact hd.1 hg
        simp [this]
    · rw [queueOrder_superseded]; unfold wordMax; split <;> omega

end Sys2Proof.Machine
end

