-- ==== Sys2Proof/Laws/Lost.lean ====
section
/-! SUPPORT. The milliseconds of the ring count: what leaves the in-flight list, and what the LOST expiries of orders do. -/

namespace Sys2Proof.Machine

/-- The entry is that of an ORDER to the gate (R155). -/
def InFlight.losesFor (e : InFlight) (g : GateNo) : Bool := decide (e.kind = .order ∧ e.gate = some g)

/-- The states that the third LOST expiry in a row takes a gate from (R155). -/
abbrev Gate.Losable (r : Gate) : Prop := r.state = .active ∨ r.state = .held ∨ r.state = .localControl

/-- R155: an order delivered UNREACHABLE changes the record of its gate alone, from ACTIVE, HELD or LOCAL. -/
theorem deliverUnreachable_gate (g : GateNo) (s : State) (g' : GateNo) :
    (deliverUnreachable g s).gate g' = if g' = g
      ∧ (s.gate g).Losable then { s.gate g with state := .unreachable, count := 0 } else s.gate g' := by
  have en : ∀ (h : (s.gate g).Losable), (enterState g .unreachable s).gate g' = if g' = g
      then { s.gate g with state := .unreachable, count := 0 } else s.gate g' := by
    intro h
    unfold State.gate; rw [enterState_gates]
    by_cases hg : g' = g
    · subst hg; rw [Tab.get_set_self]; simp [Gate.entering, countOnEntry, State.gate]
    · rw [Tab.get_set_ne _ _ hg, if_neg hg]
  unfold deliverUnreachable
  split <;> rename_i h <;> first
    | (rw [en (by simp [Gate.Losable, h])]; simp [Gate.Losable, h])
    | (simp [Gate.Losable, h]; done)
    | (simp [Gate.Losable, h]; rfl)

theorem deliverUnreachable_flag (g : GateNo) (s : State) (h : (s.gate g).Losable) :
    flagIn .gateUnreachable (deliverUnreachable g s).report.flags = true := by
  have : deliverUnreachable g s = enterState g .unreachable s := by unfold deliverUnreachable; rcases h with h | h | h <;> rw [h]
  rw [this]; unfold enterState raiseOnEntry; dsimp only; rw [flagIn_raise]; simp

theorem deliverUnreachable_flag_of (g : GateNo) (s : State) {f} (h : flagIn f s.report.flags = true) :
    flagIn f (deliverUnreachable g s).report.flags = true := by
  have : flagIn f (enterState g .unreachable s).report.flags = true := by
    unfold enterState raiseOnEntry; dsimp only; apply flagIn_raise_of; simpa [GateState.withdraws] using h
  unfold deliverUnreachable; split <;> first | exact this | exact h

/-- Everything that the expiry of one entry does to a gate (R144, R155). -/
theorem expireEntry_gate (e : InFlight) (s : State) (g : GateNo) :
   (expireEntry s e).orders.lost.get g = (if InFlight.losesFor e g then (if s.orders.lost.get g < 2
       then s.orders.lost.get g + 1 else 3) else s.orders.lost.get g)
   ∧ (expireEntry s e).gate g = (if InFlight.losesFor e g = true ∧ 2 ≤ s.orders.lost.get g
       ∧ (s.gate g).Losable then { s.gate g with state := .unreachable, count := 0 } else s.gate g)
   ∧ (InFlight.losesFor e g = true ∧ 2 ≤ s.orders.lost.get g
       ∧ (s.gate g).Losable → flagIn .gateUnreachable (expireEntry s e).report.flags = true)
   ∧ ∀ f, flagIn f s.report.flags = true → flagIn f (expireEntry s e).report.flags = true := by
  unfold expireEntry InFlight.losesFor; dsimp only
  cases hg : e.gate with
  | none => simp; rfl
  | some g' =>
    dsimp only
    by_cases hk : e.kind = .order
    · rw [if_pos hk]
      unfold countLoss
      have b1 : (bump .lost s).orders.lost.get g' = s.orders.lost.get g' := rfl
      rw [b1]
      by_cases hgg : g' = g
      · subst hgg
        by_cases hl : s.orders.lost.get g' < 2
        · rw [if_pos hl]
          refine ⟨by simp [setLost, hk, hl], ?_, ?_, fun f h => h⟩
          · rw [if_neg (by omega)]; rfl
          · rintro ⟨_, h, _⟩; omega
        · rw [if_neg hl]
          refine ⟨by simp [setLost, hk, hl], ?_, ?_, fun f h => deliverUnreachable_flag_of _ _ h⟩
          · rw [deliverUnreachable_gate]
            have : (setLost g' 3 (bump .lost s)).gate g' = s.gate g' := rfl
            rw [this]; simp [hk]; congr 1; simp; omega
          · rintro ⟨_, _, h⟩; exact deliverUnreachable_flag _ _ h
      · by_cases hl : s.orders.lost.get g' < 2
        · rw [if_pos hl]
          refine ⟨?_, ?_, ?_, fun f h => h⟩
          · simp [setLost, hk, hgg, Tab.get_set_ne _ _ (Ne.symm hgg)]
          · simp [hgg]; rfl
          · simp [hgg]
        · rw [if_neg hl]
          refine ⟨?_, ?_, ?_, fun f h => deliverUnreachable_flag_of _ _ h⟩
          · simp [setLost, hk, hgg, Tab.get_set_ne _ _ (Ne.symm hgg)]
          · rw [deliverUnreachable_gate]; simp [hgg, Ne.symm hgg]; rfl
          · simp [hgg]
    · rw [if_neg hk]; simp [hk]; rfl

/-- Everything that the expiry of some entries does to a gate (R144, R155). -/
theorem expireEntries_gate (es : List InFlight) (s : State) (g : GateNo) :
   let t := es.foldl expireEntry s
   let k := (es.filter fun e => InFlight.losesFor e g).length
   t.orders.lost.get g = (if k = 0 then s.orders.lost.get g else min (s.orders.lost.get g + k) 3)
   ∧ (k = 0 ∨ s.orders.lost.get g + k < 3 → t.gate g = s.gate g)
   ∧ (1 ≤ k → 3 ≤ s.orders.lost.get g + k → (s.gate g).Losable → t.gate g = { s.gate g with state := .unreachable, count := 0 }
       ∧ flagIn .gateUnreachable t.report.flags = true)
   ∧ (¬ (s.gate g).Losable → t.gate g = s.gate g)
   ∧ ∀ f, flagIn f s.report.flags = true → flagIn f t.report.flags = true := by
  induction es generalizing s with
  | nil => simp
  | cons e es ih =>
    dsimp only
    rw [List.foldl_cons, List.filter_cons]
    obtain ⟨a1, a2, a3, a4⟩ := expireEntry_gate e s g
    obtain ⟨b1, b2, b3, b4, b5⟩ := ih (expireEntry s e)
    by_cases hL : InFlight.losesFor e g = true
    · simp only [hL, if_true, List.length_cons, true_and] at a1 a2 a3 ⊢
      generalize (List.filter (fun e => InFlight.losesFor e g) es).length = k at *
      generalize List.foldl expireEntry (expireEntry s e) es = t at *
      rw [a1] at b1 b2 b3
      refine ⟨?_, ?_, ?_, ?_, fun f h => b5 f (a4 f h)⟩
      · rw [b1]; repeat' split
        all_goals omega
      · intro h
        have hl : s.orders.lost.get g < 2 := by omega
        rw [if_neg (by omega)] at a2
        rw [← a2]; apply b2; rw [if_pos hl]; omega
      · intro _ h3 hst
        by_cases hl : s.orders.lost.get g < 2
        · rw [if_neg (by omega)] at a2
          rw [if_pos hl] at b3
          rw [a2] at b3
          exact b3 (by omega) (by omega) hst
        · have hc : 2 ≤ s.orders.lost.get g ∧ (s.gate g).Losable := ⟨by omega, hst⟩
          rw [if_pos hc] at a2
          rw [a2] at b4
          exact ⟨b4 (by simp), b5 _ (a3 hc)⟩
      · intro hst
        rw [if_neg (fun h => hst h.2)] at a2
        rw [a2] at b4; exact b4 hst
    · simp only [hL] at a1 a2 ⊢
      have a1' : (expireEntry s e).orders.lost.get g = s.orders.lost.get g := by simpa using a1
      have a2' : (expireEntry s e).gate g = s.gate g := by simpa using a2
      rw [a1'] at b1 b2 b3; rw [a2'] at b2 b3 b4
      exact ⟨by simpa using b1, by simpa using b2, by simpa using b3, b4, fun f h => b5 f (a4 f h)⟩

/-- R144: each expiry is counted. -/
theorem expireEntries_lost (es : List InFlight) (s : State) (h : s.counter .lost ≤ 65535) :
    (es.foldl expireEntry s).counter .lost = min (s.counter .lost + es.length) 65535 := by
  induction es generalizing s with
  | nil => simp [h]
  | cons e es ih =>
    rw [List.foldl_cons, ih, expireEntry_lost]
    · simp [wordMax]; omega
    · rw [expireEntry_lost]; unfold wordMax; omega

theorem expireEntries_ring (es : List InFlight) (s : State) : (es.foldl expireEntry s).ring = s.ring := by
  induction es generalizing s with
  | nil => rfl
  | cons e es ih => rw [List.foldl_cons, ih]; simp

/-- The arbiter adds at most one in-flight entry, sent now, and none while RO is sending. -/
theorem arbitrate_inFlight (s : State) :
    ∃ more, (arbitrate s).ring.inFlight = s.ring.inFlight ++ more ∧ more.length ≤ 1 ∧ (∀ e ∈ more, e.sent = s.ring.ms)
      ∧ (s.ring.ro ≠ none → more = []) := by
  by_cases h : s.ring.ro ≠ none
  · refine ⟨[], ?_, by simp, by simp, fun _ => rfl⟩
    unfold arbitrate; rw [if_neg (fun e => h e.2)]; simp
  · have f1 : ∃ more, (takeRelayThenFeed s).ring.inFlight = s.ring.inFlight ++ more ∧ more.length ≤ 1
        ∧ (∀ e ∈ more, e.sent = s.ring.ms) := by
      unfold takeRelayThenFeed; repeat' split
      · exact ⟨[], by simp⟩
      · exact ⟨_, rfl, by simp, by simp⟩
      · exact ⟨[], by simp⟩
      · exact ⟨[], by simp⟩
    have f2 : ∃ more, (takeOrderThenRest s).ring.inFlight = s.ring.inFlight ++ more ∧ more.length ≤ 1
        ∧ (∀ e ∈ more, e.sent = s.ring.ms) := by
      unfold takeOrderThenRest; repeat' split
      · exact ⟨_, rfl, by simp, by simp⟩
      · exact f1
      · exact f1
    have f3 : ∃ more, (arbitrate s).ring.inFlight = s.ring.inFlight ++ more ∧ more.length ≤ 1 ∧ (∀ e ∈ more, e.sent = s.ring.ms) := by
      unfold arbitrate arbiterChoice; repeat' split
      · exact ⟨[], by simp⟩
      · exact f2
      · exact f2
      · exact ⟨[], by simp⟩
    obtain ⟨m, a, b, c⟩ := f3
    exact ⟨m, a, b, c, fun e => absurd e h⟩

/-- The end of an event adds at most one in-flight entry, sent now, and none while RO is sending. -/
theorem closeEvent_inFlight (s : State) :
    ∃ more, (closeEvent s).ring.inFlight = s.ring.inFlight ++ more ∧ more.length ≤ 1 ∧ (∀ e ∈ more, e.sent = s.ring.ms)
      ∧ (s.ring.ro ≠ none → more = []) := by
  have h := arbitrate_inFlight (queueConditionReport s)
  rw [queueConditionReport_ring] at h
  unfold closeEvent; dsimp only; split
  · exact h
  · rw [queueConditionReport_ring]; exact ⟨[], by simp⟩

/-- While RO is sending, the end of an event touches the response/report queue alone of the ring's state. -/
theorem closeEvent_sending (s : State) (h : s.ring.ro ≠ none) : (closeEvent s).ring = { s.ring with feed := (closeEvent s).ring.feed } := by
  unfold closeEvent; dsimp only
  have : arbitrate (queueConditionReport s) = queueConditionReport s := by
    unfold arbitrate; rw [if_neg]; rintro ⟨_, b⟩; rw [queueConditionReport_ring] at b; exact h b
  rw [this]; split <;> exact queueConditionReport_ring s

/-- R142, R144: a millisecond advances the count and removes the entries that reach the return limit. -/
theorem millisecond_ring (s : State) :
    (millisecond s).ring = { s.ring with ms := s.ring.ms + 1, inFlight := s.ring.inFlight.filter fun e => !e.expires s.mgmt.active.t10.returnLimit (s.ring.ms + 1) } := by
  unfold millisecond; dsimp only; rw [expireEntries_ring]

theorem milliseconds_add (m n) (s : State) : milliseconds (m+n) s = milliseconds n (milliseconds m s) := by
    induction m generalizing s with
    | zero => simp [milliseconds]
    | succ m ih => rw [Nat.succ_add]; exact ih _

end Sys2Proof.Machine
end

