-- ==== Sys2Proof/Laws/Rating.lean ====
section
/-! SUPPORT. The forward and the inverse rating: the references in order, the reference discharge over a segment, and the opening that the
inverse rating finds. -/

namespace Sys2Proof.Machine

/-- The references of an ascending rating set are in order. -/
theorem ascending_get {n : Nat} (t : Tab Nat (n+1)) (h : ascending false t.items = true) (k : Fin n) : t.get k.castSucc ≤ t.get k.succ := by
  obtain ⟨l, hl⟩ := t
  have key : ∀ (l : List Nat), ascending false l = true → ∀ i (h : i + 1 < l.length), l[i] ≤ l[i+1] := by
    intro l
    induction l with
    | nil => intro _ i h; simp at h
    | cons a l ih =>
      intro h i hi
      cases l with
      | nil => simp at hi
      | cons b l =>
        simp [ascending] at h
        cases i with
        | zero => exact h.1
        | succ i => exact ih h.2 i (by simpa using hi)
  exact key l h k.val (by omega)

theorem referenceAt_segment_or (r : RatingSet) (k : Fin 8) (o : Nat) (h1 : 125 * k.val ≤ o) (h2 : o ≤ 125 * k.val + 125) :
   referenceAt r o = r.q.get k.castSucc + (r.q.get k.succ - r.q.get k.castSucc) * (o - 125 * k.val) / 125 ∨ (o = 125 * k.val + 125 ∧ k.val < 7 ∧ referenceAt r o = r.q.get k.succ) := by
  have c : ∀ j : Nat, j < 8 → ∀ (hj : j = k.val), Fin.ofNat 9 j = k.castSucc ∧ Fin.ofNat 9 (j + 1) = k.succ := by
    intro j hj e; subst e; constructor <;> (apply Fin.ext; simp [Fin.ofNat]; omega)
  by_cases h : o < 125 * k.val + 125 ∨ k.val = 7
  · left
    have hk : min (o / 125) 7 = k.val := by omega
    obtain ⟨a, b⟩ := c k.val k.isLt rfl
    simp only [referenceAt, hk, a, b]
  · right
    refine ⟨by omega, by omega, ?_⟩
    have hk : min (o / 125) 7 = k.val + 1 := by omega
    have e : Fin.ofNat 9 (k.val + 1) = k.succ := (c k.val k.isLt rfl).2
    simp only [referenceAt, hk, e]
    have : o - 125 * (k.val + 1) = 0 := by omega
    simp [this]

/-- The reference discharge over segment `k`, its ends included (R28). -/
theorem referenceAt_segment (r : RatingSet) (hasc : ascending false r.q.items = true) (k : Fin 8) (o : Nat) (h1 : 125 * k.val ≤ o) (h2 : o ≤ 125 * k.val + 125) :
   referenceAt r o = r.q.get k.castSucc + (r.q.get k.succ - r.q.get k.castSucc) * (o - 125 * k.val) / 125 := by
  have hs := ascending_get r.q hasc k
  rcases referenceAt_segment_or r k o h1 h2 with h | ⟨h, -, h'⟩
  · exact h
  · rw [h', h]
    have : 125 * k.val + 125 - 125 * k.val = 125 := by omega
    rw [this, Nat.mul_div_cancel _ (by norm_num)]; omega

theorem referenceAt_succ (r : RatingSet) (hasc : ascending false r.q.items = true) (o : Nat) (h : o < 1000) : referenceAt r o ≤ referenceAt r (o + 1) := by
  have hk : o / 125 < 8 := by omega
  rw [referenceAt_segment r hasc ⟨o / 125, hk⟩ o (by simp; omega) (by simp; omega), referenceAt_segment r hasc ⟨o / 125, hk⟩ (o + 1) (by simp; omega) (by simp; omega)]
  apply Nat.add_le_add_left
  apply Nat.div_le_div_right
  apply Nat.mul_le_mul_left; omega

/-- The reference discharge is monotone (R29). -/
theorem referenceAt_mono (r : RatingSet) (hasc : ascending false r.q.items = true) (o1 o2 : Nat) (h : o1 ≤ o2) (h2 : o2 ≤ 1000) : referenceAt r o1 ≤ referenceAt r o2 := by
  induction o2 with
  | zero => have : o1 = 0 := by omega
            subst this; exact le_rfl
  | succ n ih =>
    by_cases e : o1 = n + 1
    · subst e; exact le_rfl
    · exact (ih (by omega) (by omega)).trans (referenceAt_succ r hasc n (by omega))

/-- The reference discharge is exact at the references (R29). -/
theorem referenceAt_reference (r : RatingSet) (hasc : ascending false r.q.items = true) (k : Fin 9) : referenceAt r (125 * k.val) = r.q.get k := by
  by_cases h : k.val < 8
  · rw [referenceAt_segment r hasc ⟨k.val, h⟩ _ (by simp) (by simp)]
    simp only [Nat.sub_self, Nat.mul_zero, Nat.zero_div, Nat.add_zero]; rfl
  · have : k.val = 8 := by omega
    have hs := ascending_get r.q hasc 7
    rw [referenceAt_segment r hasc 7 _ (by simp; omega) (by simp; omega)]
    rw [this]
    have e : k = Fin.succ 7 := by apply Fin.ext; simp [this]
    rw [e]
    have : 125 * 8 - 125 * (7 : Fin 8).val = 125 := by decide
    rw [this, Nat.mul_div_cancel _ (by norm_num)]; omega

/-- A product shifted down reaches `q` exactly when its factor reaches the quotient rounded up. -/
theorem divCeil_le_iff (q f x : Nat) (hf : 1 ≤ f) : divCeil (q * 4096) f ≤ x ↔ q ≤ x * f / 4096 := by
  unfold divCeil
  rw [Nat.le_div_iff_mul_le (by norm_num)]
  rw [Nat.div_le_iff_le_mul_add_pred (by omega)]
  constructor
  · intro h
    have : q * 4096 ≤ f * x := by omega
    rw [Nat.mul_comm x f]; exact this
  · intro h
    rw [Nat.mul_comm x f] at h
    omega

/-- A forward rating reaches `q` exactly when the reference discharge reaches the reference need (R28, R30). -/
theorem le_forwardRating_iff (r : RatingSet) (b) (q o : Nat) (hf : 1 ≤ r.f.get b) (hq : q ≤ 65535) : q ≤ forwardRating r b o ↔ referenceNeed r b q ≤ referenceAt r o := by
  unfold forwardRating referenceNeed
  rw [divCeil_le_iff _ _ _ hf]
  unfold wordMax; omega

/-- From segment `k` on, the opening found is the least whose reference discharge reaches the need (R30). -/
theorem inverseFrom_spec (r : RatingSet) (ha : ascending false r.q.items = true) (need : Nat) (k : Nat) (hk : k ≤ 8) 
  (hlow : ∀ o, o < 125 * k → referenceAt r o < need) (htop : need ≤ r.q.get 8) :
   let o := inverseFrom need (r.q.get ⟨k, by omega⟩) (r.q.items.drop (k+1)) k
   o ≤ 1000 ∧ need ≤ referenceAt r o ∧ ∀ o', o' < o → referenceAt r o' < need := by
  induction hn : 8 - k generalizing k with
  | zero =>
    have : k = 8 := by omega
    subst this
    have hd : r.q.items.drop 9 = [] := by rw [List.drop_eq_nil_iff]; rw [r.q.size]
    simp only [hd, inverseFrom, fullStroke]
    refine ⟨le_rfl, ?_, ?_⟩
    · rw [show 1000 = 125 * (8 : Fin 9).val from rfl, referenceAt_reference r ha 8]; exact htop
    · intro o' h; exact hlow o' (by omega)
  | succ n ih =>
    have hk' : k < 8 := by omega
    have hd : r.q.items.drop (k + 1) = r.q.get ⟨k + 1, by omega⟩ :: r.q.items.drop (k + 2) := by
      rw [List.drop_eq_getElem_cons (by rw [r.q.size]; omega)]; rfl
    rw [hd]
    unfold inverseFrom
    dsimp only
    have hq0 : r.q.get ⟨k, by omega⟩ = r.q.get (Fin.castSucc ⟨k, hk'⟩) := rfl
    have hq1 : r.q.get ⟨k + 1, by omega⟩ = r.q.get (Fin.succ ⟨k, hk'⟩) := rfl
    rw [hq0, hq1]
    by_cases h1 : need ≤ r.q.get (Fin.succ ⟨k, hk'⟩)
    · rw [if_pos h1]
      by_cases h0 : need ≤ r.q.get (Fin.castSucc ⟨k, hk'⟩)
      · rw [if_pos h0]
        refine ⟨by omega, ?_, hlow⟩
        have := referenceAt_reference r ha (Fin.castSucc ⟨k, hk'⟩)
        simp at this; rw [this]; exact h0
      · rw [if_neg h0]
        set q0 := r.q.get (Fin.castSucc ⟨k, hk'⟩) with e0
        set q1 := r.q.get (Fin.succ ⟨k, hk'⟩) with e1
        set w := divCeil (125 * (need - q0)) (q1 - q0) with hw
        have hpos : 0 < q1 - q0 := by omega
        have hW : ∀ x, w ≤ x ↔ need - q0 ≤ (q1 - q0) * x / 125 := by
          intro x
          rw [hw, divCeil, Nat.le_div_iff_mul_le (by norm_num), Nat.div_le_iff_le_mul_add_pred hpos]
          constructor
          · intro h; omega
          · intro h; omega
        have hw125 : w ≤ 125 := by rw [hW, Nat.mul_div_cancel _ (by norm_num)]; omega
        have hw1 : 1 ≤ w := by
          by_contra h
          have := (hW 0).1 (by omega)
          simp at this; omega
        refine ⟨by omega, ?_, ?_⟩
        · rw [referenceAt_segment r ha ⟨k, hk'⟩ (125 * k + w) (by simp) (by simp; omega)]
          have := (hW w).1 le_rfl
          rw [← e0, ← e1, show 125 * k + w - 125 * (⟨k, hk'⟩ : Fin 8).val = w by simp]
          omega
        · intro o' h
          by_cases hl : o' < 125 * k
          · exact hlow o' hl
          · rw [referenceAt_segment r ha ⟨k, hk'⟩ o' (by simp; omega) (by simp; omega), ← e0, ← e1]
            have hx : ¬ w ≤ o' - 125 * k := by omega
            rw [hW] at hx
            simp only at *
            omega
    · rw [if_neg h1]
      refine ih (k + 1) (by omega) ?_ (by omega)
      intro o h
      by_cases hl : o < 125 * k
      · exact hlow o hl
      · have := referenceAt_mono r ha o (125 * (k+1)) (by omega) (by omega)
        have e := referenceAt_reference r ha (Fin.succ ⟨k, hk'⟩)
        simp only [Fin.val_succ] at e
        omega

end Sys2Proof.Machine
end

