-- ==== Sys2Proof/Laws/Release.lean ====
section
/-! SUPPORT. The release computation: each part of a computation by the stage that gives it. Cite these in place of unfolding
`computeTiered`: the kernel must not be made to evaluate a sum over the gates. -/

namespace Sys2Proof.Machine

theorem Snapshot.active_iff (sn : Snapshot) (g : GateNo) : sn.active g = true ↔ (sn.gates.get g).state = .active :=
  decide_eq_true_iff

theorem Snapshot.isFixed_iff (sn : Snapshot) (g : GateNo) :
    sn.isFixed g = true ↔ (sn.gates.get g).state ≠ .absent ∧ (sn.gates.get g).state ≠ .active :=
  decide_eq_true_iff

/-- R62: when SCHEDULE takes its target from the plan. -/
theorem Snapshot.planInForce_iff (sn : Snapshot) :
    sn.planInForce = true ↔ sn.run ≠ .stopped ∧ sn.gateOpen = true ∧ sn.planRelease ≠ none := by
  unfold Snapshot.planInForce
  cases sn.planRelease <;> simp

/-- R76: when the rate limit has held a gate short. -/
theorem Snapshot.slowed_iff (sn : Snapshot) (targets : Tab Nat 16) (commands : Tab (Option Nat) 16) :
    sn.slowed targets commands = true
      ↔ ∃ g, (sn.gates.get g).state = .active ∧ commands.get g ≠ some (targets.get g) := by
  unfold Snapshot.slowed
  rw [List.any_eq_true]
  constructor
  · rintro ⟨g, -, h⟩
    rw [Bool.and_eq_true, Snapshot.active_iff, decide_eq_true_iff] at h
    exact ⟨g, h⟩
  · rintro ⟨g, h⟩
    refine ⟨g, List.mem_finRange g, ?_⟩
    rw [Bool.and_eq_true, Snapshot.active_iff, decide_eq_true_iff]
    exact h

/-- R68. -/
theorem Snapshot.fixedSum_eq (sn : Snapshot) :
    sn.fixedSum
      = sumGates fun g =>
          if (sn.gates.get g).state ≠ .absent ∧ (sn.gates.get g).state ≠ .active then
            sn.qf g (if (sn.gates.get g).fresh = true then (sn.gates.get g).measured
              else (sn.gates.get g).commanded.getD 0)
          else 0 := by
  unfold Snapshot.fixedSum
  refine congrArg sumGates (funext fun g => ?_)
  simp only [Snapshot.isFixed_iff]
  rfl

/-- R69. -/
theorem Snapshot.minSum_eq (sn : Snapshot) :
    sn.minSum = sumGates fun g => if (sn.gates.get g).state = .active then sn.qf g (sn.effMin g) else 0 := by
  unfold Snapshot.minSum
  refine congrArg sumGates (funext fun g => ?_)
  simp only [Snapshot.active_iff]

/-- R75. -/
theorem Snapshot.delivered_eq (sn : Snapshot) (commands : Tab (Option Nat) 16) :
    sn.delivered commands
      = min ((sumGates fun g =>
            if (sn.gates.get g).state = .active then ((commands.get g).map (sn.qf g)).getD 0 else 0)
          + sn.fixedSum) 1048575 := by
  unfold Snapshot.delivered plantMax
  refine congrArg (fun x => min (x + sn.fixedSum) 1048575) (congrArg sumGates (funext fun g => ?_))
  simp only [Snapshot.active_iff]
  split
  · cases commands.get g <;> rfl
  · rfl

/-- R74: everything the rate limit does. -/
theorem rateLimited_spec (limit old target : Nat) :
    min old target ≤ rateLimited limit old target ∧ rateLimited limit old target ≤ max old target
      ∧ rateLimited limit old target ≤ old + limit ∧ old ≤ rateLimited limit old target + limit
      ∧ (old ≤ target + limit → target ≤ old + limit → rateLimited limit old target = target)
      ∧ (old + limit < target → rateLimited limit old target = old + limit)
      ∧ (target + limit < old → rateLimited limit old target = old - limit) := by
  unfold rateLimited
  split <;> omega

/-- R26: every band below the one found ends below the head, and the one found does not, but for the last. -/
theorem bandOf_spec (ends : Tab Nat 8) (head : Nat) :
    (∀ i : BandNo, i < bandOf ends head → ends.get i < head) ∧ (head ≤ ends.get (bandOf ends head) ∨ bandOf ends head = 7) := by
  obtain ⟨items, size⟩ := ends
  match items, size with
  | [a, b, c, d, e, f, g, h], _ =>
    unfold bandOf
    simp only [bandFrom]
    repeat' split
    all_goals
      refine ⟨fun i hi => ?_, ?_⟩
      · fin_cases i <;> first | (simp [Tab.get] at *; omega) | (exact absurd hi (by decide))
      · simp [Tab.get, Fin.ofNat] <;> omega

/-! ### The parts of a SCHEDULE or PASS_THROUGH computation -/

theorem compute_tiered (sn : Snapshot) (h : sn.mode = .schedule ∨ sn.mode = .passThrough) : compute sn = computeTiered sn := by
  unfold compute
  rcases h with h | h <;> rw [h]

@[simp] theorem computeTiered_qT (sn : Snapshot) : (computeTiered sn).results.qT = sn.target := rfl
@[simp] theorem computeTiered_qTPrev (sn : Snapshot) : (computeTiered sn).results.qTPrev = sn.target := rfl
@[simp] theorem computeTiered_qA (sn : Snapshot) : (computeTiered sn).results.qA = sn.qA := rfl
@[simp] theorem computeTiered_fixed (sn : Snapshot) : (computeTiered sn).results.fixed = sn.fixedSum := rfl
@[simp] theorem computeTiered_qR (sn : Snapshot) : (computeTiered sn).results.qR = sn.target - sn.fixedSum := rfl
@[simp] theorem computeTiered_qR2 (sn : Snapshot) : (computeTiered sn).results.qR2 = sn.target - sn.fixedSum - sn.minSum := rfl
@[simp] theorem computeTiered_remainder (sn : Snapshot) : (computeTiered sn).results.remainder = sn.fill.1 := rfl
@[simp] theorem computeTiered_excess (sn : Snapshot) : (computeTiered sn).results.excess = sn.fixedSum - sn.target := rfl
@[simp] theorem computeTiered_qD (sn : Snapshot) :
    (computeTiered sn).results.qD = sn.delivered (computeTiered sn).commands := rfl
@[simp] theorem computeTiered_shortfall (sn : Snapshot) :
    (computeTiered sn).results.shortfall = sn.target - (computeTiered sn).results.qD := rfl

@[simp] theorem computeTiered_frozen (sn : Snapshot) :
    (computeTiered sn).results.frozen = if sn.mode = .schedule ∧ ¬ sn.planInForce then sn.frozen else sn.target := rfl

@[simp] theorem computeTiered_allot (sn : Snapshot) (g : GateNo) :
    (computeTiered sn).results.allot.get g = allotmentIn sn.fill.2 g := by
  unfold computeTiered
  exact Tab.get_ofFn _ g

@[simp] theorem computeTiered_target (sn : Snapshot) (g : GateNo) :
    (computeTiered sn).targets.get g = sn.targetOpening g (allotmentIn sn.fill.2 g) := by
  unfold computeTiered
  dsimp only
  rw [Tab.get_ofFn, Tab.get_ofFn]

@[simp] theorem computeTiered_command (sn : Snapshot) (g : GateNo) :
    (computeTiered sn).commands.get g
      = (sn.gates.get g).commanded.map fun old => rateLimited (sn.govSet.t1.get g).rate old ((computeTiered sn).targets.get g) := by
  unfold computeTiered
  exact Tab.get_ofFn _ g

@[simp] theorem computeTiered_excessRaised (sn : Snapshot) :
    (computeTiered sn).excessRaised = decide (sn.target + sn.govSet.t10.tolerance < sn.fixedSum) := by
  unfold computeTiered
  dsimp only

theorem computeTiered_shortfallRaised_iff (sn : Snapshot) :
    (computeTiered sn).shortfallRaised = true
      ↔ (computeTiered sn).results.qD + sn.govSet.t10.tolerance < sn.target := by
  have h : (computeTiered sn).shortfallRaised
      = decide (sn.govSet.t10.tolerance < sn.target - (computeTiered sn).results.qD) := by
    unfold computeTiered
    dsimp only
  rw [h, decide_eq_true_iff]
  omega

/-- R76. -/
theorem computeTiered_cause (sn : Snapshot) :
    (computeTiered sn).results.cause
      = if (computeTiered sn).shortfallRaised = true then
          causeOf (decide (sn.govSet.t10.tolerance < sn.fill.1))
            (sn.slowed (computeTiered sn).targets (computeTiered sn).commands)
        else .none := by
  unfold computeTiered
  dsimp only

end Sys2Proof.Machine
end

