-- ==== Sys2Proof/Laws/Reports.lean ====
section
/-! SUPPORT. What a run of raise events leaves of the report record: `Track s u` says it of `u` from the quiet state `s` before. -/

namespace Sys2Proof.Machine

/-- The flag is unmasked in `s`, clear in `s` and set in `u` (R175). -/
abbrev NewlySet (s u : State) (f : Flag) : Prop :=
  flagIn f u.report.flags = true ∧ flagIn f s.report.flags = false ∧ flagIn f s.mgmt.active.t10.mask = false

/-- From `s` to `u` only raise events have touched the flags, the allowance, the waiting mark and the mark of a report due (R174,
R175). -/
structure Track (s u : State) : Prop where
  mask : u.mgmt.active.t10.mask = s.mgmt.active.t10.mask
  mono : ∀ f, flagIn f s.report.flags = true → flagIn f u.report.flags = true
  allow : u.report.allowance = true ↔ s.report.allowance = true ∧ ¬ ∃ f, flagIn f u.report.flags = true
      ∧ flagIn f s.report.flags = false ∧ flagIn f s.mgmt.active.t10.mask = false
  due : u.marks.reportDue = true ↔ s.report.allowance = true ∧ ∃ f, flagIn f u.report.flags = true ∧ flagIn f s.report.flags = false
      ∧ flagIn f s.mgmt.active.t10.mask = false
  wait : u.report.allowance = true → u.report.waiting = s.report.waiting
  again : s.report.allowance = true → u.report.allowance = false →
    (u.report.waiting = true ↔ ∃ f f', f ≠ f' ∧ NewlySet s u f ∧ NewlySet s u f')

theorem Track.refl (s : State) (hd : s.marks.reportDue = false) : Track s s := by
  refine ⟨rfl, fun _ h => h, ?_, ?_, fun _ => rfl, fun h h' => by rw [h] at h'; cases h'⟩
  · constructor
    · intro h; refine ⟨h, ?_⟩; rintro ⟨f, a, b, _⟩; rw [a] at b; cases b
    · exact fun h => h.1
  · rw [hd]; constructor
    · intro h; cases h
    · rintro ⟨_, f, a, b, _⟩; rw [a] at b; cases b

theorem Track.raise {s u : State} (t : Track s u) (f) : Track s (Machine.raise f u) := by
  by_cases hf : flagIn f u.report.flags = true
  · unfold Machine.raise; rw [if_pos hf]; exact t
  · have hf' : flagIn f u.report.flags = false := by simpa using hf
    have hs : flagIn f s.report.flags = false := by
      cases h : flagIn f s.report.flags
      · rfl
      · exact absurd (t.mono f h) hf
    have hmono : ∀ g, flagIn g s.report.flags = true → flagIn g (Machine.raise f u).report.flags
        = true := fun g h => flagIn_raise_of (t.mono g h)
    have hnew : (∃ g, flagIn g (Machine.raise f u).report.flags = true ∧ flagIn g s.report.flags = false
        ∧ flagIn g s.mgmt.active.t10.mask = false) ↔
       (∃ g, flagIn g u.report.flags = true ∧ flagIn g s.report.flags = false
           ∧ flagIn g s.mgmt.active.t10.mask = false) ∨ flagIn f s.mgmt.active.t10.mask = false := by
      simp only [flagIn_raise, Bool.or_eq_true, decide_eq_true_eq]
      constructor
      · rintro ⟨g, a | rfl, b, c⟩
        · exact .inl ⟨g, a, b, c⟩
        · exact .inr c
      · rintro (⟨g, a, b, c⟩ | h)
        · exact ⟨g, .inl a, b, c⟩
        · exact ⟨f, .inr rfl, hs, h⟩
    have hmask : (Machine.raise f u).mgmt.active.t10.mask = s.mgmt.active.t10.mask := by simpa using t.mask
    have M := t.mask
    have A := t.allow; have D := t.due; have W := t.wait
    refine ⟨hmask, hmono, ?_, ?_, ?_, ?_⟩
    · rw [hnew]; unfold Machine.raise; rw [if_neg hf]; dsimp only; rw [M]
      by_cases hm : flagIn f s.mgmt.active.t10.mask = true
      · rw [if_pos hm]; dsimp only; rw [A, hm]; simp
      · rw [if_neg hm]
        have hm' : flagIn f s.mgmt.active.t10.mask = false := by simpa using hm
        by_cases ha : u.report.allowance = true
        · rw [if_pos ha]; simp [hm']
        · rw [if_neg ha]; dsimp only; constructor
          · exact fun h => absurd h ha
          · exact fun h => absurd (.inr hm') h.2
    · rw [hnew]; unfold Machine.raise; rw [if_neg hf]; dsimp only; rw [M]
      by_cases hm : flagIn f s.mgmt.active.t10.mask = true
      · rw [if_pos hm]; dsimp only; rw [D, hm]; simp
      · rw [if_neg hm]
        have hm' : flagIn f s.mgmt.active.t10.mask = false := by simpa using hm
        by_cases ha : u.report.allowance = true
        · rw [if_pos ha]; dsimp only; constructor
          · intro _; exact ⟨(A.1 ha).1, .inr hm'⟩
          · intro _; rfl
        · rw [if_neg ha]; dsimp only; rw [D]; constructor
          · exact fun h => ⟨h.1, .inl h.2⟩
          · rintro ⟨h, h2⟩; refine ⟨h, ?_⟩
            by_contra hx; exact ha (A.2 ⟨h, hx⟩)
    · unfold Machine.raise; rw [if_neg hf]; dsimp only; rw [M]
      by_cases hm : flagIn f s.mgmt.active.t10.mask = true
      · rw [if_pos hm]; exact W
      · rw [if_neg hm]
        by_cases ha : u.report.allowance = true
        · rw [if_pos ha]; intro h; cases h
        · rw [if_neg ha]; intro h; exact absurd h ha
    · intro h1
      have key : ∀ g, NewlySet s (Machine.raise f u) g ↔ NewlySet s u g ∨ (g = f ∧ flagIn f s.mgmt.active.t10.mask = false) := by
        intro g; simp only [NewlySet, flagIn_raise, Bool.or_eq_true, decide_eq_true_eq]
        constructor
        · rintro ⟨a | rfl, b, c⟩
          · exact .inl ⟨a, b, c⟩
          · exact .inr ⟨rfl, c⟩
        · rintro (⟨a, b, c⟩ | ⟨rfl, c⟩)
          · exact ⟨.inl a, b, c⟩
          · exact ⟨.inr rfl, hs, c⟩
      have hfu : ¬ NewlySet s u f := fun h => hf h.1
      simp only [key]
      unfold Machine.raise; rw [if_neg hf]; dsimp only; rw [M]
      by_cases hm : flagIn f s.mgmt.active.t10.mask = true
      · rw [if_pos hm]; dsimp only; intro h2; rw [t.again h1 h2]; simp [hm]
      · rw [if_neg hm]
        have hm' : flagIn f s.mgmt.active.t10.mask = false := by simpa using hm
        by_cases ha : u.report.allowance = true
        · rw [if_pos ha]; dsimp only; intro _
          have none : ∀ g, ¬ NewlySet s u g := fun g hg => (A.1 ha).2 ⟨g, hg⟩
          constructor
          · intro h; cases h
          · rintro ⟨g, g', hne, h | h, h' | h'⟩
            · exact absurd h (none _)
            · exact absurd h (none _)
            · exact absurd h' (none _)
            · exact absurd (h.1.trans h'.1.symm) hne
        · rw [if_neg ha]; dsimp only; intro _
          have : ∃ g, NewlySet s u g := by
            by_contra hx; exact ha (A.2 ⟨h1, hx⟩)
          obtain ⟨g, hg⟩ := this
          refine ⟨fun _ => ⟨g, f, ?_, .inl hg, .inr ⟨rfl, hm'⟩⟩, fun _ => rfl⟩
          rintro rfl; exact hfu hg

theorem Track.raiseIf {s u : State} (t : Track s u) (c f) : Track s (Machine.raiseIf c f u) := by
  unfold Machine.raiseIf; split
  · exact t.raise f
  · exact t

/-- The other parts of the state do not matter. -/
theorem Track.of {s u v : State} (t : Track s u) (h1 : v.mgmt = u.mgmt)
    (h2 : v.report.flags = u.report.flags) (h3 : v.report.allowance = u.report.allowance)
    (h4 : v.report.waiting = u.report.waiting) (h5 : v.marks.reportDue = u.marks.reportDue) :
    Track s v :=
  ⟨by rw [h1]; exact t.1, by rw [h2]; exact t.2, by rw [h2, h3]; exact t.3, by rw [h2, h5]; exact t.4, by rw [h3, h4]; exact t.5,
    by unfold NewlySet; rw [h2, h3, h4]; exact t.6⟩

/-- What a completion raises before it reports (R175). -/
theorem completeBody_track (sn : Snapshot) (s : State) (hq : Quiet s) :
    Track s (completeBody sn { s with engine := { s.engine with computation := none } }) := by
  have t0 : Track s { s with engine := { s.engine with computation := none } } := (Track.refl s (by rw [hq])).of rfl rfl rfl rfl rfl
  generalize ({ s with engine := { s.engine with computation := none } } : State) = u at *
  unfold completeBody; split
  · split
    · unfold completeLeaving; dsimp only
      have t1 : Track s (leaveInitial u) := by
        unfold leaveInitial; dsimp only; apply Track.raiseIf; exact t0.of rfl rfl rfl rfl rfl
      have t2 : Track s (bumplessStart sn.gates (leaveInitial u)) := by
        unfold bumplessStart; dsimp only; apply Track.raiseIf
        exact t1.of (by simp) (by simp) (by simp) (by simp) (by simp)
      have t3 := t2.raiseIf sn.overRange .headRange
      exact t3.of (by simp [writeResults]) (by simp [writeResults]) (by simp [writeResults]) (by simp [writeResults])
          (by simp [writeResults])
    · exact t0.of rfl rfl rfl rfl rfl
  · unfold completeGoverned; dsimp only
    apply Track.raiseIf; apply Track.raiseIf
    have t3 := t0.raiseIf sn.overRange .headRange
    exact t3.of (by simp [writeResults, writeTargets]) (by simp [writeResults, writeTargets]) (by simp [writeResults,
        writeTargets]) (by simp [writeResults, writeTargets]) (by simp [writeResults, writeTargets])

theorem Track.recomputeMode {s u : State} (t : Track s u) : Track s (Machine.recomputeMode u) := by
  unfold Machine.recomputeMode; split
  · exact t
  · dsimp only; apply Track.raiseIf; exact t.of rfl rfl rfl rfl rfl

theorem Track.evaluateStage {s u : State} (t : Track s u) (hw : Nat) : Track s (Machine.evaluateStage hw u) := by
  unfold Machine.evaluateStage fallTest fallStage; dsimp only; repeat' split
  all_goals first
    | exact t
    | exact t.of rfl rfl rfl rfl rfl
    | (apply Track.recomputeMode; apply Track.raise; exact t.of rfl rfl rfl rfl rfl)

theorem Track.vote {s u : State} (t : Track s u) (a b : Bool) : Track s (Machine.vote a b u) := by
  have h : Track s (formVotes a b u) := by
    unfold formVotes; dsimp only; apply Track.raiseIf; exact t.of rfl rfl rfl rfl rfl
  unfold Machine.vote; dsimp only; split
  · split
    · exact h.evaluateStage _
    · exact h
  · exact t

/-- What an expiry raises (R175), from the state with the allowance restored and a pending switch taken. -/
theorem expiryWork_track (s : State) (hd : s.marks.reportDue = false) :
    Track (if s.mgmt.switchPending = true then switchSets (openExpiry s) else openExpiry s) (expiryWork s) := by
  have t1 : Track (if s.mgmt.switchPending = true then switchSets (openExpiry s) else openExpiry s)
      (takePendingSwitch (openExpiry s)) := by
    unfold takePendingSwitch
    have hp : (openExpiry s).mgmt.switchPending = s.mgmt.switchPending := rfl
    rw [hp]
    by_cases h : s.mgmt.switchPending = true
    · rw [if_pos h, if_pos h]
      have a0 := (Track.refl (switchSets (openExpiry s)) hd).raise .setSwitched
      unfold setSwitch; dsimp only
      have a1 := a0.of (v := switchOrders s.mgmt.active (switchGates s.mgmt.active (raise .setSwitched (switchSets (openExpiry s)))))
        (by simp) (by simp) (by simp) (by simp) (by simp)
      have a2 : Track (switchSets (openExpiry s)) (switchSlots s.mgmt.active
          (switchOrders s.mgmt.active (switchGates s.mgmt.active (raise .setSwitched (switchSets (openExpiry s)))))) := by
        unfold switchSlots; dsimp only; apply Track.vote; exact a1.of rfl rfl rfl rfl rfl
      have a3 := a2.of (v := switchTimer (switchReach s.mgmt.active (switchSlots s.mgmt.active
          (switchOrders s.mgmt.active (switchGates s.mgmt.active (raise .setSwitched (switchSets (openExpiry s))))))))
        (by simp) (by simp) (by simp) (by simp) (by simp)
      unfold switchMode; split
      · apply Track.recomputeMode; apply Track.raise; exact a3.of rfl rfl rfl rfl rfl
      · exact a3
    · rw [if_neg h, if_neg h]; exact Track.refl _ hd
  generalize (if s.mgmt.switchPending = true then switchSets (openExpiry s) else openExpiry s) = b at *
  unfold expiryWork; dsimp only
  have t2 : Track b (timerExpiry (takePendingSwitch (openExpiry s))) := by
    unfold timerExpiry; dsimp only; apply Track.raiseIf; exact t1.of rfl rfl rfl rfl rfl
  have t3 : Track b (gateExpiry (timerExpiry (takePendingSwitch (openExpiry s)))) := by
    unfold gateExpiry raiseGateFlags; dsimp only
    apply Track.raiseIf; apply Track.raiseIf; apply Track.raiseIf
    split
    · exact t2.of rfl rfl rfl rfl rfl
    · unfold trackGates; dsimp only; apply Track.raiseIf
      exact t2.of (by simp) (by simp) (by simp) (by simp) (by simp)
  have t4 : Track b (measurementExpiry (gateExpiry (timerExpiry (takePendingSwitch (openExpiry s))))) := t3.raiseIf _ _
  have t5 : Track b (reachExpiry (measurementExpiry (gateExpiry (timerExpiry (takePendingSwitch (openExpiry s)))))) :=
    t4.raiseIf _ _
  unfold modeExpiry; dsimp only
  apply Track.raiseIf
  split <;> exact t5.of (by simp) (by simp) (by simp) (by simp) (by simp)

/-- The report of a completion marks the event exactly when it joins the response/report queue, and no condition report stays called for
(R175, R176). -/
theorem completionReport_marks (w : State) :
    ((completionReport w).marks.placed = true
        ↔ w.marks.placed = true ∨ (completionReport w).ring.feed ≠ w.ring.feed)
      ∧ (completionReport w).marks.reportDue = false := by
  have key : ∀ k (u : State),
      ((queueReport k u).marks.placed = true ↔ u.marks.placed = true ∨ (queueReport k u).ring.feed ≠ u.ring.feed)
        ∧ (queueReport k u).marks.reportDue = u.marks.reportDue := by
    intro k u
    have hne : reportFrames k u ≠ [] := by
      intro h
      have := congrArg List.length h
      simp [reportFrames, numberParts_length] at this
    unfold queueReport; dsimp only; split
    · refine ⟨⟨fun _ => .inr ?_, fun _ => rfl⟩, rfl⟩
      show u.ring.feed ++ _ ≠ _
      simpa using hne
    · refine ⟨⟨fun h => .inl h, ?_⟩, rfl⟩
      rintro (h | h)
      · exact h
      · exact absurd rfl h
  unfold completionReport; dsimp only; split
  · exact ⟨(key _ _).1, (key _ _).2⟩
  · exact ⟨⟨fun h => .inl h, by rintro (h | h); exact h; exact absurd rfl h⟩, rfl⟩

end Sys2Proof.Machine
end

