-- ==== Sys2Proof/WellFormed.lean ====
section
/-! DEFINITION. Which commands stand for something that can reach the part: the lengths a frame's LEN byte can carry and a
frame of the row's kind can have. A command outside these bounds still has a meaning (it is received as the frame its
fields make); the bounds are what a sender on the ring can produce. -/

namespace Sys2Proof

/-- A payload whose length the LEN byte can carry (R146: LEN is one byte). -/
def lenFits (payload : List Byte) : Bool := payload.length ≤ 255

/-- The operand bytes of a lawful REQUEST: 0 to 58 of them (Table 8-3). -/
def operandsFit (n : Nat) : Bool := n ≤ 58

/-- The commands that a sender on the ring, or a pin, can produce. -/
def Instr.wellFormed : Instr → Bool
  | .resetAssert => true
  | .resetRelease _ _ => true
  | .secondTick => true
  | .slotStale => true
  | .reachDueProcessing => true
  | .cadenceExpiry => true
  | .computationCompletion => true
  | .returnLimitExpiry _ => true
  | .sendEnd => true
  | .sampleArrival _ entries => 1 ≤ entries.length && entries.length ≤ 12
  | .noticeArrival _ _ => true
  | .phaseArrival _ _ => true
  | .orderReturn _ _ => true
  | .ownFrameReturn _ _ payload => payload.length ≤ 60
  | .frameRelay _ _ payload => payload.length ≤ 60
  | .readEntry _ operands => operandsFit operands.length
  | .writeEntry _ operands => operandsFit operands.length
  | .commit _ operands => operandsFit operands.length
  | .cancel _ operands => operandsFit operands.length
  | .compareCopies _ operands => operandsFit (operands.length + 1)
  | .compareData _ operands => operandsFit (operands.length + 1)
  | .lock _ operands => operandsFit operands.length
  | .enable _ _ extra => operandsFit (extra.length + 2)
  | .disable _ _ extra => operandsFit (extra.length + 2)
  | .hold _ _ extra => operandsFit (extra.length + 2)
  | .release _ _ extra => operandsFit (extra.length + 2)
  | .clearFault _ _ extra => operandsFit (extra.length + 2)
  | .modeRequest _ operands => operandsFit operands.length
  | .planRun _ operands => operandsFit operands.length
  | .planStop _ operands => operandsFit operands.length
  | .planGate _ operands => operandsFit operands.length
  | .clearConditions _ operands => operandsFit operands.length
  | .clearCounters _ operands => operandsFit operands.length
  | .restart _ operands => operandsFit operands.length
  | .requestBadCode _ _ operands => operandsFit operands.length
  | .checkErrorFrame _ _ payload _ => lenFits payload
  | .unexpectedKindFrame _ _ payload => payload.length ≤ 60
  | .malformedFrame _ _ payload => payload.length ≤ 60

end Sys2Proof
end

