-- ==== Sys2Proof/Tests/Slice0.lean ====
section
/-! SUPPORT. The model's own tests. First the smoke test of WellFormed, then worked figures of spec/ (each names its section), then one or two
single events for each command with the result the rules give, then for each statement with hypotheses a state and operands that
meet them. -/

namespace Sys2Proof.Tests

-- One kernel evaluation at a time, so that the file needs the memory of one.
set_option Elab.async false

open Sys2Proof.Machine

/-! ### A small station -/

/-- A header of a frame from node 7 to `dest`. -/
def hdr (dest : Byte) : Header := { dest := dest, src := 7, seq := 5, result := 0, hops := 0 }

/-- A manager at node 9, tag 3. -/
def mgr : Requester := ⟨9, 3⟩

/-- A T1 entry. -/
def gateCfg (c : GateClass) (node : Byte) (slot : SlotNo) (set : RatingSetNo) (maxOpening rate urgent : Nat) : GateCfg :=
  { cls := c, node := node, positionSlot := slot, ratingSet := set, minOpening := 0, maxOpening := maxOpening, rate := rate,
    urgentRate := urgent }

/-- Set 0 of Table 2-3. -/
def spillRating : RatingSet :=
  { q := ⟨[0, 400, 900, 1500, 2200, 2900, 3500, 4000, 4400], rfl⟩, f := (Tab.const 8 4096).put 3 2896 }

/-- Set 1 of Table 2-3. -/
def unitRating : RatingSet :=
  { q := ⟨[0, 300, 700, 1100, 1500, 1850, 2150, 2400, 2550], rfl⟩, f := (Tab.const 8 4096).put 3 3686 }

/-- The gates of section 4.11, the plan of section 6.10 and the records of section 5.8 (the followed stations are 3, 2 and 6),
with a gauge of each level on channels 0 to 3 of node 7 and the gates' positions on channels 5 to 7. -/
def testSet : GovSet :=
  { emptySet with
    t1 :=
      ((emptySet.t1.put 0 (gateCfg .unit 20 5 1 1000 20 20)).put 4 (gateCfg .spill 24 6 0 1000 50 100)).put 5
        (gateCfg .spill 25 7 0 1000 50 100)
    t2 := [⟨0, 0⟩, ⟨4, 1⟩, ⟨5, 1⟩]
    t3 := (emptySet.t3.put 0 spillRating).put 1 unitRating
    t4 := ⟨[500, 1000, 1500, 2000, 2500, 3000, 3500, 4000], rfl⟩
    plan := { emptyPlanHeader with count := 3, pointStep := 1, phaseFollow := true, followed := 3, phaseOffset := -2 }
    steps := ((emptySet.steps.put 0 ⟨4, 6000, .ramp⟩).put 1 ⟨3, 6000, .step⟩).put 2 ⟨3, 5000, .ramp⟩
    t6 :=
      ⟨((List.range 8).map fun i => { inUse := true, source := 7, channel := byte i, slot := byte i })
        ++ List.replicate 24 emptySubscription, by decide⟩
    t7 := emptySet.t7.put 2 { emptySlotParams with jumpLimit := 50 }
    t8 := { hw1 := some 0, hw2 := some 1, hw3 := some 2, tw1 := some 3, tw2 := none, inflow := some 4 }
    t9 :=
      ((emptySet.t9.put 0
        { inUse := true, station := 3, bands := ⟨[2000, 5000, 10000, 1048575], rfl⟩,
          times := ⟨[5400, 4200, 3300, 2700], rfl⟩ }).put 1
        { inUse := true, station := 2, bands := ⟨[3000, 8000, 20000, 1048575], rfl⟩,
          times := ⟨[9000, 7800, 6600, 6000], rfl⟩ }).put 2
        { inUse := true, station := 6, bands := ⟨[500, 1500, 4000, 1048575], rfl⟩,
          times := ⟨[2400, 1800, 1500, 1200], rfl⟩ }
    t10 :=
      { emptyPlantParams with
        rlim := 300
        hwSet := 12300
        kl := 40
        tAlert := 12400
        tFlood := 12500
        tExtreme := 12600
        hys := 30
        fallDwell := 120 } }

/-- A gate record. -/
def gateRec (st : GateState) (commanded : Option Nat) : Gate :=
  { state := st, target := 500, commanded := commanded, measured := 500, fresh := true, count := 0 }

/-- A slot. -/
def slotOf (value : Nat) (q : Quality) (age : Nat) : Slot := { value := value, quality := q, age := age, candidate := none }

/-- The station at address 1, station index 4, in HOLD: gate 0 ACTIVE, gate 4 HELD, gate 5 OFFLINE, its slots GOOD. -/
def live : State :=
  let s := State.pinReset 1 4 []
  { s with
    mgmt := { s.mgmt with active := testSet, shadow := testSet }
    gates :=
      ((s.gates.put 0 (gateRec .active (some 500))).put 4 (gateRec .held (some 400))).put 5 (gateRec .offline none)
    meas :=
      { slots :=
          ((((s.meas.slots.put 0 (slotOf 1800 .good 3)).put 3 (slotOf 0 .good 3)).put 5 (slotOf 500 .good 3)).put 6
            (slotOf 400 .good 3)).put 7 (slotOf 640 .good 3)
        hw := ⟨1800, true⟩, tw := ⟨0, true⟩, head := ⟨1800, true⟩ }
    mode := { s.mode with effective := .hold }
    clock := { s.clock with ssc := 100000 }
    timer := { s.timer with schedule := 100005 } }

/-- The live station with gate 0 in another state. -/
def withGate0 (r : Gate) : State := { live with gates := live.gates.put 0 r }

/-- The live station with a frame on RO, so that nothing is sent at the end of an event. -/
def busy : State := { live with ring := { live.ring with ro := some ⟨9, 1, 0x51, 0, [], 0, 0⟩ } }

/-- What a command leaves. -/
def after (c : Instr) (s : State) : State :=
  match exec c s with
  | .next t => t
  | .fault _ => s
  | .refused _ => s

/-- The payload of the last frame in the response/report queue: code, tag, status, part index, part count, data. -/
def lastPayload (s : State) : List Byte := ((s.ring.feed.getLast?).map (·.payload)).getD []

/-- The frame that RO is sending. -/
def sent (s : State) : List Byte := (s.ring.ro.map (·.payload)).getD []

/-! ### WellFormed: an ill-formed term for each check -/

/-- Sixty-one bytes. -/
def long : List Byte := List.replicate 61 0

/-- One term for each check of WellFormed, over its bound by one (Table 8-3: a REQUEST has at most 58 operand bytes, the action
byte and the form byte among them; R136: no payload is longer than 60 bytes; R146: LEN is one byte). -/
def illFormed : List Instr :=
  [.sampleArrival (hdr 1) [], .sampleArrival (hdr 1) (List.replicate 13 ⟨0, 0, 0⟩), .ownFrameReturn (hdr 1) 0x42 long,
    .frameRelay (hdr 1) 0x60 long, .readEntry mgr (long.drop 2), .writeEntry mgr (long.drop 2), .commit mgr (long.drop 2),
    .cancel mgr (long.drop 2), .compareCopies mgr (long.drop 3), .compareData mgr (long.drop 3), .lock mgr (long.drop 2),
    .enable mgr 0 (long.drop 4), .disable mgr 0 (long.drop 4), .hold mgr 0 (long.drop 4), .release mgr 0 (long.drop 4),
    .clearFault mgr 0 (long.drop 4), .modeRequest mgr (long.drop 2), .planRun mgr (long.drop 2), .planStop mgr (long.drop 2),
    .planGate mgr (long.drop 2), .clearConditions mgr (long.drop 2), .clearCounters mgr (long.drop 2),
    .restart mgr (long.drop 2), .requestBadCode mgr 99 (long.drop 2),
    .checkErrorFrame (hdr 1) 0 (List.replicate 256 0) 0, .unexpectedKindFrame (hdr 1) 0x60 long,
    .malformedFrame (hdr 1) 0x31 long]

theorem test_wellFormed_refuses : ∀ i ∈ illFormed, i.wellFormed = false := by decide +kernel

theorem test_wellFormed_accepts :
    (Instr.readEntry mgr (long.drop 3)).wellFormed = true ∧ (Instr.enable mgr 0 (long.drop 5)).wellFormed = true
      ∧ (Instr.frameRelay (hdr 1) 0x60 (long.drop 1)).wellFormed = true
      ∧ (Instr.sampleArrival (hdr 1) (List.replicate 12 ⟨0, 0, 0⟩)).wellFormed = true := by decide +kernel

/-- No row of the table gives bits (log entry 11). -/
theorem test_no_words : decodeTableWord 8 0 = none ∧ decodeTableWord 0 0 = none := by decide

/-! ### Worked figures -/

/-- Table 2-4. -/
theorem test_bands :
    ([0, 500, 501, 1800, 4000, 4200].map fun h => (bandOf testSet.t4 h).val) = [0, 0, 1, 3, 7, 7]
      ∧ headOverRange testSet.t4 4000 = false ∧ headOverRange testSet.t4 4200 = true := by decide +kernel

/-- Table 2-5. -/
theorem test_forward :
    ([920, 1000].map (forwardRating unitRating 3)) = [2208, 2294]
      ∧ ([550, 576, 575, 1000].map (forwardRating spillRating 3)) = [1753, 1855, 1852, 3110] := by decide +kernel

/-- Section 2.5, INVERSE: 1,853 deci-cumec of set 0; section 4.12: 2,483 and 2,482; a need above Q[8] is capped (R32). -/
theorem test_inverse :
    ([1853, 2483, 2482, 3111].map (inverseRating spillRating 3)) = [576, 753, 753, 1000] := by decide +kernel

/-- The snapshot of section 4.11. -/
def case1 : Snapshot :=
  { hw := ⟨1800, true⟩, tw := ⟨0, true⟩, head := ⟨1800, true⟩, stage := .normal, mode := .schedule, duty := false, step := 0,
    cadence := 0, run := .running, gateOpen := true, planRelease := some 6000,
    gates :=
      ((live.gates.put 0 (gateRec .active (some 900))).put 4 (gateRec .active (some 500))).put 5
        (gateRec .active (some 500)),
    govSet := testSet, qA := 0, localInflow := ⟨0, true⟩, qTPrev := 5800, frozen := 0 }

/-- Table 4-7 and the openings of section 4.11. -/
theorem test_case1 :
    let c := compute case1
    c.results.qT = 6000 ∧ c.results.qR2 = 6000 ∧ c.results.remainder = 0 ∧ c.results.qD = 5714
      ∧ c.results.shortfall = 286 ∧ c.results.cause = .rate
      ∧ [c.results.allot.get 0, c.results.allot.get 4, c.results.allot.get 5] = [2294, 1853, 1853]
      ∧ [c.commands.get 0, c.commands.get 4, c.commands.get 5] = [some 920, some 550, some 550] := by decide +kernel

/-- The snapshot of section 4.12. -/
def case2 : Snapshot :=
  { case1 with
    hw := ⟨12350, true⟩
    stage := .flood
    mode := .passThrough
    qA := 9001
    qTPrev := 8500
    gates :=
      ((((live.gates.put 0 (gateRec .active (some 980))).put 1
        { gateRec (.fault .stuck) (some 460) with measured := 400 }).put 4 (gateRec .active (some 720))).put 5
        (gateRec .active (some 740))).put 6 (gateRec .active (some 380))
    govSet :=
      { testSet with
        t1 := (testSet.t1.put 1 (gateCfg .unit 21 0 1 1000 20 20)).put 6 (gateCfg .spill 26 0 0 300 50 100)
        t2 := testSet.t2 ++ [⟨6, 1⟩]
        t10 := { testSet.t10 with qMinEnv := 500 } } }

/-- Table 4-9 and the openings of section 4.12. -/
theorem test_case2 :
    let c := compute case2
    c.results.qT = 9126 ∧ c.results.fixed = 1061 ∧ c.results.qR2 = 8065 ∧ c.results.remainder = 0
      ∧ c.results.qD = 9228 ∧ c.results.shortfall = 0
      ∧ ([0, 4, 5, 6].map fun g => c.results.allot.get g) = [2294, 2483, 2482, 806]
      ∧ ([0, 4, 5, 6].map fun g => c.commands.get g) = [some 1000, some 753, some 753, some 330] := by decide +kernel

/-- Section 4.13. -/
theorem test_surcharge :
    let c := compute
      { case2 with
        mode := .surcharge
        stage := .extreme
        gates :=
          (((case2.gates.put 0 (gateRec .active (some 1000))).put 4 (gateRec .active (some 753))).put 5
            (gateRec .active (some 753))).put 6 (gateRec .active (some 330)) }
    c.results.qD = 9691 ∧ c.results.qT = 9691 ∧ c.results.fixed = 1061
      ∧ ([0, 4, 5, 6].map fun g => c.commands.get g) = [some 1000, some 853, some 853, some 300] := by decide +kernel

/-- Table 6-5. -/
theorem test_plan_releases :
    ([(0, 0), (0, 1), (0, 2), (0, 3), (1, 0), (2, 0), (2, 1), (2, 2)].map fun p => planReleaseAt testSet p.1 p.2)
      = [5250, 5500, 5750, 6000, 6000, 5667, 5334, 5000] := by decide +kernel

/-- The check value of R148's polynomial and start value over the digits 1 to 9. -/
theorem test_check : crc [0x31, 0x32, 0x33, 0x34, 0x35, 0x36, 0x37, 0x38, 0x39] = 0x29b1 := by decide +kernel

/-! ### The pins and the clock -/

theorem test_resetAssert :
    (after .resetAssert busy).bypassOutput = true ∧ (after .resetAssert busy).ring.ro = none := by decide +kernel

theorem test_resetRelease :
    (after (.resetRelease 255 7) busy).ring.port = .permanentBypass
      ∧ (after (.resetRelease 254 7) busy) = State.pinReset 254 7 [] := by decide +kernel

theorem test_secondTick :
    (after .secondTick live).clock.ssc = 100001 ∧ ((after .secondTick live).meas.slots.get 0).age = 4
      ∧ ((after .secondTick live).meas.slots.get 1).age = 0
      ∧ (after .secondTick { live with clock := { live.clock with ssc := 100004 } }).clock.expiryDue = true := by
  decide +kernel

/-- A tick's staleness evaluation is still to be done; slot 0 is at its limit of 10, slot 3 past it. -/
def ageing : State :=
  { live with
    meas := { live.meas with slots := (live.meas.slots.put 0 (slotOf 1800 .good 10)).put 3 (slotOf 0 .good 11) }
    clock := { live.clock with staleDue := true } }

theorem test_slotStale :
    ((after .slotStale ageing).meas.slots.get 0).quality = .good
      ∧ ((after .slotStale ageing).meas.slots.get 3).quality = .stale
      ∧ (after .slotStale ageing).meas.tw = ⟨0, false⟩ := by decide +kernel

/-- Two entries of origin 1, one of them due now, and a tick's due processing still to be done. -/
def flowing : State :=
  { live with
    reach :=
      { origins := live.reach.origins.put 1 { arriving := 11000, lastSeq := some 62, latestDue := some 100200 }
        queue := [⟨1, 61, 11200, 100000⟩, ⟨1, 62, 11225, 100200⟩] }
    clock := { live.clock with reachDue := true } }

theorem test_reachDue :
    ((after .reachDueProcessing flowing).reach.origins.get 1).arriving = 11200
      ∧ (after .reachDueProcessing flowing).reach.queue = [⟨1, 62, 11225, 100200⟩] := by decide +kernel

/-! ### The cadence -/

/-- An expiry has fallen due. -/
def due : State := { live with clock := { live.clock with expiryDue := true } }

/-- The expiry restores the schedule and begins a computation. The plan is STOPPED. -/
theorem test_expiry :
    (after .cadenceExpiry due).timer.schedule = 100005 ∧ (after .cadenceExpiry due).engine.computation.isSome = true
      ∧ (after .cadenceExpiry due).timer.step = 0 := by decide +kernel

/-- The expiry at SSC 210 of section 6.10: the last cadence of the last step; CYCLIC wraps. -/
theorem test_expiry_wraps :
    (after .cadenceExpiry { due with timer := { due.timer with run := .running, step := 2, cadence := 2 } }).timer.step = 0
      ∧ (after .cadenceExpiry
          { due with timer := { due.timer with run := .running, step := 0, cadence := 3 } }).timer.step = 1 := by
  decide +kernel

/-- A computation is in flight with a snapshot in a mode. -/
def computing (sn : Snapshot) : State :=
  { busy with gates := case1.gates, engine := { busy.engine with computation := some sn } }

/-- The completion of section 4.11: orders for gates 0, 4 and 5, and SHORTFALL. -/
theorem test_completion :
    ((after .computationCompletion (computing case1)).orders.queue.map fun o => (o.gate, o.opening, o.urgent))
        = [(0, 920, false), (4, 550, false), (5, 550, false)]
      ∧ flagIn .shortfall (after .computationCompletion (computing case1)).report.flags = true := by decide +kernel

/-- The snapshot of section 4.14: gate 5 is not fresh. -/
def leaving : Snapshot :=
  { case1 with
    mode := .initial
    gates :=
      ((live.gates.put 0 { gateRec .active none with measured := 640 }).put 4
        { gateRec .active none with measured := 300 }).put 5 { gateRec .active none with fresh := false } }

/-- Section 4.14: the sum of 2,503, FAULT(STUCK) for gate 5, and the mode of Table 7-3 for a requested HOLD. -/
theorem test_completion_leaving :
    let t := after .computationCompletion
      { computing leaving with gates := leaving.gates, mode := { live.mode with effective := .initial } }
    t.engine.results.qT = 2503 ∧ (t.gate 0).commanded = some 640 ∧ (t.gate 5).state = .fault .stuck
      ∧ (t.gate 5).commanded = some 0 ∧ t.mode.effective = .hold
      ∧ (t.orders.queue.map fun o => (o.gate, o.opening)) = [(0, 640), (4, 300)] := by decide +kernel

/-! ### The ring -/

/-- One ORDER for gate 0 is in flight, sent at millisecond 0 with sequence number 101. -/
def ordered : State := { busy with ring := { busy.ring with inFlight := [⟨.order, 101, some 0, 0⟩] } }

/-- Section 9.4: the order comes back by neither of 19 milliseconds and is LOST at the twentieth. -/
theorem test_returnLimit :
    (after (.returnLimitExpiry 19) ordered).counter .lost = 0
      ∧ (after (.returnLimitExpiry 20) ordered).counter .lost = 1
      ∧ (after (.returnLimitExpiry 20) ordered).orders.lost.get 0 = 1 := by decide +kernel

/-- R141: an order goes before a relay buffer of one frame; the frame that RO ended sending is gone. -/
theorem test_sendEnd :
    sent (after .sendEnd
      { busy with
        orders := { busy.orders with queue := [⟨20, 0, 500, false, 5⟩] }
        ring := { busy.ring with relay := [⟨9, 7, 0x60, 5, [1], 0, 1⟩] } }) = [0, 1, 244, 0, 5] := by decide +kernel

/-- R38, R39: raw 500 at gain 4096 is 500; a jump of 51 past the limit of 50 is held as the candidate (R41). -/
theorem test_sample :
    ((after (.sampleArrival (hdr 255) [⟨0, 500, 0⟩]) busy).meas.slots.get 0).value = 500
      ∧ ((after (.sampleArrival (hdr 255) [⟨2, 451, 0⟩])
            { busy with meas := { busy.meas with slots := busy.meas.slots.put 2 (slotOf 400 .good 0) } }).meas.slots.get
          2).candidate = some 451 := by decide +kernel

/-- Section 5.8, event 1: the due second 103,180 is raised to the latest due. -/
theorem test_notice :
    let t := after (.noticeArrival (hdr 255) ⟨3, 418, 6000, 120⟩)
      { busy with
        reach :=
          { busy.reach with
            origins := busy.reach.origins.put 0 { arriving := 5200, lastSeq := some 417, latestDue := some 103500 } } }
    t.reach.queue = [⟨0, 418, 6000, 103500⟩] ∧ t.counter .clampedDue = 1 := by decide +kernel

/-- Section 6.10 at SSC 217: step 1, cadence 1 at offset -2 is step 0, cadence 3. -/
theorem test_phase :
    let t := after (.phaseArrival (hdr 255) ⟨3, 1, 1⟩) { busy with timer := { busy.timer with run := .running, cadence := 1 } }
    t.timer.step = 0 ∧ t.timer.cadence = 3 ∧ t.timer.schedule = 100005
      ∧ (after (.phaseArrival (hdr 255) ⟨3, 5, 0⟩) busy).counter .phaseRange = 1 := by decide +kernel

/-- Section 9.4: RESULT 2 puts an ACTIVE gate in LOCAL; the same frame again is STRAY. -/
theorem test_orderReturn :
    let h : Header := { hdr 20 with src := 1, seq := 101, result := 2 }
    let t := after (.orderReturn h ⟨0, 500, 0, 5⟩) ordered
    (t.gate 0).state = .localControl ∧ t.counter .stray = 0 ∧ (after (.orderReturn h ⟨0, 500, 0, 5⟩) t).counter .stray = 1 := by
  decide +kernel

theorem test_ownFrameReturn :
    (after (.ownFrameReturn { hdr 9 with src := 1, seq := 7 } 0x42 [3, 0, 128])
      { busy with ring := { busy.ring with inFlight := [⟨.response, 7, none, 0⟩] } }).ring.inFlight = [] := by decide +kernel

/-- R139: HOPS 61 is relayed as 62, and HOPS 62 is dropped. -/
theorem test_relay :
    ((after (.frameRelay { hdr 40 with hops := 61 } 0x60 [1]) busy).ring.relay.map (·.hops)) = [62]
      ∧ (after (.frameRelay { hdr 40 with hops := 62 } 0x60 [1]) busy).counter .hopDrops = 1 := by decide +kernel

theorem test_checkError :
    (after (.checkErrorFrame (hdr 1) 0x41 [14, 3] 0) live).counter .checkErrors = 1 := by decide +kernel

theorem test_unexpectedKind :
    (after (.unexpectedKindFrame (hdr 1) 0x60 []) live).counter .unexpectedKind = 1 := by decide +kernel

theorem test_malformed :
    (after (.malformedFrame (hdr 1) 0x31 [3, 0, 1]) live).counter .malformed = 1 := by decide +kernel

/-! ### Requests -/

/-- The plan header of T5 (Table 10-11) in one entry of data. -/
theorem test_readEntry :
    lastPayload (after (.readEntry mgr [0, 5, 0, 1]) busy)
      = [3, 0, 128, 0, 5, 0, 1, 3, 0, 1, 0, 0, 0, 1, 3, 255, 254] := by decide +kernel

/-- T8 written in one segment; a role of 32 is outside its range (R166). -/
theorem test_writeEntry :
    (after (.writeEntry mgr [8, 0, 128, 0, 1, 2, 3, 255, 5]) busy).mgmt.shadow.t8.inflow = some 5
      ∧ lastPayload (after (.writeEntry mgr [8, 0, 128, 32, 1, 2, 3, 255, 5]) busy) = [3, 3, 128, 0] := by decide +kernel

/-- R167: a shadow with T_ALERT not below T_FLOOD fails check 8. -/
theorem test_commit :
    (after (.commit mgr []) busy).mgmt.switchPending = true
      ∧ lastPayload (after (.commit mgr [])
          { busy with mgmt := { busy.mgmt with shadow :=
            { testSet with t10 := { testSet.t10 with tAlert := 12500 } } } }) = [3, 7, 128, 8] := by decide +kernel

/-- A switch is pending. -/
def switching : State := { busy with mgmt := { busy.mgmt with switchPending := true } }

theorem test_cancel :
    (after (.cancel mgr []) switching).mgmt.switchPending = false
      ∧ lastPayload (after (.cancel mgr []) switching) = [3, 0, 128, 2] := by decide +kernel

/-- The shadow differs from the active set in T10 alone. -/
def edited : State :=
  { busy with mgmt := { busy.mgmt with shadow := { testSet with t10 := { testSet.t10 with rlim := 400 } } } }

theorem test_compareCopies :
    lastPayload (after (.compareCopies mgr [0]) edited) = [3, 0, 128, 1, 0, 10, 0] := by decide +kernel

theorem test_compareData :
    lastPayload (after (.compareData mgr [8, 0, 0, 0, 1, 2, 3, 255, 4]) busy) = [3, 0, 128, 0, 0]
      ∧ lastPayload (after (.compareData mgr [8, 0, 0, 0, 1, 2, 3, 255, 5]) busy) = [3, 0, 128, 1, 0, 0] := by decide +kernel

/-- R170: RLIM is a limit field, so the copies differ and LOCK is refused. -/
theorem test_lock :
    (after (.lock mgr []) busy).mgmt.lock = true ∧ lastPayload (after (.lock mgr []) edited) = [3, 9, 128] := by decide +kernel

/-- R12: gate 5 is OFFLINE and its position of 640 per mille is fresh. -/
theorem test_enable :
    ((after (.enable mgr 5 []) busy).gate 5).state = .active
      ∧ ((after (.enable mgr 5 []) busy).gate 5).commanded = some 640 := by decide +kernel

theorem test_disable :
    ((after (.disable mgr 0 []) busy).gate 0).state = .offline
      ∧ lastPayload (after (.disable mgr 16 []) busy) = [3, 2, 128] := by decide +kernel

theorem test_hold :
    ((after (.hold mgr 0 []) busy).gate 0).state = .held
      ∧ lastPayload (after (.hold mgr 5 []) busy) = [3, 9, 128] := by decide +kernel

theorem test_release :
    ((after (.release mgr 4 []) busy).gate 4).state = .active
      ∧ lastPayload (after (.release mgr 0 []) busy) = [3, 9, 128] := by decide +kernel

/-- R14: a FAULT gate whose position slot 5 reads 500 afresh. -/
theorem test_clearFault :
    let s := { busy with gates := busy.gates.put 0 (gateRec (.fault .drive) (some 100)) }
    ((after (.clearFault mgr 0 []) s).gate 0).state = .active
      ∧ ((after (.clearFault mgr 0 []) s).gate 0).commanded = some 500 := by decide +kernel

theorem test_modeRequest :
    (after (.modeRequest mgr [1]) busy).mode.effective = .schedule
      ∧ lastPayload (after (.modeRequest mgr [4]) busy) = [3, 3, 128, 3, 3] := by decide +kernel

theorem test_planRun :
    (after (.planRun mgr [0]) busy).timer.startPending = true
      ∧ lastPayload (after (.planRun mgr [0]) busy) = [3, 0, 128, 1, 0, 0, 0] := by decide +kernel

theorem test_planStop :
    (after (.planStop mgr []) { busy with timer := { busy.timer with run := .running, startPending := true } }).timer
      = busy.timer := by decide +kernel

theorem test_planGate :
    (after (.planGate mgr [1]) busy).timer.gateOpen = false
      ∧ lastPayload (after (.planGate mgr [2]) busy) = [3, 3, 128] := by decide +kernel

/-- R174: of the flags 0 and 15, flag 15 is named and flag 0 stays. -/
theorem test_clearConditions :
    let s := { busy with report := { busy.report with flags := 0x8001 } }
    (after (.clearConditions mgr [0x80, 0]) s).report.flags = 1
      ∧ lastPayload (after (.clearConditions mgr [0x80, 0]) s) = [3, 0, 128, 0, 1] := by decide +kernel

theorem test_clearCounters : (after (.clearCounters mgr []) (bumpBy .stray 70000 busy)).counter .stray = 0
    ∧ (bumpBy .stray 70000 busy).counter .stray = 65535 := by decide +kernel

/-- R9, R172: HELD becomes ACTIVE with no commanded opening, and the mode INITIAL. -/
theorem test_restart :
    ((after (.restart mgr []) busy).gate 4).state = .active ∧ ((after (.restart mgr []) busy).gate 4).commanded = none
      ∧ (after (.restart mgr []) busy).mode.effective = .initial := by decide +kernel

theorem test_badCode :
    lastPayload (after (.requestBadCode mgr 0 []) busy) = [3, 3, 128]
      ∧ lastPayload (after (.requestBadCode mgr 15 []) busy) = [3, 3, 128] := by decide +kernel

/-- R162: a node that is neither of two managers is refused. -/
theorem test_notManager :
    lastPayload (after (.planStop mgr [])
      { busy with mgmt := { busy.mgmt with active := { testSet with t10 := { testSet.t10 with managerA := 8 } } } })
      = [3, 11, 128] := by decide +kernel

/-! ### The hypotheses of the statements can be met

For each statement with hypotheses, a state and operands that meet them, with a boundary value for each clause. -/

theorem live_ready : Awake live ∧ InService live ∧ Settled live ∧ Quiet live ∧ CountersInRange live := by
  unfold Awake InService Settled Quiet CountersInRange; decide +kernel

theorem busy_ready : Awake busy ∧ InService busy ∧ Settled busy ∧ Quiet busy := by
  unfold Awake InService Settled Quiet; decide +kernel

/-- A request of the longest lawful length is taken. -/
theorem busy_takeable : Takeable mgr 58 busy ∧ Takeable mgr 0 busy := by
  unfold Takeable InService Settled; decide +kernel

theorem takeable_le {n : Nat} (h : n ≤ 58) : Takeable mgr n busy := by
  obtain ⟨a, b, -, c⟩ := busy_takeable.1
  exact ⟨a, b, h, c⟩

/-- Work of the tick outstanding in each way: the staleness evaluation, due processing, both, and none. -/
theorem witness_TickWorkComesFirst :
    let both : State := { flowing with clock := { flowing.clock with staleDue := true } }
    Awake ageing ∧ InService ageing ∧ ¬ Settled ageing ∧ Settled live ∧ ringCommand .sendEnd = true
      ∧ ageing.clock.staleDue = true ∧ ageing.clock.reachDue = false
      ∧ Awake flowing ∧ flowing.clock.staleDue = false ∧ flowing.clock.reachDue = true
      ∧ Awake both ∧ both.clock.staleDue = true ∧ both.clock.reachDue = true := by
  unfold Awake InService Settled; decide +kernel

theorem witness_IdlingAndEventsWithoutCause :
    (live.pending = [] ∧ Settled live ∧ Quiet live ∧ live.clock.expiryDue = false ∧ live.engine.computation = none
        ∧ live.ring.ro = none)
      ∧ Settled (computing case1) ∧ Quiet (computing case1) ∧ (computing case1).engine.computation ≠ none := by
  unfold Settled Quiet; decide +kernel

/-- Permanent bypass, with an expiry due in it, and RESET asserted. -/
theorem witness_BypassTakesNoFrame :
    let s : State := { State.pinReset 255 0 [] with clock := due.clock }
    ¬ InService s ∧ Awake s ∧ ringCommand (.commit mgr []) = true ∧ s.clock.expiryDue = true
      ∧ (after .cadenceExpiry s).engine.computation.isSome = true ∧ ¬ Awake (after .resetAssert live)
      ∧ Instr.cadenceExpiry ≠ .resetAssert ∧ ∀ addr stn, Instr.cadenceExpiry ≠ .resetRelease addr stn := by
  refine ⟨?_, ?_, by decide, by decide +kernel, by decide +kernel, ?_, by decide, fun _ _ h => nomatch h⟩
  · unfold InService; decide +kernel
  · unfold Awake; decide +kernel
  · unfold Awake; decide +kernel

theorem witness_SecondTickEffect :
    let s : State := { live with clock := { live.clock with ssc := 4294967295 } }
    Awake s ∧ Settled s ∧ Quiet s ∧ Awake live ∧ Settled live ∧ Quiet live := by
  unfold Awake Settled Quiet; decide +kernel

/-- Slot 3 alone turns stale, past its limit by one; and a tick on which none does. -/
theorem witness_SlotStaleEffect :
    Awake ageing ∧ ageing.clock.staleDue = true
      ∧ (∀ n, n ∈ ([3] : List SlotNo) ↔
          (ageing.meas.slots.get n).quality ≠ .empty ∧ (ageing.meas.slots.get n).quality ≠ .stale
            ∧ (ageing.mgmt.active.t7.get n).staleLimit < (ageing.meas.slots.get n).age)
      ∧ (let s : State := { live with clock := { live.clock with staleDue := true } }
         Awake s ∧ s.clock.staleDue = true ∧ Quiet s
           ∧ ∀ n, (s.meas.slots.get n).quality = .empty ∨ (s.meas.slots.get n).quality = .stale
              ∨ (s.meas.slots.get n).age ≤ (s.mgmt.active.t7.get n).staleLimit) := by
  unfold Awake Quiet; decide +kernel

theorem witness_DueProcessingEffect : Awake flowing ∧ flowing.clock.reachDue = true ∧ flowing.reach.queue ≠ [] := by
  unfold Awake; decide +kernel

/-- An expiry is due and finds no computation in flight. -/
def ExpiryReady (s : State) : Prop :=
  Awake s ∧ Settled s ∧ s.clock.expiryDue = true ∧ s.engine.computation = none

/-- Entries of origin 1 due at the lookahead and after it, and a local inflow that is fresh, and none that is. -/
theorem witness_ExpiryBeginsComputation :
    let s : State := { flowing with clock := due.clock }
    ExpiryReady due ∧ ExpiryReady s ∧ s.mgmt.active.t8.inflow = some 4
      ∧ (State.pinReset 1 4 []).mgmt.active.t8.inflow = none
      ∧ (after .cadenceExpiry s).engine.computation.isSome = true
      ∧ ((after .cadenceExpiry s).engine.computation.map (·.localInflow.fresh)) = some false
      ∧ ((after .cadenceExpiry
          { s with meas := { s.meas with slots := s.meas.slots.put 4 (slotOf 70 .clamped 3) } }).engine.computation.map
            (·.localInflow)) = some ⟨70, true⟩ := by
  unfold ExpiryReady Awake Settled; decide +kernel

/-- A set that differs from the live one: gate 0 of another class, gate 1 new, gate 4 gone, gate 5 at another node; slot 0 with another
gain, slot 1 with another feeder, slot 2 with another jump limit; record 0 of another station, record 1 out of use; no plan. -/
def otherSet : GovSet :=
  { testSet with
    t1 :=
      (((testSet.t1.put 0 (gateCfg .spill 20 5 1 300 20 20)).put 1 (gateCfg .unit 21 8 1 1000 20 20)).put 4
        (gateCfg .absent 0 0 0 0 1 1)).put 5 (gateCfg .spill 26 7 0 1000 50 100)
    t6 := testSet.t6.put 1 { inUse := true, source := 7, channel := 9, slot := 1 }
    t7 := (testSet.t7.put 0 { emptySlotParams with gain := 2048 }).put 2 { emptySlotParams with jumpLimit := 51 }
    t9 := (testSet.t9.put 0 { testSet.t9.get 0 with station := 9 }).put 1 { testSet.t9.get 1 with inUse := false }
    plan := { testSet.plan with count := 0 } }

/-- An expiry that is due with a switch pending to a set, SCHEDULE requested. -/
def switchDue (set : GovSet) : State :=
  { due with mode := { due.mode with requested := .schedule }, mgmt := { due.mgmt with shadow := set, switchPending := true } }

/-- No switch pending; a switch to the other set, which meets each clause; and one to the same set, outside INITIAL and in it. -/
theorem witness_ExpiryTakesSwitch :
    let initial : State := { switchDue testSet with mode := (State.pinReset 1 4 []).mode }
    ExpiryReady due ∧ due.mgmt.switchPending = false ∧ ExpiryReady (switchDue otherSet) ∧ ExpiryReady (switchDue testSet)
      ∧ ExpiryReady initial ∧ initial.mode.effective = .initial
      ∧ (∀ g ∈ ([0, 1, 4] : List GateNo), (testSet.t1.get g).cls ≠ (otherSet.t1.get g).cls)
      ∧ (testSet.t1.get 5).cls = (otherSet.t1.get 5).cls ∧ (testSet.t1.get 5).node ≠ (otherSet.t1.get 5).node
      ∧ (∀ n ∈ ([0, 1, 2] : List SlotNo),
          (after .cadenceExpiry (switchDue otherSet)).meas.slots.get n
            = if n = 2 then live.meas.slots.get 2 else { live.meas.slots.get n with quality := .empty, age := 0 })
      ∧ otherSet.plan.count = 0 ∧ (switchDue otherSet).mode.requested = .schedule ∧ testSet.plan.count ≠ 0
      ∧ (after .cadenceExpiry (switchDue otherSet)).mode.requested = .hold
      ∧ (switchDue otherSet).mode.effective ≠ .initial
      ∧ ModeByTable { switchDue testSet with mode := { live.mode with requested := .hold } } := by
  unfold ExpiryReady Awake Settled ModeByTable; decide +kernel

/-- A plan at its first position and an empty plan. -/
theorem witness_ExpiryBeginsComputation_plan :
    ExpiryReady due ∧ (after .cadenceExpiry due).mgmt.active.plan.count = 3
      ∧ ((after .cadenceExpiry due).engine.computation.map (·.planRelease)) = some (some 5250)
      ∧ (after .cadenceExpiry (switchDue otherSet)).mgmt.active.plan.count = 0
      ∧ ((after .cadenceExpiry (switchDue otherSet)).engine.computation.map (·.planRelease)) = some none := by
  unfold ExpiryReady Awake Settled; decide +kernel

/-- Gate 0 is commanded 100 off its fresh reading, with a count of five, one short of the limit, or is LOCAL; gate 4 is held. The levels
are held, the duty's gates stand at 0, and the mode is not the requested one. -/
theorem witness_ExpiryReadsAndTracks :
    let s : State := { due with gates := due.gates.put 0 { gateRec .active (some 600) with count := 5 } }
    let u : State :=
      { due with
        gates := (due.gates.put 0 (gateRec .localControl (some 0))).put 4 (gateRec .unreachable none)
        meas := { due.meas with hw := ⟨1800, false⟩, tw := ⟨0, false⟩, slots := due.meas.slots.put 5 (slotOf 0 .good 3) }
        mgmt :=
          { due.mgmt with active := { testSet with t10 := { testSet.t10 with compGate := some 0 } } }
        mode := { due.mode with requested := .schedule, stage := .alert, dwellStart := some 99900 } }
    ExpiryReady s ∧ s.mgmt.switchPending = false ∧ s.mode.effective ≠ .initial ∧ (s.gate 0).state = .active
      ∧ (s.gate 0).commanded = some 600 ∧ ((after .cadenceExpiry s).gate 0).state = .fault .stuck
      ∧ ((after .cadenceExpiry s).gate 4).state = .held ∧ (after .cadenceExpiry s).meas.hw.fresh = true
      ∧ ExpiryReady u ∧ u.mgmt.switchPending = false ∧ (u.gate 0).state = .localControl
      ∧ ((after .cadenceExpiry u).gate 0).commanded = some 0 ∧ (after .cadenceExpiry u).mode.duty = true
      ∧ (after .cadenceExpiry u).meas.hw.fresh = false ∧ (after .cadenceExpiry u).mode.dwellStart = none
      ∧ (after .cadenceExpiry u).mode.effective ≠ (after .cadenceExpiry u).mode.requested.toMode
      ∧ ((after .cadenceExpiry u).gate 4).state = .unreachable := by
  unfold ExpiryReady Awake Settled; decide +kernel

/-- What an expiry does with the condition report while RO is sending: no flag newly set, with a report waiting from before; one, with the
allowance taken before; two; and one with no room for its two frames. An ABSENT and an OFFLINE record, in INITIAL and outside it. -/
theorem witness_ExpiryReadsAndTracks_report :
    let one : State := { due with ring := busy.ring, report := { due.report with allowance := false } }
    let clean : State :=
      { one with
        report := { one.report with waiting := true }
        meas := { due.meas with slots := due.meas.slots.put 4 (slotOf 70 .good 3) } }
    let two : State := { one with gates := due.gates.put 0 (gateRec .localControl (some 0)) }
    let full : State := { one with ring := { busy.ring with feed := List.replicate 7 ⟨9, .response, [3, 0, 128]⟩ } }
    let initial : State := { two with mode := (State.pinReset 1 4 []).mode }
    let t := after .cadenceExpiry
    (∀ s ∈ [clean, one, two, full, initial], ExpiryReady s ∧ Quiet s ∧ s.mgmt.switchPending = false ∧ s.ring.ro ≠ none
        ∧ (s.gate 1).state = .absent ∧ (s.gate 5).state = .offline)
      ∧ ([clean, one, two, full].map fun s => ((t s).report.allowance, (t s).report.waiting))
          = [(true, true), (false, false), (false, true), (false, false)]
      ∧ ([clean, one, two, full].map fun s => ((t s).ring.feed.length, (t s).counter .reportDrops))
          = [(0, 0), (2, 0), (2, 0), (7, 1)]
      ∧ initial.mode.effective = .initial ∧ (t initial).gate 0 = initial.gate 0 := by
  unfold ExpiryReady Awake Settled Quiet; decide +kernel

/-- A due expiry of a plan that is running. -/
def running (startPending : Bool) (step cadence : Nat) (kind : PlanKind) : State :=
  { due with
    timer := { due.timer with run := .running, startPending := startPending, step := step, cadence := cadence }
    mgmt := { due.mgmt with active := { testSet with plan := { testSet.plan with kind := kind } } } }

/-- A stopped plan, a start pending, a cadence with a next one in its step, the last of a step, and the last of the plan for each
kind; the three cases of a switch; the report interval and the report point. -/
theorem witness_ExpiryAdvancesPlan :
    let shorter : GovSet := { testSet with plan := { testSet.plan with count := 1 }, steps := testSet.steps.put 0 ⟨2, 6000, .step⟩ }
    (∀ s ∈ [due, running true 0 0 .cyclic, running false 0 2 .cyclic, running false 0 3 .cyclic, running false 2 2 .cyclic,
        running false 2 2 .oneShot],
      ExpiryReady s ∧ s.mgmt.switchPending = false)
      ∧ due.timer.run ≠ .running
      ∧ (∀ set ∈ [otherSet, shorter], ExpiryReady (switchDue set) ∧ (switchDue set).mgmt.switchPending = true)
      ∧ shorter.plan.count ≤ 2 ∧ (stepAt shorter 0).duration ≤ 3 ∧ otherSet.plan.count = 0
      ∧ (after .cadenceExpiry (running false 0 3 .cyclic)).report.pointDue = true
      ∧ (after .cadenceExpiry { due with timer := { due.timer with reportCount := testSet.t10.reportInterval - 1 } }).report.periodicDue
          = true := by
  unfold ExpiryReady Awake Settled; decide +kernel

theorem witness_CompletionInInitial :
    let sn : Snapshot := { leaving with hw := ⟨1800, false⟩ }
    Awake (computing sn) ∧ Settled (computing sn) ∧ (computing sn).engine.computation = some sn ∧ sn.mode = .initial
      ∧ ¬ (sn.hw.fresh = true ∧ sn.tw.fresh = true ∧ ∃ g, (sn.gates.get g).state = .active) := by
  unfold Awake Settled; decide +kernel

/-- The state has an order waiting for gate 5, which the bumpless start puts in FAULT; RO is sending in it, and idle in the second. -/
theorem witness_CompletionLeavesInitial :
    let s : State :=
      { computing leaving with
        gates := leaving.gates
        orders := { live.orders with queue := [⟨25, 5, 300, false, 5⟩] } }
    let idle : State := { s with ring := { s.ring with ro := none } }
    Awake s ∧ Settled s ∧ s.engine.computation = some leaving ∧ leaving.mode = .initial ∧ leaving.hw.fresh = true
      ∧ leaving.tw.fresh = true ∧ (∃ g, (leaving.gates.get g).state = .active) ∧ (s.gate 1).state = .absent
      ∧ (s.gate 0).state ≠ .absent ∧ (leaving.gates.get 0).fresh = true ∧ (s.gate 5).state ≠ .absent
      ∧ (leaving.gates.get 5).fresh = false ∧ s.ring.ro ≠ none ∧ Awake idle ∧ Settled idle ∧ idle.ring.ro = none
      ∧ ((after .computationCompletion s).orders.queue.map (·.gate)) = [0, 4]
      ∧ ((after .computationCompletion idle).orders.queue.map (·.gate)) = [4] := by
  unfold Awake Settled; decide +kernel

/-- Each flag of the completion that leaves INITIAL: GATE_FAULT and no other; with the stage at FLOOD and HOLD requested DEMOTED too;
and HEAD_RANGE at a head of 4,001, one past the last band end. -/
theorem witness_CompletionLeavesInitial_flags :
    let s : State := { computing leaving with gates := leaving.gates }
    let demoted : State := { s with mode := { s.mode with stage := .flood } }
    let high (n : Nat) : State := computing { leaving with head := ⟨n, true⟩ }
    let raised (u : State) : List Flag :=
      [Flag.demoted, .gateFault, .headRange].filter fun f => flagIn f (after .computationCompletion u).report.flags
    raised s = [.gateFault] ∧ raised demoted = [.demoted, .gateFault] ∧ (high 4001).gates = case1.gates
      ∧ leaving.govSet.t4.get 7 = 4000 ∧ .headRange ∈ raised (high 4001) ∧ .headRange ∉ raised (high 4000)
      ∧ (after .computationCompletion s).engine.results.qT = 2503 := by
  decide +kernel

/-- The live station with feeds. -/
def feeding (relay : Nat) (orders : List Order) (inFlight : Nat) (feed : List Outgoing) : State :=
  { live with
    orders := { live.orders with queue := orders }
    ring :=
      { live.ring with
        relay := List.replicate relay ⟨9, 7, 0x60, 5, [1], 0, 1⟩
        feed := feed
        inFlight := (List.range inFlight).map fun i => ⟨.report, byte i, none, 0⟩ } }

/-- The first case raises SHORTFALL; a fixed contribution over the target raises EXCESS; a head of 4,001 is over range. RO is sending,
and idle with 2 frames in the relay buffer and 23 entries in flight. -/
theorem witness_CompletionGoverned :
    let excess : Snapshot := { case1 with gates := live.gates, planRelease := some 0, qTPrev := 300, head := ⟨4001, true⟩ }
    let idle : State := { computing case1 with ring := (feeding 2 [] 23 []).ring }
    (∀ sn ∈ [case1, excess], Awake (computing sn) ∧ Settled (computing sn) ∧ (computing sn).engine.computation = some sn
        ∧ Quiet (computing sn) ∧ sn.mode ≠ .initial)
      ∧ (compute case1).shortfallRaised = true ∧ (compute excess).excessRaised = true
      ∧ excess.govSet.t4.get 7 < excess.head.value ∧ (computing case1).ring.ro ≠ none
      ∧ Awake idle ∧ Settled idle ∧ InService idle ∧ idle.ring.ro = none ∧ idle.ring.relay.length < 3
      ∧ idle.ring.inFlight.length < 24 ∧ sent (after .computationCompletion idle) = [0, 3, 152, 0, 5]
      ∧ ∃ g, ((after .computationCompletion idle).gate g).state.ordered = true
          ∧ ((after .computationCompletion idle).gate g).commanded ≠ none := by
  unfold Awake Settled InService Quiet; decide +kernel

/-- An order waits for gate 4, which is superseded, and the counter stands one short of its end. -/
theorem witness_OrderQueueEffects :
    let s : State := bumpBy .superseded 65534 { live with orders := { live.orders with queue := [⟨24, 4, 300, false, 5⟩] } }
    OneOrderPerGate s ∧ (s.gate 0).state = .active ∧ (s.gate 0).commanded = some 500 ∧ (s.gate 4).state = .held
      ∧ (s.gate 5).state = .offline ∧ (s.gate 1).commanded = none ∧ s.counter .superseded ≤ 65535
      ∧ (requestOrders .hold s).counter .superseded = 65535
      ∧ (requestOrders .hold s).orders.queue.map (·.gate) = [4, 0] := by
  unfold OneOrderPerGate; decide +kernel

/-- No entry expires; the third loss of an order to gate 0, at an age of the limit; one that stays at an age one below; and 19 and 20
milliseconds with RO sending. -/
theorem witness_MillisecondEffect :
    let lossy : State :=
      { ordered with
        ring := { ordered.ring with ms := 19, inFlight := [⟨.order, 101, some 0, 0⟩, ⟨.report, 102, none, 1⟩] }
        orders := { ordered.orders with lost := ordered.orders.lost.put 0 2 } }
    let t := after (.returnLimitExpiry 1) lossy
    (∀ s ∈ [ordered, lossy], Awake s ∧ Settled s ∧ Quiet s)
      ∧ (∀ e ∈ ordered.ring.inFlight, (ordered.ring.ms + 1 - e.sent).toNat < ordered.mgmt.active.t10.returnLimit)
      ∧ (t.gate 0).state = .unreachable ∧ t.orders.lost.get 0 = 3 ∧ t.ring.inFlight.map (·.seq) = [102]
      ∧ lossy.ring.ro ≠ none ∧ (after (.returnLimitExpiry 19) ordered).ring.inFlight.length = 1
      ∧ (after (.returnLimitExpiry 20) ordered).ring.inFlight = [] := by
  unfold Awake Settled Quiet; decide +kernel

theorem witness_MillisecondEffect_counters : CountersInRange ordered ∧ ∃ t, exec (.returnLimitExpiry 1) ordered = .next t := by
  refine ⟨?_, _, rfl⟩
  unfold CountersInRange; decide +kernel

theorem witness_SendEndServesFeeds :
    (InService busy ∧ Settled busy ∧ Quiet busy ∧ ∃ f, busy.ring.ro = some f)
      ∧ (∀ s ∈ [feeding 3 [⟨20, 0, 500, false, 5⟩] 0 [], feeding 1 [] 0 [], feeding 1 [⟨20, 0, 500, false, 5⟩] 24 [],
            feeding 2 [⟨20, 0, 500, false, 5⟩] 23 [], feeding 0 [] 23 [⟨9, .response, [3, 0, 128]⟩],
            feeding 0 [⟨20, 0, 500, false, 5⟩] 24 [⟨9, .response, [3, 0, 128]⟩], live],
          InService s ∧ s.ring.ro = none) := by
  refine ⟨⟨busy_ready.2.1, busy_ready.2.2.1, busy_ready.2.2.2, _, rfl⟩, ?_⟩
  unfold InService; decide +kernel

/-- The end of an event in each of its cases: nothing placed; a frame placed; a report due with room for it to the last place, and with
one place too few. -/
theorem witness_SendEndServesFeeds_ends :
    let ending (n : Nat) (m : Marks) : State := { feeding 1 [] 0 (List.replicate n ⟨9, .response, [3, 0, 128]⟩) with marks := m }
    let t (n : Nat) (m : Marks) : State := closeEvent (ending n m)
    (reportFrames 4 (ending 6 ⟨true, true⟩)).length = 2 ∧ (ending 6 ⟨true, true⟩).feedRoom = 2
      ∧ ([t 6 ⟨false, false⟩, t 6 ⟨false, true⟩, t 6 ⟨true, false⟩, t 7 ⟨true, false⟩, t 7 ⟨true, true⟩].map fun u =>
          (u.ring.ro.isSome, u.ring.feed.length, u.counter .reportDrops))
        = [(false, 6, 0), (true, 6, 0), (true, 8, 0), (false, 7, 1), (true, 7, 1)] := by
  decide +kernel

/-- A full in-flight list, with sequence numbers 0 to 23. -/
theorem witness_OriginatedFrame : (feeding 0 [] 24 []).ring.inFlight.length ≤ 24 := by decide +kernel

theorem witness_CopiedFramesAreHeard :
    InService busy ∧ Settled busy ∧ (hdr 255).src ≠ busy.ring.nodeAddr ∧ (hdr 1).dest = busy.ring.nodeAddr
      ∧ (hdr 255).dest ≠ busy.ring.nodeAddr ∧ 1 ≤ (List.replicate 1 (⟨0, 0, 0⟩ : SampleEntry)).length
      ∧ (List.replicate 12 (⟨0, 0, 0⟩ : SampleEntry)).length ≤ 12 := by
  refine ⟨busy_ready.2.1, busy_ready.2.2.1, ?_⟩
  decide +kernel

/-- Slot 2 has a jump limit of 50 and, in the second state, a candidate. -/
def jumping (value : Nat) (candidate : Option Nat) : State :=
  { busy with
    meas :=
      { busy.meas with
        slots := busy.meas.slots.put 2 { value := value, quality := .good, age := 0, candidate := candidate } } }

/-- Channel 9 goes to no slot; a jump of exactly 50 is near, one of 51 is not; the candidate may be near or not. -/
theorem witness_SampleEntryTaking :
    slotFor testSet 7 9 = none ∧ slotFor (jumping 400 none).mgmt.active 7 2 = some 2
      ∧ (testSet.t7.get 0).jumpLimit = 0 ∧ (testSet.t7.get 2).jumpLimit = 50 ∧ ((busy.meas.slots.get 2).quality = .empty)
      ∧ 450 - 400 + (400 - 450) ≤ (testSet.t7.get 2).jumpLimit ∧ ¬ 451 - 400 + (400 - 451) ≤ (testSet.t7.get 2).jumpLimit
      ∧ ((jumping 400 (some 440)).meas.slots.get 2).candidate = some 440 ∧ (2 : Byte) ≠ 0 ∧ (2 : Byte) ≠ 1 := by
  decide +kernel

/-- For ExpiryTakesSwitch, SampleEntryTaking, VoteRules and NoticeOutcomes: a set whose subscriptions in use have distinct pairs and
distinct slots, and whose records in use have distinct stations; the last of them and the first that is not there. -/
theorem witness_lookups :
    (∀ i j, (testSet.t6.get i).inUse = true → (testSet.t6.get j).inUse = true →
        (testSet.t6.get i).slot = (testSet.t6.get j).slot → i = j)
      ∧ (∀ i j, (testSet.t6.get i).inUse = true → (testSet.t6.get j).inUse = true →
          (testSet.t6.get i).source = (testSet.t6.get j).source → (testSet.t6.get i).channel = (testSet.t6.get j).channel → i = j)
      ∧ (∀ n m, (testSet.t9.get n).inUse = true → (testSet.t9.get m).inUse = true →
          (testSet.t9.get n).station = (testSet.t9.get m).station → n = m)
      ∧ [slotFor testSet 7 0, slotFor testSet 7 7, slotFor testSet 7 8, slotFor testSet 1 0] = [some 0, some 7, none, none]
      ∧ [feederOf testSet 0, feederOf testSet 7, feederOf testSet 8] = [some (7, 0), some (7, 7), none]
      ∧ [followerOf testSet 3, followerOf testSet 6, followerOf testSet 0] = [some 0, some 2, none] := by
  decide +kernel

/-- Three fresh gauges of the headwater and one of the tailwater, each touched, and none; a second value for a slot in one SAMPLE. -/
theorem witness_VoteRules :
    [3, 1, 2].Perm [1, 2, 3] ∧ [3, 1, 2].length ≤ 3
      ∧ ({ live with meas := { live.meas with tw := ⟨0, false⟩ } } : State).meas.tw.fresh = false
      ∧ (∃ n ∈ testSet.t8.headwater, n ∈ ([2] : List SlotNo)) ∧ (∃ n ∈ testSet.t8.tailwater, n ∈ ([3] : List SlotNo))
      ∧ ¬ (∃ n ∈ testSet.t8.headwater ++ testSet.t8.tailwater, n ∈ ([4] : List SlotNo))
      ∧ (formVotes true false live).meas.hw.fresh = true
      ∧ (formVotes true false { live with meas := { live.meas with slots := Tab.const 32 resetSlot } }).meas.hw.fresh = false
      ∧ (takeSample 7 [⟨0, 500, 0⟩, ⟨0, 700, 0⟩] live).meas.hw = ⟨700, true⟩ := by
  decide +kernel

/-- At stage ALERT with a dwell start. -/
def alert (dwell : Option Nat) : State := { live with mode := { live.mode with stage := .alert, effective := .passThrough, dwellStart := dwell } }

/-- A headwater at each threshold from NORMAL, and from ALERT one at and one below the fall level, with the dwell absent, one second
short, and complete; and from FLOOD one below the fall levels of FLOOD and of ALERT. -/
theorem witness_FreshHeadwaterMovesStage :
    ModeByTable live ∧ ModeByTable (alert none) ∧ ModeByTable (alert (some 99880)) ∧ ModeByTable (alert (some 99881))
      ∧ testSet.t10.tAlert ≤ 12400 ∧ live.mode.stage.rank < Stage.alert.rank
      ∧ belowFall testSet.t10 12369 .alert = true ∧ belowFall testSet.t10 12370 .alert = false
      ∧ testSet.t10.fallDwell ≤ live.clock.ssc - 99880 ∧ ¬ testSet.t10.fallDwell ≤ live.clock.ssc - 99881
      ∧ belowFall testSet.t10 12369 .flood = true ∧ belowFall testSet.t10 12469 .flood = true
      ∧ belowFall testSet.t10 12469 Stage.flood.below = false ∧ belowFall testSet.t10 12369 Stage.flood.below = true
      ∧ belowFall { testSet.t10 with tAlert := 29 } 0 .alert = false ∧ belowFall { testSet.t10 with tAlert := 31 } 0 .alert = true
      ∧ belowFall testSet.t10 0 .normal = false ∧ belowFall testSet.t10 12569 .extreme = true := by
  unfold ModeByTable; decide +kernel

/-- Origin 0 has accepted sequence number 417. -/
def followed (latest : Nat) (queue : List ReachEntry) : State :=
  { busy with
    reach :=
      { origins := busy.reach.origins.put 0 { arriving := 5200, lastSeq := some 417, latestDue := some latest }
        queue := queue } }

/-- The own station 4; station 5, that no record follows; a duplicate; serial differences of 32,767 and 32,768; an entry that is late
and one that is queued; and a full queue. -/
theorem witness_NoticeOutcomes :
    followerOf testSet 5 = none ∧ followerOf testSet 3 = some 0
      ∧ (live.ring.station.toNat = 4)
      ∧ ((417 : BitVec 16) + 32767 - 417).toNat ≤ 32767 ∧ 32768 ≤ ((417 : BitVec 16) + 32768 - 417).toNat
      ∧ ([2000, 2001, 5000, 5001, 10000, 10001, 1048575].map (travelTime (testSet.t9.get 0)))
          = [5400, 4200, 4200, 3300, 3300, 2700, 2700]
      ∧ (min ((100000 : Int) - 120 + 3300) 4294967295 > 100000) ∧ (min ((100000 : Int) - 3300 + 3300) 4294967295 ≤ 100000)
      ∧ (followed 0 []).reach.queue.length < 32
      ∧ 32 ≤ (followed 0 (List.replicate 32 ⟨1, 60, 11200, 100100⟩)).reach.queue.length := by decide +kernel

theorem witness_QueueInsertionPlace :
    ([⟨1, 61, 11200, 100000⟩, ⟨1, 62, 11225, 100200⟩] : List ReachEntry).Pairwise fun a b => a.due ≤ b.due := by
  decide +kernel

/-- Step 3 is beyond the plan's three steps and step 2 is its last. -/
theorem witness_PhaseReload :
    testSet.plan.phaseFollow = true ∧ (3 : Byte).toNat = testSet.plan.followed ∧ (2 : Byte).toNat ≠ testSet.plan.followed
      ∧ testSet.plan.count ≤ (3 : Byte).toNat ∧ (2 : Byte).toNat < testSet.plan.count
      ∧ (∀ d ∈ durations testSet, 1 ≤ d)
      ∧ (∀ d ∈ durations (running false 0 0 .oneShot).mgmt.active, 1 ≤ d) := by decide +kernel

theorem witness_ReturnsAreMatched :
    InService ordered ∧ Settled ordered ∧ InFlightDistinct ordered
      ∧ (let h : Header := { hdr 20 with src := 1, seq := 101 }
         h.src = ordered.ring.nodeAddr ∧ (⟨.order, h.seq, some 0, 0⟩ : InFlight) ∈ ordered.ring.inFlight
           ∧ ∀ e ∈ ordered.ring.inFlight, e.kind = .response → e.seq ≠ h.seq)
      ∧ (∀ e ∈ ordered.ring.inFlight, e.kind = .order → e.seq ≠ 102) ∧ OwnKind.response ≠ .order
      ∧ ([3, 0, 128] : List Byte).length ≤ 60 := by
  unfold InService Settled InFlightDistinct; decide +kernel

/-- The part's own frames of other kinds, each to another node and to the part: a REQUEST and an unlisted kind of 60 bytes, a SAMPLE of 15
entries, a NOTICE and a PHASE. -/
theorem witness_ReturnsAreMatched_kinds :
    let own (dest : Byte) : Header := { hdr dest with src := 1 }
    (0x41 : Byte) ≠ 0x21 ∧ (0x41 : Byte) ≠ 0x42 ∧ (0x41 : Byte) ≠ 0x51 ∧ (long.drop 1).length ≤ 60
      ∧ ∀ dest ∈ ([1, 20, 255] : List Byte),
        ∀ c ∈ [Instr.ownFrameReturn (own dest) 0x41 (long.drop 1), .frameRelay (own dest) 0x60 [],
            .sampleArrival (own dest) (List.replicate 15 ⟨0, 0, 0⟩), .noticeArrival (own dest) ⟨3, 418, 6000, 120⟩,
            .phaseArrival (own dest) ⟨3, 1, 1⟩],
          after c busy = bump .stray busy := by
  decide +kernel

/-- Lost counts of 1 and 2, and gate 0 in each state that the table tells apart. -/
theorem witness_OrderResultTable :
    (∀ st ∈ [GateState.active, .held, .localControl, .unreachable, .offline, .fault .stuck],
      ((withGate0 (gateRec st (some 500))).gate 0).state = st)
      ∧ (live.gate 1).state = .absent ∧ (live.positionSlot 0).quality.fresh = true
      ∧ (State.pinReset 1 0 []).positionSlot 0 = resetSlot ∧ live.orders.lost.get 0 < 2
      ∧ 2 ≤ ({ live.orders with lost := live.orders.lost.put 0 2 } : OrderUnit).lost.get 0 ∧ 5 ≤ (5 : Byte).toNat := by
  decide +kernel

theorem witness_RelayDecision :
    InService live ∧ Settled live ∧ (hdr 40).src ≠ live.ring.nodeAddr ∧ (hdr 40).dest ≠ live.ring.nodeAddr
      ∧ (List.replicate 60 (0 : Byte)).length ≤ 60 ∧ (0x60 : Byte) ≠ 0x11 ∧ (0x60 : Byte) ≠ 0x31 ∧ (0x60 : Byte) ≠ 0x32
      ∧ 62 ≤ (62 : Byte).toNat ∧ (61 : Byte).toNat < 62 ∧ live.ring.relay.length < 4
      ∧ (InService (feeding 4 [] 0 []) ∧ Settled (feeding 4 [] 0 []) ∧ 4 ≤ (feeding 4 [] 0 []).ring.relay.length) := by
  unfold InService Settled; decide +kernel

/-- A SAMPLE of no entry, of 13 and of a broken one, a NOTICE of 7 bytes and a PHASE of 5, to all nodes: each is counted and relayed. -/
theorem witness_RelayDecision_malformed :
    ∀ f ∈ ([(0x11, 0), (0x11, 52), (0x11, 3), (0x31, 7), (0x32, 5)] : List (Byte × Nat)),
      let t := after (.malformedFrame (hdr 255) f.1 (List.replicate f.2 0)) busy
      t.counter .malformed = 1 ∧ t.ring.relay.map (·.hops) = [1] ∧ t.meas = busy.meas := by
  decide +kernel

theorem witness_CountedDrops :
    InService live ∧ Settled live ∧ Quiet live ∧ 60 < long.length
      ∧ (0 : BitVec 16) ≠ frameCheck (frameOf (hdr 1) 0x41 [14, 3])
      ∧ (hdr 1).src ≠ live.ring.nodeAddr ∧ (hdr 1).dest = live.ring.nodeAddr
      ∧ (0x60 : Byte) ≠ 0x11 ∧ (0x60 : Byte) ≠ 0x31 ∧ (0x60 : Byte) ≠ 0x32 ∧ (0x60 : Byte) ≠ 0x41
      ∧ (List.replicate 52 (0 : Byte)).length % 4 = 0 ∧ 48 < (List.replicate 52 (0 : Byte)).length
      ∧ ([0] : List Byte).length % 4 ≠ 0 ∧ ([0] : List Byte).length < 2 ∧ ([] : List Byte).length ≠ 8 := by
  unfold InService Settled Quiet; decide +kernel

/-- The last entries of T10 and T14, and a single-part answer of T1; a pairing that is refused, and the first entry beyond T10. -/
theorem witness_ReadEntryEffect :
    Takeable mgr 4 busy ∧ (10 : Byte).toNat ≤ 10 ∧ (0 : Byte).toNat ≤ lastEntry (10 : Byte).toNat
      ∧ (21 : Byte).toNat ≤ lastEntry (14 : Byte).toNat ∧ 1 ≤ (255 : Byte).toNat
      ∧ (responseParts ([0, 10, 0, 1] ++ copyEntry busy 0 10 0)).length ≤ busy.feedRoom
      ∧ ¬ (11 ≤ (10 : Byte).toNat) ∧ lastEntry (10 : Byte).toNat < (1 : Byte).toNat
      ∧ lastPayload (after (.readEntry mgr [2, 10, 0, 1]) busy) = [3, 1, 128]
      ∧ lastPayload (after (.readEntry mgr [0, 10, 1, 0]) busy) = [3, 2, 128]
      ∧ lastPayload (after (.readEntry mgr [0, 10, 0, 0]) busy) = [3, 3, 128] := by
  refine ⟨takeable_le (by decide), ?_⟩
  decide +kernel

/-- Data of 57 bytes goes in one part, of 58 in two; a read of five T1 entries needs two, for which the room is there or is one short. The
first and the last place of the reach queue, and the order unit with one order waiting. -/
theorem witness_ReadEntryEffect_parts :
    let short : State := { busy with ring := { busy.ring with feed := List.replicate 7 ⟨9, .response, [3, 0, 128]⟩ } }
    (responseParts (long.drop 4)).length = 1 ∧ (responseParts (long.drop 3)).length = 2
      ∧ lastPayload (after (.readEntry mgr [0, 1, 0, 5]) short) = [3, 5, 128] ∧ short.feedRoom = 1
      ∧ ((after (.readEntry mgr [0, 1, 0, 5]) busy).ring.feed.map fun f => (f.payload.take 3, f.payload.length))
          = [([3, 0, 0], 60), ([3, 0, 129], 10)]
      ∧ liveBytes flowing 12 0 = [1, 1, 0, 61, 0, 43, 192, 0, 1, 134, 160] ∧ liveBytes flowing 12 31 = List.replicate 11 0
      ∧ (liveBytes (feeding 0 [⟨24, 4, 500, false, 5⟩] 0 []) 13 19).drop 16 = 1 :: 4 :: List.replicate 15 0xff := by
  decide +kernel

/-- A segmented write of T1 from entry 0 is open, its next segment `next`. -/
def opened (next : Nat) : State :=
  { busy with mgmt := { busy.mgmt with openWrite := some { node := 9, table := 1, first := 0, next := next, data := [] } } }

/-- Every row of R165: a pending switch, a table of 0 and of 11, a write open for another node and for this one, segments 0, 1, 14 and
15, last and not. -/
theorem witness_WriteSegmentCases :
    Takeable mgr 3 busy ∧ Takeable mgr 3 switching ∧ Takeable mgr 3 (opened 1) ∧ Takeable mgr 3 (opened 14)
      ∧ Takeable ⟨10, 3⟩ 3 (opened 1) ∧ (10 : Byte) ≠ 9 ∧ switching.mgmt.switchPending = true
      ∧ busy.mgmt.switchPending = false ∧ busy.mgmt.openWrite = none
      ∧ (opened 14).mgmt.openWrite = some { node := 9, table := 1, first := 0, next := 14, data := [] }
      ∧ ¬ (1 ≤ (0 : Byte).toNat ∧ (0 : Byte).toNat ≤ 10) ∧ ¬ (1 ≤ (11 : Byte).toNat ∧ (11 : Byte).toNat ≤ 10)
      ∧ (1 ≤ (1 : Byte).toNat ∧ (10 : Byte).toNat ≤ 10) := by
  unfold Takeable InService Settled; decide +kernel

/-- T8: a role of 32 is out of range; T10: RLIM, in which the copies differ, is a limit field. -/
theorem witness_WriteEntryEffect :
    Takeable mgr 39 busy ∧ busy.mgmt.switchPending = false ∧ busy.mgmt.openWrite = none
      ∧ testSet.t10.bytes.length = entrySize (10 : Byte).toNat (0 : Byte).toNat
      ∧ writeEntryIn 8 0 [32, 1, 2, 3, 255, 5] testSet = none
      ∧ (∃ set, writeEntryIn 10 0 testSet.t10.bytes edited.mgmt.shadow = some set
          ∧ set.limits ≠ edited.mgmt.shadow.limits ∧ set.limits = testSet.limits) := by
  refine ⟨takeable_le (by decide), by decide +kernel, by decide +kernel, by decide +kernel, by decide +kernel, ?_⟩
  refine ⟨{ edited.mgmt.shadow with t10 := testSet.t10 }, ?_⟩
  decide +kernel

/-- Segment 15, the last there can be, closes a write of the entries 14 and 15 of T1, of which the held part is 12 bytes; one byte
more ends on no whole entry, and twelve more run past the table. -/
theorem witness_WriteEntryEffect_segments :
    let one : List Byte := (testSet.t1.get 14).bytes
    let held : State :=
      { busy with mgmt := { busy.mgmt with openWrite := some { node := 9, table := 1, first := 14, next := 15, data := one } } }
    Takeable mgr 15 held ∧ (14 : Byte).toNat ≤ lastEntry 1 ∧ (14 : Byte).toNat + [one, one].length ≤ lastEntry 1 + 1
      ∧ one.length = entrySize 1 15 ∧ one ++ one = [one, one].flatten
      ∧ lastPayload (after (.writeEntry mgr (1 :: 14 :: 0x8f :: one)) held) = [3, 0, 128, 16]
      ∧ lastPayload (after (.writeEntry mgr (1 :: 14 :: 0x8f :: (one ++ [0]))) held) = [3, 2, 128]
      ∧ lastPayload (after (.writeEntry mgr (1 :: 14 :: 0x8f :: (one ++ one))) held) = [3, 2, 128]
      ∧ lastPayload (after (.writeEntry mgr (1 :: 16 :: 0x80 :: one)) busy) = [3, 2, 128] := by
  unfold Takeable InService Settled; decide +kernel

/-- A write open, a switch pending, neither; a shadow that passes, one that fails check 8 first, and one that differs in a limit. -/
theorem witness_CommitCancelLockEffects :
    let bad : GovSet := { testSet with t10 := { testSet.t10 with tAlert := 12500 } }
    Takeable mgr 0 busy ∧ Takeable mgr 0 switching ∧ Takeable mgr 0 (opened 1)
      ∧ (opened 1).mgmt.openWrite.isSome = true ∧ switching.mgmt.switchPending = true
      ∧ passesChecks busy.ring.nodeAddr busy.ring.station busy.mgmt.shadow = true
      ∧ (∀ j : Nat, j < 7 → (commitChecks 1 4 bad)[j]? = some true) ∧ (commitChecks 1 4 bad)[7]? = some false
      ∧ edited.mgmt.shadow.limits ≠ edited.mgmt.active.limits ∧ busy.mgmt.shadow.limits = busy.mgmt.active.limits := by
  unfold Takeable InService Settled; decide +kernel

/-- The test set with one fault for each commit check, each one past what the check allows. -/
def faulty : List GovSet :=
  let t1 (g : Nat) (c : GateCfg) : GovSet := { testSet with t1 := testSet.t1.put g c }
  [{ testSet with t3 := testSet.t3.put 0 { spillRating with q := spillRating.q.put 8 3999 } },
    { testSet with t3 := testSet.t3.put 7 { spillRating with f := spillRating.f.put 0 8192 } },
    { testSet with t4 := testSet.t4.put 7 3500 }, t1 0 { gateCfg .unit 20 5 1 1000 20 20 with urgentRate := 19 },
    { testSet with t2 := testSet.t2 ++ [⟨1, 1⟩] }, t1 1 (gateCfg .unit 20 5 1 1000 20 20),
    { testSet with steps := testSet.steps.put 2 ⟨0, 5000, .ramp⟩ },
    { testSet with t10 := { testSet.t10 with tFlood := 12600 } }, { testSet with t10 := { testSet.t10 with compGate := some 0 } },
    { testSet with t6 := testSet.t6.put 9 { inUse := true, source := 7, channel := 9, slot := 1 } },
    { testSet with t8 := { testSet.t8 with tw2 := some 9 } },
    { testSet with t9 := testSet.t9.put 1 { testSet.t9.get 1 with station := 4 } }]

/-- Each faulty set fails its check and no other; and the limit fields see the urgent rate of gate 15 and RLIM, but not HYS. -/
theorem witness_CommitCancelLockEffects_checks :
    (faulty.map (commitChecks 1 4)) = (List.range 12).map (fun k => (List.replicate 12 true).set k false)
      ∧ ({ testSet with t1 := testSet.t1.put 15 { testSet.t1.get 15 with urgentRate := 7 } } : GovSet).limits ≠ testSet.limits
      ∧ ({ testSet with t10 := { testSet.t10 with rlim := 301 } } : GovSet).limits ≠ testSet.limits
      ∧ ({ testSet with t10 := { testSet.t10 with hys := 31 } } : GovSet).limits = testSet.limits := by
  decide +kernel

/-- The tables 10 and 11, the copies 2 and 3, a first entry beyond T10, data that is equal and data that differs. -/
theorem witness_CompareEffects :
    Takeable mgr 2 edited ∧ (10 : Byte).toNat ≤ 10 ∧ (0 : Byte).toNat ≤ 10 ∧ Takeable mgr 40 busy
      ∧ 1 ≤ (10 : Byte).toNat ∧ testSet.t10.bytes.length = entrySize (10 : Byte).toNat (0 : Byte).toNat
      ∧ (writeEntryIn 10 0 testSet.t10.bytes testSet).map (entryBytes · 10 0) = some (entryBytes testSet 10 0)
      ∧ (writeEntryIn 10 0 testSet.t10.bytes edited.mgmt.shadow).map (entryBytes · 10 0)
          ≠ some (entryBytes edited.mgmt.shadow 10 0)
      ∧ lastPayload (after (.compareCopies mgr [11]) busy) = [3, 1, 128]
      ∧ lastPayload (after (.compareData mgr [10, 3, 0]) busy) = [3, 3, 128]
      ∧ lastPayload (after (.compareData mgr [10, 2, 0]) busy) = [3, 1, 128]
      ∧ lastPayload (after (.compareData mgr [10, 0, 1]) busy) = [3, 2, 128]
      ∧ lastPayload (after (.compareData mgr [10, 0, 0, 7]) busy) = [3, 2, 128] := by
  unfold Takeable InService Settled; decide +kernel

/-- Gate 0 in each of its states, with a fresh position and without, in HOLD and in INITIAL. -/
theorem witness_GateControlEffects :
    (∀ st ∈ [GateState.active, .held, .localControl, .unreachable, .offline, .fault .stuck],
      let s : State := { busy with gates := busy.gates.put 0 (gateRec st (some 500)) }
      Takeable mgr 2 s ∧ (s.gate 0).state = st ∧ (s.gate 0).state ≠ .absent ∧ s.mode.effective ≠ .initial
        ∧ (s.positionSlot 0).quality.fresh = true
        ∧ ({ s with meas := { s.meas with slots := Tab.const 32 resetSlot } } : State).positionSlot 0 = resetSlot)
      ∧ resetSlot.quality.fresh = false := by
  unfold Takeable InService Settled; decide +kernel

theorem witness_ModeRequestEffect :
    Takeable mgr 1 busy ∧ ((0 : Byte) ≠ 1 ∧ (0 : Byte) ≠ 2 ∧ (0 : Byte) ≠ 3) ∧ ((4 : Byte) ≠ 1 ∧ (4 : Byte) ≠ 2 ∧ (4 : Byte) ≠ 3)
      ∧ ([0, 1, 2, 3, 4].map fun b => lastPayload (after (.modeRequest mgr [b]) busy))
          = [[3, 3, 128, 3, 3], [3, 0, 128, 1, 1], [3, 0, 128, 2, 2], [3, 0, 128, 3, 3], [3, 3, 128, 3, 3]]
      ∧ busy.mode.requested = .hold ∧ busy.mgmt.active.plan.count ≠ 0
      ∧ Takeable mgr 1 (State.pinReset 1 0 []) ∧ (State.pinReset 1 0 []).mgmt.active.plan.count = 0 := by
  unfold Takeable InService Settled; decide +kernel

theorem witness_PlanRequestEffects :
    Takeable mgr 1 busy ∧ Takeable mgr 0 busy ∧ busy.mgmt.active.plan.count ≠ 0 ∧ Takeable mgr 1 (State.pinReset 1 0 [])
      ∧ (State.pinReset 1 0 []).mgmt.active.plan.count = 0 ∧ (2 : Byte) ≠ 0 ∧ (2 : Byte) ≠ 1 := by
  unfold Takeable InService Settled; decide +kernel

theorem witness_ClearEffects : Takeable mgr 2 busy ∧ Takeable mgr 0 busy := ⟨takeable_le (by decide), busy_takeable.2⟩

theorem witness_RestartEffect : Takeable mgr 0 busy ∧ ∃ f, busy.ring.ro = some f := ⟨busy_takeable.2, _, rfl⟩

/-- No room, one place for a response of two, and a node that is neither manager; the codes 0 and 15; the gate bytes 16 and 15, of which
gate 15 is ABSENT; an operand byte too many or too few; and each bit of the segment byte that is given as 0. -/
theorem witness_RequestsNotActedOn :
    (feeding 0 [] 0 (List.replicate 8 ⟨9, .response, [3, 0, 128]⟩)).feedRoom = 0
      ∧ (feeding 0 [] 0 (List.replicate 7 ⟨9, .response, [3, 0, 128]⟩)).feedRoom = 1
      ∧ mgr.src ≠ 8 ∧ Takeable mgr 2 busy ∧ 14 < (15 : Byte).toNat ∧ 16 ≤ (16 : Byte).toNat
      ∧ (15 : Byte) = byte (15 : GateNo).val ∧ (busy.gate 15).state = .absent ∧ Takeable mgr 3 busy
      ∧ Instr.enable ∈ [Instr.enable, Instr.disable, Instr.hold, Instr.release, Instr.clearFault] := by
  refine ⟨by decide +kernel, by decide +kernel, by decide, takeable_le (by decide), by decide, by decide, by decide, by decide +kernel,
    takeable_le (by decide), List.mem_cons_self⟩

/-- With manager B at node 8 that node alone is acted on, and with both addresses 0 node 9 is. -/
theorem witness_RequestsNotActedOn_managers :
    let set : GovSet := { testSet with t10 := { testSet.t10 with managerB := 8 } }
    let guarded : State := { busy with mgmt := { busy.mgmt with active := set } }
    testSet.t10.managerA = 0 ∧ testSet.t10.managerB = 0 ∧ set.t10.managerB = (⟨8, 3⟩ : Requester).src ∧ 1 ≤ guarded.feedRoom
      ∧ ([8, 9].map fun n => lastPayload (after (.planGate ⟨n, 3⟩ [0]) guarded)) = [[3, 0, 128, 0], [3, 11, 128]]
      ∧ lastPayload (after (.planGate mgr [0]) busy) = [3, 0, 128, 0] := by decide +kernel

theorem witness_RequestsNotActedOn_lengths :
    Takeable mgr 0 busy ∧ Takeable mgr 1 busy ∧ Takeable mgr 2 busy ∧ Takeable mgr 3 busy ∧ Takeable mgr 5 busy
      ∧ (∀ seg ∈ [(0x10 : Byte), 0x20, 0x40, 0xf0], seg &&& 0x70 ≠ 0)
      ∧ lastPayload (after (.readEntry mgr [0, 10, 0]) busy) = [3, 3, 128]
      ∧ lastPayload (after (.writeEntry mgr [8, 0, 0x90]) busy) = [3, 3, 128]
      ∧ lastPayload (after (.modeRequest mgr []) busy) = [3, 3, 128, 3, 3]
      ∧ lastPayload (after (.compareData mgr [10, 0]) busy) = [3, 3, 128] := by
  refine ⟨takeable_le (by decide), takeable_le (by decide), takeable_le (by decide), takeable_le (by decide), takeable_le (by decide), ?_⟩
  decide +kernel

/-- Requests that are turned away, one of each shape: from the part's own address, with no room, and from no manager. -/
theorem witness_RequestsNotActedOn_turnedAway :
    let set : GovSet := { testSet with t10 := { testSet.t10 with managerB := 8 } }
    let guarded : State := { busy with mgmt := { busy.mgmt with active := set } }
    let full : State := { busy with ring := { busy.ring with feed := List.replicate 8 ⟨9, .response, [3, 0, 128]⟩ } }
    let requests (q : Requester) : List Instr :=
      [.readEntry q [0, 1, 0, 5], .commit q [], .restart q [], .compareData q [8, 0, 0], .enable q 5 [], .requestBadCode q 99 []]
    (∀ c ∈ requests ⟨1, 3⟩, after c full = bump .stray full) ∧ (∀ c ∈ requests mgr, after c full = bump .requestDrops full)
      ∧ (∀ c ∈ requests mgr, after c guarded = closeEvent (respond mgr ⟨.notManager, []⟩ guarded))
      ∧ (∀ c ∈ [Instr.modeRequest mgr [1], .requestBadCode mgr 8 [1]], lastPayload (after c guarded) = [3, 11, 128, 3, 3])
      ∧ guarded.mgmt.active.t10.managerB ≠ 0 ∧ mgr.src ≠ guarded.mgmt.active.t10.managerA ∧ 0 < guarded.feedRoom := by
  decide +kernel

theorem witness_FrameBytesAgree :
    (hdr 1).dest = live.ring.nodeAddr ∧ (List.replicate 60 (0 : Byte)).length ≤ 60 := by decide +kernel

/-- A flag not set and one set, masked and not, with the allowance standing and taken. -/
theorem witness_ConditionsAndReports :
    flagIn .excess live.report.flags = false ∧ flagIn .excess (raise .excess live).report.flags = true
      ∧ flagIn .excess live.mgmt.active.t10.mask = false ∧ flagIn .headStale (0xffff : BitVec 16) = true
      ∧ live.report.allowance = true ∧ (raise .excess live).report.allowance = false
      ∧ (raise .excess live).marks.reportDue = true ∧ (reportFrames 4 (raise .excess live)).length ≤ live.feedRoom
      ∧ (feeding 0 [] 0 (List.replicate 7 ⟨9, .response, [3, 0, 128]⟩)).feedRoom
          < (reportFrames 4 (raise .excess live)).length := by decide +kernel

/-- The frames of a report with no gate present, with nine and with ten. -/
theorem witness_ConditionsAndReports_frames :
    let present (n : Nat) : State := { live with gates := Tab.ofFn fun g => gateRec (if g.val < n then .active else .absent) none }
    ([0, 9, 10].map fun n => (reportFrames 4 (present n)).map fun f => f.payload.length) = [[31], [31, 56], [31, 56, 8]]
      ∧ ((reportFrames 4 (present 10)).map fun f => f.payload.take 4)
          = [[4, 0, 0, 0], [4, 1, 0, 2], [4, 130, 9, 2]] := by
  decide +kernel

/-- A completion that raises SHORTFALL, with the allowance standing and with it taken, and the two other reasons; and one with no room
for its report. -/
theorem witness_ConditionsAndReports_completion :
    let s := computing case1
    let taken : State := { s with report := { s.report with allowance := false } }
    let both : State := { taken with report := { taken.report with periodicDue := true, pointDue := true } }
    let full : State := { both with ring := { both.ring with feed := List.replicate 7 ⟨9, .response, [3, 0, 128]⟩ } }
    (∀ u ∈ [s, taken, both, full], Awake u ∧ Settled u ∧ Quiet u ∧ u.engine.computation = some case1 ∧ u.ring.ro ≠ none)
      ∧ (after .computationCompletion s).ring.feed.length = 2
      ∧ (after .computationCompletion s).report.allowance = false
      ∧ (after .computationCompletion taken).ring.feed.length = 0
      ∧ (after .computationCompletion both).ring.feed.length = 2
      ∧ (after .computationCompletion full).counter .reportDrops = 1 := by
  unfold Awake Settled Quiet; decide +kernel

/-- An ascending set with a flat segment. -/
def flatRating : RatingSet := { q := ⟨[0, 120, 240, 240, 240, 310, 380, 450, 520], rfl⟩, f := Tab.const 8 4096 }

theorem witness_ForwardRatingProperties :
    ascending false flatRating.q.items = true ∧ flatRating.q.get (2 : Fin 8).castSucc = flatRating.q.get (2 : Fin 8).succ := by
  decide +kernel

/-- The greatest discharge that is not capped, and the next. -/
theorem witness_InverseRatingIsLeast :
    ascending false flatRating.q.items = true ∧ 1 ≤ flatRating.f.get 0 ∧ referenceNeed flatRating 0 520 ≤ flatRating.q.get 8
      ∧ ¬ referenceNeed flatRating 0 521 ≤ flatRating.q.get 8 ∧ 520 ≤ forwardRating flatRating 0 1000 := by decide +kernel

/-- Stage 2 of 5,499 lies below the lower bound of 5,500, 6,100 is the upper bound, and 6,101 above it, in FLOOD and at NORMAL. -/
theorem witness_PlantLimitsOfTarget :
    ([5499, 5500, 6100, 6101].map fun q => (compute { case1 with planRelease := some q }).results.qT)
        = [5500, 5500, 6100, 6100]
      ∧ (compute { case1 with planRelease := some 6101, stage := .flood }).results.qT = 6101 ∧ case1.mode = .schedule := by
  decide +kernel

/-- The first case leaves no remainder; with a plan release of 9,000 and the ramp lifted the gates are full. -/
theorem witness_WaterFillingConserves :
    let full : Snapshot := { case1 with planRelease := some 9000, stage := .flood }
    case1.Lawful ∧ full.Lawful ∧ case1.mode = .schedule ∧ 0 < (compute full).results.remainder
      ∧ 0 < (compute case1).results.allot.get 4 ∧ (case1.gates.get 0).state = .active := by
  unfold Snapshot.Lawful; decide +kernel

/-- The second case gives gates 4 and 5, of one tier and both below their headrooms, 2,483 and 2,482. -/
theorem witness_WaterFillingConserves_even :
    let res := (compute case2).results
    case2.Lawful ∧ case2.mode = .passThrough ∧ case2.govSet.t2[1]? = some ⟨4, 1⟩ ∧ case2.govSet.t2[2]? = some ⟨5, 1⟩
      ∧ (case2.gates.get 4).state = .active ∧ (case2.gates.get 5).state = .active
      ∧ res.allot.get 4 < case2.headroom 4 ∧ res.allot.get 5 < case2.headroom 5 ∧ res.allot.get 4 = res.allot.get 5 + 1 := by
  unfold Snapshot.Lawful; decide +kernel

/-- The first case has gate 0 within reach of its target and gates 4 and 5 out of it, from below; commanded 1,000 gate 5 is out of it
from above. Stage 2 in each of its cases: a plan in force and none, a fresh headwater and a held one. Each cause of SHORTFALL. -/
theorem witness_TargetsAndRateLimits :
    let high : Snapshot := { case1 with gates := case1.gates.put 5 (gateRec .active (some 1000)), planRelease := some 2600, stage := .flood }
    let through : Snapshot := { case1 with mode := .passThrough, qA := 4000 }
    let full : Snapshot := { case1 with planRelease := some 9000, stage := .flood }
    let wide : Snapshot :=
      { full with
        gates := ((case1.gates.put 0 (gateRec .active (some 1000))).put 4 (gateRec .active (some 1000))).put 5
          (gateRec .active (some 1000)) }
    case1.Lawful ∧ case1.mode = .schedule ∧ (case1.gates.get 4).state = .active
      ∧ (case1.gates.get 4).commanded = some 500 ∧ (case1.govSet.t1.get 4).maxOpening ≤ 1000
      ∧ 500 + (case1.govSet.t1.get 4).rate < (compute case1).targets.get 4
      ∧ (compute high).targets.get 5 + (high.govSet.t1.get 5).rate < 1000
      ∧ case1.run ≠ .stopped ∧ case1.gateOpen = true ∧ case1.planRelease = some 6000
      ∧ ({ case1 with run := .stopped } : Snapshot).run = .stopped ∧ through.mode = .passThrough ∧ through.hw.fresh = true
      ∧ ({ through with hw := ⟨1800, false⟩ } : Snapshot).hw.fresh = false
      ∧ (compute case1).results.cause = .rate ∧ (compute full).results.cause = .capacityAndRate
      ∧ (compute wide).results.cause = .capacity := by
  unfold Snapshot.Lawful; decide +kernel

/-- The rows of R73: with no release left to share, short of the headroom, and saturated; gate 5, out of the list, has no share. The least
discharge of a rating that is capped. -/
theorem witness_TargetsAndRateLimits_rows :
    let least : Snapshot := { case1 with planRelease := some 0, stage := .flood, qTPrev := 0 }
    let full : Snapshot := { case1 with planRelease := some 9000, stage := .flood }
    let alone : Snapshot := { case1 with govSet := { testSet with t2 := [⟨0, 0⟩, ⟨4, 1⟩] } }
    least.Lawful ∧ full.Lawful ∧ alone.Lawful ∧ case1.Lawful
      ∧ (compute least).results.allot.get 4 = 0 ∧ (compute alone).results.allot.get 5 = 0
      ∧ 0 < (compute full).results.allot.get 4 ∧ (compute full).results.allot.get 4 = full.headroom 4
      ∧ 0 < (compute case1).results.allot.get 4 ∧ (compute case1).results.allot.get 4 < case1.headroom 4
      ∧ (compute alone).targets.get 5 = 0 ∧ (compute full).targets.get 4 = 1000 ∧ (compute case1).targets.get 4 = 576
      ∧ ascending false flatRating.q.items = true ∧ 1 ≤ flatRating.f.get 0 ∧ flatRating.q.get 8 * flatRating.f.get 0 < 521 * 4096
      ∧ ¬ flatRating.q.get 8 * flatRating.f.get 0 < 520 * 4096 := by
  unfold Snapshot.Lawful; decide +kernel

/-- Gate 4 is a SPILL gate out of reach of its max opening from below, within reach of it at 900, and out of reach from above; gate 0
is no SPILL gate. -/
theorem witness_HoldAndSurcharge :
    let sn : Snapshot := { case1 with mode := .surcharge }
    sn.mode = .surcharge ∧ (sn.gates.get 4).state = .active ∧ (sn.govSet.t1.get 4).cls = .spill
      ∧ (sn.gates.get 0).state = .active ∧ (sn.govSet.t1.get 0).cls ≠ .spill ∧ ({ case1 with mode := .hold } : Snapshot).mode = .hold
      ∧ (sn.gates.get 4).commanded = some 500
      ∧ 500 + (sn.govSet.t1.get 4).urgentRate < (sn.govSet.t1.get 4).maxOpening
      ∧ (sn.govSet.t1.get 4).maxOpening ≤ 900 + (sn.govSet.t1.get 4).urgentRate
      ∧ (otherSet.t1.get 0).cls = .spill ∧ (otherSet.t1.get 0).maxOpening + (otherSet.t1.get 0).urgentRate < 500 := by
  decide +kernel

/-- The first and the last position of the plan of section 6.10, a RAMP and a STEP. -/
theorem witness_PlanReleaseOfPosition :
    0 < testSet.plan.count ∧ 3 < (stepAt testSet 0).duration ∧ 2 < testSet.plan.count ∧ 2 < (stepAt testSet 2).duration
      ∧ (stepAt testSet 0).shape = .ramp ∧ (stepAt testSet 1).shape = .step ∧ 3 + 1 = (stepAt testSet 0).duration := by
  decide +kernel

/-- Entries at the ends of their ranges. -/
theorem witness_EntriesReadBack :
    (testSet.t1.get 0).InRange ∧ testSet.t2.length ≤ 16 ∧ spillRating.InRange ∧ BandEndsInRange testSet.t4 ∧ testSet.plan.InRange
      ∧ (⟨65535, 1048575, .ramp⟩ : PlanStep).InRange ∧ (⟨true, 254, 15, 31⟩ : Subscription).InRange
      ∧ (⟨false, 255, 16, 32⟩ : Subscription).InRange ∧ (⟨65535, -32768, 255, 65535⟩ : SlotParams).InRange
      ∧ (testSet.t9.get 0).InRange ∧ testSet.t10.InRange := by
  refine ⟨?_, by decide +kernel, ?_, ?_, ?_, ?_, ?_, ?_, ?_, ?_, ?_⟩
  · unfold GateCfg.InRange; decide +kernel
  · unfold RatingSet.InRange; decide +kernel
  · unfold BandEndsInRange; decide +kernel
  · unfold PlanHeader.InRange; decide +kernel
  · unfold PlanStep.InRange; decide +kernel
  · unfold Subscription.InRange; decide +kernel
  · unfold Subscription.InRange; decide +kernel
  · unfold SlotParams.InRange; decide +kernel
  · unfold OriginRecord.InRange; decide +kernel
  · unfold PlantParams.InRange; decide +kernel

/-- Whether the empty set takes its own entry with a byte changed. -/
def takes (table entry i : Nat) (v : Byte) : Bool :=
  let bs := (entryBytes emptySet table entry).set i v
  bs.length = entrySize table entry && (writeEntryIn table entry bs emptySet).isSome

/-- One byte of an entry of each table at the ends of a range and beyond it. -/
theorem witness_EntriesReadBack_ranges :
    [takes 1 15 0 3, takes 1 15 0 4, takes 1 0 5 0, takes 1 0 9 0] = [true, false, true, false]
      ∧ [takes 2 0 0 16, takes 2 0 0 17, takes 2 0 1 16] = [true, false, true]
      ∧ [takes 3 7 18 0x1f, takes 3 7 18 0x20] = [true, false] ∧ takes 4 0 15 0xff = true
      ∧ [takes 5 0 0 48, takes 5 0 0 49, takes 5 48 2 15, takes 5 48 2 16] = [true, false, true, false]
      ∧ [takes 6 31 0 1, takes 6 31 0 2, takes 6 31 3 32] = [true, false, true]
      ∧ [takes 7 31 4 1, takes 7 31 4 0] = [true, false]
      ∧ [takes 8 0 5 31, takes 8 0 5 32, takes 8 0 5 255] = [true, false, true]
      ∧ [takes 9 3 0 1, takes 9 3 1 8, takes 9 3 2 16] = [true, true, true]
      ∧ [takes 10 0 25 1, takes 10 0 25 0, takes 10 0 25 60, takes 10 0 25 61, takes 10 0 35 254, takes 10 0 35 255]
          = [true, false, true, false, true, false]
      ∧ (writeEntryIn 2 0 (2 :: 15 :: 7 :: 15 :: 8 :: List.replicate 28 0) emptySet = none)
      ∧ (writeEntryIn 6 0 [1, 254, 15, 31] emptySet).isSome = true ∧ writeEntryIn 6 0 [1, 254, 15, 32] emptySet = none
      ∧ writeEntryIn 9 0 (1 :: 8 :: List.replicate 20 0) emptySet = none := by
  decide +kernel

/-- For RingInvariantKept, OrderInvariantKept, ReachInvariantKept, SetInvariantKept (both its clauses), PlanModeInvariantKept and
GateInvariantKept: the live station with feeds, a full in-flight list, an order, a reach queue, a switch pending and the lock set meets
every invariant, and a step from it answers a next state. -/
theorem witness_invariants :
    let s : State :=
      { feeding 1 [⟨20, 0, 500, false, 5⟩] 24 [⟨9, .response, [3, 0, 128]⟩] with
        pending := [.secondTick]
        reach := { flowing.reach with queue := [⟨1, 62, 11225, 100200⟩] }
        mgmt := { live.mgmt with switchPending := true, lock := true } }
    RingInv s ∧ OrderInv s ∧ ReachInv s ∧ SetInv s ∧ PlanModeInv s ∧ GateInv s ∧ s.mgmt.lock = true
      ∧ ∃ t, step s = .next t := by
  refine ⟨⟨?_, ?_, ?_, ?_⟩, ⟨?_, ?_, ?_, ?_, ?_⟩, ⟨?_, ?_, ?_⟩, ⟨?_, ?_, ?_⟩, ⟨?_, ?_, ?_, ?_, ?_⟩, ⟨?_, ?_, ?_, ?_⟩, rfl, _, rfl⟩
  · unfold Quiet; decide +kernel
  · unfold FeedsBounded; decide +kernel
  · unfold InFlightDistinct; decide +kernel
  · unfold InFlightGates; decide +kernel
  · unfold OneOrderPerGate; decide +kernel
  · unfold OrdersOfOrdered; decide +kernel
  · unfold LostBounded; decide +kernel
  · unfold NoOrdersInInitial; decide +kernel
  · intro sn h; cases h
  · unfold ReachOrdered; decide +kernel
  · unfold NothingOverdue; decide +kernel
  · intro e he
    have : e = ⟨1, 62, 11225, 100200⟩ := by simpa using he
    subst this
    exact ⟨100200, by decide +kernel, by decide⟩
  · unfold ActiveChecked; decide +kernel
  · unfold PendingChecked; decide +kernel
  · unfold LockAgrees; decide +kernel
  · unfold PositionValid; decide +kernel
  · unfold ModeByTable; decide +kernel
  · unfold ScheduleHasPlan; decide +kernel
  · unfold DutyOffInitial; decide +kernel
  · unfold DwellAboveNormal; decide +kernel
  · unfold ClassState; decide +kernel
  · intro sn h; cases h
  · refine ⟨?_, fun sn h => by cases h⟩
    unfold TargetsWithin; decide +kernel
  · refine ⟨?_, fun sn h => by cases h⟩
    unfold CommandedIn; decide +kernel

/-- For the second clause of OrderInvariantKept: a RESTART with an order in flight and one waiting ends in INITIAL. -/
theorem witness_OrderInvariantKept_initial :
    let s : State := { ordered with orders := { ordered.orders with queue := [⟨20, 0, 500, false, 5⟩] } }
    OrderInv s ∧ (after (.restart mgr []) s).mode.effective = .initial ∧ (after (.restart mgr []) s).orders.queue = []
      ∧ ∃ t, exec (.restart mgr []) s = .next t := by
  refine ⟨⟨?_, ?_, ?_, ?_, fun sn h => by cases h⟩, by decide +kernel, by decide +kernel, _, rfl⟩
  · unfold OneOrderPerGate; decide +kernel
  · unfold OrdersOfOrdered; decide +kernel
  · unfold LostBounded; decide +kernel
  · unfold NoOrdersInInitial; decide +kernel

end Sys2Proof.Tests
end

/-! The Gate Table's invariant (R6, R11, R12): what each piece of work leaves of a gate record, and that the completion, the expiry and
RESTART keep targets in their limits and ordered gates commanded. -/

namespace Sys2Proof.Machine

/-! ### The effective mode is left only by the completion of a computation in INITIAL (R129, R130) -/

theorem effectiveMode_ne_initial (r : ReqMode) (st : Stage) : effectiveMode r st ≠ .initial := by
  cases r <;> cases st <;> decide

/-- R125: recomputing the effective mode neither enters INITIAL nor leaves it. -/
@[simp] theorem recomputeMode_initial (s : State) :
    (recomputeMode s).mode.effective = .initial ↔ s.mode.effective = .initial := by
  rw [recomputeMode_mode]
  split
  · rfl
  · simp [effectiveMode_ne_initial, *]

@[simp] theorem fallTest_initial (hw : Nat) (s : State) :
    (fallTest hw s).mode.effective = .initial ↔ s.mode.effective = .initial := by
  unfold fallTest fallStage
  repeat' split
  all_goals simp

@[simp] theorem evaluateStage_initial (hw : Nat) (s : State) :
    (evaluateStage hw s).mode.effective = .initial ↔ s.mode.effective = .initial := by
  unfold evaluateStage
  dsimp only
  split <;> simp

@[simp] theorem vote_initial (a b : Bool) (s : State) :
    (vote a b s).mode.effective = .initial ↔ s.mode.effective = .initial := by
  rw [vote_mode]
  split <;> simp

@[simp] theorem evaluateStale_initial (s : State) :
    (evaluateStale s).mode.effective = .initial ↔ s.mode.effective = .initial := by
  simp [evaluateStale, voteTouched]

@[simp] theorem takeSample_initial (src : Byte) (es : List SampleEntry) (s : State) :
    (takeSample src es s).mode.effective = .initial ↔ s.mode.effective = .initial := by
  obtain ⟨m, c, h⟩ := offerEntries_same src es (s, [])
  simp [takeSample, voteTouched, h]

@[simp] theorem switchMode_initial (s : State) :
    (switchMode s).mode.effective = .initial ↔ s.mode.effective = .initial := by
  unfold switchMode
  split <;> simp

@[simp] theorem setSwitch_initial (s : State) :
    (setSwitch s).mode.effective = .initial ↔ s.mode.effective = .initial := by
  simp [setSwitch, switchSlots, switchOrders, switchSets]

@[simp] theorem switched_initial (s : State) :
    (switched s).mode.effective = .initial ↔ s.mode.effective = .initial := by
  unfold switched takePendingSwitch
  split <;> simp

@[simp] theorem requestMode_initial (ops : List Byte) (s : State) :
    (requestMode ops s).2.mode.effective = .initial ↔ s.mode.effective = .initial := by
  unfold requestMode setRequested
  dsimp only
  repeat' split
  all_goals simp

/-! ### What a record keeps (R6, R11, R12) -/

theorem ne_absent_of_ordered {st : GateState} (h : st.ordered = true) : st ≠ .absent := by
  rintro rfl
  cases h

/-- What every piece of work but a set switch, a completion and a RESTART leaves of a gate record, in a part whose effective mode is
`m`: it is ABSENT or not as before, its target stays, and outside INITIAL it does not come to be ordered without an opening. -/
structure Gate.Follows (m : Mode) (r r' : Gate) : Prop where
  absent : r'.state = .absent ↔ r.state = .absent
  target : r'.target = r.target
  commanded : m ≠ .initial → (r.state.ordered = true → r.commanded.isSome = true) →
    r'.state.ordered = true → r'.commanded.isSome = true

theorem tracking_target (band limit : Nat) (r : Gate) : (r.tracking band limit).target = r.target := by
  unfold Gate.tracking
  dsimp only
  repeat' split
  all_goals rfl

/-- The tracking monitor drops no commanded opening (R17, R18). -/
theorem tracking_commanded_isSome (band limit : Nat) (r : Gate) (h : r.commanded.isSome = true) :
    (r.tracking band limit).commanded.isSome = true := by
  obtain ⟨o, ho⟩ := Option.isSome_iff_exists.1 h
  simp only [Gate.tracking, ho]
  repeat' split
  all_goals simp [Gate.entering, ho]

/-- The tracking monitor makes no gate one that is ordered (R17). -/
theorem tracking_ordered (band limit : Nat) (r : Gate) (h : (r.tracking band limit).state.ordered = true) :
    r.state.ordered = true := by
  revert h
  unfold Gate.tracking
  dsimp only
  repeat' split
  all_goals simp [Gate.entering, GateState.ordered]

namespace Gate.Follows

variable {m : Mode} {r r' r'' : Gate}

theorem refl (m : Mode) (r : Gate) : Follows m r r := ⟨.rfl, rfl, fun _ h => h⟩

theorem trans (h : Follows m r r') (h' : Follows m r' r'') : Follows m r r'' :=
  ⟨h'.absent.trans h.absent, h'.target.trans h.target, fun hm hr => h'.commanded hm (h.commanded hm hr)⟩

/-- A present record enters a present state: an ordered one only from an ordered one, or with a commanded opening, or in INITIAL. -/
theorem entering {st : GateState} (hr : r.state ≠ .absent) (hst : st ≠ .absent)
    (ho : m = .initial ∨ st.ordered = false ∨ r.state.ordered = true ∨ r.commanded.isSome = true) :
    Follows m r (r.entering st) where
  absent := by simp [Gate.entering, hr, hst]
  target := rfl
  commanded hm hc hs := by
    rcases ho with h | h | h | h
    · exact absurd h hm
    · simp [Gate.entering, h] at hs
    · exact hc h
    · exact h

theorem commandedTo (m : Mode) (r : Gate) (o : Nat) : Follows m r { r with commanded := some o } :=
  ⟨.rfl, rfl, fun _ _ _ => rfl⟩

theorem read (m : Mode) (r : Gate) (slot : Slot) : Follows m r (r.read slot) := ⟨.rfl, rfl, fun _ h => h⟩

theorem tracking (m : Mode) (band limit : Nat) (r : Gate) : Follows m r (r.tracking band limit) where
  absent := (tracking_keeps band limit r).2.2
  target := tracking_target band limit r
  commanded _ hc hs := tracking_commanded_isSome band limit r (hc (tracking_ordered band limit r hs))

/-- A change of one gate's record. -/
theorem set {s : State} {g : GateNo} (h : Follows m (s.gate g) r) (g' : GateNo) :
    Follows m (s.gate g') ((s.gates.set g r).get g') := by
  rw [Tab.get_set]
  split
  · next e => exact e ▸ h
  · exact refl m _

end Gate.Follows

/-- Every record of `t` follows its record of `s`. -/
def GatesFollow (s t : State) : Prop := ∀ g, Gate.Follows s.mode.effective (s.gate g) (t.gate g)

theorem gatesFollow_of_same {s t : State} (h : t.gates = s.gates) : GatesFollow s t := fun g => by
  unfold State.gate
  rw [h]
  exact .refl _ _

theorem GatesFollow.trans {s t u : State} (h : GatesFollow s t) (h' : GatesFollow t u)
    (hm : t.mode.effective = s.mode.effective) : GatesFollow s u := fun g => (h g).trans (hm ▸ h' g)

/-- What follows a state with the same records and the same mode follows the state. -/
theorem GatesFollow.of_same {s t u : State} (h : GatesFollow t u) (hg : t.gates = s.gates) (hm : t.mode = s.mode) :
    GatesFollow s u := (gatesFollow_of_same hg).trans h (by rw [hm])

theorem gatesFollow_setGate {s : State} {g : GateNo} {r : Gate} (h : Gate.Follows s.mode.effective (s.gate g) r) :
    GatesFollow s (setGate g r s) := fun g' => h.set g'

theorem gatesFollow_enterState {s : State} {g : GateNo} {st : GateState} (hr : (s.gate g).state ≠ .absent)
    (hst : st ≠ .absent)
    (ho : s.mode.effective = .initial ∨ st.ordered = false ∨ (s.gate g).state.ordered = true
      ∨ (s.gate g).commanded.isSome = true) : GatesFollow s (enterState g st s) := fun g' => by
  have h := (Gate.Follows.entering hr hst ho).set g'
  rwa [← enterState_gates] at h

theorem gatesFollow_readPosition (g : GateNo) (s : State) : GatesFollow s (readPosition g s) :=
  gatesFollow_setGate (.read _ _ _)

/-! ### What the Order Unit hands on follows (R15, R16) -/

theorem gatesFollow_deliverTaken (g : GateNo) (opening : Option Nat) (s : State) :
    GatesFollow s (deliverTaken g opening s) := by
  unfold deliverTaken
  split <;> rename_i h
  case h_3 =>
    have enters := gatesFollow_enterState (s := s) (g := g) (st := .active) (by simp [h]) (by simp)
      (by simp [h, GateState.ordered])
    have reads := enters.trans (gatesFollow_readPosition g _) (by simp)
    exact reads.trans (gatesFollow_setGate (.commandedTo _ _ _)) (by simp)
  case h_4 =>
    exact gatesFollow_enterState (by simp [h]) (by simp) (by simp [h, GateState.ordered])
  all_goals exact gatesFollow_of_same (by simp)

theorem gatesFollow_deliverLocal (g : GateNo) (s : State) : GatesFollow s (deliverLocal g s) := by
  unfold deliverLocal
  split <;> rename_i h
  case h_1 | h_2 | h_4 =>
    exact gatesFollow_enterState (by simp [h]) (by simp) (by simp [h, GateState.ordered])
  all_goals exact gatesFollow_of_same (by simp)

theorem gatesFollow_deliverRefusal (reason : FaultReason) (g : GateNo) (s : State) :
    GatesFollow s (deliverRefusal reason g s) := by
  unfold deliverRefusal
  split <;> rename_i h
  case h_1 | h_2 | h_3 | h_4 =>
    exact gatesFollow_enterState (by simp [h]) (by simp) (by simp [GateState.ordered])
  all_goals exact gatesFollow_of_same (by simp)

theorem gatesFollow_deliverUnreachable (g : GateNo) (s : State) : GatesFollow s (deliverUnreachable g s) := by
  unfold deliverUnreachable
  split <;> rename_i h
  case h_1 | h_2 | h_3 =>
    exact gatesFollow_enterState (by simp [h]) (by simp) (by simp [h, GateState.ordered])
  all_goals exact gatesFollow_of_same (by simp)

theorem gatesFollow_countLoss (g : GateNo) (s : State) : GatesFollow s (countLoss g s) := by
  unfold countLoss
  split
  · exact gatesFollow_of_same (by simp)
  · exact (gatesFollow_of_same (by simp)).trans (gatesFollow_deliverUnreachable g _) (by simp)

theorem gatesFollow_applyResult (g : GateNo) (result : Byte) (opening : Option Nat) (s : State) :
    GatesFollow s (applyResult g result opening s) := by
  have counted : GatesFollow s (if 5 ≤ result.toNat then bump .badResult s else s) := gatesFollow_of_same (by split <;> simp)
  have mode : (if 5 ≤ result.toNat then bump .badResult s else s).mode.effective = s.mode.effective := by split <;> simp
  unfold applyResult
  dsimp only
  generalize (if 5 ≤ result.toNat then bump .badResult s else s) = u at counted mode ⊢
  have cleared : GatesFollow s (setLost g 0 u) := counted.trans (gatesFollow_of_same (by simp)) mode
  have cleared_mode : (setLost g 0 u).mode.effective = s.mode.effective := mode
  split
  · exact counted.trans (gatesFollow_countLoss g u) mode
  · exact cleared.trans (gatesFollow_deliverTaken g opening _) cleared_mode
  · exact cleared.trans (gatesFollow_deliverLocal g _) cleared_mode
  · exact cleared.trans (gatesFollow_deliverRefusal .drive g _) cleared_mode
  · exact cleared.trans (gatesFollow_deliverRefusal .travel g _) cleared_mode

theorem gatesFollow_expireEntry (s : State) (e : InFlight) : GatesFollow s (expireEntry s e) := by
  have counted : GatesFollow s (bump .lost s) := gatesFollow_of_same (by simp)
  unfold expireEntry
  dsimp only
  repeat' split
  · exact counted.trans (gatesFollow_countLoss _ _) (by simp)
  all_goals exact counted

theorem gatesFollow_expireEntries (es : List InFlight) (s : State) : GatesFollow s (es.foldl expireEntry s) := by
  induction es generalizing s with
  | nil => exact gatesFollow_of_same rfl
  | cons e es ih => exact (gatesFollow_expireEntry s e).trans (ih _) (by simp)

theorem gatesFollow_millisecond (s : State) : GatesFollow s (millisecond s) :=
  (gatesFollow_expireEntries _ { s with ring := _ }).of_same rfl rfl

theorem gatesFollow_stripFrame (f : Frame) (s : State) : GatesFollow s (stripFrame f s) := by
  unfold stripFrame handReturn
  repeat' split
  · exact (gatesFollow_applyResult _ _ _ _).of_same rfl rfl
  all_goals exact gatesFollow_of_same (by simp)

/-! ### GATE_CONTROL follows (R12 to R14) -/

section
variable (g : GateNo) (s : State)

@[simp] theorem enableGate_same :
    (enableGate g s).2.mgmt = s.mgmt ∧ (enableGate g s).2.engine = s.engine ∧ (enableGate g s).2.mode = s.mode := by
  unfold enableGate gateReply refuse
  dsimp only
  repeat' split
  all_goals simp

@[simp] theorem disableGate_same :
    (disableGate g s).2.mgmt = s.mgmt ∧ (disableGate g s).2.engine = s.engine ∧ (disableGate g s).2.mode = s.mode := by
  unfold disableGate gateReply
  repeat' split
  all_goals simp

@[simp] theorem holdGate_same :
    (holdGate g s).2.mgmt = s.mgmt ∧ (holdGate g s).2.engine = s.engine ∧ (holdGate g s).2.mode = s.mode := by
  unfold holdGate gateReply refuse
  repeat' split
  all_goals simp

@[simp] theorem releaseGate_same :
    (releaseGate g s).2.mgmt = s.mgmt ∧ (releaseGate g s).2.engine = s.engine ∧ (releaseGate g s).2.mode = s.mode := by
  unfold releaseGate gateReply refuse
  repeat' split
  all_goals simp

@[simp] theorem clearFaultGate_same :
    (clearFaultGate g s).2.mgmt = s.mgmt ∧ (clearFaultGate g s).2.engine = s.engine ∧ (clearFaultGate g s).2.mode = s.mode := by
  unfold clearFaultGate gateReply refuse
  dsimp only
  repeat' split
  all_goals simp

end

section
variable {g : GateNo} {s : State}

theorem gatesFollow_enableGate (hg : (s.gate g).state ≠ .absent) : GatesFollow s (enableGate g s).2 := by
  have reads := gatesFollow_readPosition g s
  have present : ((readPosition g s).gate g).state ≠ .absent := fun h => hg ((reads g).absent.1 h)
  unfold enableGate gateReply refuse
  dsimp only
  repeat' split
  · next hm =>
    exact reads.trans (gatesFollow_enterState present (by simp) (.inl hm)) (by simp)
  · refine (reads.trans (gatesFollow_setGate (.commandedTo _ _ _)) (by simp)).trans
      (gatesFollow_enterState ?_ (by simp) ?_) (by simp)
    · simpa using present
    · simp
  all_goals exact reads

theorem gatesFollow_disableGate (hg : (s.gate g).state ≠ .absent) : GatesFollow s (disableGate g s).2 := by
  unfold disableGate gateReply
  split
  · exact gatesFollow_of_same rfl
  · exact gatesFollow_enterState hg (by simp) (by simp [GateState.ordered])

theorem gatesFollow_holdGate (hg : (s.gate g).state ≠ .absent) : GatesFollow s (holdGate g s).2 := by
  unfold holdGate gateReply refuse
  split
  · next h => exact gatesFollow_enterState hg (by simp) (by simp [h, GateState.ordered])
  · split <;> exact gatesFollow_of_same rfl

theorem gatesFollow_releaseGate (hg : (s.gate g).state ≠ .absent) : GatesFollow s (releaseGate g s).2 := by
  unfold releaseGate gateReply refuse
  split
  · next h => exact gatesFollow_enterState hg (by simp) (by simp [h, GateState.ordered])
  · exact gatesFollow_of_same rfl

theorem gatesFollow_clearFaultGate (hg : (s.gate g).state ≠ .absent) : GatesFollow s (clearFaultGate g s).2 := by
  have reads := gatesFollow_readPosition g s
  have present : ((readPosition g s).gate g).state ≠ .absent := fun h => hg ((reads g).absent.1 h)
  unfold clearFaultGate gateReply refuse
  dsimp only
  repeat' split
  · refine (reads.trans (gatesFollow_setGate (.commandedTo _ _ _)) (by simp)).trans
      (gatesFollow_enterState ?_ (by simp) ?_) (by simp)
    · simpa using present
    · simp
  all_goals exact reads

end

/-! ### The limits are in order (R1, check 4), and a computation's targets lie in them -/

/-- Check 4 of the commit checks, by the limits of each gate (R1). -/
theorem check4_iff (set : GovSet) :
    check4 set = true ↔ ∀ g, (set.t1.get g).minOpening ≤ (set.t1.get g).maxOpening
      ∧ (set.t1.get g).rate ≤ (set.t1.get g).urgentRate := by
  rw [check4, all_items_iff]
  simp

theorem clampOpening_within {cfg : GateCfg} (h : cfg.minOpening ≤ cfg.maxOpening) (o : Nat) :
    cfg.minOpening ≤ clampOpening cfg o ∧ clampOpening cfg o ≤ cfg.maxOpening := by
  unfold clampOpening
  omega

section
variable {sn : Snapshot} {g : GateNo}

theorem effMin_within (h : (sn.cfg g).minOpening ≤ (sn.cfg g).maxOpening) :
    (sn.cfg g).minOpening ≤ sn.effMin g ∧ sn.effMin g ≤ (sn.cfg g).maxOpening := by
  unfold Snapshot.effMin
  dsimp only
  split <;> omega

theorem targetOpening_within (h : (sn.cfg g).minOpening ≤ (sn.cfg g).maxOpening) (a : Nat) :
    (sn.cfg g).minOpening ≤ sn.targetOpening g a ∧ sn.targetOpening g a ≤ (sn.cfg g).maxOpening := by
  have := effMin_within h
  unfold Snapshot.targetOpening
  repeat' split
  all_goals omega

/-- R6, R73: every target that a computation hands on lies within its gate's limits. -/
theorem compute_target_within (hc : check4 sn.govSet = true) (ht : TargetsWithin sn.govSet sn.gates) :
    (sn.cfg g).minOpening ≤ (compute sn).targets.get g ∧ (compute sn).targets.get g ≤ (sn.cfg g).maxOpening := by
  have limits : (sn.cfg g).minOpening ≤ (sn.cfg g).maxOpening := ((check4_iff _).1 hc g).1
  have held : (sn.cfg g).minOpening ≤ (sn.gates.get g).target ∧ (sn.gates.get g).target ≤ (sn.cfg g).maxOpening := ht g
  have tiered := targetOpening_within limits (allotmentIn sn.fill.2 g)
  cases hm : sn.mode <;> simp only [compute, hm]
  case schedule | passThrough => simpa using tiered
  case hold | initial => simpa [computeHold] using held
  case surcharge =>
    simp only [computeSurcharge, Tab.get_ofFn]
    split
    · exact ⟨limits, le_refl _⟩
    · exact held

/-- R12, R74: a computation commands every gate that the snapshot shows commanded. -/
theorem compute_commanded (h : (sn.gates.get g).commanded.isSome = true) :
    ((compute sn).commands.get g).isSome = true := by
  cases hm : sn.mode <;> simp only [compute, hm]
  case schedule | passThrough => simpa using h
  case hold | initial => simpa [computeHold] using h
  case surcharge =>
    simp only [computeSurcharge, Tab.get_ofFn, Snapshot.gate]
    split <;> simpa using h

end

/-! ### Completions on the gate records (R7, R19) -/

/-- R7: the record of each gate after the completion of a computation outside INITIAL. -/
theorem completeGoverned_gate (sn : Snapshot) (s : State) (g : GateNo) :
    (completeGoverned sn s).gate g
      = if (sn.gates.get g).state = .active ∧ (s.gate g).state = .active then
          { s.gate g with target := (compute sn).targets.get g, commanded := (compute sn).commands.get g }
        else s.gate g := by
  have written : (completeGoverned sn s).gate g
      = if sn.active g ∧ (s.gate g).state = .active then
          { s.gate g with target := (compute sn).targets.get g, commanded := (compute sn).commands.get g }
        else s.gate g := by
    simp only [completeGoverned, State.gate, raiseIf_same, writeResults_gates, requestOrders_same, writeTargets,
      Tab.get_ofFn]
    rfl
  rw [written]
  simp only [Snapshot.active_iff]

theorem completeGoverned_results (sn : Snapshot) (s : State) :
    (completeGoverned sn s).engine = { s.engine with results := (compute sn).results } := by
  simp [completeGoverned]

/-- R19: the record of each gate after the completion that leaves INITIAL. -/
theorem completeLeaving_gate (sn : Snapshot) (s : State) (g : GateNo) :
    (completeLeaving sn s).gate g
      = (s.gate g).bumpless (s.gateCfg g) (sn.gates.get g).measured (sn.gates.get g).fresh := by
  simp [completeLeaving, bumplessStart, State.gate, State.gateCfg]

theorem completeInitial_same (sn : Snapshot) (s : State) :
    (completeInitial sn s).gates = s.gates ∧ (completeInitial sn s).mode = s.mode := ⟨rfl, rfl⟩

theorem bumpless_spec (cfg : GateCfg) (measured : Nat) (fresh : Bool) (r : Gate) :
    let r' := r.bumpless cfg measured fresh
    (r'.state = .absent ↔ r.state = .absent) ∧ r'.target = r.target
      ∧ (r'.state ≠ .absent → r'.commanded.isSome = true) := by
  dsimp only
  unfold Gate.bumpless
  split
  · simp [*]
  · split
    · simp [*]
    · split <;> simp [Gate.entering, *]

/-! ### The Gate Table's invariant (R6, R11, R12) -/

/-- The limits of the gates are in order in the active set and, while a switch is pending, in the shadow: of R167's checks, check 4. -/
def Management.LimitsOrdered (m : Management) : Prop :=
  check4 m.active = true ∧ (m.switchPending = true → check4 m.shadow = true)

/-- The Gate Table's invariant, with what it needs of the sets to be kept. -/
structure GateKept (s : State) : Prop where
  inv : GateInv s
  limits : s.mgmt.LimitsOrdered

theorem check4_of_passesChecks {node : Byte} {stn : BitVec 3} {set : GovSet} (h : passesChecks node stn set = true) :
    check4 set = true := by
  simp only [passesChecks, commitChecks, List.all_cons, Bool.and_eq_true] at h
  exact h.2.2.2.1

theorem SetInv.limitsOrdered {s : State} (h : SetInv s) : s.mgmt.LimitsOrdered :=
  ⟨check4_of_passesChecks h.active, fun hp => check4_of_passesChecks (h.pending hp).1⟩

section
variable {s t : State}

/-- The invariant of a state whose active set stays, whose records follow, that begins no computation, and that stays in INITIAL. -/
theorem GateInv.follows (h : GateInv s) (active : t.mgmt.active = s.mgmt.active)
    (computation : ∀ sn, t.engine.computation = some sn → s.engine.computation = some sn)
    (mode : s.mode.effective = .initial → t.mode.effective = .initial) (gates : GatesFollow s t) : GateInv t where
  classes g := by
    rw [(gates g).absent, ← h.classes g, State.gateCfg, active, State.gateCfg]
  snapshot sn hs := by rw [active, h.snapshot sn (computation sn hs)]
  targets :=
    ⟨fun g => by
        have := h.targets.1 g
        rwa [active, show (t.gates.get g).target = _ from (gates g).target],
      fun sn hs => h.targets.2 sn (computation sn hs)⟩
  commanded :=
    ⟨fun hm g =>
        have outside : s.mode.effective ≠ .initial := fun he => hm (mode he)
        (gates g).commanded outside (h.commanded.1 outside g),
      fun sn hs => h.commanded.2 sn (computation sn hs)⟩

theorem GateKept.follows (h : GateKept s) (mgmt : t.mgmt = s.mgmt) (engine : t.engine = s.engine)
    (mode : s.mode.effective = .initial → t.mode.effective = .initial) (gates : GatesFollow s t) : GateKept t :=
  ⟨h.inv.follows (by rw [mgmt]) (by rw [engine]; exact fun _ hs => hs) mode gates, by rw [mgmt]; exact h.limits⟩

/-- Work that leaves the gate records. -/
theorem GateKept.of_same (h : GateKept s) (gates : t.gates = s.gates) (mgmt : t.mgmt = s.mgmt)
    (engine : t.engine = s.engine) (mode : s.mode.effective = .initial → t.mode.effective = .initial) : GateKept t :=
  h.follows mgmt engine mode (gatesFollow_of_same gates)

/-- Work of the Management Agent that leaves the active set. -/
theorem GateKept.of_mgmt (h : GateKept s) (gates : t.gates = s.gates) (active : t.mgmt.active = s.mgmt.active)
    (pending : t.mgmt.switchPending = true → check4 t.mgmt.shadow = true) (engine : t.engine = s.engine)
    (mode : t.mode = s.mode) : GateKept t :=
  ⟨h.inv.follows active (by rw [engine]; exact fun _ hs => hs) (by rw [mode]; exact id) (gatesFollow_of_same gates),
    by rw [active]; exact h.limits.1, pending⟩

/-- A state with no computation in flight meets the invariant by its records alone. -/
theorem gateInv_of_idle (idle : t.engine.computation = none) (classes : ClassState t)
    (targets : TargetsWithin t.mgmt.active t.gates) (commanded : CommandedIn t.mode.effective t.gates) : GateInv t where
  classes := classes
  snapshot sn h := by rw [idle] at h; cases h
  targets := ⟨targets, fun sn h => by rw [idle] at h; cases h⟩
  commanded := ⟨commanded, fun sn h => by rw [idle] at h; cases h⟩

end

/-! ### The cadence expiry keeps it (R168, R55) -/

section
variable {s : State}

/-- R11: the class change of a switch makes a record ABSENT exactly when its new class is. -/
theorem switchClass_absent_iff {old new : GateClass} {r : Gate} (h : old = .absent ↔ r.state = .absent) :
    (r.switchClass old new).state = .absent ↔ new = .absent := by
  unfold Gate.switchClass
  split
  · next e => rw [← h, e]
  · split
    · next e he => simp [Gate.entering]; exact fun hn => e (he.trans hn.symm)
    · split <;> simp [Gate.entering, *]

/-- R11: after a switch a gate is ordered only where it was, with its commanded opening kept. -/
theorem switchClass_ordered {old new : GateClass} {r : Gate} (h : (r.switchClass old new).state.ordered = true) :
    r.switchClass old new = r := by
  unfold Gate.switchClass at h ⊢
  repeat' split at h
  · simp [*]
  all_goals simp [Gate.entering, GateState.ordered] at h

/-- R168: a set switch with no computation in flight. -/
theorem GateKept.setSwitch (h : GateKept s) (idle : s.engine.computation = none) (hp : s.mgmt.switchPending = true) :
    GateKept (setSwitch s) := by
  have mgmt := (setSwitch_fields s).1
  have shadow : check4 s.mgmt.shadow = true := h.limits.2 hp
  refine ⟨gateInv_of_idle (by simpa using idle) (fun g => ?_) (fun g => ?_) (fun hm g ho => ?_), ?_⟩
  · rw [setSwitch_gate, State.gateCfg, mgmt]
    exact (switchClass_absent_iff (h.inv.classes g)).symm
  · rw [mgmt, show (Machine.setSwitch s).gates.get g = _ from setSwitch_gate s g]
    exact clampOpening_within ((check4_iff _).1 shadow g).1 _
  · rw [show (Machine.setSwitch s).gates.get g = _ from setSwitch_gate s g] at ho ⊢
    have same := switchClass_ordered ho
    dsimp only at ho ⊢
    rw [same] at ho ⊢
    exact h.inv.commanded.1 (by simpa using hm) g ho
  · rw [mgmt]
    exact ⟨shadow, by simp⟩

theorem GateKept.switched (h : GateKept s) (idle : s.engine.computation = none) : GateKept (switched s) := by
  have opened : GateKept (openExpiry s) := h.of_same rfl rfl rfl id
  by_cases hp : s.mgmt.switchPending = true
  · rw [switched_some hp]
    exact opened.setSwitch idle hp
  · rw [switched_none (by simpa using hp)]
    exact opened

/-- R5, R17, R18: the positions read and the tracking of an expiry. -/
theorem gatesFollow_expiryWork (s : State) : GatesFollow (switched s) (expiryWork s) := fun g => by
  have read : Gate.Follows (switched s).mode.effective ((switched s).gate g)
      (if ((switched s).gate g).state = .absent then (switched s).gate g
        else ((switched s).gate g).read ((switched s).positionSlot g)) := by
    split
    · exact .refl _ _
    · exact .read _ _ _
  rw [State.gate, State.gate, expiryWork_gate]
  dsimp only
  split
  · exact read
  · exact read.trans (.tracking _ _ _ _)

theorem GateKept.expiryWork (h : GateKept s) (idle : s.engine.computation = none) : GateKept (expiryWork s) := by
  refine (h.switched idle).follows (expiryWork_fields s).1 (by simp) (fun hm => ?_) (gatesFollow_expiryWork s)
  rw [expiryWork_mode]
  exact hm

/-- R56: the snapshot shows the records, the set and the mode as they stand. -/
theorem GateKept.beginComputation (h : GateKept s) : GateKept (beginComputation s) where
  limits := h.limits
  inv :=
    { classes := h.inv.classes
      snapshot := fun sn hs => by cases hs; rfl
      targets := ⟨h.inv.targets.1, fun sn hs => by cases hs; exact h.inv.targets.1⟩
      commanded := ⟨h.inv.commanded.1, fun sn hs => by cases hs; exact h.inv.commanded.1⟩ }

/-! ### The completion and RESTART keep it (R7, R9, R19) -/

/-- R7, R73, R74: the completion of a computation outside INITIAL, whose snapshot `sn` meets the invariant. -/
theorem GateKept.completeGoverned (h : GateKept s) (idle : s.engine.computation = none) {sn : Snapshot}
    (current : sn.govSet = s.mgmt.active) (targets : TargetsWithin sn.govSet sn.gates)
    (commanded : CommandedIn sn.mode sn.gates) (outside : sn.mode ≠ .initial) : GateKept (completeGoverned sn s) := by
  refine ⟨gateInv_of_idle (by simpa using idle) (fun g => ?_) (fun g => ?_) (fun hm g ho => ?_), by simpa using h.limits⟩
  · rw [completeGoverned_gate, State.gateCfg, (completeGoverned_same sn s).2.1]
    have := h.inv.classes g
    split <;> exact this
  · have kept := h.inv.targets.1 g
    have set := compute_target_within (g := g) (current ▸ h.limits.1) targets
    rw [(completeGoverned_same sn s).2.1, show (Machine.completeGoverned sn s).gates.get g = _ from completeGoverned_gate sn s g]
    split
    · rwa [Snapshot.cfg, current] at set
    · exact kept
  · have kept := h.inv.commanded.1 (by simpa using hm) g
    rw [show (Machine.completeGoverned sn s).gates.get g = _ from completeGoverned_gate sn s g] at ho ⊢
    split at ho <;> rename_i hw
    · rw [if_pos hw]
      exact compute_commanded (commanded outside g (by simp [hw.1, GateState.ordered]))
    · rw [if_neg hw]
      exact kept ho

/-- R19: the completion that leaves INITIAL commands every present gate. -/
theorem GateKept.completeLeaving (h : GateKept s) (idle : s.engine.computation = none) (sn : Snapshot) :
    GateKept (completeLeaving sn s) := by
  have spec : ∀ g, _ := fun g =>
    bumpless_spec (s.gateCfg g) (sn.gates.get g).measured (sn.gates.get g).fresh (s.gate g)
  refine ⟨gateInv_of_idle (by simpa using idle) (fun g => ?_) (fun g => ?_) (fun hm g ho => ?_), by simpa using h.limits⟩
  · rw [completeLeaving_gate, (spec g).1, State.gateCfg, (completeLeaving_same sn s).2.1]
    exact h.inv.classes g
  · rw [(completeLeaving_same sn s).2.1, show (Machine.completeLeaving sn s).gates.get g = _ from completeLeaving_gate sn s g,
      (spec g).2.1]
    exact h.inv.targets.1 g
  · rw [show (Machine.completeLeaving sn s).gates.get g = _ from completeLeaving_gate sn s g] at ho ⊢
    exact (spec g).2.2 (ne_absent_of_ordered ho)

theorem GateKept.completeComputation (h : GateKept s) {sn : Snapshot} (hs : s.engine.computation = some sn) :
    GateKept (completeComputation sn s) := by
  have ended : GateKept { s with engine := { s.engine with computation := none } } :=
    ⟨h.inv.follows rfl (by simp) id (gatesFollow_of_same rfl), h.limits⟩
  suffices body : GateKept (completeBody sn { s with engine := { s.engine with computation := none } }) from
    body.of_same (by simp [Machine.completeComputation]) (by simp [Machine.completeComputation])
      (by simp [Machine.completeComputation]) (by simp [Machine.completeComputation])
  unfold completeBody
  split
  · split
    · exact ended.completeLeaving rfl sn
    · exact ⟨gateInv_of_idle rfl ended.inv.classes ended.inv.targets.1 ended.inv.commanded.1, ended.limits⟩
  · next hm =>
    exact ended.completeGoverned rfl (h.inv.snapshot sn hs) (h.inv.targets.2 sn hs) (h.inv.commanded.2 sn hs) hm

theorem restarted_absent_iff (cfg : GateCfg) (r : Gate) : (r.restarted cfg).state = .absent ↔ r.state = .absent := by
  unfold Gate.restarted
  dsimp only
  split
  · next ho => simp [ne_absent_of_ordered ho]
  · rfl

/-- R9: RESTART puts every target at its gate's min opening, and the effective mode is INITIAL. -/
theorem GateKept.restart (h : GateKept s) : GateKept (restartRequest s).2 := by
  have gate : ∀ g, (restartRequest s).2.gates.get g = (s.gate g).restarted (s.gateCfg g) := fun g => by
    simp [restartRequest, restartState]
  have mgmt : (restartRequest s).2.mgmt = (restartState s).mgmt := by simp [restartRequest]
  have initial : (restartRequest s).2.mode.effective = .initial := by simp [restartRequest, restartState]
  refine ⟨gateInv_of_idle (by simp [restartRequest]) (fun g => ?_) (fun g => ?_) (fun hm => absurd initial hm), ?_⟩
  · rw [State.gateCfg, mgmt, State.gate, gate, restarted_absent_iff]
    exact h.inv.classes g
  · rw [mgmt, gate]
    exact ⟨le_refl _, ((check4_iff _).1 h.limits.1 g).1⟩
  · rw [mgmt]
    exact ⟨h.limits.1, by simp⟩

/-! ### Requests of the sets and the mode -/

/-- What a WRITE_ENTRY touches: the shadow and the open write. -/
theorem writeRequest_same (src : Byte) (ops : List Byte) (s : State) :
    ∃ m, (writeRequest src ops s).2 = { s with mgmt := m } := by
  have held : ∀ w l, ∃ m, (holdSegment w l s).2 = { s with mgmt := m } := fun w l => by
    unfold holdSegment
    repeat' split
    all_goals exact ⟨_, rfl⟩
  unfold writeRequest takeSegment firstSegment nextSegment
  repeat' split
  all_goals first | exact held _ _ | exact ⟨_, rfl⟩

theorem GateKept.write (h : GateKept s) (src : Byte) (ops : List Byte) : GateKept (writeRequest src ops s).2 := by
  obtain ⟨-, active, -, pending, busy, -⟩ := writeRequest_mgmt src ops s
  obtain ⟨m, hm⟩ := writeRequest_same src ops s
  refine h.of_mgmt (by rw [hm]) active (fun hp => ?_) (by rw [hm]) (by rw [hm])
  rw [pending] at hp
  rw [busy hp]
  exact h.limits.2 hp

theorem GateKept.commit (h : GateKept s) : GateKept (commitRequest s).2 := by
  unfold commitRequest
  split
  · exact h
  · split
    · next hc => exact h.of_mgmt rfl rfl (fun _ => check4_of_passesChecks hc) rfl rfl
    · exact h

theorem GateKept.lock (h : GateKept s) : GateKept (lockRequest s).2 := by
  unfold lockRequest
  split
  · exact h
  · split
    · exact h
    · exact h.of_mgmt rfl rfl h.limits.2 rfl rfl

theorem GateKept.endSend (h : GateKept s) : GateKept (endSend s) := by
  unfold Machine.endSend
  split
  · exact h.of_same (by simp) (by simp) (by simp) (by simp)
  · exact h

theorem GateKept.relay (h : GateKept s) (f : Frame) : GateKept (relayFrame f s) := by
  unfold relayFrame
  repeat' split
  all_goals exact h.of_same (by simp) (by simp) (by simp) (by simp)

theorem GateKept.mode (h : GateKept s) (ops : List Byte) : GateKept (requestMode ops s).2 := by
  refine h.of_same ?_ ?_ ?_ (requestMode_initial ops s).2
  all_goals
    unfold requestMode
    dsimp only
    repeat' split
    all_goals simp

/-- Requests of the Plan Timer touch its record alone. -/
theorem GateKept.timer (h : GateKept s) (t : Timer) : GateKept { s with timer := t } := h.of_same rfl rfl rfl id

theorem GateKept.stripFrame (h : GateKept s) (f : Frame) : GateKept (stripFrame f s) := by
  refine h.follows (stripFrame_mgmt f s).1 ?_ ?_ (gatesFollow_stripFrame f s)
  all_goals
    unfold Machine.stripFrame handReturn
    repeat' split
    all_goals simp

end

theorem gateKept_pinReset (addr : Byte) (stn : BitVec 3) (q : List Instr) : GateKept (State.pinReset addr stn q) where
  inv := gateInv_of_idle rfl (fun g => by simp [State.gateCfg, State.gate, State.pinReset, emptySet, emptyGateCfg, resetGate])
    (fun g => by simp [State.pinReset, emptySet, emptyGateCfg, resetGate]) (fun hm => absurd rfl hm)
  limits := ⟨show check4 emptySet = true by decide, by simp [State.pinReset]⟩

/-- Every piece of work of the blocks keeps the Gate Table's invariant. -/
theorem keeps_gateKept : Keeps GateKept where
  assertReset s h := ⟨h.inv.follows rfl (by simp) id (gatesFollow_of_same rfl), h.limits⟩
  close s h := h.of_same (by simp) (by simp) (by simp) (by simp)
  count c n s h := h.of_same rfl rfl rfl id
  answer q r s _ h := h.of_same rfl rfl rfl id
  stale s h := h.of_same (by simp) (by simp) (by simp) (by simp)
  due s h := h.of_same (by simp) (by simp) (by simp) (by simp)
  tick s h := h.of_same rfl rfl rfl id
  expiry s _ idle h := (h.expiryWork idle).beginComputation
  completion sn s hs h := h.completeComputation hs
  millisecond s h := h.follows (by simp) (by simp) (by simp) (gatesFollow_millisecond s)
  sent s h := h.endSend
  sample src es s h := h.of_same (by simp) (by simp) (by simp) (by simp)
  notice n s h := h.of_same (by simp) (by simp) (by simp) (by simp)
  phase p s h := h.of_same (by simp) (by simp) (by simp) (by simp)
  strip f s h := h.stripFrame f
  relay f s h := h.relay f
  write src ops s h := h.write src ops
  commit s h := h.commit
  cancel s h := h.of_mgmt rfl rfl (by simp [cancelRequest]) rfl rfl
  lock s h := h.lock
  enable g s hg h := h.follows (by simp) (by simp) (by simp) (gatesFollow_enableGate hg)
  disable g s hg h := h.follows (by simp) (by simp) (by simp) (gatesFollow_disableGate hg)
  hold g s hg h := h.follows (by simp) (by simp) (by simp) (gatesFollow_holdGate hg)
  release g s hg h := h.follows (by simp) (by simp) (by simp) (gatesFollow_releaseGate hg)
  clearFault g s hg h := h.follows (by simp) (by simp) (by simp) (gatesFollow_clearFaultGate hg)
  mode ops s h := h.mode ops
  run ops s h := by
    unfold runPlan
    repeat' split
    all_goals first | exact h | exact h.timer _
  stop ops s h := by
    unfold stopPlan
    repeat' split
    all_goals first | exact h | exact h.timer _
  output ops s h := by
    unfold setOutputGate
    repeat' split
    all_goals first | exact h | exact h.timer _
  clear ops s h := by
    unfold clearRequest
    split
    · exact h.of_same rfl rfl rfl id
    · exact h
  counters s h := h.of_same rfl rfl rfl id
  restart s h := h.restart

/-- Settles O59: the Gate Table's invariant, with the order of the limits that the sets' invariant gives, is kept by each piece of work. -/
theorem gateInvariantKept : Obligations.GateInvariantKept := fun _ _ sets gates hst =>
  (keeps_gateKept.step gateKept_pinReset (fun _ _ h => h.of_same rfl rfl rfl id) ⟨gates, sets.limitsOrdered⟩ hst).inv

end Sys2Proof.Machine

/-! The cadence expiry (R102): the gate records by the positions read and the tracking monitor (R5, R17, R18), the mode record by the
votes of a set switch (R50, R120, R128), and what the flags of an expiry call for (R174, R175). -/

namespace Sys2Proof.Machine

/-! ### The records of an expiry -/

/-- R5: the record of a gate after the position reads of an expiry, from its position slot. -/
def Gate.readPresent (slot : Slot) (r : Gate) : Gate := if r.state = .absent then r else r.read slot

theorem readPresent_same (slot : Slot) (r : Gate) :
    (r.readPresent slot).state = r.state ∧ (r.readPresent slot).target = r.target
      ∧ (r.readPresent slot).commanded = r.commanded ∧ (r.readPresent slot).count = r.count := by
  unfold Gate.readPresent
  split <;> simp [Gate.read]

theorem readPresent_present {slot : Slot} {r : Gate} (h : r.state ≠ .absent) : r.readPresent slot = r.read slot :=
  if_neg h

theorem expiryWork_record (s : State) (g : GateNo) :
    (expiryWork s).gate g
      = if (switched s).mode.effective = .initial then ((switched s).gate g).readPresent ((switched s).positionSlot g)
        else (((switched s).gate g).readPresent ((switched s).positionSlot g)).tracking
          (switched s).mgmt.active.t10.trackingBand (switched s).mgmt.active.t10.trackingLimit := expiryWork_gate s g

section
variable (band limit : Nat) {r : Gate}

/-- R17: a gate that the monitor does not watch keeps its state and its count, and so does one with no commanded opening. -/
theorem tracking_unwatched (h : r.state.tracked = false ∨ r.commanded = none) :
    (r.tracking band limit).state = r.state ∧ (r.tracking band limit).count = r.count := by
  unfold Gate.tracking
  split
  · split <;> simp
  · next hc =>
    rw [if_neg (by simpa [hc] using h)]
    split <;> simp

theorem tracking_absent (h : r.state = .absent) : r.tracking band limit = r := by
  unfold Gate.tracking
  split <;> simp [h, GateState.tracked]

/-- R17: what the monitor does to a gate that it watches. -/
theorem tracking_watched {c : Nat} (h : r.state.tracked = true) (hc : r.commanded = some c) :
    r.tracking band limit
      = if limit ≤ trackedCount band r c then { r with state := .fault .stuck, count := 0 }
        else { r with count := trackedCount band r c } := by
  simp [Gate.tracking, hc, h, Gate.entering, countOnEntry]

/-- R18: the commanded opening follows the position in LOCAL alone. -/
theorem tracking_commanded :
    (r.tracking band limit).commanded
      = if r.state = .localControl ∧ r.fresh = true then some r.measured else r.commanded := by
  have hl : r.state = .localControl → r.state.tracked = false := fun h => by rw [h]; rfl
  unfold Gate.tracking
  dsimp only
  repeat' split
  all_goals simp_all [Gate.entering]

/-- R17: at an expiry a gate stays in its state or goes, from ACTIVE or HELD, to FAULT(STUCK). -/
theorem tracking_state :
    (r.tracking band limit).state = r.state ∨ (r.tracking band limit).state = .fault .stuck := by
  unfold Gate.tracking
  dsimp only
  repeat' split
  all_goals simp [Gate.entering]

end

section
variable (s : State) (g : GateNo)

theorem expiryWork_target : ((expiryWork s).gate g).target = ((switched s).gate g).target :=
  (gatesFollow_expiryWork s g).target

theorem expiryWork_absent_iff : ((expiryWork s).gate g).state = .absent ↔ ((switched s).gate g).state = .absent :=
  (gatesFollow_expiryWork s g).absent

theorem expiryWork_of_absent (h : ((switched s).gate g).state = .absent) :
    (expiryWork s).gate g = (switched s).gate g := by
  have read : ((switched s).gate g).readPresent ((switched s).positionSlot g) = (switched s).gate g := if_pos h
  rw [expiryWork_record, read, tracking_absent _ _ h, ite_self]

theorem expiryWork_state :
    ((expiryWork s).gate g).state = ((switched s).gate g).state ∨ ((expiryWork s).gate g).state = .fault .stuck := by
  have same := (readPresent_same ((switched s).positionSlot g) ((switched s).gate g)).1
  rw [expiryWork_record]
  split
  · exact .inl same
  · rw [← same]
    exact tracking_state _ _

variable {s g}

theorem expiryWork_unwatched
    (h : ((switched s).gate g).state.tracked = false ∨ ((switched s).gate g).commanded = none
      ∨ (switched s).mode.effective = .initial) :
    ((expiryWork s).gate g).state = ((switched s).gate g).state
      ∧ ((expiryWork s).gate g).count = ((switched s).gate g).count := by
  obtain ⟨state, -, commanded, count⟩ := readPresent_same ((switched s).positionSlot g) ((switched s).gate g)
  rw [expiryWork_record]
  split
  · exact ⟨state, count⟩
  · next hm =>
    rw [← state, ← count]
    refine tracking_unwatched _ _ ?_
    rw [state, commanded]
    exact h.imp_right fun h => h.resolve_right hm

theorem expiryWork_commanded
    (h : ((switched s).gate g).state ≠ .localControl ∨ (switched s).mode.effective = .initial) :
    ((expiryWork s).gate g).commanded = ((switched s).gate g).commanded := by
  obtain ⟨state, -, commanded, -⟩ := readPresent_same ((switched s).positionSlot g) ((switched s).gate g)
  rw [expiryWork_record]
  split
  · exact commanded
  · next hm =>
    rw [tracking_commanded, state, if_neg fun hl => h.resolve_right hm hl.1, commanded]

/-- R5: a present gate holds its position slot's value. -/
theorem expiryWork_position (h : ((switched s).gate g).state ≠ .absent) :
    ((expiryWork s).gate g).measured = min ((switched s).positionSlot g).value fullStroke
      ∧ ((expiryWork s).gate g).fresh = ((switched s).positionSlot g).quality.fresh := by
  rw [expiryWork_record, readPresent_present h]
  split
  · exact ⟨rfl, rfl⟩
  · exact ⟨(tracking_keeps _ _ _).1, (tracking_keeps _ _ _).2.1⟩

end

/-! ### The mode record at a set switch (R50, R120, R121, R128) -/

/-- R125: outside INITIAL the effective mode is the entry of Table 7-3, said of a mode record. -/
def ModeRecord.ByTable (m : ModeRecord) : Prop := m.effective = .initial ∨ m.effective = effectiveMode m.requested m.stage

section
variable (hw : Nat) (s : State)

@[simp] theorem recomputeMode_requested : (recomputeMode s).mode.requested = s.mode.requested := by
  rw [recomputeMode_mode]
  split <;> rfl

@[simp] theorem evaluateStage_requested : (evaluateStage hw s).mode.requested = s.mode.requested := by
  unfold evaluateStage fallTest fallStage
  dsimp only
  repeat' split
  all_goals simp

@[simp] theorem recomputeMode_duty : (recomputeMode s).mode.duty = s.mode.duty := by
  rw [recomputeMode_mode]
  split <;> rfl

@[simp] theorem evaluateStage_duty : (evaluateStage hw s).mode.duty = s.mode.duty := by
  unfold evaluateStage fallTest fallStage
  dsimp only
  repeat' split
  all_goals simp

theorem recomputeMode_byTable : (recomputeMode s).mode.ByTable := by
  rw [recomputeMode_mode]
  split
  · next h => exact .inl h
  · exact .inr rfl

variable {s}

theorem evaluateStage_byTable (h : s.mode.ByTable) : (evaluateStage hw s).mode.ByTable := by
  unfold evaluateStage fallTest fallStage
  dsimp only
  repeat' split
  all_goals first | exact recomputeMode_byTable _ | exact h

@[simp] theorem votedMode_requested (s : State) : (votedMode s).requested = s.mode.requested := by
  unfold votedMode
  split <;> simp

@[simp] theorem votedMode_initial (s : State) : (votedMode s).effective = .initial ↔ s.mode.effective = .initial := by
  unfold votedMode
  split <;> simp

@[simp] theorem votedMode_duty (s : State) : (votedMode s).duty = s.mode.duty := by
  unfold votedMode
  split <;> simp

theorem votedMode_byTable (h : s.mode.ByTable) : (votedMode s).ByTable := by
  unfold votedMode
  split
  · exact evaluateStage_byTable _ h
  · exact h

/-- R128: what a set switch makes of the requested mode. -/
theorem setSwitch_requested (s : State) :
    (setSwitch s).mode.requested
      = if s.mgmt.shadow.plan.count = 0 ∧ s.mode.requested = .schedule then .hold else s.mode.requested := by
  rw [setSwitch_mode, votedMode_requested]
  split
  · split <;> rfl
  · exact votedMode_requested s

/-- R50: the votes of a set switch set the stage. -/
theorem setSwitch_stage (s : State) : (setSwitch s).mode.stage = (votedMode s).stage := by
  rw [setSwitch_mode]
  repeat' split
  all_goals rfl

theorem setSwitch_byTable (h : s.mode.ByTable) : (setSwitch s).mode.ByTable := by
  rw [setSwitch_mode]
  split
  · split
    · next hi => exact .inl hi
    · exact .inr rfl
  · exact votedMode_byTable h

/-- R132: a set switch leaves the compensation duty. -/
theorem switched_duty (s : State) : (switched s).mode.duty = s.mode.duty := by
  unfold switched takePendingSwitch
  split
  · rw [setSwitch_mode]
    have voted : (votedMode (openExpiry s)).duty = s.mode.duty := votedMode_duty _
    repeat' split
    all_goals exact voted
  · rfl

/-- R128: a SCHEDULE that the new plan leaves without a plan is DEMOTED. -/
theorem flagIn_setSwitch_demoted (hp : s.mgmt.shadow.plan.count = 0) (hr : s.mode.requested = .schedule) :
    flagIn .demoted (setSwitch s).report.flags = true := by
  unfold setSwitch
  dsimp only
  generalize hu : switchTimer _ = u
  have plan : u.mgmt.active.plan.count = 0 := by
    simpa [← hu, switchSets] using hp
  have requested : u.mode.requested = .schedule := by
    rw [← hu]
    simp [vote_mode, switchSlots]
    split <;> simpa [switchSets] using hr
  rw [switchMode, if_pos ⟨plan, requested⟩]
  exact flagIn_recomputeMode_of (by simp [flagIn_raise])

end

/-! ### What an expiry that takes a set switch leaves (R168) -/

section
variable {old new : GateClass} {r : Gate}

/-- R11: a gate whose class stays keeps its record. -/
theorem switchClass_same (h : old = new) : r.switchClass old new = r := if_pos h

/-- R11: a gate whose class changes. -/
theorem switchClass_changed (h : old ≠ new) :
    (r.switchClass old new).state = (if new = .absent then .absent else .offline) ∧ (r.switchClass old new).count = 0
      ∧ (r.switchClass old new).commanded = if old = .absent ∨ new = .absent then none else r.commanded := by
  unfold Gate.switchClass
  rw [if_neg h]
  split
  · next ho => simp [Gate.entering, countOnEntry, ho, show new ≠ .absent from fun hn => h (ho.trans hn.symm)]
  · split <;> simp [Gate.entering, countOnEntry, *]

theorem switchClass_target : (r.switchClass old new).target = r.target := by
  unfold Gate.switchClass
  repeat' split
  all_goals rfl

end

/-- R17: the tracking monitor places no order. -/
theorem gateExpiry_queue (s : State) : ∀ o ∈ (gateExpiry s).orders.queue, o ∈ s.orders.queue := by
  intro o ho
  simp only [gateExpiry, raiseGateFlags_same] at ho
  split at ho
  · exact ho
  · simp only [trackGates, raiseIf_same, withdraw, bumpBy_orders, List.mem_filter] at ho
    exact ho.1

theorem expiryWork_queue (s : State) : ∀ o ∈ (expiryWork s).orders.queue, o ∈ (switched s).orders.queue := by
  intro o ho
  rw [(expiryWork_fields s).2.2.2.2.2.2.2.2] at ho
  simpa using gateExpiry_queue _ o ho

/-- R96: the records of origins that a set switch keeps. -/
theorem originKept_iff (a b : OriginRecord) :
    originKept a b = true ↔ a.inUse = b.inUse ∧ (b.inUse = true → a.station = b.station) := by
  cases ha : a.inUse <;> cases hb : b.inUse <;> simp [originKept, ha, hb]

section
variable {s : State} (hp : s.mgmt.switchPending = true)
include hp

theorem switched_gate (g : GateNo) :
    (switched s).gate g
      = { (s.gate g).switchClass (s.mgmt.active.t1.get g).cls (s.mgmt.shadow.t1.get g).cls with
          target := clampOpening (s.mgmt.shadow.t1.get g) (s.gate g).target } := by
  rw [switched_some hp, setSwitch_gate, switchClass_target]
  rfl

theorem switched_mgmt :
    (switched s).mgmt
      = { s.mgmt with active := s.mgmt.shadow, switchPending := false, generation := s.mgmt.generation + 1 } := by
  rw [switched_some hp, (setSwitch_fields _).1]
  rfl

theorem switched_lost (g : GateNo) :
    (switched s).orders.lost.get g
      = if (s.mgmt.active.t1.get g).cls ≠ (s.mgmt.shadow.t1.get g).cls
            ∨ (s.mgmt.active.t1.get g).node ≠ (s.mgmt.shadow.t1.get g).node then 0
        else s.orders.lost.get g := by
  rw [switched_some hp, (setSwitch_fields _).2.2.2.1]
  simp only [switchOrders, State.gateCfg, switchSets, Tab.get_ofFn]
  rfl

theorem switched_queue :
    (switched s).orders.queue
      = s.orders.queue.filter fun o =>
          !decide ((s.mgmt.active.t1.get o.gate).cls ≠ (s.mgmt.shadow.t1.get o.gate).cls) := by
  rw [switched_some hp, (setSwitch_fields _).2.2.1]
  rfl

/-- R43: a slot after a set switch. -/
theorem switched_slot (n : SlotNo) :
    (switched s).meas.slots.get n
      = if feederOf s.mgmt.active n ≠ feederOf s.mgmt.shadow n
            ∨ (s.mgmt.active.t7.get n).gain ≠ (s.mgmt.shadow.t7.get n).gain
            ∨ (s.mgmt.active.t7.get n).offset ≠ (s.mgmt.shadow.t7.get n).offset then
          { value := (s.meas.slots.get n).value, quality := .empty, age := 0, candidate := none }
        else if (s.mgmt.active.t7.get n).jumpLimit ≠ (s.mgmt.shadow.t7.get n).jumpLimit then
          { s.meas.slots.get n with candidate := none }
        else s.meas.slots.get n := by
  rw [switched_some hp, (setSwitch_meas _).1]
  rfl

/-- R46, R47, R48: both groups are voted anew. -/
theorem switched_levels :
    (switched s).meas.hw = voteOf s.meas.hw (freshValues (switched s).meas.slots s.mgmt.shadow.t8.headwater)
      ∧ (switched s).meas.tw = voteOf s.meas.tw (freshValues (switched s).meas.slots s.mgmt.shadow.t8.tailwater)
      ∧ (switched s).meas.head = headOf (switched s).meas.hw (switched s).meas.tw := by
  rw [switched_some hp]
  exact (setSwitch_meas (openExpiry s)).2

theorem switched_reach :
    (∀ n, (switched s).reach.origins.get n
        = if originKept (s.mgmt.active.t9.get n) (s.mgmt.shadow.t9.get n) then s.reach.origins.get n else clearedOrigin)
      ∧ (switched s).reach.queue
          = s.reach.queue.filter fun e => originKept (s.mgmt.active.t9.get e.origin) (s.mgmt.shadow.t9.get e.origin) := by
  rw [switched_some hp, (setSwitch_fields _).2.2.2.2.1]
  exact ⟨fun n => by simp only [switchReach, switchSets, Tab.get_ofFn]; rfl, rfl⟩

theorem switched_stage :
    (switched s).mode.stage
      = if (switched s).meas.hw.fresh = true then
          (evaluateStage (switched s).meas.hw.value { s with mgmt := (switched s).mgmt }).mode.stage
        else s.mode.stage := by
  rw [switched_some hp, setSwitch_stage]
  unfold votedMode
  split
  · exact congrArg ModeRecord.stage (evaluateStage_mode_congr _ rfl rfl rfl)
  · rfl

theorem switched_requested :
    (switched s).mode.requested
      = if s.mgmt.shadow.plan.count = 0 ∧ s.mode.requested = .schedule then .hold else s.mode.requested := by
  rw [switched_some hp, setSwitch_requested]
  rfl

end

/-- R6, R11, R17: the record of a gate after an expiry that takes a switch. -/
theorem expiryWork_switched_gate {s : State} (hp : s.mgmt.switchPending = true) (g : GateNo) :
    let c := s.mgmt.active.t1.get g
    let d := s.mgmt.shadow.t1.get g
    let r := s.gate g
    let r' := (expiryWork s).gate g
    r'.target = min (max r.target d.minOpening) d.maxOpening
      ∧ (c.cls ≠ d.cls →
          r'.state = (if d.cls = .absent then .absent else .offline) ∧ r'.count = 0
            ∧ r'.commanded = (if c.cls = .absent ∨ d.cls = .absent then none else r.commanded))
      ∧ (c.cls = d.cls → ¬ (r.state = .active ∨ r.state = .held) → r'.state = r.state ∧ r'.count = r.count)
      ∧ (c.cls = d.cls → r'.state = r.state ∨ r'.state = .fault .stuck)
      ∧ (c.cls = d.cls → r.state ≠ .localControl → r'.commanded = r.commanded) := by
  intro c d r r'
  have gate := switched_gate hp g
  have kept : c.cls = d.cls → ((switched s).gate g).state = r.state ∧ ((switched s).gate g).count = r.count
      ∧ ((switched s).gate g).commanded = r.commanded := fun h => by
    rw [gate, switchClass_same h]
    exact ⟨rfl, rfl, rfl⟩
  refine ⟨?_, fun h => ?_, fun h hw => ?_, fun h => ?_, fun h hl => ?_⟩
  · rw [expiryWork_target, gate]
    rfl
  · obtain ⟨state, count, commanded⟩ := switchClass_changed (r := r) h
    have unwatched : ((switched s).gate g).state.tracked = false ∧ ((switched s).gate g).state ≠ .localControl := by
      rw [gate, show GateState.tracked _ = _ from congrArg _ state]
      refine ⟨?_, ?_⟩
      · split <;> rfl
      · dsimp only
        rw [state]
        split <;> simp
    obtain ⟨state', count'⟩ := expiryWork_unwatched (s := s) (g := g) (.inl unwatched.1)
    rw [show r'.state = _ from state', show r'.count = _ from count',
      show r'.commanded = _ from expiryWork_commanded (.inl unwatched.2), gate]
    exact ⟨state, count, commanded⟩
  · obtain ⟨state, count, -⟩ := kept h
    have unwatched : ((switched s).gate g).state.tracked = false := by
      rw [state]
      cases hs : r.state <;> simp_all [GateState.tracked]
    rw [← state, ← count]
    exact expiryWork_unwatched (.inl unwatched)
  · rw [← (kept h).1]
    exact expiryWork_state s g
  · rw [← (kept h).2.2]
    exact expiryWork_commanded (.inl (by rwa [(kept h).1]))

/-- R128, R125: the modes after an expiry that takes a switch. -/
theorem expiryWork_switched_mode {s : State} (hp : s.mgmt.switchPending = true) :
    (s.mgmt.shadow.plan.count = 0 → s.mode.requested = .schedule →
        (expiryWork s).mode.requested = .hold ∧ flagIn .demoted (expiryWork s).report.flags = true)
      ∧ (s.mgmt.shadow.plan.count ≠ 0 ∨ s.mode.requested ≠ .schedule →
          (expiryWork s).mode.requested = s.mode.requested)
      ∧ (s.mode.effective = .initial → (expiryWork s).mode.effective = .initial)
      ∧ (s.mode.effective ≠ .initial → ModeByTable s →
          (expiryWork s).mode.effective
            = effectiveMode (expiryWork s).mode.requested (expiryWork s).mode.stage) := by
  have requested : (expiryWork s).mode.requested = _ := (congrArg _ (expiryWork_mode s)).trans (switched_requested hp)
  have effective : (expiryWork s).mode.effective = (switched s).mode.effective := by
    rw [expiryWork_mode]
  refine ⟨fun hc hr => ⟨?_, flagIn_expiryWork_of ?_⟩, fun h => ?_, fun h => ?_, fun h ht => ?_⟩
  · rw [requested, if_pos ⟨hc, hr⟩]
  · rw [switched_some hp]
    exact flagIn_setSwitch_demoted hc hr
  · rw [requested, if_neg fun hs => h.elim (fun h => h hs.1) fun h => h hs.2]
  · rw [effective]
    exact (switched_initial s).2 h
  · have byTable : (switched s).mode.ByTable := by
      rw [switched_some hp]
      exact setSwitch_byTable (s := openExpiry s) ht
    rw [expiryWork_mode]
    exact byTable.resolve_left fun hi => h ((switched_initial s).1 hi)

/-- Settles O11: the sets, records, slots, votes, reach queue and modes of an expiry are those its set switch leaves, by `switched`, as
no later work of the expiry changes them but the tracking of the gates. -/
theorem expiryTakesSwitch : Obligations.ExpiryTakesSwitch := by
  unfold Obligations.ExpiryTakesSwitch
  refine ⟨fun set h n src channel => feederOf_eq_some_iff set h n src channel, fun s awake settled due idle => ?_⟩
  obtain ⟨mgmt, meas, reach, lost, -, -, -, -, -⟩ := expiryWork_fields s
  refine ⟨_, exec_cadenceExpiry awake settled due idle, fun hp => ?_, fun hp => ?_⟩
  · have gate := expiryWork_switched_gate hp
    have levels := switched_levels hp
    have queue : ∀ o ∈ (closeEvent (beginComputation (expiryWork s))).orders.queue, o ∈ (switched s).orders.queue :=
      fun o ho => expiryWork_queue s o (by simpa using closeEvent_queue _ o ho)
    have modes := expiryWork_switched_mode hp
    simp only [closeEvent_same, beginComputation_mgmt, beginComputation_meas, beginComputation_reach,
      beginComputation_mode, beginComputation_report, beginComputation_orders, State.gate, beginComputation_gates]
    rw [mgmt, meas, reach, lost]
    refine ⟨switched_mgmt hp, flagIn_expiryWork_of ?_, fun g => ?_, switched_slot hp, levels.1, levels.2.1, levels.2.2,
      fun n => ?_, ?_, ?_, modes.1, modes.2.1, modes.2.2.1, modes.2.2.2⟩
    · rw [switched_some hp]
      exact flagIn_setSwitch_setSwitched _
    · obtain ⟨target, changed, unwatched, state, commanded⟩ := gate g
      refine ⟨target, fun h => ⟨(changed h).1, (changed h).2.1, (changed h).2.2, fun o ho he => ?_⟩, unwatched,
        fun h _ => state h, commanded, switched_lost hp g⟩
      have := queue o ho
      rw [switched_queue hp, List.mem_filter, he] at this
      exact absurd this.2 (by simpa using h)
    · rw [(switched_reach hp).1]
      simp only [originKept_iff]
      rfl
    · rw [(switched_reach hp).2]
      refine List.filter_congr fun e _ => ?_
      rw [Bool.eq_iff_iff, originKept_iff, decide_eq_true_iff]
    · rw [expiryWork_mode]
      exact switched_stage hp
  · simp only [closeEvent_same, beginComputation_mgmt, beginComputation_meas, beginComputation_reach,
      beginComputation_mode, beginComputation_orders]
    rw [mgmt, meas, reach, lost, expiryWork_mode, switched_none hp]
    exact ⟨rfl, rfl, rfl, rfl, rfl, rfl, rfl⟩

end Sys2Proof.Machine

/-! The reports of an event (R175, R176): what a report's frames are made of, what a report that is called for does to the
response/report queue and to REPORT_DROPS, and that the work of an expiry places no frame and drops no report. -/

namespace Sys2Proof.Machine

/-! ### The report of an event's end -/

/-- R176: what the frames of a report are made of. -/
theorem reportFrames_congr (kind : Byte) {s t : State} (generation : t.mgmt.generation = s.mgmt.generation)
    (mode : t.mode = s.mode) (results : t.engine.results = s.engine.results) (meas : t.meas = s.meas)
    (timer : t.timer = s.timer) (flags : t.report.flags = s.report.flags) (gates : t.gates = s.gates) :
    reportFrames kind t = reportFrames kind s := by
  simp only [reportFrames, summaryBytes, gatePart, generation, mode, results, meas, timer, flags, gates]

@[simp] theorem reportFrames_closeEvent (kind : Byte) (s : State) :
    reportFrames kind (closeEvent s) = reportFrames kind s :=
  reportFrames_congr kind (by simp) (by simp) (by simp) (by simp) (by simp) (by simp) (by simp)

section
variable {kind : Byte} {s : State}

/-- R176: a report with room for all its frames. -/
theorem queueReport_room (h : (reportFrames kind s).length ≤ s.feedRoom) :
    queueReport kind s = placeFrames (reportFrames kind s) s := if_pos h

/-- R176: a report without that room. -/
theorem queueReport_full (h : s.feedRoom < (reportFrames kind s).length) : queueReport kind s = bump .reportDrops s :=
  if_neg (Nat.not_le.2 h)

/-- R141: an event that ends with RO busy, or out of service, sends nothing. -/
theorem closeEvent_of_busy (h : s.ring.ro ≠ none ∨ ¬ InService s) :
    closeEvent s = { queueConditionReport s with marks := ⟨false, false⟩ } := by
  have idle : arbitrate (queueConditionReport s) = queueConditionReport s :=
    arbitrate_busy _ (by simpa [InService] using h)
  unfold closeEvent
  dsimp only
  rw [idle, ite_self]

theorem queueConditionReport_called (h : s.marks.reportDue = true) : queueConditionReport s = queueReport 4 s := if_pos h

theorem queueConditionReport_uncalled (h : s.marks.reportDue = false) : queueConditionReport s = s := by
  simp [queueConditionReport, h]

/-- R175: what the end of an event does with its condition report while nothing can be sent. -/
theorem closeEvent_busy_report (h : s.ring.ro ≠ none ∨ ¬ InService s) :
    (s.marks.reportDue = false →
        (closeEvent s).ring.feed = s.ring.feed ∧ (closeEvent s).counter .reportDrops = s.counter .reportDrops)
      ∧ (s.marks.reportDue = true → (reportFrames 4 s).length ≤ s.feedRoom →
          (closeEvent s).ring.feed = s.ring.feed ++ reportFrames 4 s
            ∧ (closeEvent s).counter .reportDrops = s.counter .reportDrops)
      ∧ (s.marks.reportDue = true → s.feedRoom < (reportFrames 4 s).length →
          (closeEvent s).ring.feed = s.ring.feed
            ∧ (closeEvent s).counter .reportDrops = min (s.counter .reportDrops + 1) 65535) := by
  rw [closeEvent_of_busy h]
  refine ⟨fun hd => ?_, fun hd hr => ?_, fun hd hr => ?_⟩
  · rw [queueConditionReport_uncalled hd]
    exact ⟨rfl, rfl⟩
  · rw [queueConditionReport_called hd, queueReport_room hr]
    exact ⟨rfl, rfl⟩
  · rw [queueConditionReport_called hd, queueReport_full hr]
    exact ⟨rfl, (counter_bump .reportDrops .reportDrops s).trans (if_pos rfl)⟩

end

/-! ### The work of an expiry places no frame and drops no report -/

/-- From `s` to `u` no frame has been placed and no report dropped. -/
structure PlacesNothing (s u : State) : Prop where
  placed : u.marks.placed = s.marks.placed
  drops : u.counter .reportDrops = s.counter .reportDrops

namespace PlacesNothing

variable {s u v : State}

theorem refl (s : State) : PlacesNothing s s := ⟨rfl, rfl⟩

theorem of (h : PlacesNothing s u) (marks : v.marks = u.marks) (counters : v.report.counters = u.report.counters) :
    PlacesNothing s v :=
  ⟨by rw [marks, h.placed], by rw [State.counter, counters, ← h.drops, State.counter]⟩

theorem raise (h : PlacesNothing s u) (f : Flag) : PlacesNothing s (Machine.raise f u) :=
  ⟨(raise_placed f u).trans h.placed, by
    rw [State.counter, (raise_same f u).2.2.2.2.2.2.2.2.2.2.2.1, ← h.drops, State.counter]⟩

theorem raiseIf (h : PlacesNothing s u) (c : Bool) (f : Flag) : PlacesNothing s (Machine.raiseIf c f u) :=
  ⟨(raiseIf_placed c f u).trans h.placed, (counter_raiseIf c f _ u).trans h.drops⟩

theorem withdraw (h : PlacesNothing s u) (gone : GateNo → Bool) : PlacesNothing s (Machine.withdraw gone u) :=
  ⟨h.placed, ((counter_bumpBy _ _ _ _).trans rfl).trans h.drops⟩

theorem recomputeMode (h : PlacesNothing s u) : PlacesNothing s (Machine.recomputeMode u) := by
  unfold Machine.recomputeMode
  dsimp only
  split
  · exact h
  · exact PlacesNothing.raiseIf (by exact h.of rfl rfl) _ _

theorem fallTest (h : PlacesNothing s u) (hw : Nat) : PlacesNothing s (Machine.fallTest hw u) := by
  have fall : PlacesNothing s (fallStage hw u) := by
    unfold fallStage
    dsimp only
    exact PlacesNothing.recomputeMode (PlacesNothing.raise (by exact h.of rfl rfl) _)
  unfold Machine.fallTest
  repeat' split
  · exact h
  · exact h.of rfl rfl
  · exact fall
  · exact h
  · exact h.of rfl rfl

theorem evaluateStage (h : PlacesNothing s u) (hw : Nat) : PlacesNothing s (Machine.evaluateStage hw u) := by
  unfold Machine.evaluateStage
  dsimp only
  split
  · exact PlacesNothing.recomputeMode (PlacesNothing.raise (by exact h.of rfl rfl) _)
  · exact h.fallTest hw

theorem vote (h : PlacesNothing s u) (a b : Bool) : PlacesNothing s (Machine.vote a b u) := by
  have formed : PlacesNothing s (formVotes a b u) := by
    unfold formVotes
    dsimp only
    exact PlacesNothing.raiseIf (by exact h.of rfl rfl) _ _
  unfold Machine.vote
  dsimp only
  split
  · split
    · exact formed.evaluateStage _
    · exact formed
  · exact h

theorem setSwitch (h : PlacesNothing s u) : PlacesNothing s (Machine.setSwitch u) := by
  have gates : PlacesNothing s (switchGates u.mgmt.active (Machine.raise .setSwitched (switchSets u))) := by
    have raised : PlacesNothing s (Machine.raise .setSwitched (switchSets u)) := PlacesNothing.raise (by exact h.of rfl rfl) _
    unfold switchGates
    dsimp only
    exact PlacesNothing.withdraw (by exact raised.of rfl rfl) _
  have slots : PlacesNothing s (switchSlots u.mgmt.active (switchOrders u.mgmt.active
      (switchGates u.mgmt.active (Machine.raise .setSwitched (switchSets u))))) := by
    unfold switchSlots
    dsimp only
    exact PlacesNothing.vote (by exact gates.of rfl rfl) true true
  unfold Machine.setSwitch switchMode
  dsimp only
  split
  · exact PlacesNothing.recomputeMode (PlacesNothing.raise (by exact slots.of rfl rfl) _)
  · exact slots.of rfl rfl

theorem gateExpiry (h : PlacesNothing s u) : PlacesNothing s (Machine.gateExpiry u) := by
  have tracked : PlacesNothing s (trackGates (readPositions u)) := by
    unfold trackGates
    dsimp only
    exact PlacesNothing.raiseIf (PlacesNothing.withdraw (by exact h.of rfl rfl) _) _ _
  unfold Machine.gateExpiry raiseGateFlags
  dsimp only
  refine PlacesNothing.raiseIf (PlacesNothing.raiseIf (PlacesNothing.raiseIf ?_ _ _) _ _) _ _
  split
  · exact h.of rfl rfl
  · exact tracked

theorem modeExpiry (h : PlacesNothing s u) : PlacesNothing s (Machine.modeExpiry u) := by
  unfold Machine.modeExpiry
  dsimp only
  refine PlacesNothing.raiseIf ?_ _ _
  split <;> exact h.of (by simp) (by simp)

/-- The work of an expiry marks a look at the feeds (R102), and does no more to them. -/
theorem expiryWork (s : State) : PlacesNothing (openExpiry s) (Machine.expiryWork s) := by
  have switched : PlacesNothing (openExpiry s) (takePendingSwitch (openExpiry s)) := by
    unfold takePendingSwitch
    split
    · exact (refl _).setSwitch
    · exact refl _
  have timer : PlacesNothing (openExpiry s) (timerExpiry (takePendingSwitch (openExpiry s))) := by
    unfold timerExpiry
    dsimp only
    exact PlacesNothing.raiseIf (by exact switched.of rfl rfl) _ _
  exact ((timer.gateExpiry.raiseIf _ _).raiseIf _ _).modeExpiry

end PlacesNothing

/-! ### The gates of an expiry without a switch (R5, R17, R18, R132) -/

theorem fresh_iff (q : Quality) : q.fresh = true ↔ q = .good ∨ q = .clamped := by
  cases q <;> simp [Quality.fresh]

theorem tracked_iff (st : GateState) : st.tracked = true ↔ st = .active ∨ st = .held := by
  cases st <;> simp [GateState.tracked]

section
variable {s : State} {g : GateNo}

theorem expiryWork_positionSlot (s : State) (g : GateNo) :
    (switched s).positionSlot g = (expiryWork s).positionSlot g := by
  obtain ⟨mgmt, meas, -⟩ := expiryWork_fields s
  rw [State.positionSlot, State.gateCfg, ← mgmt, ← meas]
  rfl

theorem expiryWork_initial (s : State) : (expiryWork s).mode.effective = .initial ↔ s.mode.effective = .initial := by
  rw [expiryWork_mode]
  exact switched_initial s

/-- R17: the tracking monitor at an expiry outside INITIAL that takes no switch, by the reading the record then holds. -/
theorem expiryWork_watched (hp : s.mgmt.switchPending = false) (hm : s.mode.effective ≠ .initial) {c : Nat}
    (hg : (s.gate g).state.tracked = true) (hc : (s.gate g).commanded = some c) :
    let r' := (expiryWork s).gate g
    let n :=
      if r'.fresh = true then
        (if s.mgmt.active.t10.trackingBand < r'.measured - c + (c - r'.measured) then (s.gate g).count + 1 else 0)
      else (s.gate g).count
    (s.mgmt.active.t10.trackingLimit ≤ n → r'.state = .fault .stuck ∧ r'.count = 0)
      ∧ (¬ s.mgmt.active.t10.trackingLimit ≤ n → r'.state = (s.gate g).state ∧ r'.count = n) := by
  have opened : (switched s).gate g = s.gate g := by rw [switched_none hp]; rfl
  have present : (s.gate g).state ≠ .absent := fun h => by rw [h] at hg; cases hg
  have record : (expiryWork s).gate g
      = ((s.gate g).read ((switched s).positionSlot g)).tracking s.mgmt.active.t10.trackingBand
          s.mgmt.active.t10.trackingLimit := by
    rw [expiryWork_record, opened, readPresent_present present, switched_none hp]
    exact if_neg hm
  have position := expiryWork_position (s := s) (g := g) (by rwa [opened])
  intro r' n
  have count : trackedCount s.mgmt.active.t10.trackingBand ((s.gate g).read ((switched s).positionSlot g)) c = n := by
    simp only [n, r', position]
    rfl
  have result : r' = _ := record.trans (tracking_watched _ _ hg hc)
  rw [count] at result
  refine ⟨fun hl => ?_, fun hl => ?_⟩
  · rw [result, if_pos hl]
    exact ⟨rfl, rfl⟩
  · rw [result, if_neg hl]
    exact ⟨rfl, rfl⟩

/-- R18: a LOCAL gate at an expiry outside INITIAL that takes no switch. -/
theorem expiryWork_local (hp : s.mgmt.switchPending = false) (hm : s.mode.effective ≠ .initial)
    (hg : (s.gate g).state = .localControl) :
    let r' := (expiryWork s).gate g
    r'.state = .localControl ∧ r'.count = (s.gate g).count
      ∧ r'.commanded = if r'.fresh = true then some r'.measured else (s.gate g).commanded := by
  have opened : (switched s).gate g = s.gate g := by rw [switched_none hp]; rfl
  have present : ((switched s).gate g).state ≠ .absent := by simp [opened, hg]
  obtain ⟨state, count⟩ := expiryWork_unwatched (s := s) (g := g) (.inl (by rw [opened, hg]; rfl))
  obtain ⟨measured, fresh⟩ := expiryWork_position present
  refine ⟨by rw [state, opened, hg], by rw [count, opened], ?_⟩
  rw [measured, fresh, expiryWork_record, opened, readPresent_present (by simp [hg]),
    if_neg (by simpa using hm), tracking_commanded]
  simp [Gate.read, hg]

/-- What an expiry that takes no switch leaves of a record (R5, R17, R18). -/
theorem expiryWork_unswitched (hp : s.mgmt.switchPending = false) (g : GateNo) :
    let r := s.gate g
    let r' := (expiryWork s).gate g
    r'.target = r.target
      ∧ (r.state ≠ .localControl → r'.commanded = r.commanded)
      ∧ (r.state = .absent → r' = r)
      ∧ (r.state = .offline ∨ r.state.isFault = true ∨ r.state = .unreachable ∨ r.commanded = none
            ∨ s.mode.effective = .initial → r'.state = r.state ∧ r'.count = r.count)
      ∧ (s.mode.effective = .initial → r'.commanded = r.commanded) := by
  intro r r'
  have opened : (switched s).gate g = r := by rw [switched_none hp]; rfl
  have initial : s.mode.effective = .initial → (switched s).mode.effective = .initial := (switched_initial s).2
  refine ⟨?_, fun h => ?_, fun h => ?_, fun h => ?_, fun h => ?_⟩
  · rw [← opened]
    exact expiryWork_target s g
  · rw [← opened] at h ⊢
    exact expiryWork_commanded (.inl h)
  · rw [← opened] at h ⊢
    exact expiryWork_of_absent s g h
  · rw [← opened] at h ⊢
    refine expiryWork_unwatched ?_
    rcases h with h | h | h | h | h
    · exact .inl (by rw [h]; rfl)
    · exact .inl (by cases hs : ((switched s).gate g).state <;> simp_all [GateState.isFault, GateState.tracked])
    · exact .inl (by rw [h]; rfl)
    · exact .inr (.inl h)
    · exact .inr (.inr (initial h))
  · rw [← opened]
    exact expiryWork_commanded (.inr (initial h))

/-- R132: no present UNIT gate is commanded to pass water. -/
theorem noUnitPasses_iff (set : GovSet) (gates : Tab Gate 16) :
    noUnitPasses set gates = true
      ↔ ∀ g, (set.t1.get g).cls = .unit → (gates.get g).commanded = none ∨ (gates.get g).commanded = some 0 := by
  have opening : ∀ o : Option Nat, o.getD 0 = 0 ↔ o = none ∨ o = some 0 := by rintro (_ | n) <;> simp
  simp [noUnitPasses, opening, imp_iff_not_or]

end

/-! ### The condition report of an expiry (R175, log entry 5) -/

section
variable {s : State}

/-- What an expiry newly sets, against the mask of the set that is then active (R175). -/
abbrev ExpiryRaises (s : State) (f : Flag) : Prop :=
  flagIn f (expiryWork s).report.flags = true ∧ flagIn f s.report.flags = false
    ∧ flagIn f (expiryWork s).mgmt.active.t10.mask = false

/-- R175: the allowance, the waiting mark and the call for a report after the work of an expiry, which restores the allowance first. -/
theorem expiryWork_report (quiet : Quiet s) :
    ((expiryWork s).marks.reportDue = true ↔ ∃ f, ExpiryRaises s f)
      ∧ ((∀ f, ¬ ExpiryRaises s f) →
          (expiryWork s).report.allowance = true ∧ (expiryWork s).report.waiting = s.report.waiting)
      ∧ ((∃ f, ExpiryRaises s f) →
          (expiryWork s).report.allowance = false
            ∧ ((expiryWork s).report.waiting = true
                ↔ ∃ f f', f ≠ f' ∧ ExpiryRaises s f ∧ ExpiryRaises s f')) := by
  have track := expiryWork_track s (by rw [quiet])
  generalize hb : (if s.mgmt.switchPending = true then switchSets (openExpiry s) else openExpiry s) = b at track
  have report : b.report = { s.report with allowance := true } := by
    rw [← hb]
    split <;> rfl
  have allowance : b.report.allowance = true := by rw [report]
  have raises : ∀ f, NewlySet b (expiryWork s) f ↔ ExpiryRaises s f := fun f => by
    unfold ExpiryRaises NewlySet
    rw [track.mask, report]
  have allow : (expiryWork s).report.allowance = true ↔ ¬ ∃ f, ExpiryRaises s f := by
    rw [track.allow]
    simp only [← raises, allowance, true_and]
  refine ⟨?_, fun h => ?_, fun h => ?_⟩
  · rw [track.due]
    simp only [← raises, allowance, true_and]
  · have standing := allow.2 (not_exists.2 h)
    exact ⟨standing, by rw [track.wait standing, report]⟩
  · have used : (expiryWork s).report.allowance = false := by
      rw [Bool.eq_false_iff]
      exact fun ha => allow.1 ha h
    refine ⟨used, ?_⟩
    rw [track.again allowance used]
    simp only [raises]

end

/-- What a state shows after an expiry: the end of the event and the snapshot leave what the expiry's work has left. -/
theorem expiry_shows (s : State) :
    let t := closeEvent (beginComputation (expiryWork s))
    t.mgmt = (expiryWork s).mgmt ∧ t.meas = (expiryWork s).meas ∧ t.mode = (expiryWork s).mode
      ∧ t.gates = (expiryWork s).gates ∧ t.report.flags = (expiryWork s).report.flags
      ∧ t.report.allowance = (expiryWork s).report.allowance ∧ t.report.waiting = (expiryWork s).report.waiting := by
  simp

/-- R175: the end of a quiet state's expiry. -/
theorem expiry_closes (s : State) (quiet : Quiet s) :
    let t := closeEvent (beginComputation (expiryWork s))
    let frames := reportFrames 4 t
    (∃ u, t = closeEvent u ∧ u.ring = s.ring ∧ u.marks.placed = true
        ∧ (u.marks.reportDue = true ↔ ∃ f, ExpiryRaises s f) ∧ reportFrames 4 u = frames)
      ∧ (s.ring.ro ≠ none ∨ ¬ InService s →
          ((∀ f, ¬ ExpiryRaises s f) →
              t.ring.feed = s.ring.feed ∧ t.counter .reportDrops = s.counter .reportDrops)
            ∧ ((∃ f, ExpiryRaises s f) → frames.length ≤ s.feedRoom →
                t.ring.feed = s.ring.feed ++ frames ∧ t.counter .reportDrops = s.counter .reportDrops)
            ∧ ((∃ f, ExpiryRaises s f) → s.feedRoom < frames.length →
                t.ring.feed = s.ring.feed
                  ∧ t.counter .reportDrops = min (s.counter .reportDrops + 1) 65535)) := by
  generalize hu : beginComputation (expiryWork s) = u
  have ring : u.ring = s.ring := by simp [← hu]
  have marks : u.marks = (expiryWork s).marks := by simp [← hu]
  have report : u.report = (expiryWork s).report := by simp [← hu]
  have placed : u.marks.placed = true := by
    rw [marks, (PlacesNothing.expiryWork s).placed]
    rfl
  have drops : u.counter .reportDrops = s.counter .reportDrops := by
    rw [State.counter, report]
    exact (PlacesNothing.expiryWork s).drops
  have due : u.marks.reportDue = true ↔ ∃ f, ExpiryRaises s f := by
    rw [marks]
    exact (expiryWork_report quiet).1
  refine ⟨⟨u, rfl, ring, placed, due, (reportFrames_closeEvent 4 u).symm⟩, fun busy => ?_⟩
  have close := closeEvent_busy_report (s := u) (by rwa [InService, ring])
  rw [reportFrames_closeEvent, ← due, ← ring, ← drops, show s.feedRoom = u.feedRoom by rw [State.feedRoom, State.feedRoom, ring]]
  refine ⟨fun h => close.1 ?_, close.2.1, close.2.2⟩
  rw [Bool.eq_false_iff]
  exact fun hd => (not_exists.2 h) (due.1 hd)

/-- Settles O12: the records by `expiryWork_position`, `expiryWork_watched` and `expiryWork_local`, the report by `expiryWork_report`
and `expiry_closes`. -/
theorem expiryReadsAndTracks : Obligations.ExpiryReadsAndTracks := by
  unfold Obligations.ExpiryReadsAndTracks
  intro s awake settled due idle
  refine ⟨_, exec_cadenceExpiry awake settled due idle, ?_⟩
  have closes := expiry_closes s
  have called := expiryWork_report (s := s)
  obtain ⟨headStale, -, demoted, fault, unreachable, localGate⟩ := expiryWork_raises s
  obtain ⟨mgmt, meas, mode, gates, flags, allowance, waiting⟩ := expiry_shows s
  generalize closeEvent (beginComputation (expiryWork s)) = t at *
  have gate : ∀ g, t.gate g = (expiryWork s).gate g := fun g => by rw [State.gate, gates, State.gate]
  have slot : ∀ g, t.meas.slots.get (t.gateCfg g).positionSlot = (switched s).positionSlot g := fun g => by
    rw [expiryWork_positionSlot, meas, State.gateCfg, mgmt]
    rfl
  have levels : t.meas = (switched s).meas := meas.trans (expiryWork_fields s).2.1
  simp only [gate, slot, flags, allowance, waiting, mode]
  refine ⟨fun g present => ?_, fun hp hm g c hg hc => ?_, fun hp hm g hg => expiryWork_local hp hm hg,
    fun hp g => expiryWork_unswitched hp g, fun quiet => ?_, fun hm => ?_, fun hm => ?_, fun held => ?_, fun held => ?_,
    fun hp fresh => ?_, fun hm hd => demoted ?_, fault, unreachable, localGate⟩
  · obtain ⟨measured, fresh⟩ := expiryWork_position fun h => present ((expiryWork_absent_iff s g).2 h)
    exact ⟨measured, by rw [fresh, fresh_iff]⟩
  · obtain ⟨stuck, kept⟩ := expiryWork_watched hp hm ((tracked_iff _).2 hg) hc
    exact ite_prop_iff_and.2
      ⟨fun hl => ⟨(stuck hl).1, (stuck hl).2, fault ⟨g, by rw [(stuck hl).1]; rfl⟩⟩, fun hl => kept hl⟩
  · obtain ⟨closed, busy⟩ := closes quiet
    obtain ⟨-, none, some⟩ := called quiet
    rw [mgmt]
    exact ⟨closed, none, some, busy⟩
  · have outside : (switched s).mode.effective ≠ .initial := fun h => hm (by rw [expiryWork_mode]; exact h)
    have duty : (expiryWork s).mode.duty
        = ((switched s).mgmt.active.t10.compGate.isSome && noUnitPasses (switched s).mgmt.active (expiryWork s).gates) := by
      rw [expiryWork_mode]
      exact if_neg outside
    rw [duty, Bool.and_eq_true, noUnitPasses_iff, mgmt, (expiryWork_fields s).1, Option.isSome_iff_ne_none]
    simp only [State.gateCfg, mgmt, (expiryWork_fields s).1]
    rfl
  · have inside : (switched s).mode.effective = .initial := by rw [expiryWork_mode] at hm; exact hm
    rw [expiryWork_mode]
    exact (if_pos inside).trans (switched_duty s)
  · refine ⟨?_, headStale ?_⟩
    · rw [expiryWork_mode]
      exact if_neg (by simp [← levels, held])
    · simp [← meas, held]
  · exact headStale (by simp [← meas, held])
  · rw [expiryWork_mode]
    refine (if_pos (by rw [← levels, fresh])).trans ?_
    rw [switched_none hp]
    rfl
  · simpa [ModeRecord.demoted] using And.intro hm hd

end Sys2Proof.Machine

/-! The completion of a computation (R7, R19, R60, R77, R130): the records and the flags it leaves, the orders it requests and the one it
sends (R141, R151), and the one report of a completion (R175, R176). -/

namespace Sys2Proof.Machine

/-! ### The end of a completion -/

section
variable {s : State}

/-- R175: no condition report is called for once the report of a completion has been formed. -/
theorem queueConditionReport_completionReport (w : State) :
    queueConditionReport (completionReport w) = completionReport w :=
  queueConditionReport_uncalled (completionReport_marks w).2

/-- What the end of a completion takes from the order queue (R141), and what it counts (R152). -/
theorem completion_closes (w : State) :
    let t := closeEvent (completionReport w)
    (t.orders.queue = w.orders.queue ∨ ∃ o, w.orders.queue = o :: t.orders.queue)
      ∧ (w.ring.ro ≠ none ∨ ¬ InService w → t.orders.queue = w.orders.queue)
      ∧ t.counter .superseded = w.counter .superseded := by
  obtain ⟨orders, -, ring, superseded, -⟩ := completionReport_same_orders w
  have port : InService (completionReport w) ↔ InService w := by simp [InService]
  refine ⟨?_, fun busy => ?_, ?_⟩
  · simpa only [orders] using closeEvent_takes (completionReport w)
  · rw [closeEvent_busy _ (by rwa [ring, port]), orders]
  · rw [closeEvent_counter _ _ (by simp), superseded]

/-- R141: RO, idle and in service, takes the order at the head of the queue when fewer than three relays wait and the in-flight list has
room. -/
theorem arbitrate_order {o : Order} {rest : List Order} (hs : InService s) (idle : s.ring.ro = none)
    (relay : s.ring.relay.length < 3) (room : s.ring.inFlight.length < 24) (hq : s.orders.queue = o :: rest) :
    arbitrate s
      = { s with
          orders := { s.orders with queue := rest }
          ring := originate o.dest .order (some o.gate) (orderPayload o) s.ring } := by
  have taken : takeOrderThenRest s
      = { s with
          orders := { s.orders with queue := rest }
          ring := originate o.dest .order (some o.gate) (orderPayload o) s.ring } := by
    unfold takeOrderThenRest
    rw [hq]
    exact if_pos room
  unfold arbitrate arbiterChoice
  rw [if_pos ⟨hs, idle⟩]
  split
  · rw [if_neg (by omega), taken]
  · exact taken

/-- R141: a completion that has placed an order sends the head of the order queue when RO is idle and may take it. -/
theorem completion_sends {w : State} {o : Order} {rest : List Order} (placed : w.marks.placed = true) (hs : InService w)
    (idle : w.ring.ro = none) (relay : w.ring.relay.length < 3) (room : w.ring.inFlight.length < 24)
    (hq : w.orders.queue = o :: rest) :
    ∃ f, (closeEvent (completionReport w)).orders.queue = rest ∧ (closeEvent (completionReport w)).ring.ro = some f
      ∧ f.dest = o.dest ∧ f.kind = 0x21 ∧ f.payload = orderPayload o := by
  obtain ⟨orders, -, ring, -, still⟩ := completionReport_same_orders w
  have sent := arbitrate_order (s := completionReport w) (o := o) (rest := rest) (by simpa [InService] using hs) (by rw [ring]; exact idle)
    (by rw [ring]; exact relay) (by rw [ring]; exact room) (by rw [orders, hq])
  unfold closeEvent
  dsimp only
  rw [queueConditionReport_completionReport, if_pos (still placed), sent]
  exact ⟨_, rfl, rfl, rfl, rfl, rfl⟩

end

/-! ### The orders that a completion requests (R151, R152) -/

theorem placeOrder_ne_nil (o : Order) (q : List Order) : placeOrder o q ≠ [] :=
  List.ne_nil_of_mem (mem_placeOrder_self o q)

theorem placeOrders_ne_nil (os q : List Order) (h : os ≠ [] ∨ q ≠ []) : os.foldl (fun q o => placeOrder o q) q ≠ [] := by
  induction os generalizing q with
  | nil => exact h.resolve_left (by simp)
  | cons o os ih => exact ih _ (.inr (placeOrder_ne_nil o q))

/-- R151: a computation requests an order of some gate exactly when a gate is ordered and commanded. -/
theorem formOrders_ne_nil_iff (m : Mode) (s : State) :
    (List.finRange 16).filterMap (formOrder m s) ≠ []
      ↔ ∃ g, (s.gate g).state.ordered = true ∧ (s.gate g).commanded ≠ none := by
  have gates := formOrders_gates m s (List.finRange 16)
  rw [ne_eq, ← List.map_eq_nil_iff (f := (·.gate)), gates, List.filter_eq_nil_iff]
  simp [Option.isSome_iff_ne_none]

/-- R152: requests of orders place a frame exactly when a gate is ordered, and then leave the queue not empty. -/
theorem requestOrders_placed_iff (m : Mode) (s : State) :
    (requestOrders m s).marks.placed = true
      ↔ s.marks.placed = true ∨ ∃ g, (s.gate g).state.ordered = true ∧ (s.gate g).commanded ≠ none := by
  rw [requestOrders_placed, ← formOrders_ne_nil_iff m s]
  simp

theorem requestOrders_queue_ne_nil {m : Mode} {s : State}
    (h : ∃ g, (s.gate g).state.ordered = true ∧ (s.gate g).commanded ≠ none) : (requestOrders m s).orders.queue ≠ [] := by
  rw [requestOrders, queueOrders_queue]
  exact placeOrders_ne_nil _ _ (.inl ((formOrders_ne_nil_iff m s).2 h))

/-! ### The completion outside INITIAL (R7, R77) -/

section
variable (sn : Snapshot) (s : State)

/-- R151, R152: the orders that the completion of a computation outside INITIAL requests, on the records it has written. -/
theorem completeGoverned_orders :
    (completeGoverned sn s).orders.queue = (requestOrders sn.mode { s with gates := (completeGoverned sn s).gates }).orders.queue
      ∧ (completeGoverned sn s).counter .superseded
          = (requestOrders sn.mode { s with gates := (completeGoverned sn s).gates }).counter .superseded
      ∧ ((completeGoverned sn s).marks.placed = true
          ↔ s.marks.placed = true
            ∨ ∃ g, ((completeGoverned sn s).gate g).state.ordered = true ∧ ((completeGoverned sn s).gate g).commanded ≠ none) := by
  generalize hw : writeTargets sn (compute sn) (raiseIf sn.overRange .headRange s) = w
  have gates : (completeGoverned sn s).gates = w.gates := by simp [completeGoverned, hw]
  have orders : (completeGoverned sn s).orders = (requestOrders sn.mode w).orders := by simp [completeGoverned, hw]
  have superseded : (completeGoverned sn s).counter .superseded = (requestOrders sn.mode w).counter .superseded := by
    simp [completeGoverned, hw, State.counter]
  have placed : (completeGoverned sn s).marks.placed = (requestOrders sn.mode w).marks.placed := by
    simp [completeGoverned, hw, raiseIf_placed]
  rw [orders, superseded, placed, gates, requestOrders_placed_iff]
  refine ⟨?_, ?_, ?_⟩
  · exact requestOrders_congr rfl (by simp [← hw]) (by simp [← hw])
  · exact requestOrders_superseded_congr rfl (by simp [← hw]) (by simp [← hw]) (by simp [← hw, State.counter])
  · have before : w.marks.placed = s.marks.placed := by simp [← hw, raiseIf_placed]
    rw [before]
    simp only [State.gate, gates]

/-- R68, R75, R77: the flags that the completion of a computation outside INITIAL raises. -/
theorem completeGoverned_raises :
    ((compute sn).shortfallRaised = true → flagIn .shortfall (completeGoverned sn s).report.flags = true)
      ∧ ((compute sn).excessRaised = true → flagIn .excess (completeGoverned sn s).report.flags = true)
      ∧ (sn.govSet.t4.get 7 < sn.head.value → flagIn .headRange (completeGoverned sn s).report.flags = true) := by
  have range : sn.overRange = decide (sn.govSet.t4.get 7 < sn.head.value) := rfl
  refine ⟨fun h => ?_, fun h => ?_, fun h => ?_⟩ <;>
    simp [completeGoverned, flagIn_raiseIf, range, h]

end

/-- Settles O16: the completion's work by `completeGoverned_gate` and `completeGoverned_orders`, its end by `completion_closes` and
`completion_sends`. -/
theorem completionGoverned : Obligations.CompletionGoverned := by
  unfold Obligations.CompletionGoverned
  intro s sn awake settled inFlight outside
  refine ⟨_, exec_completion awake settled inFlight, ?_⟩
  have body : completeComputation sn s
      = completionReport (completeGoverned sn { s with engine := { s.engine with computation := none } }) := by
    simp [completeComputation, completeBody, outside]
  rw [body]
  generalize hu : ({ s with engine := { s.engine with computation := none } } : State) = u
  obtain ⟨queue, superseded, placed⟩ := completeGoverned_orders sn u
  have closes := completion_closes (completeGoverned sn u)
  have sends := fun o rest => completion_sends (w := completeGoverned sn u) (o := o) (rest := rest)
  have gate : ∀ g, (completeGoverned sn u).gate g = _ := completeGoverned_gate sn u
  have raises := completeGoverned_raises sn u
  have results := completeGoverned_results sn u
  have same := completeGoverned_same sn u
  have finish := completionReport_same_orders (completeGoverned sn u)
  have marks := completionReport_marks (completeGoverned sn u)
  generalize completeGoverned sn u = c at *
  have gates : (closeEvent (completionReport c)).gates = c.gates := by simp
  have requests : (requestOrders sn.mode { s with gates := c.gates }).orders.queue = c.orders.queue := by
    rw [queue]
    exact requestOrders_congr rfl (by rw [← hu]) (by rw [← hu])
  have counts : (requestOrders sn.mode { s with gates := c.gates }).counter .superseded = c.counter .superseded := by
    rw [superseded]
    exact requestOrders_superseded_congr rfl (by rw [← hu]) (by rw [← hu]) (by rw [← hu]; rfl)
  have ring : c.ring = s.ring := by rw [same.1, ← hu]
  have port : InService c ↔ InService s := by rw [InService, ring, InService]
  have flags : (closeEvent (completionReport c)).report.flags = c.report.flags := by simp
  simp only [State.gate, gates, flags] at gate placed ⊢
  rw [requests, counts]
  refine ⟨?_, fun g => ?_, raises.1, raises.2.1, raises.2.2, ?_, ?_, ?_, ?_, ?_, ?_, ?_, closes.1, ?_, ?_, closes.2.2,
    fun quiet => ⟨_, rfl, ?_, marks.2, ?_, ?_⟩⟩
  · simp [results, ← hu]
  · rw [gate, ← hu]
    rfl
  · simp [same, ← hu]
  · simp [same, ← hu]
  · simp [same, ← hu]
  · simp [same, ← hu]
  · simp [same, ← hu]
  · simp [same, ← hu]
  · simp [same, ← hu]
  · rw [← ring, ← port]
    exact closes.2.1
  · intro hs idle relay room ordered
    have some : c.orders.queue ≠ [] := by
      rw [← requests]
      exact requestOrders_queue_ne_nil ordered
    obtain ⟨o, rest, hq⟩ := List.exists_cons_of_ne_nil some
    rw [← ring] at idle relay room
    obtain ⟨f, taken, sent⟩ := sends o rest (placed.2 (.inr ordered)) (port.2 hs) idle relay room hq
    exact ⟨o, f, by rw [taken, hq], sent⟩
  · rw [finish.1]
  · rw [← ring]
    exact finish.2.2.1
  · rw [marks.1, placed, ← ring, ← hu, quiet]
    simp [or_comm]

/-! ### The completion that leaves INITIAL (R19, R60, R130) -/

section
variable (sn : Snapshot) (s : State)

theorem completeLeaving_mode :
    (completeLeaving sn s).mode = { s.mode with effective := effectiveMode s.mode.requested s.mode.stage } := by
  simp [completeLeaving, leaveInitial]

theorem completeLeaving_engine :
    (completeLeaving sn s).engine
      = { s.engine with results := leavingResults sn.qA (leavingSum sn (completeLeaving sn s).gates) } := by
  simp [completeLeaving]

/-- R60: the sum of the ratings of the present gates, written out. -/
theorem leavingSum_eq (gates : Tab Gate 16) :
    leavingSum sn gates
      = sumGates fun g =>
          if (gates.get g).state = .absent then 0
          else
            forwardRating (sn.govSet.t3.get (sn.govSet.t1.get g).ratingSet) (bandOf sn.govSet.t4 sn.head.value)
              (if (sn.gates.get g).fresh = true then (sn.gates.get g).measured
                else (gates.get g).commanded.getD 0) := rfl

/-- R19: the record of a gate that the bumpless start finds present, by the snapshot's reading of its position. -/
theorem bumpless_present {cfg : GateCfg} {measured : Nat} {r : Gate} (h : r.state ≠ .absent) :
    r.bumpless cfg measured true = { r with commanded := some measured }
      ∧ (r.bumpless cfg measured false).commanded = some cfg.minOpening
      ∧ (r.bumpless cfg measured false).state
          = if r.state = .active ∨ r.state = .held then .fault .stuck else r.state := by
  unfold Gate.bumpless
  refine ⟨by simp [h], ?_, ?_⟩ <;> by_cases ht : r.state.tracked = true <;>
    simp [h, ht, ← tracked_iff, Gate.entering]

/-- R19: a gate that goes to FAULT at the bumpless start. -/
def goesToFault (t : State) (g : GateNo) : Bool := (t.gate g).state.isFault && !(s.gate g).state.isFault

variable {s}

theorem goesToFault_congr {t u v : State} (hs : s.gates = u.gates) (ht : t.gates = v.gates) :
    goesToFault s t = goesToFault u v := by
  funext g
  rw [goesToFault, goesToFault, State.gate, State.gate, State.gate, State.gate, hs, ht]

variable (s)

/-- R19, R21, R153: the bumpless start withdraws the orders of the gates that it puts in FAULT, and raises their flag. -/
theorem bumplessStart_spec (snap : Tab Gate 16) :
    let t := bumplessStart snap s
    (t.orders.queue = s.orders.queue.filter fun o => !goesToFault s t o.gate)
      ∧ t.counter .superseded = s.counter .superseded
      ∧ ∀ f, flagIn f t.report.flags
          = (flagIn f s.report.flags || ((List.finRange 16).any (goesToFault s t) && decide (f = .gateFault))) := by
  intro t
  have stuck : goesToFault s t = fun g =>
      ((s.gate g).bumpless (s.gateCfg g) (snap.get g).measured (snap.get g).fresh).state.isFault
        && !(s.gate g).state.isFault := by
    funext g
    simp [goesToFault, t, bumplessStart, State.gate]
  rw [stuck]
  refine ⟨?_, ?_, fun f => ?_⟩
  · simp [t, bumplessStart, withdraw]
  · simp only [t, bumplessStart, counter_raiseIf, withdraw, counter_bumpBy]
    rfl
  · simp [t, bumplessStart, flagIn_raiseIf]

/-- R21, R27, R126: the flags of the completion that leaves INITIAL. -/
theorem completeLeaving_flags (f : Flag) :
    flagIn f (completeLeaving sn s).report.flags
      = (flagIn f s.report.flags
          || (decide (effectiveMode s.mode.requested s.mode.stage ≠ s.mode.requested.toMode) && decide (f = .demoted))
          || ((List.finRange 16).any (goesToFault s (completeLeaving sn s)) && decide (f = .gateFault))
          || (decide (sn.govSet.t4.get 7 < sn.head.value) && decide (f = .headRange))) := by
  have stuck : goesToFault s (completeLeaving sn s)
      = goesToFault (leaveInitial s) (bumplessStart sn.gates (leaveInitial s)) :=
    goesToFault_congr (by simp) (by simp [completeLeaving])
  have start := (bumplessStart_spec (leaveInitial s) sn.gates).2.2 f
  rw [stuck]
  simp only [completeLeaving, requestOrders_same, writeResults_report, flagIn_raiseIf, start]
  congr 3
  simp [leaveInitial, flagIn_raiseIf, ModeRecord.demoted, effectiveMode_ne_initial]

/-- R151, R153: the orders that the completion leaving INITIAL requests, those of the gates that it puts in FAULT withdrawn first. -/
theorem completeLeaving_orders :
    let t := completeLeaving sn s
    let r := requestOrders sn.mode
      { s with
        gates := t.gates
        orders := { s.orders with queue := s.orders.queue.filter fun o => !goesToFault s t o.gate } }
    t.orders.queue = r.orders.queue ∧ t.counter .superseded = r.counter .superseded := by
  intro t r
  have stuck : goesToFault s t = goesToFault (leaveInitial s) (bumplessStart sn.gates (leaveInitial s)) :=
    goesToFault_congr (by simp) (by simp [t, completeLeaving])
  have start := bumplessStart_spec (leaveInitial s) sn.gates
  have gates : t.gates = (bumplessStart sn.gates (leaveInitial s)).gates := by simp [t, completeLeaving]
  refine ⟨requestOrders_congr (by simp [gates]) (by simp) ?_, requestOrders_superseded_congr (by simp [gates]) (by simp) ?_ ?_⟩
  · simp [stuck, start.1]
  · simp [stuck, start.1]
  · have left : (leaveInitial s).counter .superseded = s.counter .superseded := by simp [State.counter]
    simpa [State.counter] using start.2.1.trans left

end

/-- Settles O15: the completion's work by `completeLeaving_gate`, `completeLeaving_flags` and `completeLeaving_orders`, its end by
`completion_closes`. -/
theorem completionLeavesInitial : Obligations.CompletionLeavesInitial := by
  unfold Obligations.CompletionLeavesInitial
  intro s sn awake settled inFlight inside hw tw active
  refine ⟨_, exec_completion awake settled inFlight, ?_⟩
  have body : completeComputation sn s
      = completionReport (completeLeaving sn { s with engine := { s.engine with computation := none } }) := by
    simp only [completeComputation, completeBody, if_pos inside]
    rw [if_pos ((initialTest_iff sn).2 ⟨hw, tw, active⟩)]
  rw [body]
  generalize hu : ({ s with engine := { s.engine with computation := none } } : State) = u
  have gate : ∀ g, (completeLeaving sn u).gate g = _ := completeLeaving_gate sn u
  have mode := completeLeaving_mode sn u
  have engine := completeLeaving_engine sn u
  have flags := completeLeaving_flags sn u
  obtain ⟨queue, superseded⟩ := completeLeaving_orders sn u
  have closes := completion_closes (completeLeaving sn u)
  have same := completeLeaving_same sn u
  generalize completeLeaving sn u = c at *
  have gates : (closeEvent (completionReport c)).gates = c.gates := by simp
  have shows : (closeEvent (completionReport c)).report.flags = c.report.flags := by simp
  have stuck : goesToFault u c = fun g => (c.gates.get g).state.isFault && !(s.gates.get g).state.isFault := by
    rw [← hu]
    rfl
  have ring : c.ring = s.ring := by rw [same.1, ← hu]
  have port : InService c ↔ InService s := by rw [InService, ring, InService]
  have record : ∀ g, u.gate g = s.gate g := fun g => by rw [← hu]; rfl
  have requests : ∀ r : State, r = requestOrders .initial
      { s with gates := c.gates, orders := { s.orders with queue := s.orders.queue.filter fun o =>
          !((c.gates.get o.gate).state.isFault && !(s.gates.get o.gate).state.isFault) } } →
      r.orders.queue = c.orders.queue ∧ r.counter .superseded = c.counter .superseded := by
    rintro r rfl
    rw [queue, superseded, inside]
    exact ⟨requestOrders_congr rfl (by rw [← hu]) (by rw [stuck, ← hu]),
      requestOrders_superseded_congr rfl (by rw [← hu]) (by rw [stuck, ← hu]) (by rw [← hu]; rfl)⟩
  obtain ⟨requested, counted⟩ := requests _ rfl
  simp only [State.gate, gates, shows] at gate record ⊢
  rw [requested, counted]
  refine ⟨?_, fun g ha => ?_, fun g hp hf => ?_, fun g hp hf => ?_, ?_, fun f => ?_, ?_, ?_, ?_, ?_, ?_, closes.1, ?_, ?_,
    closes.2.2⟩
  · simp [mode, ← hu]
  · rw [gate, record, Gate.bumpless, if_pos ha]
  · rw [gate, record, hf]
    exact (bumpless_present hp).1
  · rw [gate, record, hf, ← hu]
    exact (bumpless_present hp).2
  · simp only [closeEvent_same, completionReport_same, engine, leavingSum_eq, ← hu]
    rfl
  · rw [flags, ← or_assoc, ← or_assoc, Bool.or_eq_true, Bool.or_eq_true, Bool.or_eq_true, stuck, ← hu]
    simp only [Bool.and_eq_true, decide_eq_true_eq, List.any_eq_true, List.mem_finRange, true_and, Bool.not_eq_true']
    simp only [and_comm]
  · simp [same, ← hu]
  · simp [same, ← hu]
  · simp [same, ← hu]
  · simp [same, ← hu]
  · simp [same, ← hu]
  · rw [← ring, ← port]
    exact closes.2.1
  · simp [same, ← hu]

end Sys2Proof.Machine

/-! Conditions and reports (R174 to R176): the raise event, the CONDITION output, the frames of a report, and the one report of a
completion. -/

namespace Sys2Proof.Machine

/-! ### The raise event and the CONDITION output (R174, R175) -/

section
variable {f : Flag} {s : State}

theorem raise_set (h : flagIn f s.report.flags = true) : raise f s = s := if_pos h

/-- R175: a flag newly set and masked calls for no report. -/
theorem raise_masked (h : flagIn f s.report.flags = false) (hm : flagIn f s.mgmt.active.t10.mask = true) :
    raise f s = { s with report := { s.report with flags := s.report.flags ||| f.mask } } := by
  simp [raise, h, hm]

/-- R175: a flag newly set and not masked uses the allowance, when it stands, for a report. -/
theorem raise_standing (h : flagIn f s.report.flags = false) (hm : flagIn f s.mgmt.active.t10.mask = false)
    (ha : s.report.allowance = true) :
    raise f s
      = { s with
          report := { s.report with flags := s.report.flags ||| f.mask, allowance := false, waiting := false }
          marks := { s.marks with reportDue := true } } := by
  simp [raise, h, hm, ha]

/-- R175: a flag newly set and not masked marks a report waiting when the allowance does not stand. -/
theorem raise_waiting (h : flagIn f s.report.flags = false) (hm : flagIn f s.mgmt.active.t10.mask = false)
    (ha : s.report.allowance = false) :
    raise f s = { s with report := { s.report with flags := s.report.flags ||| f.mask, waiting := true } } := by
  simp [raise, h, hm, ha]

end

/-- The flags in the order of their bits (Table 10-8). -/
def allFlags : List Flag :=
  [.shortfall, .excess, .headStale, .headRange, .inflowStale, .gateFault, .gateUnreachable, .gateLocal, .stageRise,
    .stageFall, .demoted, .earlyApply, .relayOverflow, .planEnded, .setSwitched, .restarted]

theorem exists_flag_of_bit (i : Nat) (h : i < 16) : ∃ f : Flag, f.bit = i := by
  have bits : ∀ i : Fin 16, (allFlags.map Flag.bit)[i]? = some i.val := by decide
  have := bits ⟨i, h⟩
  simp only [Fin.getElem?_fin, List.getElem?_map, Option.map_eq_some_iff] at this
  obtain ⟨f, -, hf⟩ := this
  exact ⟨f, hf⟩

theorem flag_bit_lt (f : Flag) : f.bit < 16 := by cases f <;> decide

/-- A set of flags is not empty exactly when some flag is in it. -/
theorem flags_ne_zero_iff (set : BitVec 16) : set ≠ 0 ↔ ∃ f, flagIn f set = true := by
  refine ⟨fun h => ?_, fun ⟨f, hf⟩ hz => by simp [flagIn, hz] at hf⟩
  by_contra none
  refine h (BitVec.eq_of_getLsbD_eq fun i hi => ?_)
  obtain ⟨f, rfl⟩ := exists_flag_of_bit i hi
  have clear : set.getLsbD f.bit = false := Bool.eq_false_iff.2 fun hf => none ⟨f, hf⟩
  simp [clear]

theorem conditionOutput_iff (s : State) :
    s.conditionOutput = true ↔ ∃ f, flagIn f s.report.flags = true ∧ flagIn f s.mgmt.active.t10.mask = false := by
  have unmasked : ∀ f, flagIn f (s.report.flags &&& ~~~ s.mgmt.active.t10.mask) = true
      ↔ flagIn f s.report.flags = true ∧ flagIn f s.mgmt.active.t10.mask = false := fun f => by
    simp [flagIn, flag_bit_lt]
  rw [State.conditionOutput, decide_eq_true_iff, flags_ne_zero_iff]
  simp only [unmasked]

/-! ### The frames of a report (R176) -/

section
variable {α : Type} {f : α → List Byte} {k : Nat} (hf : ∀ a, (f a).length = k)
include hf

theorem flatMap_length (l : List α) : (l.flatMap f).length = k * l.length := by
  simp [List.length_flatMap, hf, Nat.mul_comm]

theorem flatMap_drop (l : List α) (n : Nat) : (l.flatMap f).drop (k * n) = (l.drop n).flatMap f := by
  induction n generalizing l with
  | zero => simp
  | succ n ih =>
    cases l with
    | nil => simp
    | cons a l =>
      rw [List.flatMap_cons, List.drop_succ_cons, ← ih l, Nat.mul_succ, Nat.add_comm, ← List.drop_drop,
        List.drop_left' (hf a)]

theorem flatMap_take (l : List α) (n : Nat) : (l.flatMap f).take (k * n) = (l.take n).flatMap f := by
  induction n generalizing l with
  | zero => simp
  | succ n ih =>
    cases l with
    | nil => simp
    | cons a l =>
      rw [List.flatMap_cons, List.take_succ_cons, List.flatMap_cons, ← ih l, Nat.mul_succ, Nat.add_comm, ← hf a,
        List.take_length_add_append]

end

theorem gateReportBytes_length (g : GateNo) (r : Gate) : (gateReportBytes g r).length = 6 := rfl

/-- R176: how many parts carry the present gates, and what each carries. -/
theorem gatePart_spec (s : State) :
    (gatePart s).length = ((presentGates s.gates).length + 8) / 9
      ∧ ∀ k, k < (gatePart s).length →
          (gatePart s)[k]?
            = some ((((presentGates s.gates).drop (9 * k)).take 9).flatMap fun g => gateReportBytes g (s.gates.get g)) := by
  generalize hl : presentGates s.gates = l
  have small : l.length ≤ 16 := by
    rw [← hl]
    exact (List.length_filter_le _ _).trans (by simp)
  have each : ∀ g : GateNo, (gateReportBytes g (s.gates.get g)).length = 6 := fun g => gateReportBytes_length g _
  have length := flatMap_length each l
  unfold gatePart
  rw [hl]
  dsimp only
  by_cases none : l.flatMap (fun g => gateReportBytes g (s.gates.get g)) = []
  · have empty : l = [] := by simpa [none] using length
    simp [empty]
  · have some : 0 < l.length := by
      have := List.length_pos_of_ne_nil none
      omega
    rw [if_neg none]
    refine ⟨?_, fun k hk => ?_⟩
    · rw [piecesOf_length 54 3 _ (by omega) (by rw [length]; omega) (by omega), length]
      omega
    · rw [piecesOf_get _ _ _ _ hk, show 54 * k = 6 * (9 * k) by omega, flatMap_drop each, show 54 = 6 * 9 from rfl,
        flatMap_take each]

theorem reportFrames_length (kind : Byte) (s : State) :
    (reportFrames kind s).length = 1 + ((presentGates s.gates).length + 8) / 9 := by
  simp [reportFrames, numberParts_length, (gatePart_spec s).1, Nat.add_comm]

/-- R176: the frame of each part of a report. -/
theorem reportFrames_get (kind : Byte) (s : State) (k : Nat) :
    (reportFrames kind s)[k]?
      = (summaryBytes s :: gatePart s)[k]?.map fun d =>
          { dest := 255, kind := .report,
            payload := kind :: byte (k + if k + 1 = 1 + ((presentGates s.gates).length + 8) / 9 then 128 else 0) :: d } := by
  have parts : (summaryBytes s :: gatePart s).length = 1 + ((presentGates s.gates).length + 8) / 9 := by
    rw [List.length_cons, (gatePart_spec s).1, Nat.add_comm]
  rw [reportFrames, List.getElem?_map, numberParts_get, Option.map_map, parts, Nat.zero_add]
  rfl

/-! ### The one report of a completion (R175, R176) -/

/-- R152: order requests count nothing but SUPERSEDED. -/
theorem requestOrders_counter {c : Counter} (h : c ≠ .superseded) (m : Mode) (s : State) :
    (requestOrders m s).counter c = s.counter c := by
  unfold requestOrders
  induction (List.finRange 16).filterMap (formOrder m s) generalizing s with
  | nil => rfl
  | cons o os ih =>
    refine (ih _).trans ?_
    unfold queueOrder
    dsimp only
    split
    · exact (counter_bump _ _ _).trans (if_neg h)
    · rfl

/-- The work of a completion drops no report. -/
theorem completeBody_drops (sn : Snapshot) (s : State) :
    (completeBody sn s).counter .reportDrops = s.counter .reportDrops := by
  unfold completeBody
  split
  · split
    · have started : (bumplessStart sn.gates (leaveInitial s)).counter .reportDrops = s.counter .reportDrops := by
        simp only [bumplessStart, counter_raiseIf, withdraw, counter_bumpBy]
        simp [State.counter]
      unfold completeLeaving
      dsimp only
      rw [requestOrders_counter (by simp)]
      simpa [State.counter] using started
    · rfl
  · unfold completeGoverned
    dsimp only
    simp only [counter_raiseIf]
    refine (requestOrders_counter (by simp) _ _).trans ?_
    simp [State.counter]

/-- R141: the end of an event with no condition report called for counts nothing. -/
theorem closeEvent_counter_uncalled {s : State} (h : s.marks.reportDue = false) (c : Counter) :
    (closeEvent s).counter c = s.counter c := by
  unfold closeEvent
  dsimp only
  rw [queueConditionReport_uncalled h]
  split <;> simp [State.counter]

/-- R175: the reasons of the one report of a completion, on the state that its work has left. -/
def conditionReason (w : State) : Bool := w.marks.reportDue || (w.report.waiting && w.report.allowance)

/-- R175: a condition is a reason of a completion exactly when the allowance stood and a report was waiting or called for. -/
theorem conditionReason_iff {s w : State} (t : Track s w) :
    conditionReason w = true
      ↔ s.report.allowance = true ∧ (s.report.waiting = true ∨ ∃ f, NewlySet s w f) := by
  have wait := t.wait
  have allow := t.allow
  rw [conditionReason, Bool.or_eq_true, Bool.and_eq_true, t.due]
  by_cases new : ∃ f, NewlySet s w f
  · have used : w.report.allowance = false := Bool.eq_false_iff.2 fun h => (allow.1 h).2 new
    simp [new, used]
  · constructor
    · rintro (⟨-, h⟩ | ⟨waiting, ha⟩)
      · exact absurd h new
      · exact ⟨(allow.1 ha).1, .inl (by rw [← wait ha, waiting])⟩
    · rintro ⟨ha, h⟩
      have stands := allow.2 ⟨ha, new⟩
      exact .inr ⟨by rw [wait stands]; exact h.resolve_right new, stands⟩

/-- R175: the allowance after a completion. -/
theorem completionReport_allowance {s w : State} (t : Track s w) :
    (completionReport w).report.allowance = if conditionReason w = true then false else s.report.allowance := by
  have reason := conditionReason_iff t
  have report : (completionReport w).report.allowance = if (w.report.waiting && w.report.allowance) = true then false else w.report.allowance := by
    unfold completionReport
    dsimp only
    split <;> simp
  rw [report]
  by_cases hr : conditionReason w = true
  · rw [if_pos hr]
    split
    · rfl
    · next carried =>
      have due : w.marks.reportDue = true := by simpa [conditionReason, carried] using hr
      exact Bool.eq_false_iff.2 fun ha => (t.allow.1 ha).2 (t.due.1 due).2
  · rw [if_neg hr, if_neg fun carried => hr (by simp [conditionReason, carried])]
    have new : s.report.allowance = true → ¬ ∃ f, NewlySet s w f := fun ha hn => hr (reason.2 ⟨ha, .inr hn⟩)
    rw [Bool.eq_iff_iff, t.allow]
    exact ⟨fun h => h.1, fun h => ⟨h, new h⟩⟩

/-- The state of a completion whose reasons for a report have been taken up (R175). -/
def reasonsTaken (w : State) : State :=
  { w with
    report :=
      { w.report with
        periodicDue := false
        pointDue := false
        waiting := if w.report.waiting && w.report.allowance then false else w.report.waiting
        allowance := if w.report.waiting && w.report.allowance then false else w.report.allowance }
    marks := { w.marks with reportDue := false } }

theorem completionReport_eq (w : State) :
    completionReport w
      = if w.report.periodicDue || w.report.pointDue || conditionReason w then
          queueReport (reportKind w.report.periodicDue w.report.pointDue (conditionReason w)) (reasonsTaken w)
        else reasonsTaken w := rfl

@[simp] theorem reportFrames_completionReport (kind : Byte) (w : State) :
    reportFrames kind (completionReport w) = reportFrames kind w :=
  reportFrames_congr kind (by simp) (by simp) (by simp) (by simp) (by simp) (by simp) (by simp)

theorem reportFrames_reasonsTaken (kind : Byte) (w : State) : reportFrames kind (reasonsTaken w) = reportFrames kind w :=
  reportFrames_congr kind rfl rfl rfl rfl rfl rfl rfl

/-- R175, R176: the one report of a completion, or none without a reason. -/
theorem completionReport_feed (w : State) :
    let u := completionReport w
    let frames := reportFrames (reportKind w.report.periodicDue w.report.pointDue (conditionReason w)) w
    let reasons := w.report.periodicDue || w.report.pointDue || conditionReason w
    (reasons = false → u.ring.feed = w.ring.feed ∧ u.counter .reportDrops = w.counter .reportDrops)
      ∧ (reasons = true → frames.length ≤ w.feedRoom →
          u.ring.feed = w.ring.feed ++ frames ∧ u.marks.placed = true
            ∧ u.counter .reportDrops = w.counter .reportDrops)
      ∧ (reasons = true → w.feedRoom < frames.length →
          u.ring.feed = w.ring.feed ∧ u.counter .reportDrops = min (w.counter .reportDrops + 1) 65535) := by
  intro u frames reasons
  have kept := reportFrames_reasonsTaken (reportKind w.report.periodicDue w.report.pointDue (conditionReason w)) w
  have formed : u = _ := completionReport_eq w
  refine ⟨fun h => ?_, fun h room => ?_, fun h full => ?_⟩
  · rw [formed, if_neg (by simpa [reasons] using h)]
    exact ⟨rfl, rfl⟩
  · rw [formed, if_pos h, queueReport_room (by rw [kept]; exact room), kept]
    exact ⟨rfl, rfl, rfl⟩
  · rw [formed, if_pos h, queueReport_full (by rw [kept]; exact full)]
    exact ⟨rfl, (counter_bump .reportDrops .reportDrops (reasonsTaken w)).trans (if_pos rfl)⟩

/-- R174, R176: the summary of a report, written out. -/
theorem summaryBytes_eq (s : State) :
    let bit : Bool → Nat → Nat := fun b n => if b = true then n else 0
    summaryBytes s
      = be2 s.mgmt.generation.toNat
        ++ [s.mode.requested.toMode.code, s.mode.effective.code, s.mode.stage.code, byte (bit s.mode.duty 1)]
        ++ be3 s.engine.results.qT ++ be3 s.engine.results.qD ++ be3 s.engine.results.qA
        ++ be2 s.meas.hw.value ++ be2 s.meas.tw.value ++ be2 s.meas.head.value
        ++ [byte (bit s.meas.hw.fresh 1 + bit s.meas.tw.fresh 2 + bit s.meas.head.fresh 4)]
        ++ [s.timer.run.code, byte s.timer.step] ++ be2 s.timer.cadence
        ++ [byte (bit (!s.timer.gateOpen) 1)] ++ be2 s.report.flags.toNat := by
  have duty : yesNo s.mode.duty = byte (if s.mode.duty = true then 1 else 0) := by cases s.mode.duty <;> rfl
  have output : gateCode s.timer.gateOpen = byte (if (!s.timer.gateOpen) = true then 1 else 0) := by
    cases s.timer.gateOpen <;> rfl
  intro bit
  rw [summaryBytes, duty, output]

/-- R175, R176: the frames of a report as Table 10-12 has them. -/
theorem reportFrames_parts (kind : Byte) (s : State) :
    let gates := (List.finRange 16).filter fun g => decide ((s.gate g).state ≠ .absent)
    let parts := 1 + (gates.length + 8) / 9
    let partByte : Nat → Byte := fun i => byte (i + if i + 1 = parts then 128 else 0)
    (reportFrames kind s)[0]? = some { dest := 255, kind := .report, payload := kind :: partByte 0 :: summaryBytes s }
      ∧ ∀ k, k + 1 < parts →
          (reportFrames kind s)[k + 1]?
            = some
                { dest := 255, kind := .report,
                  payload :=
                    kind :: partByte (k + 1)
                      :: ((gates.drop (9 * k)).take 9).flatMap fun g => gateReportBytes g (s.gate g) } := by
  intro gates parts partByte
  obtain ⟨length, pieces⟩ := gatePart_spec s
  refine ⟨by rw [reportFrames_get]; rfl, fun k hk => ?_⟩
  rw [reportFrames_get, List.getElem?_cons_succ, pieces k (by rw [length]; exact Nat.lt_of_add_lt_add_left (by omega : 1 + k < parts))]
  rfl

/-- R77, R141, R175, R176: the report of a completion, and the end of that event. -/
theorem completion_reports {s : State} {sn : Snapshot} :
    let w := completeBody sn { s with engine := { s.engine with computation := none } }
    let u := completionReport w
    let t := closeEvent u
    u.ring = { s.ring with feed := u.ring.feed } ∧ u.marks.reportDue = false
      ∧ (s.ring.ro ≠ none ∨ ¬ InService s → t.ring = u.ring)
      ∧ t.report.periodicDue = false ∧ t.report.pointDue = false
      ∧ w.ring = s.ring ∧ w.counter .reportDrops = s.counter .reportDrops
      ∧ t.counter .reportDrops = u.counter .reportDrops
      ∧ w.report.periodicDue = s.report.periodicDue ∧ w.report.pointDue = s.report.pointDue
      ∧ t.report.flags = w.report.flags ∧ t.report.allowance = u.report.allowance := by
  intro w u t
  have ring : w.ring = s.ring := by simp [w]
  have shape : u.ring = { s.ring with feed := u.ring.feed } := by
    rw [← ring]
    exact (completionReport_same_orders w).2.2.1
  have due : u.marks.reportDue = false := (completionReport_marks w).2
  have points : u.report.periodicDue = false ∧ u.report.pointDue = false := by
    rw [show u = _ from completionReport_eq w]
    split <;> simp [reasonsTaken]
  refine ⟨shape, due, fun busy => ?_, by simp [t, points], by simp [t, points], ring, completeBody_drops sn _,
    closeEvent_counter_uncalled due _, by simp [w], by simp [w], by simp [t, u], by simp [t]⟩
  have idle : u.ring.ro ≠ none ∨ ¬ InService u := by
    rw [InService, shape]
    exact busy
  rw [show t = _ from closeEvent_of_busy idle, queueConditionReport_uncalled due]

/-- R175: the kind of a report is 0 when there is no reason for one. -/
theorem reportReasons_eq_zero_iff (periodic point condition : Bool) :
    (if periodic = true then 1 else 0) + (if point = true then 2 else 0) + (if condition = true then 4 else 0) = 0
      ↔ (periodic || point || condition) = false := by
  cases periodic <;> cases point <;> cases condition <;> simp

/-- Settles O45: the raise event by its cases, the frames of a report by `reportFrames_parts`, the report of a completion by
`completionReport_feed`, `conditionReason_iff` and `completionReport_allowance`. -/
theorem conditionsAndReports : Obligations.ConditionsAndReports := by
  unfold Obligations.ConditionsAndReports
  refine ⟨fun f s => ⟨raise_set, fun h => ⟨fun f' => ?_, fun hm => ?_, fun hm ha => ?_, fun hm ha => ?_⟩⟩,
    conditionOutput_iff, fun s hd => ⟨fun hr => ?_, fun hr => ?_, reportFrames_length 4 s⟩, fun kind s => ?_,
    fun s sn condition awake settled quiet inFlight => ?_⟩
  · rw [flagIn_raise, Bool.or_eq_true, decide_eq_true_iff, or_comm]
  · rw [raise_masked h hm]
    exact ⟨rfl, rfl, rfl⟩
  · rw [raise_standing h hm ha]
    exact ⟨rfl, rfl, rfl⟩
  · rw [raise_waiting h hm ha]
    exact ⟨ha, rfl, rfl⟩
  · rw [queueConditionReport_called hd, queueReport_room hr]
    rfl
  · rw [queueConditionReport_called hd, queueReport_full hr]
  · obtain ⟨first, more⟩ := reportFrames_parts kind s
    rw [summaryBytes_eq] at first
    exact ⟨reportFrames_length kind s, first, more⟩
  · have track := completeBody_track sn s quiet
    have reports := completion_reports (s := s) (sn := sn)
    have feed := completionReport_feed (completeBody sn { s with engine := { s.engine with computation := none } })
    refine ⟨_, _, exec_completion awake settled inFlight, rfl, ?_⟩
    unfold completeComputation
    generalize completeBody sn { s with engine := { s.engine with computation := none } } = w at *
    obtain ⟨shape, due, busy, periodic, point, ring, drops, counted, wasPeriodic, wasPoint, flags, allowance⟩ := reports
    refine ⟨shape, due, busy, periodic, point, fun hc => ?_⟩
    have reason : condition = conditionReason w := by
      rw [Bool.eq_iff_iff, hc, conditionReason_iff track, flags]
    have room : w.feedRoom = s.feedRoom := by rw [State.feedRoom, ring, State.feedRoom]
    have allowed := completionReport_allowance track
    simp only [reportFrames_closeEvent, reportFrames_completionReport, counted, allowance, allowed]
    rw [wasPeriodic, wasPoint, ← reason, room, ring, drops] at feed
    rw [← reason]
    obtain ⟨without, roomy, full⟩ := feed
    have zero := reportReasons_eq_zero_iff s.report.periodicDue s.report.pointDue condition
    have positive := zero.not
    rw [Bool.not_eq_false] at positive
    refine ⟨fun h => without (zero.1 h), fun h fits => roomy (positive.1 h) fits, fun h tight => full (positive.1 h) tight, ?_⟩
    constructor <;> intro h <;> simp [h]

end Sys2Proof.Machine

/-! GATE_CONTROL (R12 to R14): what each action answers and what it makes of the record. -/

namespace Sys2Proof.Machine

/-! ### State entries that withdraw nothing and raise nothing (R10) -/

theorem enterState_active (g : GateNo) (s : State) :
    enterState g .active s = setGate g ((s.gate g).entering .active) s := rfl

theorem enterState_held (g : GateNo) (s : State) :
    enterState g .held s = setGate g ((s.gate g).entering .held) s := rfl

theorem enterState_offline (g : GateNo) (s : State) :
    enterState g .offline s
      = withdraw (fun x => decide (x = g)) (setGate g { s.gate g with state := .offline, count := 0 } s) := by
  rfl

/-- R12: an action of GATE_CONTROL on a present gate is taken by the request as it is. -/
theorem controlGate_taken {q : Requester} {g : GateNo} {s : State} (takeable : Takeable q 2 s)
    (present : (s.gate g).state ≠ .absent) (act : GateNo → State → Reply × State) :
    takeRingEvent (receiveRequest q 2 (takeRequest q 1 [] (controlGate act (byte g.val) []))) s
      = closeEvent (respond q (act g s).1 (act g s).2) := by
  have taken : controlGate act (byte g.val) [] s = act g s := by
    simp only [controlGate, readBelow_byte (by decide) g, onPresentGate, if_neg present]
  rw [receiveRequest_takeable takeable, takeRequest_takeable takeable, taken]

/-! ### The actions of GATE_CONTROL on a present gate, by its state -/

section
variable {g : GateNo} {s : State}

/-- R12, ENABLE of an OFFLINE gate in INITIAL. -/
theorem enableGate_initial (off : (s.gate g).state = .offline) (initial : s.mode.effective = .initial) :
    enableGate g s
      = (⟨.ok, [2]⟩, setGate g { (s.gate g).read (s.positionSlot g) with state := .active, count := 0 } s) := by
  simp [enableGate, readPosition, Gate.read, off, initial, gateReply, enterState_active, Gate.entering, countOnEntry,
    GateState.code]

/-- R12: ENABLE of an OFFLINE gate outside INITIAL, from its fresh position. -/
theorem enableGate_fresh (off : (s.gate g).state = .offline) (governed : s.mode.effective ≠ .initial)
    (fresh : (s.positionSlot g).quality.fresh = true) :
    let r := (s.gate g).read (s.positionSlot g)
    enableGate g s = (⟨.ok, [2]⟩, setGate g { r with state := .active, count := 0, commanded := some r.measured } s) := by
  simp [enableGate, readPosition, Gate.read, off, governed, fresh, gateReply, enterState_active, Gate.entering, countOnEntry,
    GateState.code]

theorem enableGate_stale (off : (s.gate g).state = .offline) (governed : s.mode.effective ≠ .initial)
    (stale : (s.positionSlot g).quality.fresh = false) :
    enableGate g s = (⟨.stalePosition, []⟩, setGate g ((s.gate g).read (s.positionSlot g)) s) := by
  simp [enableGate, readPosition, Gate.read, off, governed, stale, refuse]

theorem enableGate_active (active : (s.gate g).state = .active) :
    enableGate g s = (⟨.ok, [2]⟩, setGate g ((s.gate g).read (s.positionSlot g)) s) := by
  simp [enableGate, readPosition, Gate.read, active, gateReply, GateState.code]

theorem enableGate_refused (off : (s.gate g).state ≠ .offline) (active : (s.gate g).state ≠ .active) :
    enableGate g s = (⟨.wrongState, []⟩, setGate g ((s.gate g).read (s.positionSlot g)) s) := by
  simp [enableGate, readPosition, Gate.read, off, active, refuse]

theorem disableGate_offline (off : (s.gate g).state = .offline) : disableGate g s = (⟨.ok, [1]⟩, s) := by
  simp [disableGate, off, gateReply, GateState.code]

theorem disableGate_enters (off : (s.gate g).state ≠ .offline) :
    disableGate g s
      = (⟨.ok, [1]⟩,
          withdraw (fun x => decide (x = g)) (setGate g { s.gate g with state := .offline, count := 0 } s)) := by
  have state : ((enterState g .offline s).gate g).state = .offline := by simp [State.gate, enterState_gates, Gate.entering]
  simp only [disableGate, if_neg off, gateReply, state, GateState.code]
  rw [enterState_offline]

theorem holdGate_active (active : (s.gate g).state = .active) :
    holdGate g s = (⟨.ok, [3]⟩, setGate g { s.gate g with state := .held } s) := by
  simp [holdGate, active, gateReply, enterState_held, Gate.entering, countOnEntry, GateState.code]

theorem holdGate_held (held : (s.gate g).state = .held) : holdGate g s = (⟨.ok, [3]⟩, s) := by
  simp [holdGate, held, gateReply, GateState.code]

theorem holdGate_refused (active : (s.gate g).state ≠ .active) (held : (s.gate g).state ≠ .held) :
    holdGate g s = (⟨.wrongState, []⟩, s) := by
  simp [holdGate, active, held, refuse]

theorem releaseGate_held (held : (s.gate g).state = .held) :
    releaseGate g s = (⟨.ok, [2]⟩, setGate g { s.gate g with state := .active } s) := by
  simp [releaseGate, held, gateReply, enterState_active, Gate.entering, countOnEntry, GateState.code]

theorem releaseGate_refused (held : (s.gate g).state ≠ .held) : releaseGate g s = (⟨.wrongState, []⟩, s) := by
  simp [releaseGate, held, refuse]

/-- R14: CLEAR_FAULT of a gate in FAULT, from its fresh position. -/
theorem clearFaultGate_fresh (fault : (s.gate g).state.isFault = true) (fresh : (s.positionSlot g).quality.fresh = true) :
    let r := (s.gate g).read (s.positionSlot g)
    clearFaultGate g s
      = (⟨.ok, [2]⟩, setGate g { r with state := .active, count := 0, commanded := some r.measured } s) := by
  have held : (s.gate g).state ≠ .held := fun h => by rw [h] at fault; exact absurd fault (by decide)
  simp [clearFaultGate, readPosition, Gate.read, fault, fresh, gateReply, enterState_active, Gate.entering, countOnEntry, held,
    GateState.code]

theorem clearFaultGate_stale (fault : (s.gate g).state.isFault = true) (stale : (s.positionSlot g).quality.fresh = false) :
    clearFaultGate g s = (⟨.stalePosition, []⟩, setGate g ((s.gate g).read (s.positionSlot g)) s) := by
  simp [clearFaultGate, readPosition, Gate.read, fault, stale, refuse]

theorem clearFaultGate_refused (fault : (s.gate g).state.isFault = false) :
    clearFaultGate g s = (⟨.wrongState, []⟩, setGate g ((s.gate g).read (s.positionSlot g)) s) := by
  simp [clearFaultGate, readPosition, Gate.read, fault, refuse]

end

theorem isFault_iff (st : GateState) : st.isFault = true ↔ ∃ reason, st = .fault reason := by
  cases st <;> simp [GateState.isFault]

/-- Settles O37: each action is taken as it is (`controlGate_taken`), and acts by the state of the gate. -/
theorem gateControlEffects : Obligations.GateControlEffects := by
  unfold Obligations.GateControlEffects
  intro q g s takeable present r st gb
  have enable : exec (.enable q gb []) s = .next (closeEvent (respond q (enableGate g s).1 (enableGate g s).2)) :=
    congrArg _ (controlGate_taken takeable present enableGate)
  have disable : exec (.disable q gb []) s = .next (closeEvent (respond q (disableGate g s).1 (disableGate g s).2)) :=
    congrArg _ (controlGate_taken takeable present disableGate)
  have hold : exec (.hold q gb []) s = .next (closeEvent (respond q (holdGate g s).1 (holdGate g s).2)) :=
    congrArg _ (controlGate_taken takeable present holdGate)
  have release : exec (.release q gb []) s = .next (closeEvent (respond q (releaseGate g s).1 (releaseGate g s).2)) :=
    congrArg _ (controlGate_taken takeable present releaseGate)
  have clear : exec (.clearFault q gb []) s
      = .next (closeEvent (respond q (clearFaultGate g s).1 (clearFaultGate g s).2)) :=
    congrArg _ (controlGate_taken takeable present clearFaultGate)
  refine ⟨fun off initial => ?_, fun off governed fresh => ?_, fun off governed stale => ?_, fun active => ?_,
    fun off active => ?_, fun off => ?_, fun off => ?_, fun active => ?_, fun held => ?_, fun active held => ?_,
    fun held => ?_, fun held => ?_, fun fault fresh => ?_, fun fault stale => ?_, fun fault => ?_, isFault_iff _, rfl,
    fresh_iff _, fun x => rfl⟩
  · rw [enable, enableGate_initial off initial]; rfl
  · rw [enable, enableGate_fresh off governed fresh]; rfl
  · rw [enable, enableGate_stale off governed stale]; rfl
  · rw [enable, enableGate_active active]; rfl
  · rw [enable, enableGate_refused off active]; rfl
  · rw [disable, disableGate_offline off]
  · rw [disable, disableGate_enters off]
  · rw [hold, holdGate_active active]
  · rw [hold, holdGate_held held]
  · rw [hold, holdGate_refused active held]
  · rw [release, releaseGate_held held]
  · rw [release, releaseGate_refused held]
  · rw [clear, clearFaultGate_fresh fault fresh]; rfl
  · rw [clear, clearFaultGate_stale fault stale]; rfl
  · rw [clear, clearFaultGate_refused fault]; rfl

end Sys2Proof.Machine

/-! The result of an ORDER (R15, R16, R154, R155): what a delivery makes of its gate's record, of the lost counts and of the
counters. -/

namespace Sys2Proof.Machine

/-! ### The states by what a delivery does in them (R15) -/

theorem ordered_iff (st : GateState) :
    st.ordered = true ↔ st = .active ∨ st = .held ∨ st = .localControl ∨ st = .unreachable := by
  cases st <;> simp [GateState.ordered]

/-- R15, R16: the states in which an outcome is only counted are those whose gates get no order. -/
theorem not_ordered_iff (st : GateState) : (st = .absent ∨ st = .offline ∨ st.isFault = true) ↔ st.ordered = false := by
  cases st <;> simp [GateState.ordered, GateState.isFault]

/-! ### A state entry as a step of the records and the counters (R10) -/

section
variable (g : GateNo) (st : GateState) (s : State)

theorem enterState_gate_self : (enterState g st s).gate g = (s.gate g).entering st := by
  simp [State.gate, enterState_gates]

theorem enterState_gate_ne {g' : GateNo} (h : g' ≠ g) : (enterState g st s).gate g' = s.gate g' := by
  simp only [State.gate, enterState_gates]
  exact Tab.get_set_ne _ _ h

/-- R153: a withdrawal counts WITHDRAWN alone. -/
theorem withdraw_counter {c : Counter} (h : c ≠ .withdrawn) (gone : GateNo → Bool) :
    (withdraw gone s).counter c = s.counter c := by
  unfold withdraw
  rw [counter_bumpBy, if_neg h]
  rfl

theorem enterState_counter {c : Counter} (h : c ≠ .withdrawn) : (enterState g st s).counter c = s.counter c := by
  have raised : ∀ u, (raiseOnEntry st u).counter c = u.counter c := fun u => by simp [State.counter]
  unfold enterState
  dsimp only
  split
  · rw [raised, withdraw_counter _ h]; rfl
  · rw [raised]; rfl

end

/-- R21: an entry into FAULT, LOCAL or UNREACHABLE raises its flag. -/
theorem enterState_flag (g : GateNo) (s : State) :
    flagIn .gateLocal (enterState g .localControl s).report.flags = true
      ∧ ∀ reason, flagIn .gateFault (enterState g (.fault reason) s).report.flags = true := by
  refine ⟨?_, fun reason => ?_⟩ <;> simp [enterState, raiseOnEntry, flagIn_raise]

/-! ### What every delivery keeps and counts -/

/-- A delivery to one gate: the other records and the lost counts stay, BAD_RESULT stays, and IGNORED_RESULTS counts exactly when
the gate gets no order, whose record then stays too. -/
structure Delivers (g : GateNo) (s t : State) : Prop where
  others : ∀ g', g' ≠ g → t.gate g' = s.gate g'
  lost : t.orders.lost = s.orders.lost
  bad : t.counter .badResult = s.counter .badResult
  ignored : t.counter .ignoredResults
    = if (s.gate g).state.ordered = false then min (s.counter .ignoredResults + 1) 65535 else s.counter .ignoredResults
  kept : (s.gate g).state.ordered = false → t.gate g = s.gate g

section
variable {g : GateNo} {s : State}

theorem delivers_nothing (h : (s.gate g).state.ordered = true) : Delivers g s s :=
  ⟨fun _ _ => rfl, rfl, rfl, by simp [h], fun _ => rfl⟩

theorem delivers_ignored (h : (s.gate g).state.ordered = false) : Delivers g s (bump .ignoredResults s) :=
  ⟨fun _ _ => rfl, by simp, by rw [counter_bump]; rfl, by rw [counter_bump, if_pos rfl, if_pos h]; rfl, fun _ => rfl⟩

theorem delivers_enterState (h : (s.gate g).state.ordered = true) (st : GateState) : Delivers g s (enterState g st s) :=
  ⟨fun _ => enterState_gate_ne g st s, by simp, enterState_counter g st s (by decide),
    by rw [enterState_counter g st s (by decide)]; simp [h], fun no => absurd (no.symm.trans h) (by decide)⟩

theorem Delivers.setGate {t : State} (d : Delivers g s t) (h : (s.gate g).state.ordered = true) (r : Gate) :
    Delivers g s (setGate g r t) :=
  ⟨fun g' ne => (Tab.get_set_ne _ _ ne).trans (d.others g' ne), d.lost, d.bad, d.ignored,
    fun no => absurd (no.symm.trans h) (by decide)⟩

end

/-! ### Each delivery by the state of its gate (R15, R16) -/

section
variable {g : GateNo} {s : State}

theorem deliverTaken_standing (opening : Option Nat) (h : (s.gate g).state = .active ∨ (s.gate g).state = .held) :
    deliverTaken g opening s = s := by
  rcases h with h | h <;> simp [deliverTaken, h]

theorem deliverTaken_unreachable (opening : Option Nat) (h : (s.gate g).state = .unreachable) :
    deliverTaken g opening s = enterState g .active s := by
  simp [deliverTaken, h]

/-- R15: TAKEN returns a LOCAL gate to ACTIVE, commanded to its fresh position or to the returned opening. -/
theorem deliverTaken_local (opening : Option Nat) (h : (s.gate g).state = .localControl) :
    let r := ((s.gate g).entering .active).read (s.positionSlot g)
    deliverTaken g opening s
      = setGate g { r with commanded := some (if r.fresh then r.measured else returnedOpening opening) } s := by
  have slot : (setGate g ((s.gate g).entering .active) s).positionSlot g = s.positionSlot g := rfl
  simp [deliverTaken, h, enterState_active, readPosition, slot]

theorem deliverTaken_ignored (opening : Option Nat) (h : (s.gate g).state.ordered = false) :
    deliverTaken g opening s = bump .ignoredResults s := by
  unfold deliverTaken
  split <;> simp_all [GateState.ordered]

theorem deliverLocal_enters (h : (s.gate g).state.ordered = true) (other : (s.gate g).state ≠ .localControl) :
    deliverLocal g s = enterState g .localControl s := by
  unfold deliverLocal
  split <;> simp_all [GateState.ordered]

theorem deliverLocal_standing (h : (s.gate g).state = .localControl) : deliverLocal g s = s := by
  simp [deliverLocal, h]

theorem deliverLocal_ignored (h : (s.gate g).state.ordered = false) : deliverLocal g s = bump .ignoredResults s := by
  unfold deliverLocal
  split <;> simp_all [GateState.ordered]

theorem deliverRefusal_enters (reason : FaultReason) (h : (s.gate g).state.ordered = true) :
    deliverRefusal reason g s = enterState g (.fault reason) s := by
  unfold deliverRefusal
  split <;> simp_all [GateState.ordered]

theorem deliverRefusal_ignored (reason : FaultReason) (h : (s.gate g).state.ordered = false) :
    deliverRefusal reason g s = bump .ignoredResults s := by
  unfold deliverRefusal
  split <;> simp_all [GateState.ordered]

theorem deliverUnreachable_enters (h : (s.gate g).state.ordered = true) (other : (s.gate g).state ≠ .unreachable) :
    deliverUnreachable g s = enterState g .unreachable s := by
  unfold deliverUnreachable
  split <;> simp_all [GateState.ordered]

theorem deliverUnreachable_standing (h : (s.gate g).state = .unreachable) : deliverUnreachable g s = s := by
  simp [deliverUnreachable, h]

theorem deliverUnreachable_ignored (h : (s.gate g).state.ordered = false) :
    deliverUnreachable g s = bump .ignoredResults s := by
  unfold deliverUnreachable
  split <;> simp_all [GateState.ordered]

end

section
variable (g : GateNo) (s : State)

theorem delivers_taken (opening : Option Nat) : Delivers g s (deliverTaken g opening s) := by
  cases h : (s.gate g).state.ordered with
  | false => exact deliverTaken_ignored opening h ▸ delivers_ignored h
  | true =>
    rcases (ordered_iff _).1 h with active | held | loc | lost
    · exact (deliverTaken_standing opening (.inl active)).symm ▸ delivers_nothing h
    · exact (deliverTaken_standing opening (.inr held)).symm ▸ delivers_nothing h
    · exact deliverTaken_local opening loc ▸ (delivers_nothing h).setGate h _
    · exact deliverTaken_unreachable opening lost ▸ delivers_enterState h .active

theorem delivers_local : Delivers g s (deliverLocal g s) := by
  cases h : (s.gate g).state.ordered with
  | false => exact deliverLocal_ignored h ▸ delivers_ignored h
  | true =>
    by_cases loc : (s.gate g).state = .localControl
    · exact (deliverLocal_standing loc).symm ▸ delivers_nothing h
    · exact deliverLocal_enters h loc ▸ delivers_enterState h .localControl

theorem delivers_refusal (reason : FaultReason) : Delivers g s (deliverRefusal reason g s) := by
  cases h : (s.gate g).state.ordered with
  | false => exact deliverRefusal_ignored reason h ▸ delivers_ignored h
  | true => exact deliverRefusal_enters reason h ▸ delivers_enterState h (.fault reason)

theorem delivers_unreachable : Delivers g s (deliverUnreachable g s) := by
  cases h : (s.gate g).state.ordered with
  | false => exact deliverUnreachable_ignored h ▸ delivers_ignored h
  | true =>
    by_cases lost : (s.gate g).state = .unreachable
    · exact (deliverUnreachable_standing lost).symm ▸ delivers_nothing h
    · exact deliverUnreachable_enters h lost ▸ delivers_enterState h .unreachable

end

/-! ### The result byte (R154) -/

/-- The state on which a result is delivered: BAD_RESULT counted, and the lost count set. -/
def resultCounted (g : GateNo) (result : Byte) (lost : Nat) (s : State) : State :=
  setLost g lost (if 5 ≤ result.toNat then bump .badResult s else s)

section
variable (g : GateNo) (result : Byte) (opening : Option Nat) (s : State)

theorem resultCounted_gate (lost : Nat) (g' : GateNo) : (resultCounted g result lost s).gate g' = s.gate g' := by
  unfold resultCounted State.gate; split <;> rfl

theorem resultCounted_lost (lost : Nat) : (resultCounted g result lost s).orders.lost = s.orders.lost.set g lost := by
  unfold resultCounted; split <;> rfl

theorem resultCounted_counter (lost : Nat) (c : Counter) :
    (resultCounted g result lost s).counter c
      = if 5 ≤ result.toNat ∧ c = .badResult then min (s.counter c + 1) 65535 else s.counter c := by
  unfold resultCounted
  by_cases bad : 5 ≤ result.toNat
  · rw [if_pos bad]
    refine (counter_bump .badResult c s).trans ?_
    by_cases hc : c = .badResult <;> simp [hc, bad, wordMax]
  · simp only [bad, if_false, false_and]
    rfl

theorem readResult_notTaken {result : Byte} (h : result = 0 ∨ 5 ≤ result.toNat) : readResult result = .notTaken := by
  rcases h with rfl | h
  · rfl
  · have ne : ∀ b : Byte, b.toNat < 5 → result ≠ b := fun b small e => by rw [e] at h; omega
    rw [readResult, if_neg (ne 1 (by decide)), if_neg (ne 2 (by decide)), if_neg (ne 3 (by decide)), if_neg (ne 4 (by decide))]

/-- R155: NOT_TAKEN below the third loss in a row. -/
theorem applyResult_lost {result : Byte} (h : result = 0 ∨ 5 ≤ result.toNat) (few : s.orders.lost.get g < 2) :
    applyResult g result opening s = resultCounted g result (s.orders.lost.get g + 1) s := by
  have lost : (if 5 ≤ result.toNat then bump .badResult s else s).orders = s.orders := by split <;> rfl
  simp only [applyResult, readResult_notTaken h, countLoss, lost, if_pos few]
  rfl

/-- R155, R16: the third loss in a row, and every further one. -/
theorem applyResult_unreachable {result : Byte} (h : result = 0 ∨ 5 ≤ result.toNat) (many : 2 ≤ s.orders.lost.get g) :
    applyResult g result opening s = deliverUnreachable g (resultCounted g result 3 s) := by
  have lost : (if 5 ≤ result.toNat then bump .badResult s else s).orders = s.orders := by split <;> rfl
  simp only [applyResult, readResult_notTaken h, countLoss, lost, if_neg (Nat.not_lt.2 many)]
  rfl

theorem applyResult_taken : applyResult g 1 opening s = deliverTaken g opening (resultCounted g 1 0 s) := rfl
theorem applyResult_local : applyResult g 2 opening s = deliverLocal g (resultCounted g 2 0 s) := rfl
theorem applyResult_drive : applyResult g 3 opening s = deliverRefusal .drive g (resultCounted g 3 0 s) := rfl
theorem applyResult_travel : applyResult g 4 opening s = deliverRefusal .travel g (resultCounted g 4 0 s) := rfl

/-- The lost count that a result leaves: 0 for 1 to 4, else one more up to 3 (R155). -/
def lostAfter (result : Byte) (lost : Nat) : Nat :=
  if 1 ≤ result.toNat ∧ result.toNat ≤ 4 then 0 else if lost < 2 then lost + 1 else 3

/-- The result is delivered to the gate: one of 1 to 4, or a third loss (R154, R155). -/
def ResultDelivered (result : Byte) (lost : Nat) : Prop := (1 ≤ result.toNat ∧ result.toNat ≤ 4) ∨ 2 ≤ lost

theorem result_cases (result : Byte) :
    (result = 0 ∨ 5 ≤ result.toNat) ∨ result = 1 ∨ result = 2 ∨ result = 3 ∨ result = 4 := by
  by_cases h : 5 ≤ result.toNat
  · exact .inl (.inr h)
  · have small : result.toNat = 0 ∨ result.toNat = 1 ∨ result.toNat = 2 ∨ result.toNat = 3 ∨ result.toNat = 4 := by omega
    rcases small with e | e | e | e | e
    · exact .inl (.inl (BitVec.eq_of_toNat_eq e))
    · exact .inr (.inl (BitVec.eq_of_toNat_eq e))
    · exact .inr (.inr (.inl (BitVec.eq_of_toNat_eq e)))
    · exact .inr (.inr (.inr (.inl (BitVec.eq_of_toNat_eq e))))
    · exact .inr (.inr (.inr (.inr (BitVec.eq_of_toNat_eq e))))

theorem applyResult_undelivered (h : ¬ ResultDelivered result (s.orders.lost.get g)) :
    applyResult g result opening s = resultCounted g result (lostAfter result (s.orders.lost.get g)) s := by
  obtain ⟨bad, few⟩ := not_or.1 h
  rw [applyResult_lost g opening s (?_ : result = 0 ∨ 5 ≤ result.toNat) (by omega), lostAfter, if_neg bad, if_pos (by omega)]
  rcases result_cases result with h | rfl | rfl | rfl | rfl
  · exact h
  all_goals exact absurd (by decide) bad

theorem applyResult_delivers (h : ResultDelivered result (s.orders.lost.get g)) :
    Delivers g (resultCounted g result (lostAfter result (s.orders.lost.get g)) s) (applyResult g result opening s) := by
  rcases result_cases result with bad | rfl | rfl | rfl | rfl
  · have wide : ¬ (1 ≤ result.toNat ∧ result.toNat ≤ 4) := by
      rcases bad with rfl | bad
      · decide
      · omega
    have many : 2 ≤ s.orders.lost.get g := h.resolve_left wide
    rw [applyResult_unreachable g opening s bad many, lostAfter, if_neg wide, if_neg (by omega)]
    exact delivers_unreachable g _
  · exact delivers_taken g _ opening
  · exact delivers_local g _
  · exact delivers_refusal g _ .drive
  · exact delivers_refusal g _ .travel

/-- R154, R155: what every result keeps and counts. -/
theorem applyResult_counts :
    let t := applyResult g result opening s
    let st := (s.gate g).state
    let lost := s.orders.lost.get g
    (∀ g', g' ≠ g → t.gate g' = s.gate g' ∧ t.orders.lost.get g' = s.orders.lost.get g')
      ∧ t.orders.lost.get g = lostAfter result lost
      ∧ (st.ordered = false ∨ ¬ ResultDelivered result lost → t.gate g = s.gate g)
      ∧ t.counter .badResult
          = (if 5 ≤ result.toNat then min (s.counter .badResult + 1) 65535 else s.counter .badResult)
      ∧ (st.ordered = false ∧ ResultDelivered result lost →
          t.counter .ignoredResults = min (s.counter .ignoredResults + 1) 65535)
      ∧ (¬ (st.ordered = false ∧ ResultDelivered result lost) →
          t.counter .ignoredResults = s.counter .ignoredResults) := by
  intro t st lost
  have gates := resultCounted_gate g result s (lostAfter result lost)
  have losts := resultCounted_lost g result s (lostAfter result lost)
  have counters := resultCounted_counter g result s (lostAfter result lost)
  by_cases h : ResultDelivered result lost
  · obtain ⟨others, keptLost, bad, ignored, kept⟩ := applyResult_delivers g result opening s h
    rw [gates] at kept ignored
    rw [losts] at keptLost
    rw [counters] at bad ignored
    refine ⟨fun g' ne => ⟨(others g' ne).trans (gates g'), ?_⟩, ?_, fun no => kept (no.resolve_right (not_not.2 h)), ?_,
      fun no => ?_, fun no => ?_⟩
    · exact (congrArg (·.get g') keptLost).trans (Tab.get_set_ne _ _ ne)
    · exact (congrArg (·.get g) keptLost).trans (Tab.get_set_self _ _ _)
    · simpa using bad
    · rw [if_pos no.1] at ignored
      simpa using ignored
    · rw [if_neg (fun o => no ⟨o, h⟩)] at ignored
      simpa using ignored
  · have formed : t = _ := applyResult_undelivered g result opening s h
    rw [formed]
    refine ⟨fun g' ne => ⟨gates g', ?_⟩, ?_, fun _ => gates g, ?_, fun no => absurd no.2 h, fun _ => ?_⟩
    · exact (congrArg (·.get g') losts).trans (Tab.get_set_ne _ _ ne)
    · exact (congrArg (·.get g) losts).trans (Tab.get_set_self _ _ _)
    · simpa using counters .badResult
    · simpa using counters .ignoredResults

end

/-! ### The record after each result (R15, R16, R155) -/

section
variable {g : GateNo} (opening : Option Nat) {s : State}

theorem applyResult_third_loss {result : Byte} (h : result = 0 ∨ 5 ≤ result.toNat) (many : 2 ≤ s.orders.lost.get g)
    (losable : (s.gate g).Losable) :
    let t := applyResult g result opening s
    t.gate g = { s.gate g with state := .unreachable, count := 0 } ∧ flagIn .gateUnreachable t.report.flags = true := by
  have counted := resultCounted_gate g result s 3 g
  rw [applyResult_unreachable g opening s h many]
  refine ⟨?_, deliverUnreachable_flag g _ (by rw [counted]; exact losable)⟩
  rw [deliverUnreachable_gate, counted, if_pos ⟨rfl, losable⟩]

theorem applyResult_third_loss_other {result : Byte} (h : result = 0 ∨ 5 ≤ result.toNat) (many : 2 ≤ s.orders.lost.get g)
    (other : ¬ (s.gate g).Losable) : (applyResult g result opening s).gate g = s.gate g := by
  have counted := resultCounted_gate g result s 3 g
  rw [applyResult_unreachable g opening s h many, deliverUnreachable_gate, counted, if_neg (fun both => other both.2)]

theorem applyResult_taken_standing (h : (s.gate g).state = .active ∨ (s.gate g).state = .held) :
    (applyResult g 1 opening s).gate g = s.gate g := by
  rw [applyResult_taken, deliverTaken_standing (s := resultCounted g 1 0 s) opening h]
  rfl

theorem applyResult_taken_unreachable (h : (s.gate g).state = .unreachable) :
    (applyResult g 1 opening s).gate g = { s.gate g with state := .active, count := 0 } := by
  rw [applyResult_taken, deliverTaken_unreachable (s := resultCounted g 1 0 s) opening h, enterState_gate_self]
  simp [Gate.entering, countOnEntry, resultCounted_gate, h]

/-- R15: TAKEN of a LOCAL gate. -/
theorem applyResult_taken_local (h : (s.gate g).state = .localControl) :
    let slot := s.positionSlot g
    (applyResult g 1 opening s).gate g
      = { s.gate g with
          state := .active, count := 0, measured := min slot.value 1000, fresh := slot.quality.fresh,
          commanded := some (if slot.quality.fresh then min slot.value 1000 else returnedOpening opening) } := by
  rw [applyResult_taken, deliverTaken_local (s := resultCounted g 1 0 s) opening h, gate_setGate, resultCounted_gate]
  simp only [Gate.entering, countOnEntry, h, Gate.read]
  rfl

theorem applyResult_local_enters (h : (s.gate g).state.ordered = true) (other : (s.gate g).state ≠ .localControl) :
    let t := applyResult g 2 opening s
    t.gate g = { s.gate g with state := .localControl, count := 0 } ∧ flagIn .gateLocal t.report.flags = true := by
  rw [applyResult_local, deliverLocal_enters (s := resultCounted g 2 0 s) h other]
  exact ⟨enterState_gate_self g .localControl _, (enterState_flag g _).1⟩

theorem applyResult_local_standing (h : (s.gate g).state = .localControl) :
    (applyResult g 2 opening s).gate g = s.gate g := by
  rw [applyResult_local, deliverLocal_standing (s := resultCounted g 2 0 s) h]
  rfl

/-- R15: REFUSED-DRIVE and REFUSED-TRAVEL of a gate that gets orders. -/
theorem deliverRefusal_record (reason : FaultReason) (result : Byte) (h : (s.gate g).state.ordered = true) :
    let t := deliverRefusal reason g (resultCounted g result 0 s)
    t.gate g = { s.gate g with state := .fault reason, count := 0 }
      ∧ (∀ o ∈ t.orders.queue, o.gate ≠ g) ∧ flagIn .gateFault t.report.flags = true := by
  have counted := resultCounted_gate g result s 0 g
  rw [deliverRefusal_enters reason (by rw [counted]; exact h)]
  refine ⟨?_, enterState_withdraws g (.fault reason) _ rfl, (enterState_flag g _).2 reason⟩
  rw [enterState_gate_self, counted]
  rfl

end

/-- Settles O29: what every result keeps and counts by `applyResult_counts`, the record by the state of the gate and the byte. -/
theorem orderResultTable : Obligations.OrderResultTable := by
  unfold Obligations.OrderResultTable
  intro g result opening s t st lost
  obtain ⟨others, lostNow, kept, bad, ignored, uncounted⟩ := applyResult_counts g result opening s
  have wide : result = 0 ∨ 5 ≤ result.toNat → ¬ (1 ≤ result.toNat ∧ result.toNat ≤ 4) := by
    rintro (rfl | h)
    · decide
    · omega
  refine ⟨others, fun h => ⟨fun few => ?_, fun many => ⟨?_, applyResult_third_loss opening h many,
    applyResult_third_loss_other opening h many⟩⟩, fun low high => ?_, fun h => kept (.inl ((not_ordered_iff st).1 h)), bad, ?_,
    ?_, ?_, ?_, ?_, ?_⟩
  · refine ⟨by rw [lostNow, lostAfter, if_neg (wide h), if_pos few], kept (.inr fun d => ?_)⟩
    exact d.elim (wide h) (Nat.not_le.2 few)
  · rw [lostNow, lostAfter, if_neg (wide h), if_neg (Nat.not_lt.2 many)]
  · rw [lostNow, lostAfter, if_pos ⟨low, high⟩]
  · split
    · next h => exact ignored ⟨(not_ordered_iff st).1 h.1, h.2⟩
    · next h => exact uncounted fun d => h ⟨(not_ordered_iff st).2 d.1, d.2⟩
  · rintro rfl
    refine ⟨applyResult_taken_standing opening, applyResult_taken_unreachable opening, fun loc => ?_⟩
    rw [show t.gate g = _ from applyResult_taken_local opening loc]
    refine ⟨rfl, rfl, rfl, rfl, fun fresh => by simp [fresh], fun n stale hn small => ?_⟩
    simp [stale, hn, returnedOpening, fullStroke, small]
  · rintro rfl h
    have both : st.ordered = true ∧ st ≠ .localControl := by rcases h with h | h | h <;> rw [h] <;> decide
    exact applyResult_local_enters opening both.1 both.2
  · rintro rfl h
    exact applyResult_local_standing opening h
  · rintro rfl h
    exact deliverRefusal_record .drive 3 ((ordered_iff st).2 h)
  · rintro rfl h
    exact deliverRefusal_record .travel 4 ((ordered_iff st).2 h)

end Sys2Proof.Machine

/-! RESTART (R172): what it makes of every block, and the end of its event. -/

namespace Sys2Proof.Machine

/-! ### RESTARTED is raised on no flag (R174, R175) -/

section
variable (s : State)

theorem raise_restarted_flags : (raise .restarted (restartState s)).report.flags = (1 <<< 15 : BitVec 16) := by
  rw [raise_flags]
  exact (by decide : (0 : BitVec 16) ||| Flag.restarted.mask = (1 <<< 15 : BitVec 16))

/-- R175: RESTARTED calls for a report exactly when it is not masked, and leaves none waiting. -/
theorem raise_restarted_report :
    (raise .restarted (restartState s)).report.waiting = false
      ∧ (raise .restarted (restartState s)).report.allowance = flagIn .restarted s.mgmt.active.t10.mask := by
  have unset : flagIn .restarted (restartState s).report.flags = false :=
    (by decide : flagIn .restarted (0 : BitVec 16) = false)
  cases masked : flagIn .restarted s.mgmt.active.t10.mask with
  | true => rw [raise_masked unset masked]; exact ⟨rfl, rfl⟩
  | false => rw [raise_standing unset masked rfl]; exact ⟨rfl, rfl⟩

end

/-- R9: the state of a record at RESTART. -/
theorem restarted_state (cfg : GateCfg) (r : Gate) :
    (r.restarted cfg).state
      = if r.state = .held ∨ r.state = .localControl ∨ r.state = .unreachable then .active else r.state := by
  unfold Gate.restarted
  cases r.state <;> simp [GateState.ordered]

/-! ### The end of the event (R141, R142) -/

section
variable {s : State}

theorem takeRelayThenFeed_seq (none : s.ring.inFlight = []) :
    ∀ e ∈ (takeRelayThenFeed s).ring.inFlight, e.seq = s.ring.seqCounter := by
  unfold takeRelayThenFeed
  split
  · simp [none]
  · split
    · rw [none, if_pos (by decide)]
      simp [originate, freeSeq, none]
    · simp [none]

/-- R142: with no frame in flight the arbiter sends under the number the counter stands at. -/
theorem arbitrate_seq (none : s.ring.inFlight = []) (orders : s.orders.queue = []) :
    ∀ e ∈ (arbitrate s).ring.inFlight, e.seq = s.ring.seqCounter := by
  have rest : takeOrderThenRest s = takeRelayThenFeed s := by rw [takeOrderThenRest, orders]
  unfold arbitrate arbiterChoice
  rw [rest]
  repeat' split
  · simp [none]
  · exact takeRelayThenFeed_seq none
  · exact takeRelayThenFeed_seq none
  · simp [none]

theorem closeEvent_seq (none : s.ring.inFlight = []) (orders : s.orders.queue = []) :
    ∀ e ∈ (closeEvent s).ring.inFlight, e.seq = s.ring.seqCounter := by
  have ring := queueConditionReport_ring s
  have sent := arbitrate_seq (s := queueConditionReport s) (by rw [ring]; exact none) (by simp [orders])
  rw [show (queueConditionReport s).ring.seqCounter = s.ring.seqCounter by rw [ring]] at sent
  unfold closeEvent
  dsimp only
  split
  · exact sent
  · rw [ring, none]; simp

theorem queueConditionReport_feed (s : State) : s.ring.feed <+: (queueConditionReport s).ring.feed := by
  unfold queueConditionReport queueReport
  dsimp only
  repeat' split
  · exact List.prefix_append _ _
  · exact List.prefix_refl _
  · exact List.prefix_refl _

/-- R135, R141: while RO is sending, the frames waiting stay at the front. -/
theorem closeEvent_feed_busy (busy : s.ring.ro ≠ none) : s.ring.feed <+: (closeEvent s).ring.feed := by
  rw [closeEvent_of_busy (.inl busy)]
  exact queueConditionReport_feed s

theorem closeEvent_orders_nil (orders : s.orders.queue = []) : (closeEvent s).orders.queue = [] :=
  List.eq_nil_iff_forall_not_mem.2 fun o ho => by simpa [orders] using closeEvent_queue s o ho

end

/-- R141, R142, R172: the end of an event that answers a request and has emptied the in-flight list and the order queue. -/
theorem closeEvent_respond_emptied {s w : State} (ring : w.ring = { s.ring with inFlight := [] }) (orders : w.orders.queue = [])
    (q : Requester) {r : Reply} (short : r.data.length ≤ 57) :
    let t := closeEvent (respond q r w)
    (∀ e ∈ t.ring.inFlight, e.seq = s.ring.seqCounter ∧ e.sent = s.ring.ms)
      ∧ ∀ f, s.ring.ro = some f → t.ring.ro = some f ∧ t.ring.relay = s.ring.relay
          ∧ t.ring.feed.take (s.ring.feed.length + 1) = s.ring.feed ++ responseFrames q r := by
  have feed : (respond q r w).ring.feed = s.ring.feed ++ responseFrames q r := by simp [respond, placeFrames, ring]
  have kept : (respond q r w).ring.ro = s.ring.ro ∧ (respond q r w).ring.relay = s.ring.relay
      ∧ (respond q r w).ring.inFlight = [] ∧ (respond q r w).ring.seqCounter = s.ring.seqCounter
      ∧ (respond q r w).ring.ms = s.ring.ms ∧ (respond q r w).orders.queue = [] := by simp [ring, orders]
  have one := responseFrames_one q r short
  generalize respond q r w = u at *
  obtain ⟨ro, relay, inFlight, counter, ms, queue⟩ := kept
  obtain ⟨more, entries, -, sent, -⟩ := closeEvent_inFlight u
  refine ⟨fun e he => ⟨(closeEvent_seq inFlight queue e he).trans counter, ?_⟩, fun f busy => ?_⟩
  · rw [entries, inFlight] at he
    exact (sent e he).trans ms
  · have still : u.ring.ro ≠ none := by simp [ro, busy]
    obtain ⟨more, grown⟩ := closeEvent_feed_busy still
    rw [closeEvent_sending u still]
    refine ⟨ro.trans busy, relay, ?_⟩
    rw [← grown, feed, List.take_left' (by simp [one])]

/-- Settles O41: the blocks are those of `restartState`, RESTARTED is raised on them, and the end of the event touches the ring
alone. -/
theorem restartEffect : Obligations.RestartEffect := by
  unfold Obligations.RestartEffect
  intro q s takeable
  have reply : restartRequest s = (⟨.ok, be2 s.mgmt.generation.toNat⟩, raise .restarted (restartState s)) := by
    simp [restartRequest]
  obtain ⟨waiting, allowance⟩ := raise_restarted_report s
  have flags := raise_restarted_flags s
  generalize formed : raise .restarted (restartState s) = w at *
  have exec_eq : exec (.restart q []) s = .next (closeEvent (respond q ⟨.ok, be2 s.mgmt.generation.toNat⟩ w)) := by
    refine congrArg Host.Outcome.next ((receiveRequest_takeable takeable _).trans ?_)
    rw [takeRequest_takeable takeable, withoutOperands, reply]
  have ring : w.ring = { s.ring with inFlight := [] } := by simp [← formed]
  have orders : w.orders.queue = [] := by simp [← formed]
  obtain ⟨inFlight, sending⟩ :=
    closeEvent_respond_emptied ring orders q (r := ⟨.ok, be2 s.mgmt.generation.toNat⟩) (by simp [be2])
  refine ⟨_, exec_eq, by simp [← formed], fun g => ?_, fun n => ?_, by simp [← formed, Measurement.restarted],
    by simp [← formed, Measurement.restarted], by simp [← formed, Measurement.restarted], by simp [← formed],
    by simp [← formed, resetResults], by simp [← formed], fun n => by simp [← formed, clearedOrigin], ?_, ?_,
    closeEvent_orders_nil (by simp [orders]), fun g => by simp [← formed], by simpa using flags, by simpa using waiting,
    by simpa using allowance, fun c hc => ?_, inFlight, by simp [ring], by simp [ring], by simp [ring], sending,
    by simp [← formed]⟩
  · have gate : w.gate g = (s.gate g).restarted (s.gateCfg g) := by simp [← formed, restartState, State.gate]
    have kept : (closeEvent (respond q ⟨.ok, be2 s.mgmt.generation.toNat⟩ w)).gate g = w.gate g := by simp [State.gate]
    rw [kept, gate, ← restarted_state (s.gateCfg g)]
    rfl
  · simp [← formed, Measurement.restarted, Slot.emptied]
  · simp [← formed, restartedTimer, secondsAfter, sscMax]
  · simp [← formed, restartState]
  · rw [closeEvent_counter _ c hc]
    simp [← formed, State.counter]

end Sys2Proof.Machine

/-! The commit checks of Table 10-5, the limit fields (R170), and COMMIT, CANCEL and LOCK (R167, R169, R170). -/

namespace Sys2Proof.Machine

/-! ### The commit checks, each by its condition (Table 10-5) -/

section
variable (set : GovSet)

theorem check1_iff :
    check1 set = true ↔ ∀ (r : RatingSetNo) (i j : Fin 9), i ≤ j → (set.t3.get r).q.get i ≤ (set.t3.get r).q.get j := by
  rw [check1, all_items_iff]
  refine forall_congr' fun r => ?_
  simp only [ascending_iff, Bool.false_eq_true, if_false]
  refine forall₂_congr fun i j => ⟨fun h le => ?_, fun h lt => h lt.le⟩
  rcases eq_or_lt_of_le le with rfl | lt
  · exact le_refl _
  · exact h lt

theorem check2_iff :
    check2 set = true
      ↔ ∀ (r : RatingSetNo) (b : BandNo), 1 ≤ (set.t3.get r).f.get b ∧ (set.t3.get r).f.get b ≤ 8191 := by
  simp only [check2, all_items_iff, Bool.and_eq_true, decide_eq_true_eq]

theorem check3_iff : check3 set = true ↔ ∀ i j : BandNo, i < j → set.t4.get i < set.t4.get j := by
  simp [check3, ascending_iff]

theorem check5_iff :
    check5 set = true
      ↔ (∀ p ∈ set.t2, (set.t1.get p.gate).cls ≠ .absent) ∧ (set.t2.map (·.gate)).Nodup := by
  simp [check5, distinct_iff]

theorem check6_iff (node : Byte) :
    let present : GateNo → Prop := fun g => (set.t1.get g).cls ≠ .absent
    check6 node set = true
      ↔ (∀ g, present g → 1 ≤ (set.t1.get g).node.toNat ∧ (set.t1.get g).node.toNat ≤ 254 ∧ (set.t1.get g).node ≠ node)
          ∧ ∀ g g', g ≠ g' → present g → present g' → (set.t1.get g).node ≠ (set.t1.get g').node := by
  have ranged : ∀ n : Byte, n ≠ 0 ∧ n ≠ 255 ↔ 1 ≤ n.toNat ∧ n.toNat ≤ 254 := fun n => by bv_omega
  simp only [check6, presentNodes, Bool.and_eq_true, distinct_filter_iff, decide_eq_true_eq]
  refine and_congr ?_ Iff.rfl
  simp only [List.all_eq_true, List.mem_map, List.mem_filter, Tab.mem_items_iff, Bool.and_eq_true, decide_eq_true_eq,
    ← and_assoc, ← ranged]
  exact ⟨fun h g present => h _ ⟨_, ⟨⟨g, rfl⟩, present⟩, rfl⟩, fun h _ ⟨_, ⟨⟨g, hg⟩, present⟩, hn⟩ => by
    subst hg hn
    exact h g present⟩

theorem check7_iff :
    check7 set = true ↔ ∀ i : Fin 48, i.val < set.plan.count → 1 ≤ (set.steps.get i).duration := by
  simp only [check7, List.all_eq_true, decide_eq_true_eq, List.mem_take_iff_getElem, Tab.get_eq]
  refine ⟨fun h i below => h _ ⟨i.val, by simp [set.steps.size, below], rfl⟩, ?_⟩
  rintro h _ ⟨i, bound, rfl⟩
  rw [set.steps.size, Nat.lt_min] at bound
  exact h ⟨i, bound.2⟩ bound.1

theorem check9_iff :
    check9 set = true
      ↔ ∀ g, set.t10.compGate = some g → (set.t1.get g).cls = .bypass ∨ (set.t1.get g).cls = .spill := by
  unfold check9
  split <;> simp [*]

theorem check10_iff :
    check10 set = true
      ↔ ∀ i j : Fin 32, i ≠ j → (set.t6.get i).inUse = true → (set.t6.get j).inUse = true →
          ((set.t6.get i).source ≠ (set.t6.get j).source ∨ (set.t6.get i).channel ≠ (set.t6.get j).channel)
            ∧ (set.t6.get i).slot ≠ (set.t6.get j).slot := by
  simp only [check10, inUseSubscriptions, Bool.and_eq_true, distinct_filter_iff, ne_eq, Prod.mk.injEq, not_and_or]
  exact ⟨fun h i j ne hi hj => ⟨h.1 i j ne hi hj, h.2 i j ne hi hj⟩,
    fun h => ⟨fun i j ne hi hj => (h i j ne hi hj).1, fun i j ne hi hj => (h i j ne hi hj).2⟩⟩

theorem check11_iff :
    check11 set = true
      ↔ ∀ role ∈ [set.t8.hw1, set.t8.hw2, set.t8.hw3, set.t8.tw1, set.t8.tw2, set.t8.inflow], ∀ n : SlotNo,
          role = some n → ∃ i, (set.t6.get i).inUse = true ∧ (set.t6.get i).slot.toNat = n.val := by
  have fed : ∀ n : SlotNo, (inUseSubscriptions set).any (fun u => decide (u.slot.toNat = n.val)) = true
      ↔ ∃ i, (set.t6.get i).inUse = true ∧ (set.t6.get i).slot.toNat = n.val := fun n => by
    simp only [inUseSubscriptions, List.any_eq_true, List.mem_filter, Tab.mem_items_iff, decide_eq_true_eq]
    exact ⟨fun ⟨u, ⟨⟨i, hi⟩, used⟩, slot⟩ => ⟨i, hi ▸ used, hi ▸ slot⟩, fun ⟨i, used, slot⟩ => ⟨_, ⟨⟨i, rfl⟩, used⟩, slot⟩⟩
  simp only [check11, List.all_eq_true, fed, List.mem_filterMap, id]
  exact ⟨fun h role mem n named => h n ⟨role, mem, named⟩, fun h n ⟨role, mem, named⟩ => h role mem n named⟩

theorem check12_iff (stn : BitVec 3) :
    check12 stn set = true
      ↔ (∀ n, (set.t9.get n).inUse = true →
            (∀ i j : Fin 4, i < j → (set.t9.get n).bands.get i < (set.t9.get n).bands.get j)
              ∧ (set.t9.get n).station.toNat ≠ stn.toNat)
          ∧ ∀ n m, n ≠ m → (set.t9.get n).inUse = true → (set.t9.get m).inUse = true →
              (set.t9.get n).station ≠ (set.t9.get m).station := by
  simp only [check12, Bool.and_eq_true, distinct_filter_iff]
  refine and_congr ?_ Iff.rfl
  simp only [List.all_eq_true, List.mem_filter, Tab.mem_items_iff, Bool.and_eq_true, ascending_iff, if_true, decide_eq_true_eq]
  exact ⟨fun h n used => h _ ⟨⟨n, rfl⟩, used⟩, fun h _ ⟨⟨n, hn⟩, used⟩ => hn ▸ h n (hn ▸ used)⟩

end

/-- R167: a set passes exactly when each of the twelve checks holds. -/
theorem passesChecks_iff (node : Byte) (stn : BitVec 3) (set : GovSet) :
    passesChecks node stn set = true
      ↔ ∀ k, 1 ≤ k → k ≤ 12 → (commitChecks node stn set)[k - 1]? = some true := by
  have length : (commitChecks node stn set).length = 12 := rfl
  rw [passesChecks]
  generalize commitChecks node stn set = checks at length
  rw [List.all_eq_true]
  constructor
  · intro h k low high
    rw [List.getElem?_eq_getElem (by omega)]
    exact congrArg some (h _ (List.getElem_mem _))
  · intro h b mem
    obtain ⟨i, bound, rfl⟩ := List.getElem_of_mem mem
    have holds := h (i + 1) (by omega) (by omega)
    rw [Nat.add_sub_cancel, List.getElem?_eq_getElem bound] at holds
    exact Option.some.inj holds

/-- R167: the number of the first failing check, where the checks before it hold. -/
theorem firstFailing_eq {node : Byte} {stn : BitVec 3} {set : GovSet} {k : Nat}
    (before : ∀ j, j < k → (commitChecks node stn set)[j]? = some true)
    (fails : (commitChecks node stn set)[k]? = some false) :
    firstFailing node stn set = k + 1 ∧ passesChecks node stn set = false := by
  rw [firstFailing, passesChecks]
  generalize commitChecks node stn set = checks at *
  obtain ⟨bound, at_k⟩ := List.getElem?_eq_some_iff.1 fails
  have mem : false ∈ checks := at_k ▸ List.getElem_mem bound
  have found := List.getElem?_idxOf mem
  have high : checks.idxOf false < k + 1 :=
    (List.mem_take_iff_idxOf_lt mem).1 (List.mem_take_iff_getElem.2 ⟨k, by omega, at_k⟩)
  have low : ¬ checks.idxOf false < k := fun h => by simp [before _ h] at found
  exact ⟨by omega, List.all_eq_false.2 ⟨false, mem, by simp⟩⟩

/-! ### The limit fields (R170) -/

theorem append_eq_iff {α : Type} {l m l' m' : List α} (h : l.length = l'.length) :
    l ++ m = l' ++ m' ↔ l = l' ∧ m = m' :=
  ⟨fun e => List.append_inj e h, fun e => by rw [e.1, e.2]⟩

/-- Two lists of blocks of four are equal exactly when the blocks are. -/
theorem flatMap_limits_inj : ∀ {l m : List GateCfg}, l.length = m.length →
    (l.flatMap GateCfg.limits = m.flatMap GateCfg.limits ↔ l.map GateCfg.limits = m.map GateCfg.limits)
  | [], [], _ => by simp
  | x :: l, y :: m, h => by
    have size : x.limits.length = y.limits.length := rfl
    rw [List.flatMap_cons, List.flatMap_cons, append_eq_iff size, List.map_cons, List.map_cons, List.cons.injEq,
      flatMap_limits_inj (Nat.succ.inj h)]

theorem limits_iff (a b : GovSet) :
    a.limits = b.limits ↔
      (∀ g,
        (a.t1.get g).minOpening = (b.t1.get g).minOpening ∧ (a.t1.get g).maxOpening = (b.t1.get g).maxOpening
          ∧ (a.t1.get g).rate = (b.t1.get g).rate ∧ (a.t1.get g).urgentRate = (b.t1.get g).urgentRate)
        ∧ a.t10.tAlert = b.t10.tAlert ∧ a.t10.tFlood = b.t10.tFlood ∧ a.t10.tExtreme = b.t10.tExtreme
        ∧ a.t10.qMinEnv = b.t10.qMinEnv ∧ a.t10.rlim = b.t10.rlim := by
  have gates : a.t1.items.map GateCfg.limits = b.t1.items.map GateCfg.limits
      ↔ ∀ g, (a.t1.get g).limits = (b.t1.get g).limits := by
    rw [Tab.items_eq_map_get, Tab.items_eq_map_get, List.map_map, List.map_map, List.map_inj_left]
    simp
  have sized : ∀ l : List GateCfg, (l.flatMap GateCfg.limits).length = 4 * l.length := fun l => by
    simp [List.length_flatMap, GateCfg.limits, Nat.mul_comm]
  rw [GovSet.limits, GovSet.limits, append_eq_iff (by rw [sized, sized, a.t1.size, b.t1.size]),
    flatMap_limits_inj (by rw [a.t1.size, b.t1.size]), gates]
  simp [GateCfg.limits, PlantParams.limits]

/-! ### COMMIT, CANCEL and LOCK (R167, R169, R170) -/

/-- A request that carries no operands, and got none, is taken as it is. -/
theorem withoutOperands_taken {q : Requester} {s : State} (takeable : Takeable q 0 s) (act : State → Reply × State) :
    takeRingEvent (receiveRequest q 0 (takeRequest q 1 [] (withoutOperands [] act))) s
      = closeEvent (respond q (act s).1 (act s).2) := by
  rw [receiveRequest_takeable takeable, takeRequest_takeable takeable, withoutOperands]

section
variable {s : State}

/-- A write is open, or a switch is pending. -/
abbrev Management.Occupied (m : Management) : Prop := m.openWrite.isSome = true ∨ m.switchPending = true

theorem commitRequest_busy (h : s.mgmt.Occupied) : commitRequest s = (⟨.busy, []⟩, s) := if_pos h

theorem lockRequest_busy (h : s.mgmt.Occupied) : lockRequest s = (⟨.busy, []⟩, s) := if_pos h

theorem commitRequest_passes (free : ¬ s.mgmt.Occupied)
    (passes : passesChecks s.ring.nodeAddr s.ring.station s.mgmt.shadow = true) :
    commitRequest s
      = (⟨.ok, be2 s.mgmt.generation.toNat⟩, { s with mgmt := { s.mgmt with switchPending := true } }) := by
  rw [commitRequest, if_neg free, if_pos passes]

theorem commitRequest_fails (free : ¬ s.mgmt.Occupied)
    (fails : passesChecks s.ring.nodeAddr s.ring.station s.mgmt.shadow = false) :
    commitRequest s = (⟨.invalidSet, [byte (firstFailing s.ring.nodeAddr s.ring.station s.mgmt.shadow)]⟩, s) := by
  rw [commitRequest, if_neg free, if_neg (by simp [fails])]

theorem lockRequest_equal (free : ¬ s.mgmt.Occupied) (equal : s.mgmt.shadow.limits = s.mgmt.active.limits) :
    lockRequest s = (⟨.ok, []⟩, { s with mgmt := { s.mgmt with lock := true } }) := by
  rw [lockRequest, if_neg free, if_neg (not_not.2 equal)]
  rfl

theorem lockRequest_unequal (free : ¬ s.mgmt.Occupied) (unequal : s.mgmt.shadow.limits ≠ s.mgmt.active.limits) :
    lockRequest s = (⟨.wrongState, []⟩, s) := by
  rw [lockRequest, if_neg free, if_pos unequal]
  rfl

end

/-- A check holds exactly when it stands in its place with the value true. -/
theorem some_true_iff {b : Bool} {p : Prop} (h : b = true ↔ p) : some b = some true ↔ p := by
  rw [Option.some.injEq, h]

/-- Settles O35: each check by its own `↔`, the limit fields by `limits_iff`, and the three requests by their branches. -/
theorem commitCancelLockEffects : Obligations.CommitCancelLockEffects := by
  unfold Obligations.CommitCancelLockEffects
  refine ⟨fun node stn set => ?_, limits_iff, fun q s takeable => ?_⟩
  · exact ⟨rfl, passesChecks_iff node stn set, some_true_iff (check1_iff set), some_true_iff (check2_iff set),
      some_true_iff (check3_iff set), some_true_iff (check4_iff set), some_true_iff (check5_iff set),
      some_true_iff (check6_iff set node), some_true_iff (check7_iff set),
      some_true_iff (by simp [check8]), some_true_iff (check9_iff set), some_true_iff (check10_iff set),
      some_true_iff (check11_iff set), some_true_iff (check12_iff set stn)⟩
  · have commit : exec (.commit q []) s = .next (closeEvent (respond q (commitRequest s).1 (commitRequest s).2)) :=
      congrArg _ (withoutOperands_taken takeable commitRequest)
    have lock : exec (.lock q []) s = .next (closeEvent (respond q (lockRequest s).1 (lockRequest s).2)) :=
      congrArg _ (withoutOperands_taken takeable lockRequest)
    refine ⟨fun occupied => ⟨?_, ?_⟩, fun free passes => ?_, fun k free before fails => ?_, fun free equal => ?_,
      fun free unequal => ?_, congrArg _ (withoutOperands_taken takeable cancelRequest)⟩
    · rw [commit, commitRequest_busy occupied]
    · rw [lock, lockRequest_busy occupied]
    · rw [commit, commitRequest_passes free passes]
    · obtain ⟨number, failing⟩ := firstFailing_eq before fails
      rw [commit, commitRequest_fails free failing, number]
    · rw [lock, lockRequest_equal free equal]
    · rw [lock, lockRequest_unequal free unequal]

end Sys2Proof.Machine

/-! Requests that are not acted on (R162): dropped, answered BUSY or NOT_MANAGER, and refused before a request's own tests. -/

namespace Sys2Proof.Machine

/-! ### The manager test and the taking of a request (R162) -/

theorem manages_iff (p : PlantParams) (src : Byte) :
    manages p src = true ↔ (p.managerA = 0 ∧ p.managerB = 0) ∨ src = p.managerA ∨ src = p.managerB := by
  simp [manages, or_assoc]

theorem manages_false {p : PlantParams} {src : Byte} (set : p.managerA ≠ 0 ∨ p.managerB ≠ 0) (notA : src ≠ p.managerA)
    (notB : src ≠ p.managerB) : manages p src = false := by
  rw [Bool.eq_false_iff, ne_eq, manages_iff]
  rintro (⟨a, b⟩ | a | b)
  · exact set.elim (· a) (· b)
  · exact notA a
  · exact notB b

section
variable {q : Requester} {needed : Nat} (data : List Byte) (act : State → Reply × State) {s : State}

theorem takeRequest_full (full : s.feedRoom = 0) : takeRequest q needed data act s = bump .requestDrops s := if_pos full

theorem takeRequest_busy (room : 0 < s.feedRoom) (few : s.feedRoom < needed) :
    takeRequest q needed data act s = respond q ⟨.busy, []⟩ s := by
  rw [takeRequest, if_neg (by omega), if_pos few, bare]

theorem takeRequest_notManager (room : 0 < s.feedRoom) (enough : needed ≤ s.feedRoom)
    (other : manages s.mgmt.active.t10 q.src = false) :
    takeRequest q needed data act s = respond q ⟨.notManager, data⟩ s := by
  rw [takeRequest, if_neg (by omega), if_neg (by omega), if_neg (by simp [other])]

theorem takeRequest_acts (room : 0 < s.feedRoom) (enough : needed ≤ s.feedRoom)
    (manager : manages s.mgmt.active.t10 q.src = true) :
    takeRequest q needed data act s = respond q (act s).1 (act s).2 := by
  rw [takeRequest, if_neg (by omega), if_neg (by omega), if_pos manager]

end

/-! ### What a request's taking does without room or from another node (R162) -/

/-- The taking of a request from `s` to `t` counts REQUEST_DROPS without room, and answers a node that is no manager NOT_MANAGER with
this data. -/
def TurnsAway (q : Requester) (data : List Byte) (s t : State) : Prop :=
  (s.feedRoom = 0 → t = bump .requestDrops s)
    ∧ (0 < s.feedRoom → manages s.mgmt.active.t10 q.src = false → t = respond q ⟨.notManager, data⟩ s)

section
variable (q : Requester) (ops : List Byte) (s : State)

theorem takeRequest_turnsAway (data : List Byte) (act : State → Reply × State) :
    TurnsAway q data s (takeRequest q 1 data act s) :=
  ⟨takeRequest_full data act, fun room other => takeRequest_notManager data act room room other⟩

/-- R162: to another node a READ_ENTRY is a request of one part. -/
theorem takeRead_turnsAway : TurnsAway q [] s (takeRead q ops s) :=
  ⟨takeRequest_full _ _, fun room other =>
    takeRequest_notManager _ _ room (by rw [readParts, if_neg (by simp [other])]; exact room) other⟩

theorem readRequestCode_modeRequest {code : Byte} (h : readRequestCode code = some .modeRequest) : code = 8 := by
  obtain ⟨before, after, split, -⟩ := List.lookup_eq_some_iff.1 h
  have mem : (code, Request.modeRequest) ∈ before ++ (code, Request.modeRequest) :: after := by simp
  rw [← split] at mem
  simpa using mem

theorem readRequestCode_none {code : Byte} (h : code = 0 ∨ 14 < code.toNat) : readRequestCode code = none := by
  have listed : ∀ p ∈ [(1, Request.readEntry), (2, .writeEntry), (3, .commit), (4, .cancel), (5, .compare), (6, .lock),
      (7, .gateControl), (8, .modeRequest), (9, .planRun), (10, .planStop), (11, .planGate), (12, .clearConditions),
      (13, .clearCounters), ((14 : Byte), .restart)], 1 ≤ p.1.toNat ∧ p.1.toNat ≤ 14 := by decide
  refine List.lookup_eq_none_iff.2 fun p mem => bne_iff_ne.2 fun e => ?_
  have range := listed p mem
  rw [← e] at range
  rcases h with rfl | h
  · exact absurd range.1 (by decide)
  · omega

/-- R127, R162: a request given by its code is turned away with the modes when it is a MODE_REQUEST. -/
theorem takeCoded_turnsAway (code : Byte) :
    TurnsAway q (if code = 8 then modeData s else []) s (takeCoded q code ops s) := by
  unfold takeCoded
  cases read : readRequestCode code with
  | none =>
    rw [if_neg (by rintro rfl; cases read)]
    exact takeRequest_turnsAway q s [] _
  | some r =>
    by_cases mode : r = .modeRequest
    · subst mode
      rw [if_pos (readRequestCode_modeRequest read)]
      exact takeRequest_turnsAway q s (modeData s) _
    · rw [if_neg (by rintro rfl; exact mode (Option.some.inj read).symm)]
      cases r with
      | readEntry => exact takeRead_turnsAway q ops s
      | modeRequest => exact absurd rfl mode
      | _ => exact takeRequest_turnsAway q s [] _

/-- R137, R143, R162: what a request of lawful length does from the part's own address, without room, or from another node. -/
theorem receiveRequest_turnsAway {len : Nat} {data : List Byte} {take : State → State} (service : InService s)
    (settled : Settled s) (lawful : len ≤ 58) (away : TurnsAway q data s (take s)) :
    let run : Host.Outcome State Fault Refusal := .next (takeRingEvent (receiveRequest q len take) s)
    (q.src = s.ring.nodeAddr → run = .next (closeEvent (bump .stray s)))
      ∧ (q.src ≠ s.ring.nodeAddr → s.feedRoom = 0 → run = .next (closeEvent (bump .requestDrops s)))
      ∧ (q.src ≠ s.ring.nodeAddr → 0 < s.feedRoom →
          s.mgmt.active.t10.managerA ≠ 0 ∨ s.mgmt.active.t10.managerB ≠ 0 → q.src ≠ s.mgmt.active.t10.managerA →
          q.src ≠ s.mgmt.active.t10.managerB → run = .next (closeEvent (respond q ⟨.notManager, data⟩ s))) := by
  intro run
  have short : ¬ payloadMax < len + 2 := by
    rw [payloadMax]
    omega
  have taken : run = .next (closeEvent (receiveRequest q len take s)) := congrArg _ (takeRingEvent_settled _ service settled)
  rw [receiveRequest, if_neg short] at taken
  refine ⟨fun own => ?_, fun foreign full => ?_, fun foreign room set notA notB => ?_⟩
  · rw [taken, if_pos own]
  · rw [taken, if_neg foreign, away.1 full]
  · rw [taken, if_neg foreign, away.2 room (manages_false set notA notB)]

end

/-! ### Requests refused before their own tests (R12, R162) -/

section
variable {q : Requester} {s : State}

/-- A taken request whose act answers a reply on the state as it is. -/
theorem receiveRequest_refused {len : Nat} (takeable : Takeable q len s) (data : List Byte) {act : State → Reply × State}
    {r : Reply} (refuses : act s = (r, s)) :
    (.next (takeRingEvent (receiveRequest q len (takeRequest q 1 data act)) s) : Host.Outcome State Fault Refusal)
      = .next (closeEvent (respond q r s)) := by
  rw [receiveRequest_takeable takeable, takeRequest_takeable takeable, refuses]

theorem withoutOperands_refused {ops : List Byte} (h : ops ≠ []) (act : State → Reply × State) :
    withoutOperands ops act s = (⟨.badValue, []⟩, s) := by
  cases ops with
  | nil => exact absurd rfl h
  | cons b bs => rfl

theorem readReply_refused {ops : List Byte} (h : ops.length ≠ 4) : readReply ops s = ⟨.badValue, []⟩ := by
  unfold readReply
  split
  · exact absurd rfl h
  · rfl

/-- R162: a READ_ENTRY that is refused needs one response part. -/
theorem readParts_refused {ops : List Byte} (h : ops.length ≠ 4) : readParts q.src ops s = 1 := by
  rw [readParts, readReply_refused h]
  split <;> rfl

theorem writeRequest_short {ops : List Byte} (h : ops.length < 3) (src : Byte) :
    writeRequest src ops s = (⟨.badValue, []⟩, s) := by
  unfold writeRequest
  split
  · simp only [List.length_cons] at h
    omega
  · rfl

theorem writeRequest_bits {table first seg : Byte} {data : List Byte} (h : seg &&& 0x70 ≠ 0) (src : Byte) :
    writeRequest src (table :: first :: seg :: data) s = (⟨.badValue, []⟩, s) := if_pos h

theorem stopPlan_refused {ops : List Byte} (h : ops ≠ []) : stopPlan ops s = (⟨.badValue, []⟩, s) := by
  cases ops with
  | nil => exact absurd rfl h
  | cons b bs => rfl

theorem runPlan_refused {ops : List Byte} (h : ops.length ≠ 1) : runPlan ops s = (⟨.badValue, []⟩, s) := by
  unfold runPlan
  split
  · exact absurd rfl h
  · rfl

theorem setOutputGate_refused {ops : List Byte} (h : ops.length ≠ 1) : setOutputGate ops s = (⟨.badValue, []⟩, s) := by
  unfold setOutputGate
  split
  · exact absurd rfl h
  · rfl

theorem requestMode_refused {ops : List Byte} (h : ops.length ≠ 1) : requestMode ops s = (⟨.badValue, modeData s⟩, s) := by
  unfold requestMode
  split
  · exact absurd rfl h
  · rfl

theorem clearRequest_refused {ops : List Byte} (h : ops.length ≠ 2) : clearRequest ops s = (⟨.badValue, []⟩, s) := by
  unfold clearRequest
  split
  · exact absurd rfl h
  · rfl

theorem compareCopiesReply_refused {ops : List Byte} (h : ops.length ≠ 1) : compareCopiesReply ops s = ⟨.badValue, []⟩ := by
  unfold compareCopiesReply
  split
  · exact absurd rfl h
  · rfl

theorem compareDataReply_refused {ops : List Byte} (h : ops.length < 3) : compareDataReply ops s = ⟨.badValue, []⟩ := by
  unfold compareDataReply
  split
  · simp only [List.length_cons] at h
    omega
  · rfl

theorem controlRequest_short {ops : List Byte} (h : ops.length < 2) : controlRequest ops s = (⟨.badValue, []⟩, s) := by
  unfold controlRequest
  split
  · simp only [List.length_cons] at h
    omega
  · rfl

section
variable (act : GateNo → State → Reply × State)

theorem readBelow_none {n : Nat} {b : Byte} (h : n ≤ b.toNat) : readBelow n b = none := dif_neg (Nat.not_lt.2 h)

theorem controlGate_badIndex {gate : Byte} (h : 16 ≤ gate.toNat) : controlGate act gate [] s = (⟨.badIndex, []⟩, s) := by
  simp only [controlGate, readBelow_none h, bare]

theorem controlGate_absent {g : GateNo} (h : (s.gate g).state = .absent) :
    controlGate act (byte g.val) [] s = (⟨.wrongState, []⟩, s) := by
  simp only [controlGate, readBelow_byte (by decide) g, onPresentGate, if_pos h, refuse]

end

end

/-- R12, R162: the refusals of GATE_CONTROL that come before an action's own test. -/
theorem controlGate_refused (q : Requester) (gate : Byte) (s : State) (act : GateNo → State → Reply × State) :
    let run : List Byte → Host.Outcome State Fault Refusal := fun extra =>
      .next (takeRingEvent (receiveRequest q (extra.length + 2) (takeRequest q 1 [] (controlGate act gate extra))) s)
    (Takeable q 2 s → 16 ≤ gate.toNat → run [] = .next (closeEvent (respond q ⟨.badIndex, []⟩ s)))
      ∧ (∀ g : GateNo, Takeable q 2 s → gate = byte g.val → (s.gate g).state = .absent →
          run [] = .next (closeEvent (respond q ⟨.wrongState, []⟩ s)))
      ∧ ∀ b bs, Takeable q (bs.length + 3) s → run (b :: bs) = .next (closeEvent (respond q ⟨.badValue, []⟩ s)) := by
  intro run
  refine ⟨fun takeable h => receiveRequest_refused takeable [] (controlGate_badIndex act h), ?_, fun b bs takeable => ?_⟩
  · rintro g takeable rfl h
    exact receiveRequest_refused takeable [] (controlGate_absent act h)
  · exact receiveRequest_refused (len := (b :: bs).length + 2) takeable [] rfl

/-- Settles O42: the taking of each request by `TurnsAway`, and the refusals by the length of the operands. -/
theorem requestsNotActedOn : Obligations.RequestsNotActedOn := by
  unfold Obligations.RequestsNotActedOn
  refine ⟨fun q ops s service settled => ?_, fun q needed data act s => ?_, manages_iff, fun q code operands s takeable outside => ?_,
    fun q ops s => ⟨fun takeable => ?_, fun takeable => ?_⟩, fun q gate s => ?_⟩
  · have away : ∀ (len : Nat) (data : List Byte) (act : State → Reply × State) (_ : len ≤ 58), _ :=
      fun len data act lawful =>
        receiveRequest_turnsAway q s service settled lawful (takeRequest_turnsAway q s data act)
    refine ⟨fun lawful => ?_, fun lawful => ⟨away _ [] _ (by omega), away _ [] _ (by omega)⟩, fun lawful gate => ?_⟩
    · have coded := fun code => receiveRequest_turnsAway q s service settled lawful (takeCoded_turnsAway q ops s code)
      have mode := receiveRequest_turnsAway q s (take := fun s => takeRequest q 1 (modeData s) (requestMode ops) s)
        service settled lawful (takeRequest_turnsAway q s (modeData s) _)
      have read := receiveRequest_turnsAway q s service settled lawful (takeRead_turnsAway q ops s)
      have each := fun act => away ops.length [] act lawful
      simp only [List.forall_mem_cons, List.not_mem_nil, IsEmpty.forall_iff, implies_true, and_true]
      exact ⟨⟨read, each _, each _, each _, each _, each _, each _, each _, each _, each _, each _⟩, mode, coded⟩
    · have each := fun act => away (ops.length + 2) [] act (by omega)
      simp only [List.forall_mem_cons, List.not_mem_nil, IsEmpty.forall_iff, implies_true, and_true]
      exact ⟨each _, each _, each _, each _, each _⟩
  · refine ⟨takeRequest_full data act, takeRequest_busy data act, fun room enough set notA notB => ?_, fun room enough manager => ?_⟩
    · exact takeRequest_notManager data act room enough (manages_false set notA notB)
    · exact takeRequest_acts data act room enough ((manages_iff _ _).2 manager)
  · refine (congrArg Host.Outcome.next (receiveRequest_takeable takeable _)).trans ?_
    rw [takeCoded, readRequestCode_none outside]
    dsimp only
    rw [takeRequest_takeable takeable, bare]
  · have noOperands := fun (h : ops ≠ []) act => receiveRequest_refused takeable [] (withoutOperands_refused h act)
    simp only [List.forall_mem_cons, List.not_mem_nil, IsEmpty.forall_iff, implies_true, and_true]
    refine ⟨fun h => ?_, fun h => receiveRequest_refused takeable [] (writeRequest_short h q.src), ?_, fun h => ?_,
      fun h => ⟨receiveRequest_refused takeable [] (runPlan_refused h), receiveRequest_refused takeable [] (setOutputGate_refused h)⟩,
      fun h => ?_, fun h => receiveRequest_refused takeable [] (clearRequest_refused h), ?_, fun h => ?_⟩
    · refine (congrArg Host.Outcome.next (receiveRequest_takeable takeable _)).trans ?_
      rw [takeRead, readParts_refused h, takeRequest_takeable takeable, readReply_refused h]
    · rintro table first seg data rfl h
      exact receiveRequest_refused takeable [] (writeRequest_bits h q.src)
    · exact ⟨noOperands h _, noOperands h _, noOperands h _, receiveRequest_refused takeable [] (stopPlan_refused h), noOperands h _,
        noOperands h _⟩
    · refine (congrArg Host.Outcome.next (receiveRequest_takeable takeable _)).trans ?_
      rw [takeRequest_takeable takeable, requestMode_refused h, modeData]
    · rintro rfl
      exact receiveRequest_refused takeable [] rfl
    · exact receiveRequest_refused takeable [] (controlRequest_short h)
  · exact ⟨fun h => receiveRequest_refused takeable [] (by rw [compareCopiesReply_refused h]),
      fun h => receiveRequest_refused takeable [] (by rw [compareDataReply_refused h])⟩
  · have each := fun act => controlGate_refused q gate s act
    simp only [List.forall_mem_cons, List.not_mem_nil, IsEmpty.forall_iff, implies_true, and_true]
    exact ⟨each _, each _, each _, each _, each _⟩

end Sys2Proof.Machine

/-! The fields of table entries (R166, R177): what each reader takes, and that it takes exactly what the writer writes. -/

namespace Sys2Proof.Machine

/-! ### Numbers as bytes -/

theorem byte_val (n : Nat) : (byte n).toNat = n % 256 := BitVec.toNat_ofNat n 8

theorem ofBytes_two (a b : Byte) : ofBytes [a, b] = 256 * a.toNat + b.toNat := by simp [ofBytes]

theorem ofBytes_three (a b c : Byte) : ofBytes [a, b, c] = 65536 * a.toNat + 256 * b.toNat + c.toNat := by
  simp [ofBytes]
  omega

/-- A byte is the one of a number exactly when it stands for it. -/
theorem byte_eq_iff (n : Nat) (b : Byte) : byte n = b ↔ n % 256 = b.toNat := by
  rw [← BitVec.toNat_inj, byte_val]

theorem toNat_eq_iff (b : Byte) (n : Nat) : b.toNat = n ↔ n ≤ 255 ∧ byte n = b := by
  rw [byte_eq_iff]
  have := b.isLt
  omega

@[simp] theorem ofBytes_two_eq_iff (a b : Byte) (n : Nat) :
    ofBytes [a, b] = n ↔ n ≤ 65535 ∧ byte (n / 256) = a ∧ byte n = b := by
  rw [ofBytes_two, byte_eq_iff, byte_eq_iff]
  have := a.isLt
  have := b.isLt
  omega

@[simp] theorem ofBytes_three_eq_iff (a b c : Byte) (n : Nat) :
    ofBytes [a, b, c] = n ↔ n ≤ 16777215 ∧ byte (n / 65536) = a ∧ byte (n / 256) = b ∧ byte n = c := by
  rw [ofBytes_three, byte_eq_iff, byte_eq_iff, byte_eq_iff]
  have := a.isLt
  have := b.isLt
  have := c.isLt
  omega

theorem ofNat_ofBytes_eq_iff (a b : Byte) (m : BitVec 16) :
    BitVec.ofNat 16 (ofBytes [a, b]) = m ↔ byte (m.toNat / 256) = a ∧ byte m.toNat = b := by
  rw [← BitVec.toNat_inj, BitVec.toNat_ofNat, ofBytes_two, byte_eq_iff, byte_eq_iff]
  have := a.isLt
  have := b.isLt
  have := m.isLt
  omega

/-- A signed field stands for the number in two's complement. -/
@[simp] theorem ofSigned2_eq_iff (a b : Byte) (i : Int) :
    ofSigned2 a b = i
      ↔ -32768 ≤ i ∧ i ≤ 32767 ∧ byte ((i % 65536).toNat / 256) = a ∧ byte (i % 65536).toNat = b := by
  rw [ofSigned2, ofBytes_two, byte_eq_iff, byte_eq_iff]
  have := a.isLt
  have := b.isLt
  split <;> omega

theorem signed2_eq (i : Int) : signed2 i = be2 (BitVec.ofInt 16 i).toNat := by
  rw [signed2, BitVec.toNat_ofInt]
  rfl

/-- A number within a range is taken as it is. -/
@[simp] theorem inRange_eq_some_iff {lo hi n m : Nat} : inRange lo hi n = some m ↔ n = m ∧ lo ≤ m ∧ m ≤ hi := by
  unfold inRange
  split <;> simp <;> grind

@[simp] theorem inRange_isSome (lo hi n : Nat) : (inRange lo hi n).isSome = decide (lo ≤ n ∧ n ≤ hi) := by
  unfold inRange
  split <;> simp [*]

/-! ### Codes and numbers of one byte (Table 10-10) -/

@[simp] theorem readClass_eq_some_iff {b : Byte} {c : GateClass} : readClass b = some c ↔ c.code = b := by
  constructor
  · unfold readClass
    split_ifs <;> rintro ⟨⟩ <;> exact Eq.symm ‹_›
  · rintro rfl
    cases c <;> rfl

@[simp] theorem readClass_isSome (b : Byte) : (readClass b).isSome = decide (b.toNat ≤ 3) := by
  unfold readClass
  split_ifs <;> simp <;> bv_omega

/-- A field of two codes is read as the one that its byte is. -/
theorem readPair_eq_some_iff {α : Type} (x y : α) (code : α → Byte) (hx : code x = 0) (hy : code y = 1)
    (all : ∀ a, a = x ∨ a = y) {b : Byte} {a : α} :
    (if b = 0 then some x else if b = 1 then some y else none) = some a ↔ code a = b := by
  constructor
  · split_ifs with h0 h1
    · rintro ⟨⟩
      exact hx.trans h0.symm
    · rintro ⟨⟩
      exact hy.trans h1.symm
    · rintro ⟨⟩
  · rintro rfl
    rcases all a with rfl | rfl
    · rw [if_pos hx]
    · rw [hy, if_neg (by decide), if_pos rfl]

theorem readPair_isSome {α : Type} (x y : α) (b : Byte) :
    (if b = 0 then some x else if b = 1 then some y else none).isSome = decide (b.toNat ≤ 1) := by
  split_ifs <;> simp <;> bv_omega

section
variable {b : Byte}

@[simp] theorem readYesNo_eq_some_iff {x : Bool} : readYesNo b = some x ↔ yesNo x = b :=
  readPair_eq_some_iff false true yesNo rfl rfl (by decide)

@[simp] theorem readYesNo_isSome (b : Byte) : (readYesNo b).isSome = decide (b.toNat ≤ 1) := readPair_isSome _ _ b

@[simp] theorem readPlanKind_eq_some_iff {k : PlanKind} : readPlanKind b = some k ↔ k.code = b :=
  readPair_eq_some_iff PlanKind.cyclic PlanKind.oneShot PlanKind.code rfl rfl (fun a => by cases a <;> simp)

@[simp] theorem readPlanKind_isSome (b : Byte) : (readPlanKind b).isSome = decide (b.toNat ≤ 1) := readPair_isSome _ _ b

@[simp] theorem readPointMode_eq_some_iff {m : PointMode} : readPointMode b = some m ↔ m.code = b :=
  readPair_eq_some_iff PointMode.once PointMode.everyStep PointMode.code rfl rfl (fun a => by cases a <;> simp)

@[simp] theorem readPointMode_isSome (b : Byte) : (readPointMode b).isSome = decide (b.toNat ≤ 1) := readPair_isSome _ _ b

@[simp] theorem readShape_eq_some_iff {h : Shape} : readShape b = some h ↔ h.code = b :=
  readPair_eq_some_iff Shape.step Shape.ramp Shape.code rfl rfl (fun a => by cases a <;> simp)

@[simp] theorem readShape_isSome (b : Byte) : (readShape b).isSome = decide (b.toNat ≤ 1) := readPair_isSome _ _ b

end

@[simp] theorem readBelow_eq_some_iff {n : Nat} (hn : n ≤ 256) {b : Byte} {i : Fin n} : readBelow n b = some i ↔ byte i.val = b := by
  unfold readBelow
  have := i.isLt
  rw [byte_eq_iff, Nat.mod_eq_of_lt (by omega)]
  split
  · rw [Option.some.injEq, Fin.ext_iff, eq_comm]
  · simp
    omega

@[simp] theorem readBelow_isSome (n : Nat) (b : Byte) : (readBelow n b).isSome = decide (b.toNat < n) := by
  unfold readBelow
  split <;> simp [*]

@[simp] theorem readNoneOr_eq_some_iff {n : Nat} (hn : n ≤ 255) {b : Byte} {o : Option (Fin n)} :
    readNoneOr n b = some o ↔ noneOr o = b := by
  unfold readNoneOr
  split
  · next h =>
    subst h
    cases o with
    | none => simp [noneOr]
    | some i =>
      have := i.isLt
      simp [noneOr, byte_eq_iff]
      omega
  · next h =>
    cases o with
    | none => simpa [noneOr] using Ne.symm h
    | some i => simp [noneOr, readBelow_eq_some_iff (show n ≤ 256 by omega)]

@[simp] theorem readNoneOr_isSome (n : Nat) (b : Byte) : (readNoneOr n b).isSome = decide (b.toNat < n ∨ b.toNat = 255) := by
  unfold readNoneOr
  split
  · next h => simp [h]
  · next h =>
    have : b.toNat ≠ 255 := fun e => h (BitVec.eq_of_toNat_eq e)
    simp [readBelow_isSome, this]

/-! ### Runs of numbers -/

/-- A run of two-byte numbers is read as the numbers it was written from. -/
theorem readWords_eq_some_iff {hi : Nat} (small : hi ≤ 65535) :
    ∀ {bs : List Byte} {ns : List Nat}, readWords hi bs = some ns ↔ (∀ n ∈ ns, n ≤ hi) ∧ ns.flatMap be2 = bs
  | [], ns => by
    cases ns <;> simp [readWords, be2]
  | [a], ns => by
    cases ns <;> simp [readWords, be2]
  | a :: b :: rest, ns => by
    cases ns with
    | nil => simp [readWords, Option.bind_eq_some_iff]
    | cons n ns =>
      simp only [readWords, Option.bind_eq_bind, Option.bind_eq_some_iff, inRange_eq_some_iff, ofBytes_two_eq_iff,
        readWords_eq_some_iff small, Option.pure_def, Option.some.injEq, List.cons.injEq, List.forall_mem_cons, List.flatMap_cons, be2,
        List.cons_append, List.nil_append]
      constructor
      · rintro ⟨_, ⟨⟨-, ha, hb⟩, -, hn⟩, _, ⟨hns, hrest⟩, rfl, rfl⟩
        exact ⟨⟨hn, hns⟩, ha, hb, hrest⟩
      · rintro ⟨⟨hn, hns⟩, ha, hb, hrest⟩
        exact ⟨n, ⟨⟨hn.trans small, ha, hb⟩, Nat.zero_le n, hn⟩, ns, ⟨hns, hrest⟩, rfl, rfl⟩

/-- A run of three-byte numbers is read as the numbers it was written from. -/
theorem readTriples_eq_some_iff {hi : Nat} (small : hi ≤ 16777215) :
    ∀ {bs : List Byte} {ns : List Nat}, readTriples hi bs = some ns ↔ (∀ n ∈ ns, n ≤ hi) ∧ ns.flatMap be3 = bs
  | [], ns => by
    cases ns <;> simp [readTriples, be3]
  | [a], ns => by
    cases ns <;> simp [readTriples, be3]
  | [a, b], ns => by
    cases ns <;> simp [readTriples, be3]
  | a :: b :: c :: rest, ns => by
    cases ns with
    | nil => simp [readTriples, Option.bind_eq_some_iff]
    | cons n ns =>
      simp only [readTriples, Option.bind_eq_bind, Option.bind_eq_some_iff, inRange_eq_some_iff, ofBytes_three_eq_iff,
        readTriples_eq_some_iff small, Option.pure_def, Option.some.injEq, List.cons.injEq, List.forall_mem_cons, List.flatMap_cons,
        be3, List.cons_append, List.nil_append]
      constructor
      · rintro ⟨_, ⟨⟨-, ha, hb, hc⟩, -, hn⟩, _, ⟨hns, hrest⟩, rfl, rfl⟩
        exact ⟨⟨hn, hns⟩, ha, hb, hc, hrest⟩
      · rintro ⟨⟨hn, hns⟩, ha, hb, hc, hrest⟩
        exact ⟨n, ⟨⟨hn.trans small, ha, hb, hc⟩, Nat.zero_le n, hn⟩, ns, ⟨hns, hrest⟩, rfl, rfl⟩

theorem asTab_eq_some_iff {n : Nat} {l : List Nat} {t : Tab Nat n} : asTab n l = some t ↔ t.items = l := by
  unfold asTab
  split
  · rw [Option.some.injEq]
    exact ⟨fun h => h ▸ rfl, fun h => by cases t; exact Tab.mk.injEq .. ▸ h.symm⟩
  · next h => exact iff_of_false (by simp) fun e => h (e ▸ t.size)

theorem readWords_tab_eq_some_iff {hi n : Nat} (small : hi ≤ 65535) {bs : List Byte} {t : Tab Nat n} :
    (readWords hi bs).bind (asTab n) = some t ↔ (∀ x ∈ t.items, x ≤ hi) ∧ t.items.flatMap be2 = bs := by
  simp [Option.bind_eq_some_iff, asTab_eq_some_iff, readWords_eq_some_iff small]

theorem readTriples_tab_eq_some_iff {hi n : Nat} (small : hi ≤ 16777215) {bs : List Byte} {t : Tab Nat n} :
    (readTriples hi bs).bind (asTab n) = some t ↔ (∀ x ∈ t.items, x ≤ hi) ∧ t.items.flatMap be3 = bs := by
  simp [Option.bind_eq_some_iff, asTab_eq_some_iff, readTriples_eq_some_iff small]

/-! ### Fields by their place in an entry -/

/-- The byte at a place, as a number. -/
def oneAt (bs : List Byte) (i : Nat) : Nat := (bs.getD i 0).toNat

/-- The two-byte field at a place. -/
def twoAt (bs : List Byte) (i : Nat) : Nat := 256 * oneAt bs i + oneAt bs (i + 1)

/-- The three-byte field at a place. -/
def threeAt (bs : List Byte) (i : Nat) : Nat := 65536 * oneAt bs i + twoAt bs (i + 1)

theorem oneAt_drop (bs : List Byte) (m i : Nat) : oneAt (bs.drop m) i = oneAt bs (m + i) := by
  simp [oneAt, List.getD_eq_getElem?_getD]

theorem twoAt_drop (bs : List Byte) (m i : Nat) : twoAt (bs.drop m) i = twoAt bs (m + i) := by
  simp [twoAt, oneAt_drop, Nat.add_assoc]

theorem threeAt_drop (bs : List Byte) (m i : Nat) : threeAt (bs.drop m) i = threeAt bs (m + i) := by
  simp [threeAt, oneAt_drop, twoAt_drop, Nat.add_assoc]

theorem oneAt_take {bs : List Byte} {m i : Nat} (h : i < m) : oneAt (bs.take m) i = oneAt bs i := by
  simp [oneAt, List.getD_eq_getElem?_getD, h]

/-- A bind whose second part is always taken, or never, is taken when both parts are. -/
theorem isSome_bind_const {α β : Type} {x : Option α} {f : α → Option β} {b : Bool} (h : ∀ a, (f a).isSome = b) :
    (x.bind f).isSome = (x.isSome && b) := by
  cases x with
  | none => rfl
  | some a => exact h a

/-- A run of two-byte numbers is taken exactly when each is at most the highest. -/
theorem readWords_isSome (hi : Nat) :
    ∀ {n : Nat} {bs : List Byte}, bs.length = 2 * n →
      ((readWords hi bs).isSome = true ↔ ∀ k, k < n → twoAt bs (2 * k) ≤ hi)
  | 0, [], _ => by simp [readWords]
  | n + 1, a :: b :: rest, h => by
    have rest_length : rest.length = 2 * n := by simp only [List.length_cons] at h; omega
    have later : ∀ k, twoAt (a :: b :: rest) (2 * (k + 1)) = twoAt rest (2 * k) := fun k => by
      rw [show 2 * (k + 1) = 2 + 2 * k by omega, ← twoAt_drop]
      rfl
    have taken : (readWords hi (a :: b :: rest)).isSome = true
        ↔ twoAt (a :: b :: rest) 0 ≤ hi ∧ (readWords hi rest).isSome = true := by
      simp only [readWords, Option.bind_eq_bind]
      rw [isSome_bind_const (fun _ => isSome_bind_const (b := true) fun _ => rfl), inRange_isSome, ofBytes_two]
      simp [twoAt, oneAt]
    rw [taken, readWords_isSome hi rest_length, Nat.forall_lt_succ_left]
    simp only [later]

/-- A run of three-byte numbers is taken exactly when each is at most the highest. -/
theorem readTriples_isSome (hi : Nat) :
    ∀ {n : Nat} {bs : List Byte}, bs.length = 3 * n →
      ((readTriples hi bs).isSome = true ↔ ∀ k, k < n → threeAt bs (3 * k) ≤ hi)
  | 0, [], _ => by simp [readTriples]
  | n + 1, a :: b :: c :: rest, h => by
    have rest_length : rest.length = 3 * n := by simp only [List.length_cons] at h; omega
    have later : ∀ k, threeAt (a :: b :: c :: rest) (3 * (k + 1)) = threeAt rest (3 * k) := fun k => by
      rw [show 3 * (k + 1) = 3 + 3 * k by omega, ← threeAt_drop]
      rfl
    have taken : (readTriples hi (a :: b :: c :: rest)).isSome = true
        ↔ threeAt (a :: b :: c :: rest) 0 ≤ hi ∧ (readTriples hi rest).isSome = true := by
      simp only [readTriples, Option.bind_eq_bind]
      rw [isSome_bind_const (fun _ => isSome_bind_const (b := true) fun _ => rfl), inRange_isSome, ofBytes_three]
      simp [threeAt, twoAt, oneAt, Nat.add_assoc]
    rw [taken, readTriples_isSome hi rest_length, Nat.forall_lt_succ_left]
    simp only [later]

theorem flatMap_be2_length (ns : List Nat) : (ns.flatMap be2).length = 2 * ns.length := by
  simp [List.length_flatMap, be2, Nat.mul_comm]

theorem flatMap_be3_length (ns : List Nat) : (ns.flatMap be3).length = 3 * ns.length := by
  simp [List.length_flatMap, be3, Nat.mul_comm]

/-- A list of the length of a table is one. -/
theorem bind_asTab_isSome {n : Nat} {x : Option (List Nat)} (h : ∀ l, x = some l → l.length = n) :
    (x.bind (asTab n)).isSome = x.isSome := by
  cases x with
  | none => rfl
  | some l => simp [asTab, h l rfl]

theorem readWords_tab_isSome {hi n : Nat} (small : hi ≤ 65535) {bs : List Byte} (h : bs.length = 2 * n) :
    ((readWords hi bs).bind (asTab n)).isSome = true ↔ ∀ k, k < n → twoAt bs (2 * k) ≤ hi := by
  rw [← readWords_isSome hi h, bind_asTab_isSome]
  intro l read
  obtain ⟨-, rfl⟩ := (readWords_eq_some_iff small).1 read
  rw [flatMap_be2_length] at h
  omega

theorem readTriples_tab_isSome {hi n : Nat} (small : hi ≤ 16777215) {bs : List Byte} (h : bs.length = 3 * n) :
    ((readTriples hi bs).bind (asTab n)).isSome = true ↔ ∀ k, k < n → threeAt bs (3 * k) ≤ hi := by
  rw [← readTriples_isSome hi h, bind_asTab_isSome]
  intro l read
  obtain ⟨-, rfl⟩ := (readTriples_eq_some_iff small).1 read
  rw [flatMap_be3_length] at h
  omega

end Sys2Proof.Machine

/-! The entries of T1 to T10 (R166, R177): each reader takes exactly the bytes of an entry in its ranges. -/

namespace Sys2Proof.Machine

/-! ### Each reader takes exactly what the writer writes -/

theorem readGateCfg_eq_some_iff {bs : List Byte} {c : GateCfg} : readGateCfg bs = some c ↔ c.InRange ∧ c.bytes = bs := by
  obtain ⟨cls, node, slot, set, lo, hi, rate, urgent⟩ := c
  unfold readGateCfg
  split
  · simp [-Bool.exists_bool, Option.bind_eq_some_iff, GateCfg.InRange, GateCfg.bytes, be2]
    grind
  · next other => exact iff_of_false (by simp) fun ⟨_, e⟩ => other _ _ _ _ _ _ _ _ _ _ _ _ e.symm

theorem readPlanHeader_eq_some_iff {bs : List Byte} {h : PlanHeader} :
    readPlanHeader bs = some h ↔ h.InRange ∧ h.bytes = bs := by
  obtain ⟨count, kind, step, cadence, mode, follow, followed, offset⟩ := h
  unfold readPlanHeader
  split
  · simp [-Bool.exists_bool, Option.bind_eq_some_iff, PlanHeader.InRange, PlanHeader.bytes, be2, signed2, toNat_eq_iff]
    grind
  · next other => exact iff_of_false (by simp) fun ⟨_, e⟩ => other _ _ _ _ _ _ _ _ _ _ e.symm

theorem readPlanStep_eq_some_iff {bs : List Byte} {p : PlanStep} : readPlanStep bs = some p ↔ p.InRange ∧ p.bytes = bs := by
  obtain ⟨duration, release, shape⟩ := p
  unfold readPlanStep
  split
  · simp [-Bool.exists_bool, Option.bind_eq_some_iff, PlanStep.InRange, PlanStep.bytes, be2, be3, plantMax]
    grind
  · next other => exact iff_of_false (by simp) fun ⟨_, e⟩ => other _ _ _ _ _ _ e.symm

theorem readSubscription_eq_some_iff {bs : List Byte} {u : Subscription} :
    readSubscription bs = some u ↔ u.InRange ∧ u.bytes = bs := by
  obtain ⟨inUse, source, channel, slot⟩ := u
  unfold readSubscription
  split
  · simp [-Bool.exists_bool, Option.bind_eq_some_iff, Subscription.InRange, Subscription.bytes]
    grind
  · next other => exact iff_of_false (by simp) fun ⟨_, e⟩ => other _ _ _ _ e.symm

theorem readSlotParams_eq_some_iff {bs : List Byte} {p : SlotParams} :
    readSlotParams bs = some p ↔ p.InRange ∧ p.bytes = bs := by
  obtain ⟨gain, offset, limit, jump⟩ := p
  unfold readSlotParams
  split
  · simp [-Bool.exists_bool, Option.bind_eq_some_iff, SlotParams.InRange, SlotParams.bytes, be2, signed2, toNat_eq_iff]
    grind
  · next other => exact iff_of_false (by simp) fun ⟨_, e⟩ => other _ _ _ _ _ _ _ e.symm

theorem readLevelRoles_eq_some_iff {bs : List Byte} {r : LevelRoles} : readLevelRoles bs = some r ↔ r.bytes = bs := by
  obtain ⟨hw1, hw2, hw3, tw1, tw2, inflow⟩ := r
  unfold readLevelRoles
  split
  · simp [-Bool.exists_bool, Option.bind_eq_some_iff, LevelRoles.bytes]
  · next other => exact iff_of_false (by simp) fun e => other _ _ _ _ _ _ e.symm

theorem readRatingSet_eq_some_iff {bs : List Byte} {r : RatingSet} : readRatingSet bs = some r ↔ r.InRange ∧ r.bytes = bs := by
  obtain ⟨q, f⟩ := r
  have length : (q.items.flatMap be2).length = 18 := by rw [flatMap_be2_length, q.size]
  simp only [readRatingSet, Option.bind_eq_bind, Option.bind_eq_some_iff, readWords_tab_eq_some_iff (show 65535 ≤ 65535 by decide),
    readWords_tab_eq_some_iff (show 8191 ≤ 65535 by decide), Option.pure_def, Option.some.injEq, RatingSet.mk.injEq]
  constructor
  · rintro ⟨_, ⟨hq, first⟩, _, ⟨hf, second⟩, rfl, rfl⟩
    exact ⟨⟨hq, hf⟩, by rw [RatingSet.bytes, first, second, List.take_append_drop]⟩
  · rintro ⟨⟨hq, hf⟩, rfl⟩
    exact ⟨q, ⟨hq, (List.take_left' length).symm⟩, f, ⟨hf, (List.drop_left' length).symm⟩, rfl, rfl⟩

theorem readBandEnds_eq_some_iff {bs : List Byte} {e : Tab Nat 8} :
    readBandEnds bs = some e ↔ BandEndsInRange e ∧ e.items.flatMap be2 = bs :=
  readWords_tab_eq_some_iff (le_refl _)

theorem readOriginRecord_eq_some_iff {bs : List Byte} {r : OriginRecord} :
    readOriginRecord bs = some r ↔ r.InRange ∧ r.bytes = bs := by
  obtain ⟨inUse, station, bands, times⟩ := r
  have length : (bands.items.flatMap be3).length = 12 := by rw [flatMap_be3_length, bands.size]
  have small : ∀ b : Bool, (if b = true then plantMax else 16777215) ≤ 16777215 := by decide
  unfold readOriginRecord
  split
  · next u st rest =>
    simp only [Option.bind_eq_bind, Option.bind_eq_some_iff, readYesNo_eq_some_iff, readTriples_tab_eq_some_iff (small _),
      readWords_tab_eq_some_iff (le_refl _)]
    constructor
    · rintro ⟨used, hu, _, ⟨hb, first⟩, _, ⟨ht, second⟩, taken⟩
      split at taken
      · cases taken
      · next lawful =>
        cases taken
        refine ⟨⟨hb, ht, fun yes => by_contra fun wide => lawful ⟨yes, wide⟩⟩, ?_⟩
        rw [OriginRecord.bytes, hu, first, second]
        simp
    · rintro ⟨⟨hb, ht, hs⟩, written⟩
      obtain ⟨rfl, rfl, rfl⟩ : yesNo inUse = u ∧ station = st ∧ bands.items.flatMap be3 ++ times.items.flatMap be2 = rest := by
        simpa [OriginRecord.bytes] using written
      refine ⟨inUse, rfl, bands, ⟨hb, (List.take_left' length).symm⟩, times, ⟨ht, (List.drop_left' length).symm⟩, ?_⟩
      rw [if_neg fun wide => wide.2 (hs wide.1)]
      rfl
  · next other => exact iff_of_false (by simp) fun ⟨_, e⟩ => other _ _ _ e.symm

/-! ### T2: the pairs up to their number, the others 0 -/

/-- The bytes of the pairs of T2. -/
def pairBytes (l : List AllocPair) : List Byte := l.flatMap fun p => [byte p.gate.val, byte p.tier.val]

theorem pairBytes_length (l : List AllocPair) : (pairBytes l).length = 2 * l.length := by
  simp [pairBytes, List.length_flatMap, Nat.mul_comm]

theorem allocBytes_eq {l : List AllocPair} (h : l.length ≤ 16) :
    allocBytes l = byte l.length :: pairBytes l ++ List.replicate (32 - 2 * l.length) 0 := by
  have short : (pairBytes l).length ≤ 32 := by rw [pairBytes_length]; omega
  rw [allocBytes, List.cons_append]
  congr 1
  rw [show (l.flatMap fun p => [byte p.gate.val, byte p.tier.val]) = pairBytes l from rfl, List.take_append, List.take_of_length_le short,
    List.take_replicate, pairBytes_length, Nat.min_eq_left (by omega)]

/-- Pairs are read as what they were written from, whatever follows them. -/
theorem readPairs_eq_some_iff :
    ∀ {n : Nat} {bs : List Byte} {l : List AllocPair},
      readPairs n bs = some l ↔ l.length = n ∧ pairBytes l <+: bs
  | 0, bs, l => by
    simp only [readPairs, Option.some.injEq, List.length_eq_zero_iff]
    exact ⟨fun h => ⟨h.symm, h ▸ List.nil_prefix⟩, fun h => h.1.symm⟩
  | n + 1, [], l => by cases l <;> simp [readPairs, pairBytes]
  | n + 1, [a], l => by cases l <;> simp [readPairs, pairBytes]
  | n + 1, a :: b :: rest, l => by
    cases l with
    | nil => simp [readPairs, Option.bind_eq_some_iff]
    | cons p l =>
      obtain ⟨gate, tier⟩ := p
      simp [readPairs, Option.bind_eq_some_iff, readPairs_eq_some_iff (n := n), pairBytes]
      grind

end Sys2Proof.Machine

/-! T2 and T10 as bytes, and the ranges of each entry byte by byte (R166, R177). -/

namespace Sys2Proof.Machine

/-! ### T2 -/

theorem readAlloc_allocBytes {l : List AllocPair} (h : l.length ≤ 16) : readAlloc (allocBytes l) = some l := by
  have count : (byte l.length).toNat = l.length := by rw [byte_val]; omega
  rw [allocBytes_eq h, List.cons_append]
  simp only [readAlloc, count, if_pos h, readPairs_eq_some_iff]
  exact ⟨trivial, List.prefix_append _ _⟩

/-- R161: a T2 entry taken holds at most 16 pairs, and is written as the bytes of its pairs and 0 beyond them. -/
theorem readAlloc_some {bs : List Byte} {l : List AllocPair} (read : readAlloc bs = some l) :
    l.length ≤ 16
      ∧ allocBytes l = bs.take (1 + 2 * oneAt bs 0) ++ List.replicate (32 - 2 * oneAt bs 0) 0 := by
  unfold readAlloc at read
  split at read
  · next n rest =>
    split at read
    · next small =>
      obtain ⟨length, pairs⟩ := readPairs_eq_some_iff.1 read
      rw [← length] at small
      have first : oneAt (n :: rest) 0 = l.length := length.symm
      have count : byte l.length = n := (byte_eq_iff _ _).2 (by omega)
      refine ⟨small, ?_⟩
      rw [allocBytes_eq small, first, Nat.add_comm 1, List.take_succ_cons, ← pairBytes_length, ← List.prefix_iff_eq_take.1 pairs, count]
    · cases read
  · cases read

theorem readPairs_isSome :
    ∀ {n : Nat} {bs : List Byte}, 2 * n ≤ bs.length →
      ((readPairs n bs).isSome = true ↔ ∀ k, k < n → oneAt bs (2 * k) ≤ 15 ∧ oneAt bs (2 * k + 1) ≤ 7)
  | 0, bs, _ => by simp [readPairs]
  | n + 1, a :: b :: rest, h => by
    have rest_length : 2 * n ≤ rest.length := by simp only [List.length_cons] at h; omega
    have later : ∀ k, oneAt (a :: b :: rest) (2 * (k + 1)) = oneAt rest (2 * k)
        ∧ oneAt (a :: b :: rest) (2 * (k + 1) + 1) = oneAt rest (2 * k + 1) := fun k => ⟨rfl, rfl⟩
    have taken : (readPairs (n + 1) (a :: b :: rest)).isSome = true
        ↔ (a.toNat ≤ 15 ∧ b.toNat ≤ 7) ∧ (readPairs n rest).isSome = true := by
      simp only [readPairs, Option.bind_eq_bind]
      rw [isSome_bind_const fun _ => isSome_bind_const fun _ => isSome_bind_const (b := true) fun _ => rfl]
      simp [Nat.lt_succ_iff, and_assoc]
    rw [taken, readPairs_isSome rest_length, Nat.forall_lt_succ_left]
    simp only [later]
    rfl

theorem readAlloc_isSome {bs : List Byte} (h : bs.length = 33) :
    (readAlloc bs).isSome = true
      ↔ oneAt bs 0 ≤ 16 ∧ ∀ k, k < oneAt bs 0 → oneAt bs (2 * k + 1) ≤ 15 ∧ oneAt bs (2 * k + 2) ≤ 7 := by
  obtain _ | ⟨n, rest⟩ := bs
  · cases h
  · have length : rest.length = 32 := by simpa using h
    have shifted : ∀ k, oneAt (n :: rest) (2 * k + 1) = oneAt rest (2 * k)
        ∧ oneAt (n :: rest) (2 * k + 2) = oneAt rest (2 * k + 1) := fun k => ⟨rfl, rfl⟩
    simp only [shifted]
    change (if n.toNat ≤ 16 then readPairs n.toNat rest else none).isSome = true ↔ n.toNat ≤ 16 ∧ ∀ k, k < n.toNat → _
    split
    · next small => rw [readPairs_isSome (by omega)]; simp [small]
    · next wide => simp [wide]

/-! ### T10 -/

theorem bind_inRange_iff {α : Type} {lo hi n : Nat} {f : Nat → Option α} {x : α} :
    (inRange lo hi n).bind f = some x ↔ (lo ≤ n ∧ n ≤ hi) ∧ f n = some x := by
  simp [Option.bind_eq_some_iff, and_assoc]

theorem ofBytes_two_le (a b : Byte) : ofBytes [a, b] ≤ 65535 := ((ofBytes_two_eq_iff a b _).1 rfl).1

theorem be2_ofBytes (a b : Byte) : be2 (ofBytes [a, b]) = [a, b] := by
  obtain ⟨-, ha, hb⟩ := (ofBytes_two_eq_iff a b _).1 rfl
  rw [be2, ha, hb]

theorem be3_ofBytes (a b c : Byte) : be3 (ofBytes [a, b, c]) = [a, b, c] := by
  obtain ⟨-, ha, hb, hc⟩ := (ofBytes_three_eq_iff a b c _).1 rfl
  rw [be3, ha, hb, hc]

theorem be2_ofNat_ofBytes (a b : Byte) : be2 (BitVec.ofNat 16 (ofBytes [a, b])).toNat = [a, b] := by
  obtain ⟨ha, hb⟩ := (ofNat_ofBytes_eq_iff a b _).1 rfl
  rw [be2, ha, hb]

theorem toNat_le_254_iff (b : Byte) : b.toNat ≤ 254 ↔ b ≠ 255 := by
  bv_omega

/-- Tables 4-3, 7-1, 10-2: a T10 entry taken lies in its ranges and is written as the bytes taken. -/
theorem readPlantParams_some {bs : List Byte} {p : PlantParams} (h : readPlantParams bs = some p) :
    p.InRange ∧ p.bytes = bs := by
  unfold readPlantParams at h
  split at h
  · obtain ⟨kl, h⟩ := bind_inRange_iff.1 h
    obtain ⟨qMinEnv, h⟩ := bind_inRange_iff.1 h
    obtain ⟨rlim, h⟩ := bind_inRange_iff.1 h
    obtain ⟨gate, named, h⟩ := Option.bind_eq_some_iff.1 h
    obtain ⟨opening, h⟩ := bind_inRange_iff.1 h
    obtain ⟨hys, h⟩ := bind_inRange_iff.1 h
    obtain ⟨dwell, h⟩ := bind_inRange_iff.1 h
    obtain ⟨cadence, h⟩ := bind_inRange_iff.1 h
    obtain ⟨lookahead, h⟩ := bind_inRange_iff.1 h
    obtain ⟨band, h⟩ := bind_inRange_iff.1 h
    obtain ⟨limit, h⟩ := bind_inRange_iff.1 h
    obtain ⟨returns, h⟩ := bind_inRange_iff.1 h
    obtain ⟨interval, h⟩ := bind_inRange_iff.1 h
    obtain ⟨managerA, h⟩ := bind_inRange_iff.1 h
    obtain ⟨managerB, h⟩ := bind_inRange_iff.1 h
    cases h
    rw [readNoneOr_eq_some_iff (by decide)] at named
    refine ⟨⟨ofBytes_two_le _ _, kl.2, qMinEnv.2, rlim.1, rlim.2, ofBytes_two_le _ _, opening.2, ofBytes_two_le _ _,
      ofBytes_two_le _ _, ofBytes_two_le _ _, hys.2, dwell.2, cadence.1, cadence.2, lookahead.2, band.1, band.2, limit.1, limit.2,
      returns.1, returns.2, interval.1, interval.2, (toNat_le_254_iff _).1 managerA.2, (toNat_le_254_iff _).1 managerB.2⟩, ?_⟩
    simp only [PlantParams.bytes, be2_ofBytes, be3_ofBytes, be2_ofNat_ofBytes, byte_toNat, named]
    rfl
  · cases h

/-- A T10 entry in its ranges is read back from its bytes. -/
theorem readPlantParams_bytes {p : PlantParams} (h : p.InRange) : readPlantParams p.bytes = some p := by
  obtain ⟨hwSet, kl, qMinEnv, rlim, tolerance, compGate, compOpening, tAlert, tFlood, tExtreme, hys, fallDwell, cadence, lookahead,
    band, limit, returns, interval, mask, managerA, managerB⟩ := p
  obtain ⟨hwSetHi, klHi, qHi, rlimLo, rlimHi, toleranceHi, openingHi, alertHi, floodHi, extremeHi, hysHi, dwellHi, cadenceLo, cadenceHi,
    lookaheadHi, bandLo, bandHi, limitLo, limitHi, returnsLo, returnsHi, intervalLo, intervalHi, ownA, ownB⟩ := h
  have two : ∀ n, n ≤ 65535 → ofBytes [byte (n / 256), byte n] = n := fun n hn => ofBytes_pair n (by omega)
  have three : ∀ n, n ≤ plantMax → ofBytes [byte (n / 65536), byte (n / 256), byte n] = n := fun n hn =>
    ofBytes_triple n (by rw [plantMax] at hn; omega)
  have one : ∀ n, n ≤ 255 → (byte n).toNat = n := fun n hn => by rw [byte_val]; omega
  dsimp only at *
  simp only [PlantParams.bytes, be2, be3, List.cons_append, List.nil_append, readPlantParams, two hwSet hwSetHi, two kl (by omega),
    three qMinEnv qHi, three rlim rlimHi, two tolerance toleranceHi, two compOpening (by omega), two tAlert alertHi,
    two tFlood floodHi, two tExtreme extremeHi, two hys (by omega), two fallDwell (by omega), one cadence (by omega),
    two lookahead (by omega), one band (by omega), one limit (by omega), one returns (by omega), one interval intervalHi,
    two mask.toNat (by omega), BitVec.ofNat_toNat, BitVec.setWidth_eq]
  refine bind_inRange_iff.2 ⟨⟨Nat.zero_le _, klHi⟩, bind_inRange_iff.2 ⟨⟨Nat.zero_le _, qHi⟩,
    bind_inRange_iff.2 ⟨⟨rlimLo, rlimHi⟩, Option.bind_eq_some_iff.2 ⟨compGate, (readNoneOr_eq_some_iff (by decide)).2 rfl,
    bind_inRange_iff.2 ⟨⟨Nat.zero_le _, openingHi⟩, bind_inRange_iff.2 ⟨⟨Nat.zero_le _, hysHi⟩,
    bind_inRange_iff.2 ⟨⟨Nat.zero_le _, dwellHi⟩, bind_inRange_iff.2 ⟨⟨cadenceLo, cadenceHi⟩,
    bind_inRange_iff.2 ⟨⟨Nat.zero_le _, lookaheadHi⟩, bind_inRange_iff.2 ⟨⟨bandLo, bandHi⟩,
    bind_inRange_iff.2 ⟨⟨limitLo, limitHi⟩, bind_inRange_iff.2 ⟨⟨returnsLo, returnsHi⟩,
    bind_inRange_iff.2 ⟨⟨intervalLo, intervalHi⟩, bind_inRange_iff.2 ⟨⟨Nat.zero_le _, (toNat_le_254_iff _).2 ownA⟩,
    bind_inRange_iff.2 ⟨⟨Nat.zero_le _, (toNat_le_254_iff _).2 ownB⟩, rfl⟩⟩⟩⟩⟩⟩⟩⟩⟩⟩⟩⟩⟩⟩⟩

end Sys2Proof.Machine

/-! The ranges of each entry byte by byte (R166): an entry is taken exactly when its fields lie in them. -/

namespace Sys2Proof.Machine

theorem any_const {α : Type} (x : Option α) (b : Bool) : (x.any fun _ => b) = (x.isSome && b) := by
  cases x <;> rfl

theorem forall_lt_six_iff (p : Nat → Prop) : (∀ k, k < 6 → p k) ↔ p 0 ∧ p 1 ∧ p 2 ∧ p 3 ∧ p 4 ∧ p 5 := by
  refine ⟨fun h => ⟨h 0 ?_, h 1 ?_, h 2 ?_, h 3 ?_, h 4 ?_, h 5 ?_⟩, fun ⟨h0, h1, h2, h3, h4, h5⟩ k hk => ?_⟩
  case refine_7 => interval_cases k <;> assumption
  all_goals decide

theorem twoAt_le (bs : List Byte) (i : Nat) : twoAt bs i ≤ 65535 := by
  have high := (bs.getD i 0).isLt
  have low := (bs.getD (i + 1) 0).isLt
  rw [twoAt, oneAt, oneAt]
  omega

theorem threeAt_le (bs : List Byte) (i : Nat) : threeAt bs i ≤ 16777215 := by
  have high := (bs.getD i 0).isLt
  have low := twoAt_le bs (i + 1)
  rw [threeAt, oneAt]
  omega

theorem isSome_unless {α : Type} {refused : Prop} [Decidable refused] (x : α) :
    (if refused then none else some x).isSome = decide (¬ refused) := by
  split <;> simp [*]

theorem readYesNo_none {b : Byte} (h : readYesNo b = none) : 1 < b.toNat := by
  have refused := readYesNo_isSome b
  rw [h] at refused
  simpa using refused.symm

theorem threeAt_take {bs : List Byte} {m i : Nat} (h : i + 2 < m) : threeAt (bs.take m) i = threeAt bs i := by
  rw [threeAt, twoAt, oneAt_take (by omega), oneAt_take (by omega), oneAt_take (by omega)]
  rfl

section
variable {bs : List Byte}

theorem readGateCfg_isSome (h : bs.length = 12) :
    (readGateCfg bs).isSome = true
      ↔ oneAt bs 0 ≤ 3 ∧ oneAt bs 2 ≤ 31 ∧ oneAt bs 3 ≤ 7 ∧ twoAt bs 4 ≤ 1000 ∧ twoAt bs 6 ≤ 1000
        ∧ 1 ≤ twoAt bs 8 ∧ twoAt bs 8 ≤ 1000 ∧ 1 ≤ twoAt bs 10 ∧ twoAt bs 10 ≤ 1000 := by
  match bs, h with
  | [_, _, _, _, _, _, _, _, _, _, _, _], _ =>
    simp [readGateCfg, Option.isSome_bind, any_const, ofBytes_two, oneAt, twoAt, Nat.lt_succ_iff, and_assoc]

theorem readRatingSet_isSome (h : bs.length = 34) :
    (readRatingSet bs).isSome = true ↔ ∀ k, k < 8 → twoAt bs (18 + 2 * k) ≤ 8191 := by
  have first := readWords_tab_isSome (hi := 65535) (le_refl _) (n := 9) (bs := bs.take 18) (by simp [h])
  have second := readWords_tab_isSome (hi := 8191) (by decide) (n := 8) (bs := bs.drop 18) (by simp [h])
  have taken : ((readWords 65535 (bs.take 18)).bind (asTab 9)).isSome = true := first.2 fun k _ => twoAt_le _ _
  simp only [twoAt_drop] at second
  simp only [readRatingSet, Option.bind_eq_bind]
  rw [isSome_bind_const fun _ => isSome_bind_const (b := true) fun _ => rfl, taken,
    Bool.true_and, Bool.and_true, second]

theorem readBandEnds_isSome (h : bs.length = 16) : (readBandEnds bs).isSome = true :=
  (readWords_tab_isSome (le_refl _) (by omega)).2 fun _ _ => twoAt_le _ _

theorem readPlanHeader_isSome (h : bs.length = 10) :
    (readPlanHeader bs).isSome = true
      ↔ oneAt bs 0 ≤ 48 ∧ oneAt bs 1 ≤ 1 ∧ oneAt bs 2 ≤ 47 ∧ oneAt bs 5 ≤ 1 ∧ oneAt bs 6 ≤ 1 ∧ oneAt bs 7 ≤ 7 := by
  match bs, h with
  | [_, _, _, _, _, _, _, _, _, _], _ => simp [readPlanHeader, Option.isSome_bind, any_const, oneAt]

theorem readPlanStep_isSome (h : bs.length = 6) :
    (readPlanStep bs).isSome = true ↔ threeAt bs 2 ≤ 1048575 ∧ oneAt bs 5 ≤ 1 := by
  match bs, h with
  | [_, _, _, _, _, _], _ =>
    simp [readPlanStep, Option.isSome_bind, any_const, ofBytes_three, oneAt, twoAt, threeAt, plantMax, Nat.add_assoc]

theorem readSubscription_isSome (h : bs.length = 4) :
    (readSubscription bs).isSome = true
      ↔ oneAt bs 0 ≤ 1
        ∧ (oneAt bs 0 = 1 → 1 ≤ oneAt bs 1 ∧ oneAt bs 1 ≤ 254 ∧ oneAt bs 2 ≤ 15 ∧ oneAt bs 3 ≤ 31) := by
  match bs, h with
  | [u, _, _, _], _ =>
    simp only [oneAt, List.getD_cons_zero, List.getD_cons_succ]
    cases read : readYesNo u with
    | none => simp [readSubscription, read, readYesNo_none read]
    | some inUse =>
      obtain rfl := readYesNo_eq_some_iff.1 read
      simp only [readSubscription, read, Option.bind_eq_bind, Option.bind_some, Option.pure_def, isSome_unless]
      cases inUse <;> simp [yesNo]

theorem readSlotParams_isSome (h : bs.length = 7) : (readSlotParams bs).isSome = true ↔ 1 ≤ oneAt bs 4 := by
  match bs, h with
  | [_, _, _, _, limit, _, _], _ =>
    have := limit.isLt
    simp [readSlotParams, Option.isSome_bind, oneAt]
    omega

theorem readLevelRoles_isSome (h : bs.length = 6) :
    (readLevelRoles bs).isSome = true ↔ ∀ k, k < 6 → oneAt bs k ≤ 31 ∨ oneAt bs k = 255 := by
  match bs, h with
  | [_, _, _, _, _, _], _ =>
    rw [forall_lt_six_iff]
    simp [readLevelRoles, Option.isSome_bind, any_const, oneAt, Nat.lt_succ_iff]

theorem readOriginRecord_isSome (h : bs.length = 22) :
    (readOriginRecord bs).isSome = true
      ↔ oneAt bs 0 ≤ 1 ∧ (oneAt bs 0 = 1 → oneAt bs 1 ≤ 7 ∧ ∀ k, k < 4 → threeAt bs (2 + 3 * k) ≤ 1048575) := by
  match bs, h with
  | u :: st :: rest, h =>
    have length : rest.length = 20 := by simpa using h
    have bands : ∀ hi, hi ≤ 16777215 → (((readTriples hi (rest.take 12)).bind (asTab 4)).isSome = true
        ↔ ∀ k, k < 4 → threeAt (u :: st :: rest) (2 + 3 * k) ≤ hi) := fun hi small => by
      rw [readTriples_tab_isSome small (by simp [length])]
      refine forall₂_congr fun k below => ?_
      rw [threeAt_take (by omega), ← threeAt_drop]
      rfl
    have times : ((readWords 65535 (rest.drop 12)).bind (asTab 4)).isSome = true :=
      (readWords_tab_isSome (le_refl _) (by simp [length])).2 fun _ _ => twoAt_le _ _
    simp only [oneAt, List.getD_cons_zero, List.getD_cons_succ]
    cases read : readYesNo u with
    | none => simp [readOriginRecord, read, readYesNo_none read]
    | some inUse =>
      obtain rfl := readYesNo_eq_some_iff.1 read
      simp only [readOriginRecord, read, Option.bind_eq_bind, Option.bind_some, Option.pure_def]
      rw [isSome_bind_const fun _ => isSome_bind_const fun _ => isSome_unless _, times, Bool.true_and, Bool.and_eq_true]
      cases inUse with
      | false => simp [bands, threeAt_le, yesNo]
      | true => simp [bands, plantMax, yesNo, and_comm]

theorem readPlantParams_isSome (h : bs.length = 36) :
    (readPlantParams bs).isSome = true
      ↔ twoAt bs 2 ≤ 4095 ∧ threeAt bs 4 ≤ 1048575 ∧ 1 ≤ threeAt bs 7 ∧ threeAt bs 7 ≤ 1048575
        ∧ (oneAt bs 12 ≤ 15 ∨ oneAt bs 12 = 255) ∧ twoAt bs 13 ≤ 1000 ∧ twoAt bs 21 ≤ 500 ∧ twoAt bs 23 ≤ 3600
        ∧ 1 ≤ oneAt bs 25 ∧ oneAt bs 25 ≤ 60 ∧ twoAt bs 26 ≤ 3600 ∧ 5 ≤ oneAt bs 28 ∧ oneAt bs 28 ≤ 200
        ∧ 1 ≤ oneAt bs 29 ∧ oneAt bs 29 ≤ 15 ∧ 2 ≤ oneAt bs 30 ∧ oneAt bs 30 ≤ 250 ∧ 1 ≤ oneAt bs 31
        ∧ oneAt bs 34 ≤ 254 ∧ oneAt bs 35 ≤ 254 := by
  match bs, h with
  | _ :: _ :: _ :: _ :: _ :: _ :: _ :: _ :: _ :: _ :: _ :: _ :: _ :: _ :: _ ::
      [_, _, _, _, _, _, _, _, _, _, _, _, _, _, _, _, interval, _, _, _, _], _ =>
    have high : interval.toNat ≤ 255 := Nat.le_of_lt_succ interval.isLt
    unfold readPlantParams
    refine (congrArg (· = true) (isSome_bind_const fun _ => isSome_bind_const fun _ => isSome_bind_const fun _ =>
      isSome_bind_const fun _ => isSome_bind_const fun _ => isSome_bind_const fun _ => isSome_bind_const fun _ =>
      isSome_bind_const fun _ => isSome_bind_const fun _ => isSome_bind_const fun _ => isSome_bind_const fun _ =>
      isSome_bind_const fun _ => isSome_bind_const fun _ => isSome_bind_const fun _ =>
      isSome_bind_const (b := true) fun _ => rfl)).to_iff.trans ?_
    simp [oneAt, twoAt, threeAt, ofBytes_two, ofBytes_three, plantMax, Nat.lt_succ_iff, Nat.add_assoc, and_assoc, high]

end

end Sys2Proof.Machine

/-! Writing one entry into a set (R166): when it is taken, what it reads back as, and what it leaves unchanged. -/

namespace Sys2Proof.Machine

theorem get_put {α : Type} {n : Nat} (t : Tab α n) (i : Nat) (x : α) (j : Fin n) :
    (t.put i x).get j = if i = j.val then x else t.get j := by
  have placed := Tab.at?_put t i j.val x
  rw [Tab.at?_eq_get, Tab.at?_eq_get] at placed
  by_cases h : i = j.val
  · subst h
    simpa using placed
  · simpa [h] using placed

theorem map_isSome_iff {α β : Type} {x : Option α} {f : α → β} {p : Prop} (h : x.isSome = true ↔ p) :
    (x.map f).isSome = true ↔ p := by
  rwa [Option.isSome_map]

/-! ### The ranges of an entry, byte by byte -/

/-- Every field of the bytes lies in the range of its table (R1, R22, R23, R34, R80, R99, R100, R118, R161). -/
def EntryRanged (table entry : Nat) (bs : List Byte) : Prop :=
  match table with
  | 1 =>
    oneAt bs 0 ≤ 3 ∧ oneAt bs 2 ≤ 31 ∧ oneAt bs 3 ≤ 7 ∧ twoAt bs 4 ≤ 1000 ∧ twoAt bs 6 ≤ 1000
      ∧ 1 ≤ twoAt bs 8 ∧ twoAt bs 8 ≤ 1000 ∧ 1 ≤ twoAt bs 10 ∧ twoAt bs 10 ≤ 1000
  | 2 => oneAt bs 0 ≤ 16 ∧ ∀ k, k < oneAt bs 0 → oneAt bs (2 * k + 1) ≤ 15 ∧ oneAt bs (2 * k + 2) ≤ 7
  | 3 => ∀ k, k < 8 → twoAt bs (18 + 2 * k) ≤ 8191
  | 5 =>
    if entry = 0 then
      oneAt bs 0 ≤ 48 ∧ oneAt bs 1 ≤ 1 ∧ oneAt bs 2 ≤ 47 ∧ oneAt bs 5 ≤ 1 ∧ oneAt bs 6 ≤ 1 ∧ oneAt bs 7 ≤ 7
    else threeAt bs 2 ≤ 1048575 ∧ oneAt bs 5 ≤ 1
  | 6 =>
    oneAt bs 0 ≤ 1
      ∧ (oneAt bs 0 = 1 → 1 ≤ oneAt bs 1 ∧ oneAt bs 1 ≤ 254 ∧ oneAt bs 2 ≤ 15 ∧ oneAt bs 3 ≤ 31)
  | 7 => 1 ≤ oneAt bs 4
  | 8 => ∀ k, k < 6 → oneAt bs k ≤ 31 ∨ oneAt bs k = 255
  | 9 => oneAt bs 0 ≤ 1 ∧ (oneAt bs 0 = 1 → oneAt bs 1 ≤ 7 ∧ ∀ k, k < 4 → threeAt bs (2 + 3 * k) ≤ 1048575)
  | 10 =>
    twoAt bs 2 ≤ 4095 ∧ threeAt bs 4 ≤ 1048575 ∧ 1 ≤ threeAt bs 7 ∧ threeAt bs 7 ≤ 1048575
      ∧ (oneAt bs 12 ≤ 15 ∨ oneAt bs 12 = 255) ∧ twoAt bs 13 ≤ 1000 ∧ twoAt bs 21 ≤ 500 ∧ twoAt bs 23 ≤ 3600
      ∧ 1 ≤ oneAt bs 25 ∧ oneAt bs 25 ≤ 60 ∧ twoAt bs 26 ≤ 3600 ∧ 5 ≤ oneAt bs 28 ∧ oneAt bs 28 ≤ 200
      ∧ 1 ≤ oneAt bs 29 ∧ oneAt bs 29 ≤ 15 ∧ 2 ≤ oneAt bs 30 ∧ oneAt bs 30 ≤ 250 ∧ 1 ≤ oneAt bs 31
      ∧ oneAt bs 34 ≤ 254 ∧ oneAt bs 35 ≤ 254
  | _ => True

section
variable {table entry : Nat} {bs : List Byte} {set new : GovSet}

theorem writeEntryIn_isSome_iff (low : 1 ≤ table) (high : table ≤ 10) (h : bs.length = entrySize table entry) :
    (writeEntryIn table entry bs set).isSome = true ↔ EntryRanged table entry bs := by
  match table, low, high with
  | 1, _, _ => exact map_isSome_iff (readGateCfg_isSome h)
  | 2, _, _ => exact map_isSome_iff (readAlloc_isSome h)
  | 3, _, _ => exact map_isSome_iff (readRatingSet_isSome h)
  | 4, _, _ => exact map_isSome_iff (iff_true_intro (readBandEnds_isSome h))
  | 5, _, _ =>
    match entry with
    | 0 => exact map_isSome_iff (readPlanHeader_isSome h)
    | i + 1 => exact (map_isSome_iff (readPlanStep_isSome h)).trans (by rw [EntryRanged, if_neg (Nat.succ_ne_zero i)])
  | 6, _, _ => exact map_isSome_iff (readSubscription_isSome h)
  | 7, _, _ => exact map_isSome_iff (readSlotParams_isSome h)
  | 8, _, _ => exact map_isSome_iff (readLevelRoles_isSome h)
  | 9, _, _ => exact map_isSome_iff (readOriginRecord_isSome h)
  | 10, _, _ => exact map_isSome_iff (readPlantParams_isSome h)

/-! ### What a written entry holds, and what it leaves unchanged -/

/-- R166: the entry written reads back as its bytes, in T2 with 0 beyond the pairs. -/
theorem writeEntryIn_bytes (within : entry ≤ lastEntry table) (h : writeEntryIn table entry bs set = some new) :
    entryBytes new table entry
      = if table = 2 then bs.take (1 + 2 * oneAt bs 0) ++ List.replicate (32 - 2 * oneAt bs 0) 0 else bs := by
  have put : ∀ {α : Type} {n i : Nat} (t : Tab α n) (x : α) (f : α → List Byte), i < n →
      (((t.put i x).at? i).map f).getD [] = f x := fun t x f below => by
    rw [Tab.at?_put, if_pos ⟨rfl, below⟩]
    rfl
  unfold writeEntryIn at h
  split at h
  · obtain ⟨c, read, rfl⟩ := Option.map_eq_some_iff.1 h
    exact (put _ _ _ (Nat.lt_succ_of_le within)).trans (readGateCfg_eq_some_iff.1 read).2
  · obtain ⟨l, read, rfl⟩ := Option.map_eq_some_iff.1 h
    exact (readAlloc_some read).2
  · obtain ⟨r, read, rfl⟩ := Option.map_eq_some_iff.1 h
    exact (put _ _ _ (Nat.lt_succ_of_le within)).trans (readRatingSet_eq_some_iff.1 read).2
  · obtain ⟨e, read, rfl⟩ := Option.map_eq_some_iff.1 h
    exact (readBandEnds_eq_some_iff.1 read).2
  · split at h
    · obtain ⟨p, read, rfl⟩ := Option.map_eq_some_iff.1 h
      exact (readPlanHeader_eq_some_iff.1 read).2
    · obtain ⟨p, read, rfl⟩ := Option.map_eq_some_iff.1 h
      exact (put _ _ _ within).trans (readPlanStep_eq_some_iff.1 read).2
  · obtain ⟨u, read, rfl⟩ := Option.map_eq_some_iff.1 h
    exact (put _ _ _ (Nat.lt_succ_of_le within)).trans (readSubscription_eq_some_iff.1 read).2
  · obtain ⟨p, read, rfl⟩ := Option.map_eq_some_iff.1 h
    exact (put _ _ _ (Nat.lt_succ_of_le within)).trans (readSlotParams_eq_some_iff.1 read).2
  · obtain ⟨r, read, rfl⟩ := Option.map_eq_some_iff.1 h
    exact readLevelRoles_eq_some_iff.1 read
  · obtain ⟨r, read, rfl⟩ := Option.map_eq_some_iff.1 h
    exact (put _ _ _ (Nat.lt_succ_of_le within)).trans (readOriginRecord_eq_some_iff.1 read).2
  · obtain ⟨p, read, rfl⟩ := Option.map_eq_some_iff.1 h
    exact (readPlantParams_some read).2
  · cases h

/-- R166: the fields of the entry written lie in their ranges. -/
theorem writeEntryIn_inRange (h : writeEntryIn table entry bs set = some new) :
    (∀ g : GateNo, table = 1 → entry = g.val → (new.t1.get g).InRange)
      ∧ (table = 2 → new.t2.length ≤ 16)
      ∧ (∀ n : RatingSetNo, table = 3 → entry = n.val → (new.t3.get n).InRange)
      ∧ (table = 4 → BandEndsInRange new.t4)
      ∧ (table = 5 → entry = 0 → new.plan.InRange)
      ∧ (∀ i : Fin 48, table = 5 → entry = i.val + 1 → (new.steps.get i).InRange)
      ∧ (∀ i : Fin 32, table = 6 → entry = i.val → (new.t6.get i).InRange)
      ∧ (∀ n : SlotNo, table = 7 → entry = n.val → (new.t7.get n).InRange)
      ∧ (∀ n : OriginNo, table = 9 → entry = n.val → (new.t9.get n).InRange)
      ∧ (table = 10 → new.t10.InRange) := by
  refine ⟨?_, ?_, ?_, ?_, ?_, ?_, ?_, ?_, ?_, ?_⟩
  · rintro g rfl rfl
    obtain ⟨c, read, rfl⟩ := Option.map_eq_some_iff.1 h
    rw [get_put, if_pos rfl]
    exact (readGateCfg_eq_some_iff.1 read).1
  · rintro rfl
    obtain ⟨l, read, rfl⟩ := Option.map_eq_some_iff.1 h
    exact (readAlloc_some read).1
  · rintro n rfl rfl
    obtain ⟨r, read, rfl⟩ := Option.map_eq_some_iff.1 h
    rw [get_put, if_pos rfl]
    exact (readRatingSet_eq_some_iff.1 read).1
  · rintro rfl
    obtain ⟨e, read, rfl⟩ := Option.map_eq_some_iff.1 h
    exact (readBandEnds_eq_some_iff.1 read).1
  · rintro rfl rfl
    obtain ⟨p, read, rfl⟩ := Option.map_eq_some_iff.1 h
    exact (readPlanHeader_eq_some_iff.1 read).1
  · rintro i rfl rfl
    obtain ⟨p, read, rfl⟩ := Option.map_eq_some_iff.1 h
    rw [get_put, if_pos rfl]
    exact (readPlanStep_eq_some_iff.1 read).1
  · rintro i rfl rfl
    obtain ⟨u, read, rfl⟩ := Option.map_eq_some_iff.1 h
    rw [get_put, if_pos rfl]
    exact (readSubscription_eq_some_iff.1 read).1
  · rintro n rfl rfl
    obtain ⟨p, read, rfl⟩ := Option.map_eq_some_iff.1 h
    rw [get_put, if_pos rfl]
    exact (readSlotParams_eq_some_iff.1 read).1
  · rintro n rfl rfl
    obtain ⟨r, read, rfl⟩ := Option.map_eq_some_iff.1 h
    rw [get_put, if_pos rfl]
    exact (readOriginRecord_eq_some_iff.1 read).1
  · rintro rfl
    obtain ⟨p, read, rfl⟩ := Option.map_eq_some_iff.1 h
    exact (readPlantParams_some read).1

/-- R166: every entry but the one written is as it was. -/
theorem writeEntryIn_frame (h : writeEntryIn table entry bs set = some new) :
    (∀ g : GateNo, ¬ (table = 1 ∧ entry = g.val) → new.t1.get g = set.t1.get g)
      ∧ (table ≠ 2 → new.t2 = set.t2)
      ∧ (∀ n : RatingSetNo, ¬ (table = 3 ∧ entry = n.val) → new.t3.get n = set.t3.get n)
      ∧ (table ≠ 4 → new.t4 = set.t4)
      ∧ (¬ (table = 5 ∧ entry = 0) → new.plan = set.plan)
      ∧ (∀ i : Fin 48, ¬ (table = 5 ∧ entry = i.val + 1) → new.steps.get i = set.steps.get i)
      ∧ (∀ i : Fin 32, ¬ (table = 6 ∧ entry = i.val) → new.t6.get i = set.t6.get i)
      ∧ (∀ n : SlotNo, ¬ (table = 7 ∧ entry = n.val) → new.t7.get n = set.t7.get n)
      ∧ (table ≠ 8 → new.t8 = set.t8)
      ∧ (∀ n : OriginNo, ¬ (table = 9 ∧ entry = n.val) → new.t9.get n = set.t9.get n)
      ∧ (table ≠ 10 → new.t10 = set.t10) := by
  unfold writeEntryIn at h
  split at h
  case h_5 =>
    split at h
    all_goals
      obtain ⟨x, -, rfl⟩ := Option.map_eq_some_iff.1 h
      simp +contextual [get_put]
  case h_11 => cases h
  all_goals
    obtain ⟨x, -, rfl⟩ := Option.map_eq_some_iff.1 h
    simp +contextual [get_put]

end

/-! ### The layouts (Table 10-11) -/

theorem at?_getD {α : Type} {n : Nat} (t : Tab α n) (i : Fin n) (f : α → List Byte) :
    ((t.at? i.val).map f).getD [] = f (t.get i) := by
  rw [Tab.at?_eq_get]
  rfl

theorem plantParams_length (p : PlantParams) : p.bytes.length = 36 := by
  simp [PlantParams.bytes, be2, be3]

/-- Settles O53: each reader takes exactly what its writer writes, the ranges byte by byte by `writeEntryIn_isSome_iff`, and the
written set by `writeEntryIn_bytes`, `writeEntryIn_inRange` and `writeEntryIn_frame`. -/
theorem entriesReadBack : Obligations.EntriesReadBack := by
  unfold Obligations.EntriesReadBack
  intro bit slotOr gateOr signed one two three ranged
  have slotOr_eq : ∀ o, slotOr o = noneOr o := fun o => by cases o <;> rfl
  have gateOr_eq : ∀ o, gateOr o = noneOr o := fun o => by cases o <;> rfl
  refine ⟨fun c h => ⟨rfl, readGateCfg_eq_some_iff.2 ⟨h, rfl⟩⟩, fun l h => ⟨?_, readAlloc_allocBytes h⟩,
    fun r h => ⟨?_, readRatingSet_eq_some_iff.2 ⟨h, rfl⟩⟩, fun e h => ⟨?_, readBandEnds_eq_some_iff.2 ⟨h, rfl⟩⟩,
    fun h range => ⟨rfl, readPlanHeader_eq_some_iff.2 ⟨range, rfl⟩⟩, fun p h => ⟨rfl, readPlanStep_eq_some_iff.2 ⟨h, rfl⟩⟩,
    fun u h => ⟨rfl, readSubscription_eq_some_iff.2 ⟨h, rfl⟩⟩, fun p h => ⟨rfl, readSlotParams_eq_some_iff.2 ⟨h, rfl⟩⟩,
    fun r => ⟨rfl, readLevelRoles_eq_some_iff.2 rfl⟩, fun r h => ⟨?_, readOriginRecord_eq_some_iff.2 ⟨h, rfl⟩⟩,
    fun p h => ⟨plantParams_length p, readPlantParams_bytes h⟩, ?_, fun s table entry => ⟨rfl, rfl, rfl⟩,
    ⟨fun n => ⟨rfl, rfl⟩, byte_val, rfl, rfl, rfl, rfl⟩, fun set => ?_, fun table entry bs set low high within length => ?_⟩
  · simp [allocBytes_eq h, pairBytes_length]
    omega
  · simp [RatingSet.bytes, flatMap_be2_length, r.q.size, r.f.size, -List.length_flatMap]
  · rw [flatMap_be2_length, e.size]
  · simp [OriginRecord.bytes, flatMap_be2_length, flatMap_be3_length, r.bands.size, r.times.size, -List.length_flatMap]
  · refine ⟨rfl, fun e => rfl, rfl, fun e h => if_neg (by omega), fun e h => if_pos h, rfl⟩
  · refine ⟨fun g => at?_getD _ _ _, fun h => allocBytes_eq h, fun n => ?_, ?_, ?_, fun i => at?_getD _ _ _, fun i => at?_getD _ _ _,
      fun n => ?_, ?_, fun n => ?_, ?_⟩
    · exact (at?_getD _ _ _).trans (congrArg₂ (· ++ ·) (Tab.flatMap_items _ _) (Tab.flatMap_items _ _))
    · exact Tab.flatMap_items _ _
    · change set.plan.bytes = _
      rw [PlanHeader.bytes, signed2_eq]
      rfl
    · refine (at?_getD _ _ _).trans ?_
      rw [SlotParams.bytes, signed2_eq]
    · simp only [slotOr_eq]
      rfl
    · refine (at?_getD _ _ _).trans ?_
      rw [OriginRecord.bytes, Tab.flatMap_items, Tab.flatMap_items]
      rfl
    · simp only [gateOr_eq]
      rfl
  · have taken := writeEntryIn_isSome_iff (set := set) low high length
    refine ⟨?_, fun new h => ?_⟩
    · rw [← Option.not_isSome_iff_eq_none]
      exact not_congr taken
    · obtain ⟨r1, r2, r3, r4, r5, r5', r6, r7, r9, r10⟩ := writeEntryIn_inRange h
      obtain ⟨f1, f2, f3, f4, f5, f5', f6, f7, f8, f9, f10⟩ := writeEntryIn_frame h
      exact ⟨writeEntryIn_bytes within h, fun g => ⟨r1 g, f1 g⟩, r2, f2, fun n => ⟨r3 n, f3 n⟩, r4, f4, r5, f5,
        fun i => ⟨r5' i, f5' i⟩, fun i => ⟨r6 i, f6 i⟩, fun n => ⟨r7 n, f7 n⟩, f8, fun n => ⟨r9 n, f9 n⟩, r10, f10⟩

end Sys2Proof.Machine

/-! The forward and the inverse rating (R28 to R32): over segments and at the references, and the inverse as the least opening. -/

namespace Sys2Proof.Machine

section
variable {r : RatingSet} {b : BandNo}

/-! ### The forward rating (R28, R29) -/

theorem referenceNeed_le_iff {q x : Nat} (hf : 1 ≤ r.f.get b) : referenceNeed r b q ≤ x ↔ q ≤ x * r.f.get b / 4096 :=
  divCeil_le_iff q _ x hf

theorem forwardRating_le_wordMax (o : Nat) : forwardRating r b o ≤ 65535 := min_le_right _ _

/-- The forward rating depends on the opening through the reference discharge alone. -/
theorem forwardRating_of_referenceAt {o x : Nat} (h : referenceAt r o = x) :
    forwardRating r b o = min (x * r.f.get b / 4096) 65535 := by
  rw [forwardRating, h, wordMax]

section
variable (asc : ascending false r.q.items = true)
include asc

/-- R29: the forward rating is non-decreasing. -/
theorem forwardRating_mono {o1 o2 : Nat} (le : o1 ≤ o2) (high : o2 ≤ 1000) :
    forwardRating r b o1 ≤ forwardRating r b o2 := by
  have reference := referenceAt_mono r asc o1 o2 le high
  exact min_le_min_right _ (Nat.div_le_div_right (Nat.mul_le_mul_right _ reference))

/-- R29: the forward rating at a reference opening. -/
theorem forwardRating_reference (k : Fin 9) :
    forwardRating r b (125 * k.val) = min (r.q.get k * r.f.get b / 4096) 65535 :=
  forwardRating_of_referenceAt (referenceAt_reference r asc k)

/-- R28: the forward rating over segment `k`, its ends included. -/
theorem forwardRating_segment (k : Fin 8) {o : Nat} (low : 125 * k.val ≤ o) (high : o ≤ 125 * (k.val + 1)) :
    forwardRating r b o
      = min ((r.q.get k.castSucc + (r.q.get k.succ - r.q.get k.castSucc) * (o - 125 * k.val) / 125) * r.f.get b / 4096)
          65535 :=
  forwardRating_of_referenceAt (referenceAt_segment r asc k o low high)

/-- R29: over a flat segment the forward rating is that of the segment's lower reference. -/
theorem forwardRating_flat {k : Fin 8} (flat : r.q.get k.castSucc = r.q.get k.succ) {o : Nat}
    (low : 125 * k.val ≤ o) (high : o ≤ 125 * (k.val + 1)) :
    forwardRating r b o = forwardRating r b (125 * k.val) := by
  have lower : forwardRating r b (125 * k.val) = min (r.q.get k.castSucc * r.f.get b / 4096) 65535 :=
    forwardRating_reference asc k.castSucc
  rw [forwardRating_segment asc k low high, lower, flat, Nat.sub_self, Nat.zero_mul, Nat.zero_div, Nat.add_zero]

/-! ### The inverse rating (R30 to R32) -/

/-- R30: not capped, the inverse rating is the least opening whose reference discharge reaches the need. -/
theorem inverseRating_least_reference {q : Nat} (reached : referenceNeed r b q ≤ r.q.get 8) :
    inverseRating r b q ≤ 1000 ∧ referenceNeed r b q ≤ referenceAt r (inverseRating r b q)
      ∧ ∀ o, o < inverseRating r b q → referenceAt r o < referenceNeed r b q := by
  have fromStart := inverseFrom_spec r asc (referenceNeed r b q) 0 (by omega) (fun o h => by omega) reached
  rw [inverseRating, if_neg (Nat.not_lt.2 reached)]
  exact fromStart

/-- R31: not capped, the inverse rating is the least opening that rates at least the discharge. -/
theorem inverseRating_least {q : Nat} (hf : 1 ≤ r.f.get b) (hq : q ≤ 65535)
    (reached : referenceNeed r b q ≤ r.q.get 8) :
    inverseRating r b q ≤ 1000 ∧ q ≤ forwardRating r b (inverseRating r b q)
      ∧ ∀ o, o < inverseRating r b q → forwardRating r b o < q := by
  obtain ⟨stroke, enough, least⟩ := inverseRating_least_reference asc reached
  refine ⟨stroke, (le_forwardRating_iff r b q _ hf hq).2 enough, fun o below => ?_⟩
  rw [← Nat.not_le, le_forwardRating_iff r b q o hf hq, Nat.not_le]
  exact least o below

/-- R31: the inverse rating is not capped where an opening rates at least the discharge, and lies at or below that opening. -/
theorem inverseRating_le_of_rates {q o : Nat} (hf : 1 ≤ r.f.get b) (ho : o ≤ 1000) (rates : q ≤ forwardRating r b o) :
    referenceNeed r b q ≤ r.q.get 8 ∧ inverseRating r b q ≤ o := by
  have hq : q ≤ 65535 := rates.trans (forwardRating_le_wordMax o)
  have top : referenceAt r 1000 = r.q.get 8 := referenceAt_reference r asc 8
  have reached : referenceNeed r b q ≤ r.q.get 8 := by
    have enough := (le_forwardRating_iff r b q o hf hq).1 rates
    have below := referenceAt_mono r asc o 1000 ho le_rfl
    omega
  refine ⟨reached, Nat.not_lt.1 fun above => ?_⟩
  have short := (inverseRating_least asc hf hq reached).2.2 o above
  omega

end

/-- R32: above the top reference's discharge the inverse rating is capped at full stroke. -/
theorem inverseRating_capped {q : Nat} (hf : 1 ≤ r.f.get b) (above : r.q.get 8 * r.f.get b < q * 4096) :
    inverseRating r b q = 1000 := by
  have capped : r.q.get 8 < referenceNeed r b q := by
    rw [← Nat.not_le, referenceNeed_le_iff hf]
    omega
  rw [inverseRating, if_pos capped, fullStroke]

end

/-- Settles O46: the forward rating carries over what R28 gives the reference discharge. -/
theorem forwardRatingProperties : Obligations.ForwardRatingProperties := by
  unfold Obligations.ForwardRatingProperties
  intro r b asc
  exact ⟨fun o1 o2 => forwardRating_mono asc, forwardRating_reference asc, forwardRating_reference asc 0,
    fun o ho => forwardRating_mono asc ho le_rfl, fun k flat o => forwardRating_flat asc flat⟩

/-- Settles O47: an opening rates at least the discharge exactly when its reference discharge reaches the reference need, and R30 finds
the least such opening. -/
theorem inverseRatingIsLeast : Obligations.InverseRatingIsLeast := by
  unfold Obligations.InverseRatingIsLeast
  intro r b q asc hf hq
  exact ⟨inverseRating_least asc hf hq, fun o ho => (inverseRating_le_of_rates asc hf ho le_rfl).2,
    fun o => inverseRating_le_of_rates asc hf⟩

end Sys2Proof.Machine

/-! The stages of a SCHEDULE or PASS_THROUGH computation (R61 to R63, R67 to R69, R73 to R76): the target of stage 2, the allotment within
the headroom, the target opening by its allotment, and the cause of a shortfall. -/

namespace Sys2Proof.Machine

/-! ### The allotments lie within the headrooms (R70, R71) -/

section
variable {sn : Snapshot}

theorem fillTier_le_headroom (t : Fin 8) (amount : Nat) :
    ∀ p ∈ fillTier (sn.tierGates t) amount, p.2 ≤ sn.headroom p.1 := by
  intro p hp
  have spec := fillPasses_spec _ (sn.tierGates t) _ (min_le_right amount _) (Nat.lt_succ_self _)
  obtain ⟨x, hx, gate, share⟩ := spec.2.1 p hp
  obtain ⟨pair, -, rfl⟩ := List.mem_map.1 hx
  rw [gate]
  exact share

theorem fillTiers_le_headroom (tiers : List (Fin 8)) (amount : Nat) :
    ∀ p ∈ (fillTiers sn tiers amount).2, p.2 ≤ sn.headroom p.1 := by
  induction tiers generalizing amount with
  | nil => exact fun p hp => absurd hp List.not_mem_nil
  | cons t rest ih =>
    intro p hp
    rcases List.mem_append.1 hp with here | later
    · exact fillTier_le_headroom t amount p here
    · exact ih _ p later

theorem allotmentIn_le {given : List (GateNo × Nat)} {most : GateNo → Nat} (h : ∀ p ∈ given, p.2 ≤ most p.1) (g : GateNo) :
    allotmentIn given g ≤ most g := by
  unfold allotmentIn
  split
  next p found =>
    have gate : p.1 = g := by simpa using List.find?_some found
    exact gate ▸ h p (List.mem_of_find?_eq_some found)
  next => exact Nat.zero_le _

/-- R72: no allotment exceeds its gate's headroom. -/
theorem allotment_le_headroom (g : GateNo) : allotmentIn sn.fill.2 g ≤ sn.headroom g :=
  allotmentIn_le (fillTiers_le_headroom _ _) g

/-! ### The target opening by its allotment (R73) -/

section
variable {g : GateNo} {a : Nat}

theorem targetOpening_of_zero (zero : a = 0) : sn.targetOpening g a = sn.effMin g := if_pos zero

theorem targetOpening_saturated (pos : 0 < a) (full : a = sn.headroom g) :
    sn.targetOpening g a = (sn.cfg g).maxOpening := by
  rw [Snapshot.targetOpening, if_neg (by omega), if_pos full]

theorem targetOpening_between (pos : 0 < a) (short : a < sn.headroom g) :
    sn.targetOpening g a
      = min (max (sn.qi g (sn.qf g (sn.effMin g) + a)) (sn.effMin g)) (sn.cfg g).maxOpening := by
  rw [Snapshot.targetOpening, if_neg (by omega), if_neg (by omega)]

/-- R73: short of the max opening, the target rates at least the rating of the effective minimum plus the allotment. -/
theorem targetOpening_rates (asc : ascending false (sn.rating g).q.items = true) (factor : 1 ≤ (sn.rating g).f.get sn.band)
    (stroke : (sn.cfg g).maxOpening ≤ 1000) (room : a ≤ sn.headroom g) :
    sn.targetOpening g a = (sn.cfg g).maxOpening ∨ sn.qf g (sn.effMin g) + a ≤ sn.qf g (sn.targetOpening g a) := by
  rcases Nat.eq_zero_or_pos a with rfl | pos
  · exact .inr (by rw [targetOpening_of_zero rfl, Nat.add_zero])
  rcases Nat.eq_or_lt_of_le room with full | short
  · exact .inl (targetOpening_saturated pos full)
  have target := targetOpening_between pos short
  set need := sn.qf g (sn.effMin g) + a
  have rates : need ≤ sn.qf g (sn.cfg g).maxOpening := by
    rw [Snapshot.headroom] at short
    omega
  obtain ⟨reached, below⟩ := inverseRating_le_of_rates asc factor stroke rates
  have enough : need ≤ sn.qf g (sn.qi g need) :=
    (inverseRating_least asc factor (rates.trans (forwardRating_le_wordMax _)) reached).2.1
  have inverse_le_most : sn.qi g need ≤ (sn.cfg g).maxOpening := below
  have inverse_le : sn.qi g need ≤ sn.targetOpening g a := by omega
  have target_le : sn.targetOpening g a ≤ 1000 := by omega
  exact .inr (enough.trans (forwardRating_mono asc inverse_le target_le))

end

/-! ### The target of stage 2 (R62, R63) -/

theorem stage2_of_plan {q : Nat} (mode : sn.mode = .schedule)
    (inForce : sn.run ≠ .stopped ∧ sn.gateOpen = true ∧ sn.planRelease ≠ none) (release : sn.planRelease = some q) :
    sn.stage2 = q := by
  rw [Snapshot.stage2, if_pos mode, if_pos (sn.planInForce_iff.2 inForce), release, Option.getD_some]

theorem stage2_without_plan (mode : sn.mode = .schedule)
    (idle : ¬ (sn.run ≠ .stopped ∧ sn.gateOpen = true ∧ sn.planRelease ≠ none)) : sn.stage2 = sn.frozen := by
  rw [Snapshot.stage2, if_pos mode, if_neg (mt sn.planInForce_iff.1 idle)]

/-- R63: the inflow with the level correction, held to 0..1,048,575. -/
theorem stage2_passThrough (mode : sn.mode = .passThrough) :
    (sn.stage2 : Int) = max 0 (min ((sn.qA : Int) + sn.levelCorrection) 1048575) := by
  rw [Snapshot.stage2, if_neg (by simp [mode]), plantMax]
  omega

theorem levelCorrection_of_fresh (fresh : sn.hw.fresh = true) :
    sn.levelCorrection = Int.tdiv (((sn.hw.value : Int) - sn.govSet.t10.hwSet) * sn.govSet.t10.kl) 16 :=
  if_pos fresh

theorem stage2_of_held (mode : sn.mode = .passThrough) (held : sn.hw.fresh = false) : sn.stage2 = min sn.qA 1048575 := by
  have value := stage2_passThrough mode
  have none_applied : sn.levelCorrection = 0 := if_neg (by simp [held])
  omega

/-! ### The cause of a raised SHORTFALL (R76) -/

theorem cause_of_raised (raised : (computeTiered sn).shortfallRaised = true) {capacity rate : Bool}
    (full : decide (sn.govSet.t10.tolerance < sn.fill.1) = capacity)
    (slow : sn.slowed (computeTiered sn).targets (computeTiered sn).commands = rate) :
    (computeTiered sn).results.cause = causeOf capacity rate := by
  rw [computeTiered_cause, if_pos raised, full, slow]

theorem cause_of_not_raised (quiet : (computeTiered sn).shortfallRaised = false) :
    (computeTiered sn).results.cause = .none := by
  rw [computeTiered_cause, if_neg (by simp [quiet])]

end

/-! ### The parts of the statement -/

/-- R73, R74: the target and the new commanded opening of an ACTIVE gate. -/
theorem compute_target_and_command {sn : Snapshot} {g : GateNo} {old : Nat} (lawful : sn.Lawful)
    (mode : sn.mode = .schedule ∨ sn.mode = .passThrough) (commanded : (sn.gates.get g).commanded = some old)
    (stroke : (sn.cfg g).maxOpening ≤ 1000) :
    let allot := (compute sn).results.allot.get g
    let target := (compute sn).targets.get g
    target = sn.targetOpening g allot
      ∧ (sn.cfg g).minOpening ≤ target ∧ target ≤ (sn.cfg g).maxOpening
      ∧ (target = (sn.cfg g).maxOpening ∨ sn.qf g (sn.effMin g) + allot ≤ sn.qf g target)
      ∧ (compute sn).commands.get g = some (rateLimited (sn.cfg g).rate old target) := by
  obtain ⟨ascends, factors, limits, -⟩ := lawful
  have asc : ascending false (sn.rating g).q.items = true := (all_items_iff _ _).1 ascends _
  have factor := ((check2_iff _).1 factors (sn.cfg g).ratingSet sn.band).1
  obtain ⟨low, high⟩ := targetOpening_within ((check4_iff _).1 limits g).1 (allotmentIn sn.fill.2 g)
  have rates := targetOpening_rates asc factor stroke (allotment_le_headroom g)
  rw [compute_tiered sn mode]
  dsimp only
  rw [computeTiered_command, computeTiered_target, computeTiered_allot, commanded]
  exact ⟨rfl, low, high, rates, rfl⟩

/-- Settles O50: the target and the rate limit by `compute_target_and_command`, and every other stage by the part of the computation
that gives it. -/
theorem targetsAndRateLimits : Obligations.TargetsAndRateLimits := by
  unfold Obligations.TargetsAndRateLimits
  refine ⟨fun sn g old lawful mode _ commanded stroke => ?_,
    fun r b => ⟨fun k o low high asc => forwardRating_segment asc k low high, fun q => inverseRating_capped⟩,
    fun f => (Fin.sum_univ_def f).symm, fun sn mode => ?_⟩
  · obtain ⟨target, low, high, rates, command⟩ := compute_target_and_command lawful mode commanded stroke
    intro _ _ _ _ _ allot headroom
    exact ⟨fun zero => target.trans (targetOpening_of_zero zero),
      fun pos full => target.trans (targetOpening_saturated pos full),
      fun pos short => target.trans (targetOpening_between pos short), low, high, rates, _, command, rateLimited_spec _ _ _⟩
  · rw [compute_tiered sn mode]
    intro p c res b rated st least fromPlan slow
    have slow_iff : sn.slowed c.targets c.commands = true ↔ slow := sn.slowed_iff _ _
    refine ⟨bandOf_spec _ _, fun q => stage2_of_plan, stage2_without_plan, fun mode fresh => ?_, stage2_of_held,
      ?_, rfl, sn.fixedSum_eq, rfl, rfl, ?_, ?_, ?_, rfl, computeTiered_shortfallRaised_iff sn, cause_of_not_raised,
      fun raised full held => ?_, fun raised full prompt => ?_, fun raised room held => ?_⟩
    · exact levelCorrection_of_fresh fresh ▸ stage2_passThrough mode
    · exact (computeTiered_frozen sn).trans (if_congr (and_congr_right' (not_congr sn.planInForce_iff)) rfl rfl)
    · exact (computeTiered_excessRaised sn) ▸ decide_eq_true_iff
    · exact (computeTiered_qR2 sn).trans (congrArg _ sn.minSum_eq)
    · exact (computeTiered_qD sn).trans (sn.delivered_eq _)
    · exact cause_of_raised raised (decide_eq_true full) (slow_iff.2 held)
    · exact cause_of_raised raised (decide_eq_true full) (Bool.eq_false_iff.2 (mt slow_iff.1 prompt))
    · exact cause_of_raised raised (decide_eq_false room) (slow_iff.2 held)

end Sys2Proof.Machine

/-! The second tick (R42, R102) and events without their cause (log entries 4, 12 and 13): what each command that is not a
frame does in a settled state, and that the work of a tick comes before every event. -/

namespace Sys2Proof.Machine

/-! ### The commands of the clock in a settled state -/

section
variable {s : State}

/-- R42: SLOT_STALE of an awake state is the work of the staleness evaluation. -/
theorem exec_slotStale (awake : Awake s) : exec .slotStale s = .next (staleWork s) :=
  congrArg _ (if_neg awake)

/-- R91: REACH_DUE_PROCESSING of an awake state is due processing. -/
theorem exec_reachDueProcessing (awake : Awake s) : exec .reachDueProcessing s = .next (reachWork s) :=
  congrArg _ (if_neg awake)

/-- R42: there is nothing to evaluate once the evaluation of the last tick is done. -/
theorem staleWork_done (done : s.clock.staleDue = false) : staleWork s = s := by
  simp [staleWork, done]

/-- R42: the evaluation of the last tick, when it is still to be done. -/
theorem staleWork_due (due : s.clock.staleDue = true) :
    staleWork s = closeEvent (evaluateStale { s with clock := { s.clock with staleDue := false } }) :=
  if_pos due

/-- A settled and quiet state is left as it is by an event that does nothing. -/
theorem takeEvent_idle {body : State → State} (settled : Settled s) (quiet : Quiet s) (idle : body s = s) :
    takeEvent body s = s := by
  by_cases awake : Awake s
  · rw [takeEvent_settled body awake settled, idle, closeEvent_quiet quiet]
  · exact takeEvent_inReset body awake

theorem takeRingEvent_idle {body : State → State} (settled : Settled s) (quiet : Quiet s) (idle : body s = s) :
    takeRingEvent body s = s := by
  by_cases service : InService s
  · rw [takeRingEvent_settled body service settled, idle, closeEvent_quiet quiet]
  · exact takeRingEvent_bypass body service

/-- R102, log entry 13: an expiry that is not due, or meets a computation in flight, is none. -/
theorem takeExpiry_without_cause (h : s.clock.expiryDue = false ∨ s.engine.computation ≠ none) : takeExpiry s = s := by
  refine if_neg fun ⟨due, free⟩ => ?_
  obtain early | busy := h
  · simp [early] at due
  · exact busy free

theorem takeCompletion_without_cause (h : s.engine.computation = none) : takeCompletion s = s := by
  rw [takeCompletion, h]

theorem endSend_without_cause (h : s.ring.ro = none) : endSend s = s := by
  rw [endSend, h]

end

/-- Settles O4: each event without its cause has an idle body (`takeEvent_idle`, `takeRingEvent_idle`). -/
theorem idlingAndEventsWithoutCause : Obligations.IdlingAndEventsWithoutCause := by
  unfold Obligations.IdlingAndEventsWithoutCause
  refine ⟨fun s empty => ?_, fun s settled quiet => ⟨?_, fun h => ?_, fun h => ?_, fun h => ?_, rfl⟩⟩
  · rw [step, empty]
    rfl
  · exact congrArg _ (ite_eq_left_iff.2 fun _ => staleWork_done settled.1)
  · exact congrArg _ (takeEvent_idle settled quiet (takeExpiry_without_cause h))
  · exact congrArg _ (takeEvent_idle settled quiet (takeCompletion_without_cause h))
  · exact congrArg _ (takeRingEvent_idle settled quiet (endSend_without_cause h))

/-! ### The second tick -/

/-- Settles O7: in a settled state the tick has no work before it, and in a quiet one its event ends with nothing more to do. -/
theorem secondTickEffect : Obligations.SecondTickEffect := by
  unfold Obligations.SecondTickEffect
  intro s awake settled quiet
  have ends : takeEvent secondTick s = secondTick s := by
    rw [takeEvent_settled _ awake settled, closeEvent_quiet (s := secondTick s) quiet]
  have aged : s.meas.slots.map Slot.aged = Tab.ofFn fun n => (s.meas.slots.get n).aged := Tab.ext_get fun n => by simp
  show Host.Outcome.next (takeEvent secondTick s) = _
  rw [ends, secondTick, aged]
  rfl

/-! ### The work of a tick comes before any other event (log entry 4) -/

/-- Every command of the ring is taken in service as an event, which does the outstanding work of a tick first. -/
theorem exec_ringCommand {c : Instr} (ring : ringCommand c = true) :
    ∃ body : State → State, ∀ s, exec c s = .next (takeRingEvent body s) := by
  cases c
  case resetAssert | resetRelease | secondTick | slotStale | reachDueProcessing | cadenceExpiry | computationCompletion
    | returnLimitExpiry => cases ring
  all_goals exact ⟨_, fun _ => rfl⟩

section
variable {s : State}

theorem settleTick_of_reachDone (done : s.clock.reachDue = false) : settleTick s = staleWork s := by
  simp [settleTick, done]

theorem settleTick_of_reachDue (due : s.clock.reachDue = true) : settleTick s = reachWork (staleWork s) := by
  simp [settleTick, due]

end

/-- Settles O3: the work of the two commands by `settleTick_of_reachDone` and `settleTick_of_reachDue`; every other event by
`takeEvent_settleTick` and `takeRingEvent_settleTick`. -/
theorem tickWorkComesFirst : Obligations.TickWorkComesFirst := by
  unfold Obligations.TickWorkComesFirst
  intro s
  refine ⟨settled_settleTick s, settleTick_of_settled,
    fun awake => ⟨fun _ reach => ?_, fun stale reach => ?_, fun _ reach => ?_⟩, fun awake => ?_, fun service c ring => ?_⟩
  · rw [exec_slotStale awake, settleTick_of_reachDone reach]
  · rw [exec_reachDueProcessing awake, settleTick_of_reachDue reach, staleWork_done stale]
  · refine ⟨_, exec_slotStale awake, ?_⟩
    rw [exec_reachDueProcessing (by simpa [Awake] using awake), settleTick_of_reachDue reach]
  · have first := fun body => takeEvent_settleTick body awake
    exact ⟨congrArg Host.Outcome.next (first _), congrArg Host.Outcome.next (first _), congrArg Host.Outcome.next (first _),
      fun n => congrArg (fun t => Host.Outcome.next (milliseconds n t)) (first _)⟩
  · obtain ⟨body, taken⟩ := exec_ringCommand ring
    rw [taken, taken, takeRingEvent_settleTick body service]

end Sys2Proof.Machine

/-! Samples and votes (R34, R37 to R41, R46 to R50): what one entry of a SAMPLE does to its slot, which slots a SAMPLE takes
values into, and what a vote makes of the levels. -/

namespace Sys2Proof.Machine

/-! ### The value offered and the test it passes (R38 to R41) -/

/-- R38: the scaled value, held to 0..65,535. -/
theorem scaledValue_eq (p : SlotParams) (raw : Nat) :
    (scaledValue p raw : Int) = max 0 (min (((raw * p.gain / 4096 : Nat) : Int) + p.offset) 65535) := by
  simp only [scaledValue, scaledRaw, wordMax]
  omega

theorem scaledClamped_iff (p : SlotParams) (raw : Nat) :
    scaledClamped p raw = true ↔ scaledRaw p raw < 0 ∨ 65535 < scaledRaw p raw := by
  rw [scaledClamped, Bool.or_eq_true, decide_eq_true_iff, decide_eq_true_iff]
  rfl

/-- R40, R41: the jump hold takes a value near the slot's or near its candidate. -/
theorem accepts_iff (sl : Slot) (limit v : Nat) :
    sl.accepts limit v = true ↔
      limit = 0 ∨ sl.quality = .empty ∨ sl.value - v + (v - sl.value) ≤ limit
        ∨ ∃ c, sl.candidate = some c ∧ c - v + (v - c) ≤ limit := by
  have gap : ∀ a, valueGap v a = a - v + (v - a) := fun a => Nat.add_comm _ _
  cases held : sl.candidate <;> simp [Slot.accepts, held, gap, or_assoc]

/-- R39: the quality of a taken value, by the sensor quality and the clamped mark. -/
theorem qualityIfTaken_of_usable {sensor : Byte} (usable : sensor = 0 ∨ sensor = 1) (clamped : Bool) :
    qualityIfTaken sensor clamped = some (if sensor = 1 then .suspect else if clamped = true then .clamped else .good) := by
  obtain rfl | rfl := usable <;> rfl

/-- R39, R147: a sensor quality of BAD, and a code that is none of the three. -/
theorem qualityIfTaken_of_bad {sensor : Byte} (notGood : sensor ≠ 0) (notSuspect : sensor ≠ 1) (clamped : Bool) :
    qualityIfTaken sensor clamped = none := by
  rw [qualityIfTaken, if_neg notGood, if_neg notSuspect]

/-! ### One entry of a SAMPLE (R37 to R41) -/

/-- R37 to R41: an entry's value is taken into slot `n`. -/
def EntryAccepted (src : Byte) (e : SampleEntry) (s : State) (n : SlotNo) : Prop :=
  slotFor s.mgmt.active src e.channel = some n ∧ (e.quality = 0 ∨ e.quality = 1)
    ∧ (s.meas.slots.get n).accepts (s.mgmt.active.t7.get n).jumpLimit
        (scaledValue (s.mgmt.active.t7.get n) e.raw.toNat) = true

/-- The state with another record in slot `n`. -/
def setSlot (n : SlotNo) (sl : Slot) (s : State) : State := { s with meas := { s.meas with slots := s.meas.slots.set n sl } }

section
variable {src : Byte} {e : SampleEntry} {s : State} {touched : List SlotNo} {n : SlotNo}

theorem offerEntry_unfed (unfed : slotFor s.mgmt.active src e.channel = none) :
    offerEntry src (s, touched) e = (s, touched) := by
  simp only [offerEntry, unfed]

theorem offerEntry_bad (fed : slotFor s.mgmt.active src e.channel = some n) (notGood : e.quality ≠ 0)
    (notSuspect : e.quality ≠ 1) : offerEntry src (s, touched) e = (bump .badSamples s, touched) := by
  simp only [offerEntry, fed, qualityIfTaken_of_bad notGood notSuspect]

theorem offerEntry_accepted (h : EntryAccepted src e s n) :
    offerEntry src (s, touched) e
      = (setSlot n
          (Slot.taking (scaledValue (s.mgmt.active.t7.get n) e.raw.toNat)
            (if e.quality = 1 then .suspect
             else if scaledClamped (s.mgmt.active.t7.get n) e.raw.toNat = true then .clamped else .good)) s,
          n :: touched) := by
  obtain ⟨fed, usable, accepted⟩ := h
  simp only [offerEntry, fed, qualityIfTaken_of_usable usable, accepted, if_true]
  rfl

theorem offerEntry_held (fed : slotFor s.mgmt.active src e.channel = some n) (usable : e.quality = 0 ∨ e.quality = 1)
    (held : ¬ EntryAccepted src e s n) :
    offerEntry src (s, touched) e
      = (bump .jumpHolds
          (setSlot n { s.meas.slots.get n with candidate := some (scaledValue (s.mgmt.active.t7.get n) e.raw.toNat) } s),
          touched) := by
  have refused := fun accepted => held ⟨fed, usable, accepted⟩
  simp only [offerEntry, fed, qualityIfTaken_of_usable usable, if_neg refused]
  rfl

/-- What an entry can do, by its slot, its sensor quality and the jump hold. -/
theorem offerEntry_cases (src : Byte) (e : SampleEntry) (s : State) :
    slotFor s.mgmt.active src e.channel = none
      ∨ ∃ n, slotFor s.mgmt.active src e.channel = some n
          ∧ ((e.quality ≠ 0 ∧ e.quality ≠ 1) ∨ EntryAccepted src e s n
            ∨ ((e.quality = 0 ∨ e.quality = 1) ∧ ¬ EntryAccepted src e s n)) := by
  cases fed : slotFor s.mgmt.active src e.channel with
  | none => exact .inl rfl
  | some n =>
    refine .inr ⟨n, rfl, ?_⟩
    by_cases accepted : EntryAccepted src e s n
    · exact .inr (.inl accepted)
    · by_cases usable : e.quality = 0 ∨ e.quality = 1
      · exact .inr (.inr ⟨usable, accepted⟩)
      · exact .inl (not_or.1 usable)

theorem EntryAccepted.slot_eq {m : SlotNo} (h : EntryAccepted src e s m)
    (fed : slotFor s.mgmt.active src e.channel = some n) : m = n :=
  Option.some_injective _ (h.1.symm.trans fed)

/-- R46: an entry touches the slot that its value is taken into. -/
theorem mem_offerEntry (acc : State × List SlotNo) (m : SlotNo) :
    m ∈ (offerEntry src acc e).2 ↔ m ∈ acc.2 ∨ EntryAccepted src e acc.1 m := by
  obtain ⟨s, touched⟩ := acc
  obtain unfed | ⟨n, fed, ⟨notGood, notSuspect⟩ | accepted | ⟨usable, held⟩⟩ := offerEntry_cases src e s
  · have never : ¬ EntryAccepted src e s m := fun h => by simpa [unfed] using h.1
    simp [offerEntry_unfed unfed, never]
  · have never : ¬ EntryAccepted src e s m := fun h => h.2.1.elim notGood notSuspect
    simp [offerEntry_bad fed notGood notSuspect, never]
  · have only : EntryAccepted src e s m ↔ m = n := ⟨fun h => h.slot_eq fed, fun h => h ▸ accepted⟩
    simp [offerEntry_accepted accepted, only, or_comm]
  · have never : ¬ EntryAccepted src e s m := fun h => held (h.slot_eq fed ▸ h)
    simp [offerEntry_held fed usable held, never]

/-- An entry leaves the levels as they are. -/
theorem offerEntry_levels (acc : State × List SlotNo) :
    (offerEntry src acc e).1.meas.hw = acc.1.meas.hw ∧ (offerEntry src acc e).1.meas.tw = acc.1.meas.tw := by
  obtain ⟨s, touched⟩ := acc
  obtain unfed | ⟨n, fed, ⟨notGood, notSuspect⟩ | accepted | ⟨usable, held⟩⟩ := offerEntry_cases src e s
  · simp [offerEntry_unfed unfed]
  · simp [offerEntry_bad fed notGood notSuspect]
  · simp [offerEntry_accepted accepted, setSlot]
  · simp [offerEntry_held fed usable held, setSlot]

end

/-! ### The entries of a SAMPLE in order (R37) -/

theorem offerEntries_levels (src : Byte) (es : List SampleEntry) (acc : State × List SlotNo) :
    (es.foldl (offerEntry src) acc).1.meas.hw = acc.1.meas.hw ∧ (es.foldl (offerEntry src) acc).1.meas.tw = acc.1.meas.tw := by
  induction es generalizing acc with
  | nil => exact ⟨rfl, rfl⟩
  | cons e es ih => simp only [List.foldl_cons, ih, offerEntry_levels, and_self]

/-- The entries of a SAMPLE are offered in one set and at one mode record. -/
theorem offerEntries_frame (src : Byte) (es : List SampleEntry) (acc : State × List SlotNo) :
    (es.foldl (offerEntry src) acc).1.mode = acc.1.mode ∧ (es.foldl (offerEntry src) acc).1.mgmt = acc.1.mgmt := by
  obtain ⟨m, c, same⟩ := offerEntries_same src es acc
  simp [same]

/-- The places of an element in a list with one more at its end. -/
theorem exists_split_concat {α : Type} (l : List α) (a : α) (p : List α → α → Prop) :
    (∃ before x rest, l ++ [a] = before ++ x :: rest ∧ p before x)
      ↔ (∃ before x rest, l = before ++ x :: rest ∧ p before x) ∨ p l a := by
  constructor
  · rintro ⟨before, x, rest, split, hp⟩
    obtain rfl | ⟨rest, y, rfl⟩ := List.eq_nil_or_concat rest
    · obtain ⟨rfl, h⟩ := List.append_inj' split rfl
      obtain rfl := List.singleton_inj.1 h
      exact .inr hp
    · rw [List.concat_eq_append, ← List.cons_append, ← List.append_assoc] at split
      exact .inl ⟨before, x, rest, (List.append_inj' split rfl).1, hp⟩
  · rintro (⟨before, x, rest, rfl, hp⟩ | hp)
    · exact ⟨before, x, rest ++ [a], by simp, hp⟩
    · exact ⟨l, a, [], rfl, hp⟩

/-- R46: the slots that a SAMPLE touches are those into which one of its entries was taken, as the entries before it left the
slots. -/
theorem mem_offerEntries (src : Byte) (es : List SampleEntry) (s : State) (n : SlotNo) :
    n ∈ (es.foldl (offerEntry src) (s, [])).2 ↔
      ∃ before e rest, es = before ++ e :: rest ∧ EntryAccepted src e (before.foldl (offerEntry src) (s, [])).1 n := by
  induction es using List.reverseRecOn with
  | nil => simp
  | append_singleton es e ih =>
    rw [List.foldl_append, List.foldl_cons, List.foldl_nil, mem_offerEntry, ih,
      exists_split_concat es e fun before e => EntryAccepted src e (before.foldl (offerEntry src) (s, [])).1 n]

/-! ### The vote of a group (R47, R48) -/

/-- R47: the median is one of the three, with two of them at or below it and two at or above. -/
theorem median3_spec (a b c : Nat) :
    (median3 a b c = a ∨ median3 a b c = b ∨ median3 a b c = c)
      ∧ 2 ≤ ([a, b, c].filter fun x => decide (x ≤ median3 a b c)).length
      ∧ 2 ≤ ([a, b, c].filter fun x => decide (median3 a b c ≤ x)).length := by
  have count : ∀ p : Nat → Prop, ∀ [DecidablePred p], ([a, b, c].filter fun x => decide (p x)).length
      = (if p a then 1 else 0) + (if p b then 1 else 0) + (if p c then 1 else 0) := fun p _ => by
    by_cases p a <;> by_cases p b <;> by_cases p c <;> simp [*]
  rw [count, count, median3]
  refine ⟨by omega, ?_, ?_⟩ <;> split_ifs <;> omega

/-- R47: the order of the fresh values plays no part. -/
theorem voteOf_perm (p : Level) {l l' : List Nat} (perm : l.Perm l') (few : l.length ≤ 3) : voteOf p l = voteOf p l' := by
  have listed := List.mem_permutations'.2 perm.symm
  match l with
  | [] => rw [perm.nil_eq]
  | [a] => rw [List.perm_singleton.1 perm.symm]
  | [a, b] =>
    simp only [List.permutations', List.permutations'Aux, List.flatMap_cons, List.flatMap_nil, List.map_cons, List.map_nil,
      List.append_nil, List.mem_cons, List.not_mem_nil, or_false] at listed
    obtain rfl | rfl := listed <;> simp [voteOf, Nat.add_comm]
  | [a, b, c] =>
    simp only [List.permutations', List.permutations'Aux, List.flatMap_cons, List.flatMap_nil, List.map_cons, List.map_nil,
      List.append_nil, List.cons_append, List.nil_append, List.mem_cons, List.not_mem_nil, or_false] at listed
    obtain rfl | rfl | rfl | rfl | rfl | rfl := listed <;> simp only [voteOf, median3, Level.mk.injEq, and_true] <;> omega
  | a :: b :: c :: d :: rest => exact absurd few (by simp)

/-- R36, R47: the fresh values of a group are those of its slots in GOOD or CLAMPED. -/
theorem freshValues_eq (slots : Tab Slot 32) (group : List SlotNo) :
    freshValues slots group
      = (((group.map slots.get).filter fun sl => decide (sl.quality = .good ∨ sl.quality = .clamped)).map (·.value)) := by
  have fresh : (fun sl : Slot => sl.quality.fresh) = fun sl => decide (sl.quality = .good ∨ sl.quality = .clamped) :=
    funext fun sl => by rw [Bool.eq_iff_iff, fresh_iff, decide_eq_true_iff]
  rw [freshValues, fresh]

/-- R45: a group names one slot for each role that names one. -/
theorem groups_eq (r : LevelRoles) :
    r.headwater = r.hw1.toList ++ r.hw2.toList ++ r.hw3.toList ∧ r.tailwater = r.tw1.toList ++ r.tw2.toList := by
  have role : ∀ (o : Option SlotNo) (l : List (Option SlotNo)), (o :: l).filterMap id = o.toList ++ l.filterMap id :=
    fun o l => by cases o <;> rfl
  simp only [LevelRoles.headwater, LevelRoles.tailwater, role, List.filterMap_nil, List.append_nil, List.append_assoc, and_self]

/-! ### The votes of an event (R46, R49, R50) -/

section
variable {hwGroup twGroup : Bool} {s : State}

/-- R49: HEAD_STALE is raised at a vote that leaves a level held. -/
theorem formVotes_headStale
    (held : (formVotes hwGroup twGroup s).meas.hw.fresh = false ∨ (formVotes hwGroup twGroup s).meas.tw.fresh = false) :
    flagIn .headStale (formVotes hwGroup twGroup s).report.flags = true := by
  simp only [formVotes_meas] at held
  simp only [formVotes, flagIn_raiseIf]
  obtain held | held := held <;> simp [held]

/-- R50: a headwater vote that leaves HW fresh hands it to the Mode Supervisor. -/
theorem vote_hands (fresh : (formVotes true twGroup s).meas.hw.fresh = true) :
    vote true twGroup s = evaluateStage (formVotes true twGroup s).meas.hw.value (formVotes true twGroup s) := by
  simp [vote, fresh]

/-- R50: no other vote hands a level to the Mode Supervisor. -/
theorem vote_hands_nothing (voted : hwGroup = true ∨ twGroup = true)
    (idle : hwGroup = false ∨ (formVotes hwGroup twGroup s).meas.hw.fresh = false) :
    vote hwGroup twGroup s = formVotes hwGroup twGroup s := by
  have group : (hwGroup || twGroup) = true := by simpa using voted
  have nothing : (hwGroup && (formVotes hwGroup twGroup s).meas.hw.fresh) = false := by simpa [or_iff_not_imp_left] using idle
  simp [vote, group, nothing]

theorem vote_no_group : vote false false s = s := rfl

end

/-- R46: the groups voted are those that name one of the touched slots. -/
theorem voteTouched_eq (touched : List SlotNo) (s : State) :
    voteTouched touched s
      = vote (decide (∃ n ∈ s.mgmt.active.t8.headwater, n ∈ touched)) (decide (∃ n ∈ s.mgmt.active.t8.tailwater, n ∈ touched))
          s := by
  have named : ∀ group : List SlotNo, (group.any fun n => decide (n ∈ touched)) = decide (∃ n ∈ group, n ∈ touched) :=
    fun group => by rw [Bool.eq_iff_iff, List.any_eq_true]; simp only [decide_eq_true_eq]
  simp only [voteTouched, named]

/-- Settles O23: a level by `voteOf` and `freshValues_eq`, an event's votes by `voteTouched_eq`, `vote_hands` and
`vote_hands_nothing`, the slots that a SAMPLE touches by `mem_offerEntries`. -/
theorem voteRules : Obligations.VoteRules := by
  unfold Obligations.VoteRules
  refine ⟨slotFor_eq_some_iff, accepts_iff, scaledValue_eq, fun _ => rfl, fun _ _ => rfl, fun _ _ _ => rfl,
    fun p a b c => ⟨_, rfl, median3_spec a b c⟩, fun p l l' => voteOf_perm p, freshValues_eq, groups_eq,
    fun hwGroup twGroup s => ?_, fun touched s => ?_, fun src entries s => ?_⟩
  · refine ⟨?_, ?_, ?_, fun h => ?_, fun h => ?_, fun h => ?_, fun h => ?_, formVotes_headStale, by simp⟩
    all_goals simp only [formVotes_meas, headOf, Bool.and_eq_true]
    · omega
    all_goals simp [h]
  · intro t roles hwGroup twGroup u
    have voted : t = vote hwGroup twGroup s := voteTouched_eq touched s
    clear_value hwGroup twGroup
    refine ⟨fun hw tw => ?_, fun either => ?_, fun hw fresh => ?_, fun tw idle => ?_, fun hw held => ?_⟩
    · rw [voted, hw, tw, vote_no_group]
    · rw [voted, vote_meas, if_pos (by simpa using either)]
    · subst hw
      exact voted.trans (vote_hands fresh)
    · exact voted.trans (vote_hands_nothing (.inr tw) idle)
    · exact voted.trans (vote_hands_nothing (.inl hw) (.inr held))
  · intro offered
    obtain ⟨hw, tw⟩ := offerEntries_levels src entries (s, [])
    have frame := fun es => offerEntries_frame src es (s, [])
    refine ⟨(entries.foldl (offerEntry src) (s, [])).2, rfl, hw, tw, (frame entries).1, fun n => ?_⟩
    simp only [mem_offerEntries, EntryAccepted, (frame _).2, offered]

/-! ### A SAMPLE of one entry (R37 to R41, R46) -/

section
variable {src : Byte} {e : SampleEntry} {s : State} {n : SlotNo}

theorem takeSample_one (src : Byte) (e : SampleEntry) (s : State) :
    takeSample src [e] s = voteTouched (offerEntry src (s, []) e).2 (offerEntry src (s, []) e).1 := rfl

theorem takeSample_unfed (unfed : slotFor s.mgmt.active src e.channel = none) : takeSample src [e] s = s := by
  rw [takeSample_one, offerEntry_unfed unfed, voteTouched_nil]

theorem takeSample_bad (fed : slotFor s.mgmt.active src e.channel = some n) (notGood : e.quality ≠ 0)
    (notSuspect : e.quality ≠ 1) : takeSample src [e] s = bump .badSamples s := by
  rw [takeSample_one, offerEntry_bad fed notGood notSuspect, voteTouched_nil]

theorem takeSample_accepted (h : EntryAccepted src e s n) :
    takeSample src [e] s
      = voteTouched [n]
          (setSlot n
            (Slot.taking (scaledValue (s.mgmt.active.t7.get n) e.raw.toNat)
              (if e.quality = 1 then .suspect
               else if scaledClamped (s.mgmt.active.t7.get n) e.raw.toNat = true then .clamped else .good)) s) := by
  rw [takeSample_one, offerEntry_accepted h]

theorem takeSample_held (fed : slotFor s.mgmt.active src e.channel = some n) (usable : e.quality = 0 ∨ e.quality = 1)
    (held : ¬ EntryAccepted src e s n) :
    takeSample src [e] s
      = bump .jumpHolds
          (setSlot n { s.meas.slots.get n with candidate := some (scaledValue (s.mgmt.active.t7.get n) e.raw.toNat) } s) := by
  rw [takeSample_one, offerEntry_held fed usable held, voteTouched_nil]

/-- An entry leaves every slot but its own as it is. -/
theorem takeSample_other (fed : slotFor s.mgmt.active src e.channel = some n) {m : SlotNo} (other : m ≠ n) :
    (takeSample src [e] s).meas.slots.get m = s.meas.slots.get m := by
  obtain unfed | ⟨k, fed', ⟨notGood, notSuspect⟩ | accepted | ⟨usable, held⟩⟩ := offerEntry_cases src e s
  · rw [takeSample_unfed unfed]
  · simp only [takeSample_bad fed notGood notSuspect, bump_same]
  · obtain rfl := accepted.slot_eq fed
    rw [takeSample_accepted accepted, voteTouched_slots]
    exact Tab.get_set_ne _ _ other
  · obtain rfl := Option.some_injective _ (fed'.symm.trans fed)
    simp only [takeSample_held fed usable held, bump_same]
    exact Tab.get_set_ne _ _ other

end

/-- Settles O22: by the case of the entry (`offerEntry_cases`), with the jump hold's test by `accepts_iff`. -/
theorem sampleEntryTaking : Obligations.SampleEntryTaking := by
  unfold Obligations.SampleEntryTaking
  refine ⟨slotFor_eq_some_iff, fun src e s => ⟨takeSample_unfed, fun n fed => ?_⟩⟩
  intro p sl eng v q near
  have value : scaledValue p e.raw.toNat = v := by
    have scaled := scaledValue_eq p e.raw.toNat
    omega
  have quality : (if e.quality = 1 then .suspect
      else if scaledClamped p e.raw.toNat = true then .clamped else .good : Quality) = q :=
    if_congr Iff.rfl rfl (if_congr (scaledClamped_iff p e.raw.toNat) rfl rfl)
  have accepted_iff : EntryAccepted src e s n ↔ (e.quality = 0 ∨ e.quality = 1)
      ∧ (p.jumpLimit = 0 ∨ sl.quality = .empty ∨ near sl.value ∨ ∃ c, sl.candidate = some c ∧ near c) := by
    rw [EntryAccepted, accepts_iff, value]
    exact and_iff_right fed
  refine ⟨fun m => takeSample_other fed, takeSample_bad fed, fun usable => ⟨fun test => ?_, fun limit filled far farther => ?_⟩⟩
  · have taken := takeSample_accepted (accepted_iff.2 ⟨usable, test⟩)
    rw [value, quality] at taken
    refine ⟨?_, taken⟩
    rw [taken, voteTouched_slots]
    exact Tab.get_set_self _ _ _
  · have held : ¬ EntryAccepted src e s n := by
      rw [accepted_iff]
      rintro ⟨-, free | empty | close | ⟨c, candidate, close⟩⟩
      · exact limit free
      · exact filled empty
      · exact far close
      · exact farther c candidate close
    rw [takeSample_held fed usable held, value]
    rfl

end Sys2Proof.Machine

/-! The staleness evaluation (R42, R46): which slots it turns STALE, and the vote that follows. -/

namespace Sys2Proof.Machine

/-! ### A vote does not look at the mark of the staleness evaluation (log entry 4) -/

/-- The state with the mark of the staleness evaluation set so. -/
def markStale (due : Bool) (s : State) : State := { s with clock := { s.clock with staleDue := due } }

section
variable (due : Bool) (s : State)

theorem raise_markStale (f : Flag) : raise f (markStale due s) = markStale due (raise f s) := by
  unfold raise markStale
  dsimp only
  repeat' split
  all_goals rfl

theorem raiseIf_markStale (c : Bool) (f : Flag) : raiseIf c f (markStale due s) = markStale due (raiseIf c f s) := by
  cases c
  · rfl
  · exact raise_markStale due s f

theorem recomputeMode_markStale : recomputeMode (markStale due s) = markStale due (recomputeMode s) := by
  by_cases initial : s.mode.effective = .initial
  · rw [recomputeMode, recomputeMode, if_pos initial, if_pos (show (markStale due s).mode.effective = _ from initial)]
  · rw [recomputeMode, recomputeMode, if_neg initial, if_neg (show ¬ (markStale due s).mode.effective = _ from initial)]
    exact raiseIf_markStale due { s with mode := { s.mode with effective := effectiveMode s.mode.requested s.mode.stage } } _ _

/-- R120, R121: a change of the stage, which raises a flag and recomputes the mode. -/
theorem stageChange_markStale (f : Flag) (m : ModeRecord) :
    recomputeMode (raise f { markStale due s with mode := m })
      = markStale due (recomputeMode (raise f { s with mode := m })) := by
  rw [← recomputeMode_markStale, ← raise_markStale]
  rfl

theorem fallTest_markStale (hw : Nat) : fallTest hw (markStale due s) = markStale due (fallTest hw s) := by
  have falls : fallStage hw (markStale due s) = markStale due (fallStage hw s) := stageChange_markStale due s _ _
  unfold fallTest
  rw [falls]
  by_cases normal : s.mode.stage = .normal
  · simp [normal, markStale]
  by_cases low : belowFall s.mgmt.active.t10 hw s.mode.stage = true
  · cases dwell : s.mode.dwellStart with
    | none => simp [normal, low, dwell, markStale]
    | some d => by_cases waited : s.mgmt.active.t10.fallDwell ≤ s.clock.ssc - d <;> simp [normal, low, dwell, waited, markStale]
  · simp [normal, low, markStale]

theorem evaluateStage_markStale (hw : Nat) : evaluateStage hw (markStale due s) = markStale due (evaluateStage hw s) :=
  (ite_congr rfl (fun _ => stageChange_markStale due s _ _) fun _ => fallTest_markStale due s hw).trans
    (apply_ite (markStale due) _ _ _).symm

theorem formVotes_markStale (a b : Bool) : formVotes a b (markStale due s) = markStale due (formVotes a b s) := by
  unfold formVotes
  exact raiseIf_markStale due { s with meas := _ } _ _

theorem vote_markStale (a b : Bool) : vote a b (markStale due s) = markStale due (vote a b s) := by
  unfold vote
  dsimp only
  rw [formVotes_markStale, evaluateStage_markStale]
  simp only [apply_ite (markStale due)]
  rfl

theorem voteTouched_markStale (touched : List SlotNo) :
    voteTouched touched (markStale due s) = markStale due (voteTouched touched s) :=
  vote_markStale due s _ _

end

/-- R46: what matters of the touched slots is which they are. -/
theorem voteTouched_congr {l l' : List SlotNo} (same : ∀ n, n ∈ l ↔ n ∈ l') (s : State) :
    voteTouched l s = voteTouched l' s := by
  simp only [voteTouched_eq, same]

/-! ### The slots that turn STALE (R42) -/

/-- R42: a slot that is neither EMPTY nor STALE and whose age exceeds its limit. -/
def OverAge (s : State) (n : SlotNo) : Prop :=
  (s.meas.slots.get n).quality ≠ .empty ∧ (s.meas.slots.get n).quality ≠ .stale
    ∧ (s.mgmt.active.t7.get n).staleLimit < (s.meas.slots.get n).age

section
variable {s : State}

theorem goesStale_iff (n : SlotNo) :
    (s.meas.slots.get n).goesStale (s.mgmt.active.t7.get n).staleLimit = true ↔ OverAge s n := by
  unfold Slot.goesStale OverAge
  cases (s.meas.slots.get n).quality <;> simp

/-- R42: the slots after the staleness evaluation. -/
def staledSlots (s : State) : Tab Slot 32 :=
  Tab.ofFn fun n =>
    if (s.meas.slots.get n).goesStale (s.mgmt.active.t7.get n).staleLimit then
      { s.meas.slots.get n with quality := .stale }
    else s.meas.slots.get n

/-- R42, R46: the staleness evaluation, by the slots it turns STALE. -/
theorem evaluateStale_eq {touched : List SlotNo} (gone : ∀ n, n ∈ touched ↔ OverAge s n) :
    evaluateStale s = voteTouched touched { s with meas := { s.meas with slots := staledSlots s } } :=
  voteTouched_congr (fun n => by simp [gone, goesStale_iff]) _

theorem staledSlots_none (inLimits : ∀ n, ¬ OverAge s n) : staledSlots s = s.meas.slots :=
  Tab.ext_get fun n => by simp [staledSlots, goesStale_iff, inLimits]

/-- R42: with no slot over its age the evaluation does nothing. -/
theorem evaluateStale_none (inLimits : ∀ n, ¬ OverAge s n) : evaluateStale s = s := by
  rw [evaluateStale_eq (touched := []) (by simpa using inLimits), voteTouched_nil, staledSlots_none inLimits]

theorem evaluateStale_slots (s : State) : (evaluateStale s).meas.slots = staledSlots s := voteTouched_slots _ _

end

/-- Settles O8: the slots by `evaluateStale_slots`, the vote by `evaluateStale_eq`, and the frame by `closeEvent_same`. -/
theorem slotStaleEffect : Obligations.SlotStaleEffect := by
  unfold Obligations.SlotStaleEffect
  intro s awake due
  refine ⟨closeEvent (evaluateStale (markStale false s)), (exec_slotStale awake).trans (congrArg _ (staleWork_due due)), ?_⟩
  have slots : (closeEvent (evaluateStale (markStale false s))).meas.slots = staledSlots s := by
    simp only [closeEvent_same]
    exact evaluateStale_slots _
  rw [slots]
  refine ⟨by simp [markStale], fun n => ?_, fun touched gone => ?_, by simp [markStale], by simp [markStale],
    by simp [markStale], by simp [markStale], by simp [markStale], by simp [markStale], fun within quiet => ?_⟩
  · exact (Tab.get_ofFn _ n).trans (if_congr (goesStale_iff n) rfl rfl)
  · intro u
    have voted : evaluateStale (markStale false s) = markStale false u :=
      (evaluateStale_eq (s := markStale false s) gone).trans 
        (voteTouched_markStale false { s with meas := { s.meas with slots := staledSlots s } } touched)
    rw [voted]
    simp [markStale]
  · have inLimits : ∀ n, ¬ OverAge (markStale false s) n := fun n ⟨filled, fresh, old⟩ =>
      (within n).elim filled fun h => h.elim fresh fun age => absurd old (Nat.not_lt.2 age)
    rw [evaluateStale_none inLimits]
    exact closeEvent_quiet quiet

end Sys2Proof.Machine

/-! The snapshot of a cadence expiry (R51, R56, R93, R94, R102, R106): the local inflow and the anticipated inflow that it shows,
and when the expiry raises INFLOW_STALE. -/

namespace Sys2Proof.Machine

/-! ### INFLOW_STALE is raised by the Reach Unit alone (R94) -/

@[simp] theorem inflowStale_recomputeMode (s : State) :
    flagIn .inflowStale (recomputeMode s).report.flags = flagIn .inflowStale s.report.flags := by
  unfold recomputeMode
  split <;> simp [flagIn_raiseIf]

@[simp] theorem inflowStale_evaluateStage (hw : Nat) (s : State) :
    flagIn .inflowStale (evaluateStage hw s).report.flags = flagIn .inflowStale s.report.flags := by
  unfold evaluateStage fallTest fallStage
  dsimp only
  repeat' split
  all_goals simp [flagIn_raise]

@[simp] theorem inflowStale_vote (a b : Bool) (s : State) :
    flagIn .inflowStale (vote a b s).report.flags = flagIn .inflowStale s.report.flags := by
  have formed : flagIn .inflowStale (formVotes a b s).report.flags = flagIn .inflowStale s.report.flags := by
    simp [formVotes, flagIn_raiseIf]
  unfold vote
  dsimp only
  repeat' split
  all_goals simp [formed]

@[simp] theorem inflowStale_setSwitch (s : State) :
    flagIn .inflowStale (setSwitch s).report.flags = flagIn .inflowStale s.report.flags := by
  have voted : flagIn .inflowStale (switchSlots s.mgmt.active (switchOrders s.mgmt.active
      (switchGates s.mgmt.active (raise .setSwitched (switchSets s))))).report.flags = flagIn .inflowStale s.report.flags := by
    simp [switchSlots, flagIn_raise]
  unfold setSwitch switchMode
  dsimp only
  split <;> simp [flagIn_raise, voted]

@[simp] theorem inflowStale_switched (s : State) :
    flagIn .inflowStale (switched s).report.flags = flagIn .inflowStale s.report.flags := by
  unfold switched takePendingSwitch
  split <;> simp

@[simp] theorem inflowStale_gateExpiry (s : State) :
    flagIn .inflowStale (gateExpiry s).report.flags = flagIn .inflowStale s.report.flags := by
  unfold gateExpiry raiseGateFlags trackGates
  dsimp only
  split <;> simp [flagIn_raiseIf]

@[simp] theorem inflowStale_modeExpiry (s : State) :
    flagIn .inflowStale (modeExpiry s).report.flags = flagIn .inflowStale s.report.flags := by
  unfold modeExpiry
  dsimp only
  split <;> simp [flagIn_raiseIf]

/-- R51: the local inflow reads the slots and the roles alone. -/
theorem localInflow_congr {s u : State} (roles : u.mgmt.active.t8 = s.mgmt.active.t8) (slots : u.meas.slots = s.meas.slots) :
    u.localInflow = s.localInflow := by
  rw [State.localInflow, State.localInflow, roles, slots]

/-- R94: an expiry raises INFLOW_STALE exactly when the local inflow that it leaves is not fresh. -/
theorem inflowStale_expiryWork (s : State) :
    flagIn .inflowStale (expiryWork s).report.flags
      = (flagIn .inflowStale s.report.flags || !(expiryWork s).localInflow.fresh) := by
  have read : (measurementExpiry (gateExpiry (timerExpiry (switched s)))).localInflow = (expiryWork s).localInflow :=
    localInflow_congr (by simp [expiryWork, switched]) (by simp [expiryWork, switched])
  have before : flagIn .inflowStale (measurementExpiry (gateExpiry (timerExpiry (switched s)))).report.flags
      = flagIn .inflowStale s.report.flags := by
    simp [measurementExpiry, timerExpiry, flagIn_raiseIf]
  change flagIn .inflowStale (modeExpiry (reachExpiry (measurementExpiry (gateExpiry (timerExpiry (switched s)))))).report.flags
    = _
  rw [inflowStale_modeExpiry, reachExpiry, flagIn_raiseIf, read, before]
  simp

/-! ### What the snapshot shows (R51, R93, R102, R106) -/

theorem localInflow_unnamed {s : State} (unnamed : s.mgmt.active.t8.inflow = none) : s.localInflow = ⟨0, true⟩ := by
  rw [State.localInflow, unnamed]

theorem localInflow_named {s : State} {n : SlotNo} (named : s.mgmt.active.t8.inflow = some n) :
    s.localInflow = ⟨(s.meas.slots.get n).value, (s.meas.slots.get n).quality.fresh⟩ := by
  rw [State.localInflow, named]

/-- R93: the anticipated inflow over the records in use, at the end of the lookahead. -/
theorem anticipatedInflow_eq (s : State) :
    anticipatedInflow s
      = min ((∑ n : OriginNo,
          if (s.mgmt.active.t9.get n).inUse = true then
            inflowAt s.reach (secondsAfter s.clock.ssc s.mgmt.active.t10.lookahead) n
          else 0) + s.localInflow.value) plantMax := by
  rw [Fin.sum_univ_def]
  rfl

theorem timerExpiry_schedule (s : State) :
    (timerExpiry s).timer.schedule = secondsAfter s.clock.ssc s.mgmt.active.t10.cadenceLength := by
  simp [timerExpiry]

/-- R102: the schedule that an expiry sets, by the cadence length of the set then active. -/
theorem expiryWork_schedule (s : State) :
    (expiryWork s).timer.schedule = secondsAfter s.clock.ssc (expiryWork s).mgmt.active.t10.cadenceLength := by
  obtain ⟨mgmt, -, -, -, timer, -⟩ := expiryWork_fields s
  rw [timer, timerExpiry_schedule, mgmt, (switched_same s).2.2.1]

/-- Settles O10: the snapshot is that of the state the expiry's work leaves (`exec_cadenceExpiry`), its schedule is set by
`expiryWork_schedule`, its Q_A is `anticipatedInflow_eq`, and INFLOW_STALE goes by `inflowStale_expiryWork`. -/
theorem expiryBeginsComputation : Obligations.ExpiryBeginsComputation := by
  unfold Obligations.ExpiryBeginsComputation
  intro s awake settled due idle
  refine ⟨_, snapshotOf (expiryWork s), exec_cadenceExpiry awake settled due idle, ?_⟩
  obtain ⟨-, engine, clock, -⟩ := expiryWork_same s
  have stale := inflowStale_expiryWork s
  have inflow := anticipatedInflow_eq (expiryWork s)
  have schedule := expiryWork_schedule s
  rw [clock] at inflow
  simp only [closeEvent_same, beginComputation_mgmt, beginComputation_gates, beginComputation_meas, beginComputation_engine,
    beginComputation_reach, beginComputation_timer, beginComputation_mode, beginComputation_report, beginComputation_clock]
  generalize expiryWork s = w at *
  refine ⟨by rw [engine], clock, schedule, rfl, rfl, rfl, rfl, rfl, rfl, rfl, rfl, rfl, rfl, rfl, rfl, rfl,
    fun empty => if_pos empty, fun filled => if_neg filled, inflow, localInflow_unnamed, fun n named => ?_, fun held => ?_,
    fun fresh => ?_, ?_, ?_⟩
  · have reading : (snapshotOf w).localInflow = _ := localInflow_named named
    rw [reading]
    exact ⟨rfl, fresh_iff _⟩
  · rw [stale, show w.localInflow.fresh = false from held]
    simp
  · rw [stale, show w.localInflow.fresh = true from fresh]
    simp
  · exact congrArg (·.results.qTPrev) engine
  · exact congrArg (·.results.frozen) engine

end Sys2Proof.Machine

/-! The water-filling of a SCHEDULE or PASS_THROUGH computation (R69 to R72): what reaches each tier, that every ACTIVE listed gate has
the allotment its tier gives it, and that allotments and remainder make up Q_R2. -/

namespace Sys2Proof.Machine

/-! ### The allotment of a gate in a list of allotments -/

section
variable {given : List (GateNo × Nat)} {g : GateNo} {a : Nat}

theorem allotmentIn_cons (h : GateNo) : allotmentIn ((h, a) :: given) g = if g = h then a else allotmentIn given g := by
  by_cases same : g = h
  · simp [allotmentIn, same]
  · simp [allotmentIn, same, Ne.symm same]

theorem allotmentIn_of_not_mem (h : g ∉ given.map (·.1)) : allotmentIn given g = 0 := by
  have absent : given.find? (fun p => decide (p.1 = g)) = none :=
    List.find?_eq_none.2 fun p hp => by
      rw [decide_eq_true_iff]
      exact fun same => h (List.mem_map.2 ⟨p, hp, same⟩)
  rw [allotmentIn, absent]

theorem allotmentIn_of_mem (once : (given.map (·.1)).Nodup) (h : (g, a) ∈ given) : allotmentIn given g = a := by
  unfold allotmentIn
  split
  next p found =>
    have gate : p.1 = g := by simpa using List.find?_some found
    exact congrArg Prod.snd (List.inj_on_of_nodup_map once (List.mem_of_find?_eq_some found) h gate)
  next missing => exact absurd (List.find?_eq_none.1 missing _ h) (by simp)

/-- With one allotment per gate, the allotments of the gates sum to those given. -/
theorem sumGates_allotmentIn (once : (given.map (·.1)).Nodup) : sumGates (allotmentIn given) = (given.map (·.2)).sum := by
  have total : ∀ f : GateNo → Nat, sumGates f = ∑ g : GateNo, f g := fun f => (Fin.sum_univ_def f).symm
  rw [total]
  induction given with
  | nil => exact Finset.sum_eq_zero fun _ _ => rfl
  | cons p rest ih =>
    obtain ⟨h, a⟩ := p
    obtain ⟨fresh, once⟩ := List.nodup_cons.1 once
    have split : ∀ g, allotmentIn ((h, a) :: rest) g = (if g = h then a else 0) + allotmentIn rest g := fun g => by
      rw [allotmentIn_cons]
      by_cases same : g = h
      · simp [same, allotmentIn_of_not_mem fresh]
      · simp [same]
    simp [split, Finset.sum_add_distrib, ih once]

end

section
variable {sn : Snapshot}

/-! ### The gates of a tier (R70) -/

theorem tierGates_gate (t : Fin 8) :
    (sn.tierGates t).map (·.gate) = (sn.govSet.t2.filter fun p => decide (p.tier = t) && sn.active p.gate).map (·.gate) :=
  List.map_map ..

theorem mem_tierGates_gate {t : Fin 8} {g : GateNo} :
    g ∈ (sn.tierGates t).map (·.gate) ↔ ∃ p ∈ sn.govSet.t2, p.tier = t ∧ (sn.gates.get g).state = .active ∧ p.gate = g := by
  simp only [tierGates_gate, List.mem_map, List.mem_filter, Bool.and_eq_true, decide_eq_true_iff, sn.active_iff]
  constructor
  · rintro ⟨p, ⟨listed, tier, active⟩, rfl⟩
    exact ⟨p, listed, tier, active, rfl⟩
  · rintro ⟨p, listed, tier, active, rfl⟩
    exact ⟨p, ⟨listed, tier, active⟩, rfl⟩

theorem mem_tierGates {p : AllocPair} (listed : p ∈ sn.govSet.t2) (active : (sn.gates.get p.gate).state = .active) :
    ⟨p.gate, sn.headroom p.gate⟩ ∈ sn.tierGates p.tier :=
  List.mem_map.2 ⟨p, List.mem_filter.2 ⟨listed, by simpa [sn.active_iff] using active⟩, rfl⟩

theorem headroom_of_mem_tierGates {t : Fin 8} {x : Share} (h : x ∈ sn.tierGates t) : x.headroom = sn.headroom x.gate := by
  obtain ⟨p, -, rfl⟩ := List.mem_map.1 h
  rfl

theorem tierGates_nodup (once : (sn.govSet.t2.map (·.gate)).Nodup) (t : Fin 8) : ((sn.tierGates t).map (·.gate)).Nodup := by
  rw [tierGates_gate]
  exact once.sublist (List.filter_sublist.map _)

/-- Two ACTIVE gates of one tier stand in the tier in the order of the list. -/
theorem tierGates_sublist {i j : Nat} {p p' : AllocPair} (hi : sn.govSet.t2[i]? = some p) (hj : sn.govSet.t2[j]? = some p')
    (order : i < j) (tier : p.tier = p'.tier) (active : (sn.gates.get p.gate).state = .active)
    (active' : (sn.gates.get p'.gate).state = .active) :
    [⟨p.gate, sn.headroom p.gate⟩, ⟨p'.gate, sn.headroom p'.gate⟩].Sublist (sn.tierGates p.tier) := by
  obtain ⟨below, rfl⟩ := List.getElem?_eq_some_iff.1 hi
  obtain ⟨below', rfl⟩ := List.getElem?_eq_some_iff.1 hj
  have listed : [sn.govSet.t2[i], sn.govSet.t2[j]].Sublist sn.govSet.t2 :=
    List.map_getElem_sublist (is := [⟨i, below⟩, ⟨j, below'⟩]) (by simpa using order)
  have kept := (listed.filter fun q => decide (q.tier = sn.govSet.t2[i].tier) && sn.active q.gate).map
    fun q => (⟨q.gate, sn.headroom q.gate⟩ : Share)
  simpa [Snapshot.tierGates, sn.active_iff, active, active', ← tier] using kept

/-! ### What reaches a tier (R70) -/

/-- The headrooms of the gates of some tiers. -/
def Snapshot.room (sn : Snapshot) (tiers : List (Fin 8)) : Nat := (tiers.map fun t => headroomSum (sn.tierGates t)).sum

theorem room_append (tiers more : List (Fin 8)) : sn.room (tiers ++ more) = sn.room tiers + sn.room more := by
  simp [Snapshot.room]

theorem fillTiers_remainder (tiers : List (Fin 8)) (amount : Nat) : (fillTiers sn tiers amount).1 = amount - sn.room tiers := by
  induction tiers generalizing amount with
  | nil => rfl
  | cons t rest ih =>
    have next : (fillTiers sn (t :: rest) amount).1 = _ := ih _
    have room : sn.room (t :: rest) = headroomSum (sn.tierGates t) + sn.room rest := List.sum_cons
    omega

theorem fillTiers_append (tiers more : List (Fin 8)) (amount : Nat) :
    (fillTiers sn (tiers ++ more) amount).2 = (fillTiers sn tiers amount).2 ++ (fillTiers sn more (amount - sn.room tiers)).2 := by
  induction tiers generalizing amount with
  | nil => rfl
  | cons t rest ih =>
    have room : sn.room (t :: rest) = headroomSum (sn.tierGates t) + sn.room rest := List.sum_cons
    have left : amount - min amount (headroomSum (sn.tierGates t)) - sn.room rest = amount - sn.room (t :: rest) := by omega
    have next := ih (amount - min amount (headroomSum (sn.tierGates t)))
    rw [left] at next
    exact (congrArg (fillTier (sn.tierGates t) amount ++ ·) next).trans (List.append_assoc ..).symm

/-- R71: what the filling of a tier gives, `fillPasses_spec` at the tier's amount. -/
theorem fillTier_spec (u : List Share) (amount : Nat) :
    ((fillTier u amount).map (·.2)).sum = min amount (headroomSum u)
      ∧ ((fillTier u amount).map (·.1)).Perm (u.map (·.gate))
      ∧ (headroomSum u ≤ amount → ∀ p ∈ fillTier u amount, ∃ x ∈ u, p.1 = x.gate ∧ p.2 = x.headroom) := by
  obtain ⟨sum, -, gates, full⟩ := fillPasses_spec (u.length + 1) u _ (min_le_right amount _) (Nat.lt_succ_self _)
  exact ⟨sum, gates, fun enough => full (min_eq_right enough)⟩

/-- R70 to R72: every unit goes to a gate or into the remainder. -/
theorem fillTiers_conserves (tiers : List (Fin 8)) (amount : Nat) :
    ((fillTiers sn tiers amount).2.map (·.2)).sum + (fillTiers sn tiers amount).1 = amount := by
  induction tiers generalizing amount with
  | nil => exact Nat.zero_add _
  | cons t rest ih =>
    have here := (fillTier_spec (sn.tierGates t) amount).1
    have later := ih (amount - min amount (headroomSum (sn.tierGates t)))
    simp only [fillTiers, List.map_append, List.sum_append]
    omega

/-- Every gate of the tiers has one allotment, and no other gate has any. -/
theorem fillTiers_gates (tiers : List (Fin 8)) (amount : Nat) :
    ((fillTiers sn tiers amount).2.map (·.1)).Perm (tiers.flatMap fun t => (sn.tierGates t).map (·.gate)) := by
  induction tiers generalizing amount with
  | nil => exact .refl _
  | cons t rest ih =>
    simp only [fillTiers, List.map_append, List.flatMap_cons]
    exact (fillTier_spec _ amount).2.1.append (ih _)

theorem mem_fill_gates {g : GateNo} :
    g ∈ sn.fill.2.map (·.1) ↔ (sn.gates.get g).state = .active ∧ ∃ p ∈ sn.govSet.t2, p.gate = g := by
  rw [Snapshot.fill, (fillTiers_gates _ _).mem_iff, List.mem_flatMap]
  simp only [mem_tierGates_gate, List.mem_finRange, true_and]
  constructor
  · rintro ⟨t, p, listed, -, active, gate⟩
    exact ⟨active, p, listed, gate⟩
  · rintro ⟨active, p, listed, gate⟩
    exact ⟨p.tier, p, listed, rfl, active, gate⟩

theorem fill_gates_nodup (once : (sn.govSet.t2.map (·.gate)).Nodup) : (sn.fill.2.map (·.1)).Nodup := by
  refine (fillTiers_gates _ _).nodup_iff.2 (List.nodup_flatMap.2 ⟨fun t _ => tierGates_nodup once t, ?_⟩)
  refine (List.nodup_finRange 8).imp fun {t t'} other g here there => ?_
  obtain ⟨p, listed, rfl, -, gate⟩ := mem_tierGates_gate.1 here
  obtain ⟨p', listed', rfl, -, gate'⟩ := mem_tierGates_gate.1 there
  exact other (congrArg AllocPair.tier (List.inj_on_of_nodup_map once listed listed' (gate.trans gate'.symm)))

/-- R70 to R72: the allotments of the gates and the remainder make up Q_R2. -/
theorem fill_conserves (once : (sn.govSet.t2.map (·.gate)).Nodup) :
    sumGates (allotmentIn sn.fill.2) + sn.fill.1 = sn.qR2 := by
  rw [sumGates_allotmentIn (fill_gates_nodup once)]
  exact fillTiers_conserves _ _

/-- R70: what is left of Q_R2 when the filling comes to a tier. -/
def Snapshot.reaching (sn : Snapshot) (t : Fin 8) : Nat := sn.qR2 - sn.room ((List.finRange 8).take t)

theorem finRange_split (t : Fin 8) :
    List.finRange 8 = (List.finRange 8).take t ++ t :: (List.finRange 8).drop (t + 1) := by
  have here : (List.finRange 8).drop t = t :: (List.finRange 8).drop (t + 1) := by
    rw [List.drop_eq_getElem_cons (by simp)]
    simp
  rw [← here, List.take_append_drop]

/-- The tiers below a place hold at least what the tiers up to a lower one hold. -/
theorem room_take_le (t : Fin 8) {n : Nat} (below : t.val < n) :
    sn.room ((List.finRange 8).take t) + headroomSum (sn.tierGates t) ≤ sn.room ((List.finRange 8).take n) := by
  have upTo : (List.finRange 8).take (t + 1) = (List.finRange 8).take t ++ [t] := by
    rw [List.take_succ_eq_append_getElem (by simp)]
    simp
  calc sn.room ((List.finRange 8).take t) + headroomSum (sn.tierGates t)
      = sn.room ((List.finRange 8).take (t + 1)) := by rw [upTo, room_append]; simp [Snapshot.room]
    _ ≤ sn.room ((List.finRange 8).take n) :=
      ((List.take_sublist_take_left below).map _).sum_le_sum fun _ _ => Nat.zero_le _

/-- The allotments of a tier are those that the filling gives for what reaches it. -/
theorem fillTier_subset_fill (t : Fin 8) : fillTier (sn.tierGates t) (sn.reaching t) ⊆ sn.fill.2 := by
  have tiers : sn.fill.2 = (fillTiers sn ((List.finRange 8).take t ++ t :: (List.finRange 8).drop (t + 1)) sn.qR2).2 := by
    rw [← finRange_split]
    rfl
  rw [tiers, fillTiers_append]
  exact fun p hp => List.mem_append_right _ (List.mem_append_left _ hp)

/-- R71: an ACTIVE gate of the list has its allotment from the filling of its tier. -/
theorem allotment_in_tier (once : (sn.govSet.t2.map (·.gate)).Nodup) {p : AllocPair} (listed : p ∈ sn.govSet.t2)
    (active : (sn.gates.get p.gate).state = .active) :
    (p.gate, allotmentIn sn.fill.2 p.gate) ∈ fillTier (sn.tierGates p.tier) (sn.reaching p.tier) := by
  have gate : p.gate ∈ (fillTier (sn.tierGates p.tier) (sn.reaching p.tier)).map (·.1) :=
    (fillTier_spec _ _).2.1.mem_iff.2 (mem_tierGates_gate.2 ⟨p, listed, rfl, active, rfl⟩)
  obtain ⟨⟨_, a⟩, given, same⟩ := List.mem_map.1 gate
  cases same
  rwa [allotmentIn_of_mem (fill_gates_nodup once) (fillTier_subset_fill _ given)]

/-- R71: a tier that what reaches it fills has each of its gates at its headroom. -/
theorem allotment_of_full_tier (once : (sn.govSet.t2.map (·.gate)).Nodup) {p : AllocPair} (listed : p ∈ sn.govSet.t2)
    (active : (sn.gates.get p.gate).state = .active) (full : headroomSum (sn.tierGates p.tier) ≤ sn.reaching p.tier) :
    allotmentIn sn.fill.2 p.gate = sn.headroom p.gate := by
  obtain ⟨x, hx, gate, share⟩ := (fillTier_spec _ _).2.2 full _ (allotment_in_tier once listed active)
  exact share.trans ((headroom_of_mem_tierGates hx).trans (congrArg sn.headroom gate.symm))

/-- R70: nothing is allotted in a tier that nothing reaches. -/
theorem reaching_pos_of_allotment (once : (sn.govSet.t2.map (·.gate)).Nodup) {p : AllocPair} (listed : p ∈ sn.govSet.t2)
    (active : (sn.gates.get p.gate).state = .active) (some : 0 < allotmentIn sn.fill.2 p.gate) : 0 < sn.reaching p.tier := by
  have total := (fillTier_spec (sn.tierGates p.tier) (sn.reaching p.tier)).1
  have part : allotmentIn sn.fill.2 p.gate ≤ _ :=
    List.le_sum_of_mem (List.mem_map_of_mem (f := (·.2)) (allotment_in_tier once listed active))
  omega

/-! ### The parts of the statement -/

/-- R70, R72: a remainder has filled every tier. -/
theorem tier_full_of_remainder (left : 0 < sn.fill.1) (t : Fin 8) : headroomSum (sn.tierGates t) ≤ sn.reaching t := by
  have remainder : sn.fill.1 = sn.qR2 - sn.room ((List.finRange 8).take 8) := fillTiers_remainder _ _
  have below : _ ≤ sn.room ((List.finRange 8).take 8) := room_take_le t t.isLt
  unfold Snapshot.reaching
  omega

/-- R70: what reaches a tier has filled every lower one. -/
theorem tier_full_of_reaching {t t' : Fin 8} (lower : t < t') (more : 0 < sn.reaching t') :
    headroomSum (sn.tierGates t) ≤ sn.reaching t := by
  have below : _ ≤ sn.room ((List.finRange 8).take t') := room_take_le t lower
  unfold Snapshot.reaching at more ⊢
  omega

/-- R71: the split of a tier is even. -/
theorem allotment_even (once : (sn.govSet.t2.map (·.gate)).Nodup) {i j : Nat} {p p' : AllocPair}
    (hi : sn.govSet.t2[i]? = some p) (hj : sn.govSet.t2[j]? = some p') (tier : p.tier = p'.tier)
    (active : (sn.gates.get p.gate).state = .active) (active' : (sn.gates.get p'.gate).state = .active)
    (short : allotmentIn sn.fill.2 p.gate < sn.headroom p.gate) :
    allotmentIn sn.fill.2 p'.gate ≤ allotmentIn sn.fill.2 p.gate + 1
      ∧ (i < j → allotmentIn sn.fill.2 p'.gate ≤ allotmentIn sn.fill.2 p.gate) := by
  have listed := List.mem_of_getElem? hi
  have listed' := List.mem_of_getElem? hj
  have given' := allotment_in_tier once listed' active'
  have stands' := mem_tierGates listed' active'
  rw [← tier] at given' stands'
  obtain ⟨near, ordered⟩ := fillPasses_even _ _ _ (min_le_right _ _) (Nat.lt_succ_self _) (tierGates_nodup once _) _ _ _ _
    (mem_tierGates listed active) stands' (allotment_in_tier once listed active) given' short
  exact ⟨near, fun order => ordered (tierGates_sublist hi hj order tier active active')⟩

end

/-- Settles O49: conservation by `fillTiers_conserves`, the headroom by `allotment_le_headroom`, the order of the tiers by
`allotment_of_full_tier`, the split within one by `allotment_even`. -/
theorem waterFillingConserves : Obligations.WaterFillingConserves := by
  unfold Obligations.WaterFillingConserves
  intro sn lawful mode
  obtain ⟨-, -, -, orderList⟩ := lawful
  obtain ⟨-, once⟩ := (check5_iff _).1 orderList
  rw [compute_tiered sn mode]
  intro res rated least
  have allot : ∀ g, res.allot.get g = allotmentIn sn.fill.2 g := computeTiered_allot sn
  have noShare : ∀ g, ¬ ((sn.gates.get g).state = .active ∧ ∃ p ∈ sn.govSet.t2, p.gate = g) → allotmentIn sn.fill.2 g = 0 :=
    fun g out => allotmentIn_of_not_mem (mt mem_fill_gates.1 out)
  have remainder : res.remainder = sn.fill.1 := computeTiered_remainder sn
  simp only [allot, remainder]
  refine ⟨fun g => rfl, ?_, allotment_le_headroom, fun g out => noShare g ?_, fun left p listed active => ?_,
    fun p listed p' listed' lower some active => ?_, fun i j p p' hi hj => allotment_even once hi hj⟩
  · exact fill_conserves once
  · rintro ⟨active, p, listed, gate⟩
    exact out.elim (· active) fun unlisted => unlisted p listed gate
  · exact allotment_of_full_tier once listed active (tier_full_of_remainder left _)
  · have active' : (sn.gates.get p'.gate).state = .active := by
      by_contra idle
      exact some.ne' (noShare _ fun ⟨active', _⟩ => idle active')
    exact allotment_of_full_tier once listed active
      (tier_full_of_reaching lower (reaching_pos_of_allotment once listed' active' some))

end Sys2Proof.Machine

/-! The computations that share nothing out: HOLD and SURCHARGE (R64, R65), the plant limits of stage 3 (R66), and the completion in
INITIAL whose test fails (R60). -/

namespace Sys2Proof.Machine

/-! ### HOLD and SURCHARGE -/

section
variable {sn : Snapshot} {g : GateNo}

theorem compute_hold (mode : sn.mode = .hold) : compute sn = computeHold sn := by
  rw [compute, mode]

theorem compute_surcharge (mode : sn.mode = .surcharge) : compute sn = computeSurcharge sn := by
  rw [compute, mode]

theorem Snapshot.surging_iff (sn : Snapshot) (g : GateNo) :
    sn.surging g = true ↔ (sn.gates.get g).state = .active ∧ (sn.govSet.t1.get g).cls = .spill := by
  rw [Snapshot.surging, decide_eq_true_iff, sn.active_iff]
  rfl

/-- R65: a SPILL gate that is ACTIVE goes to its max opening at its urgent rate. -/
theorem computeSurcharge_driven (driven : sn.surging g = true) :
    (computeSurcharge sn).targets.get g = (sn.govSet.t1.get g).maxOpening
      ∧ (computeSurcharge sn).commands.get g
          = (sn.gates.get g).commanded.map fun old =>
              rateLimited (sn.govSet.t1.get g).urgentRate old (sn.govSet.t1.get g).maxOpening :=
  ⟨(Tab.get_ofFn _ g).trans (if_pos driven), (Tab.get_ofFn _ g).trans (if_pos driven)⟩

/-- R65: every other gate stays as it is. -/
theorem computeSurcharge_left (left : ¬ sn.surging g = true) :
    (computeSurcharge sn).targets.get g = (sn.gates.get g).target
      ∧ (computeSurcharge sn).commands.get g = (sn.gates.get g).commanded :=
  ⟨(Tab.get_ofFn _ g).trans (if_neg left), (Tab.get_ofFn _ g).trans (if_neg left)⟩

/-- R64: HOLD leaves every gate as it is. -/
theorem computeHold_left :
    (computeHold sn).targets.get g = (sn.gates.get g).target ∧ (computeHold sn).commands.get g = (sn.gates.get g).commanded :=
  ⟨Tab.get_map .., Tab.get_map ..⟩

/-- R64, R65: the results record of both, and that neither raises SHORTFALL or EXCESS. -/
theorem compute_flat (mode : sn.mode = .hold ∨ sn.mode = .surcharge) :
    (compute sn).results = flatResults sn (sn.delivered (compute sn).commands)
      ∧ (compute sn).shortfallRaised = false ∧ (compute sn).excessRaised = false := by
  obtain hold | surcharge := mode
  · rw [compute_hold hold]
    exact ⟨rfl, rfl, rfl⟩
  · rw [compute_surcharge surcharge]
    exact ⟨rfl, rfl, rfl⟩

end

/-- Settles O51: the driven gates by `computeSurcharge_driven` and `rateLimited_spec`, the others by `computeHold_left` and
`computeSurcharge_left`, the results record by `compute_flat`. -/
theorem holdAndSurcharge : Obligations.HoldAndSurcharge := by
  unfold Obligations.HoldAndSurcharge
  intro sn mode c
  obtain ⟨results, short, excess⟩ := compute_flat mode
  refine ⟨fun g active surcharge spill => ?_, fun g active stays => ?_, ?_⟩
  · obtain ⟨target, command⟩ := computeSurcharge_driven ((sn.surging_iff g).2 ⟨active, spill⟩)
    rw [← compute_surcharge surcharge] at target command
    refine ⟨target, fun old commanded => ⟨_, command.trans (by rw [commanded, Option.map_some]), ?_⟩⟩
    obtain ⟨above, below, up, down, reached, rising, falling⟩ :=
      rateLimited_spec (sn.govSet.t1.get g).urgentRate old (sn.govSet.t1.get g).maxOpening
    exact ⟨up, down, above, below, reached, rising, falling⟩
  · change (compute sn).targets.get g = _ ∧ (compute sn).commands.get g = _
    obtain hold | surcharge := mode
    · rw [compute_hold hold]
      exact computeHold_left
    · have other : (sn.govSet.t1.get g).cls ≠ .spill := stays.resolve_left (by simp [surcharge])
      rw [compute_surcharge surcharge]
      exact computeSurcharge_left fun driven => other ((sn.surging_iff g).1 driven).2
  · have delivered := sn.delivered_eq c.commands
    have fixed := sn.fixedSum_eq
    rw [results]
    generalize sn.delivered c.commands = qD at delivered ⊢
    exact ⟨rfl, rfl, rfl, rfl, rfl, rfl, rfl, Tab.get_const 0, rfl, rfl, short, excess, rfl, rfl, fixed, delivered⟩

/-! ### The plant limits (R66) -/

/-- Settles O48: the target is `plantLimits` of stage 2, taken branch by branch. -/
theorem plantLimitsOfTarget : Obligations.PlantLimitsOfTarget := by
  unfold Obligations.PlantLimitsOfTarget
  intro sn mode p raised lower upper
  rw [compute_tiered sn mode, computeTiered_qTPrev, computeTiered_qT]
  have target : sn.target
      = if raised < lower then lower else if upper < raised ∧ sn.stage ≠ .flood then upper else raised := rfl
  rw [target]
  refine ⟨rfl, fun low => if_pos low, fun enough within => ?_, fun enough above stage => ?_, fun enough above flood => ?_⟩
  · rw [if_neg enough.not_gt, if_neg fun h => within.not_gt h.1]
  · rw [if_neg enough.not_gt, if_pos ⟨above, stage⟩]
  · rw [if_neg enough.not_gt, if_neg fun h => h.2 flood]

/-! ### The completion in INITIAL whose test fails (R60) -/

/-- Settles O14: the completion is `completeInitial`, which writes Q_A alone; its report and the end of the event change none of the
fields named and take orders from the queue only. -/
theorem completionInInitial : Obligations.CompletionInInitial := by
  unfold Obligations.CompletionInInitial
  intro s sn awake settled inFlight inside fails
  refine ⟨_, exec_completion awake settled inFlight, ?_⟩
  have body : completeComputation sn s
      = completionReport (completeInitial sn { s with engine := { s.engine with computation := none } }) := by
    rw [completeComputation, completeBody, if_pos inside, if_neg (mt (initialTest_iff sn).1 fails)]
  rw [body]
  have queue := closeEvent_queue (completionReport (completeInitial sn { s with engine := { s.engine with computation := none } }))
  simp only [closeEvent_same, completionReport_same] at queue ⊢
  exact ⟨rfl, rfl, rfl, rfl, rfl, rfl, rfl, rfl, rfl, queue⟩

end Sys2Proof.Machine

/-! The reach queue (R83 to R91): where an insertion puts its entry, what due processing removes, and what the arrival of a NOTICE
does. -/

namespace Sys2Proof.Machine

/-! ### Queues in due order (R83, R89) -/

section
variable {q : List ReachEntry}

/-- R83: in due order, nothing due by second `t` stands behind the entries at the head that are. -/
theorem due_of_mem_dropWhile (ordered : q.Pairwise fun a b => a.due ≤ b.due) {t : Nat} {x : ReachEntry}
    (left : x ∈ q.dropWhile fun e => decide (e.due ≤ t)) : t < x.due := by
  induction ordered with
  | nil => cases left
  | @cons y rest first _ ih =>
    by_cases early : y.due ≤ t
    · exact ih (by simpa [early] using left)
    · have behind : x = y ∨ x ∈ rest := by simpa [early] using left
      obtain rfl | behind := behind
      · exact Nat.lt_of_not_le early
      · exact (Nat.lt_of_not_le early).trans_le (first x behind)

/-- R89: the entry goes right behind the entries at the head that are due no later. -/
theorem insertByDue_eq (e : ReachEntry) (q : List ReachEntry) :
    insertByDue e q
      = (q.takeWhile fun x => decide (x.due ≤ e.due)) ++ e :: q.dropWhile fun x => decide (x.due ≤ e.due) := by
  induction q with
  | nil => rfl
  | cons x rest ih => by_cases first : x.due ≤ e.due <;> simp [insertByDue, first, ih]

theorem insertByDue_perm (e : ReachEntry) (q : List ReachEntry) : (insertByDue e q).Perm (e :: q) := by
  rw [insertByDue_eq]
  exact List.perm_middle.trans (by rw [List.takeWhile_append_dropWhile])

/-- R89: an insertion keeps the due order. -/
theorem insertByDue_pairwise (e : ReachEntry) (ordered : q.Pairwise fun a b => a.due ≤ b.due) :
    (insertByDue e q).Pairwise fun a b => a.due ≤ b.due := by
  have early : ∀ x ∈ q.takeWhile fun x => decide (x.due ≤ e.due), x.due ≤ e.due := fun x hx => by
    simpa using List.mem_takeWhile_imp hx
  have later : ∀ x ∈ q.dropWhile fun x => decide (x.due ≤ e.due), e.due ≤ x.due := fun x hx =>
    (due_of_mem_dropWhile ordered hx).le
  rw [insertByDue_eq, List.pairwise_append, List.pairwise_cons]
  refine ⟨ordered.sublist (List.takeWhile_sublist _), ⟨later, ordered.sublist (List.dropWhile_sublist _)⟩,
    fun a ha b hb => (early a ha).trans ?_⟩
  obtain rfl | hb := List.mem_cons.1 hb
  · exact le_refl _
  · exact later b hb

end

/-- Settles O26: the split is by `insertByDue_eq`; nothing due no later is left behind it by `due_of_mem_dropWhile`. -/
theorem queueInsertionPlace : Obligations.QueueInsertionPlace := by
  unfold Obligations.QueueInsertionPlace
  intro e q ordered
  exact ⟨_, _, List.takeWhile_append_dropWhile.symm, insertByDue_eq e q, fun x hx => by simpa using List.mem_takeWhile_imp hx,
    fun x hx => due_of_mem_dropWhile ordered hx, insertByDue_pairwise e ordered⟩

/-! ### Due processing (R91) -/

/-- Settles O9: the queue and the origins are those of `dueEntries_spec`. -/
theorem dueProcessingEffect : Obligations.DueProcessingEffect := by
  unfold Obligations.DueProcessingEffect
  intro s awake
  obtain ⟨queue, origins⟩ := dueEntries_spec s.clock.ssc s.reach.queue s.reach.origins
  exact ⟨_, exec_reachDueProcessing awake, rfl, queue, origins⟩

end Sys2Proof.Machine

namespace Sys2Proof.Machine

/-! ### Early application of the head (R89) -/

section
variable (e : ReachEntry) (n m : OriginNo) (release : Nat) (s : State)

theorem applyRelease_origin :
    (applyRelease m release s).reach.origins.get n
      = if n = m then { s.reach.origins.get n with arriving := release } else s.reach.origins.get n := by
  rw [applyRelease, setOrigin_reach, Tab.get_set]
  split
  · next same => rw [same]
  · rfl

theorem applyRelease_queue : (applyRelease m release s).reach.queue = s.reach.queue := rfl

theorem bump_reach (c : Counter) : (bump c s).reach = s.reach := rfl

theorem counter_setOrigin (o : OriginLive) (c : Counter) : (setOrigin n o s).counter c = s.counter c := rfl

theorem counter_applyRelease (c : Counter) : (applyRelease m release s).counter c = s.counter c := rfl

theorem counter_raise (f : Flag) (c : Counter) : (raise f s).counter c = s.counter c := by simp [State.counter]

theorem applyHeadEarly_room (room : s.reach.queue.length < reachCapacity) : applyHeadEarly s = s := if_neg room.not_ge

theorem applyHeadEarly_full {x : ReachEntry} {rest : List ReachEntry} (full : reachCapacity ≤ s.reach.queue.length)
    (queue : s.reach.queue = x :: rest) :
    applyHeadEarly s
      = raise .earlyApply (bump .earlyApply
          (applyRelease x.origin x.release { s with reach := { s.reach with queue := rest } })) := by
  rw [applyHeadEarly, if_pos full, queue]

/-- R89: what an early application can do: nothing in a queue with room, else it takes the head of the queue. -/
theorem applyHeadEarly_cases :
    (s.reach.queue.length < reachCapacity ∧ applyHeadEarly s = s)
      ∨ ∃ x rest, s.reach.queue = x :: rest ∧ reachCapacity ≤ s.reach.queue.length
        ∧ applyHeadEarly s
          = raise .earlyApply (bump .earlyApply
              (applyRelease x.origin x.release { s with reach := { s.reach with queue := rest } })) := by
  by_cases room : s.reach.queue.length < reachCapacity
  · exact .inl ⟨room, applyHeadEarly_room s room⟩
  · have full : reachCapacity ≤ s.reach.queue.length := Nat.le_of_not_lt room
    obtain ⟨x, rest, queue⟩ := List.exists_cons_of_length_pos (Nat.lt_of_lt_of_le (by decide : 0 < reachCapacity) full)
    exact .inr ⟨x, rest, queue, full, applyHeadEarly_full s full queue⟩

/-- R89: an early application changes an origin's arriving inflow at most. -/
theorem applyHeadEarly_origin :
    ((applyHeadEarly s).reach.origins.get n).lastSeq = (s.reach.origins.get n).lastSeq
      ∧ ((applyHeadEarly s).reach.origins.get n).latestDue = (s.reach.origins.get n).latestDue := by
  obtain ⟨-, same⟩ | ⟨x, rest, -, -, taken⟩ := applyHeadEarly_cases s
  · rw [same]
    exact ⟨rfl, rfl⟩
  · simp only [taken, raise_same, bump_same, applyRelease_origin]
    split <;> exact ⟨rfl, rfl⟩

theorem insertNotice_origins : (insertNotice e s).reach.origins = (applyHeadEarly s).reach.origins := rfl

theorem insertNotice_queue : (insertNotice e s).reach.queue = insertByDue e (applyHeadEarly s).reach.queue := rfl

/-- R89: EARLY_APPLY counts the insertions into a full queue, and nothing else is counted. -/
theorem counter_insertNotice (c : Counter) :
    (insertNotice e s).counter c
      = if c = .earlyApply ∧ reachCapacity ≤ s.reach.queue.length then min (s.counter c + 1) wordMax else s.counter c := by
  change (applyHeadEarly s).counter c = _
  obtain ⟨room, same⟩ | ⟨x, rest, -, full, taken⟩ := applyHeadEarly_cases s
  · rw [same, if_neg fun h => h.2.not_gt room]
  · have counted : (applyHeadEarly s).counter c
        = if c = .earlyApply then min (s.counter .earlyApply + 1) wordMax else s.counter c := by
      rw [taken, counter_raise, counter_bump, counter_applyRelease, counter_applyRelease]
      rfl
    rw [counted]
    by_cases early : c = .earlyApply <;> simp [early, full]

end

/-! ### The sequence test and the record of an accepted notice (R85 to R87) -/

section
variable {l m : BitVec 16}

theorem seqTest_duplicate (m : BitVec 16) : seqTest (some m) m = .duplicate := by
  simp [seqTest]

theorem seqTest_stale (other : m ≠ l) (far : 32768 ≤ (m - l).toNat) : seqTest (some l) m = .stale := by
  rw [seqTest, if_neg other, if_neg (by omega)]

theorem seqTest_accepted {last : Option (BitVec 16)} (near : ∀ l, last = some l → m ≠ l ∧ (m - l).toNat ≤ 32767) :
    seqTest last m = .accepted := by
  cases last with
  | none => rfl
  | some l => rw [seqTest, if_neg (near l rfl).1, if_pos (near l rfl).2]

end

/-- R87: the clamp acts exactly when it raises the due second. -/
theorem clampActs_iff (latest : Option Nat) (due : Int) : clampActs latest due = true ↔ due < clampedDue latest due := by
  cases latest with
  | none => simp [clampActs, clampedDue]
  | some l => simp [clampActs, clampedDue]

/-- R86: the due second of a notice before the clamp. -/
def noticeExact (n : OriginNo) (release age : Nat) (s : State) : Int :=
  dueSecond s.clock.ssc age (travelTime (s.mgmt.active.t9.get n) release)

/-- R86, R87: the due second of a notice. -/
def noticeDue (n : OriginNo) (release age : Nat) (s : State) : Int :=
  clampedDue (s.reach.origins.get n).latestDue (noticeExact n release age s)

/-- R85, R87: an accepted notice is recorded with its origin, and a clamp that acts is counted. -/
def recordNotice (n : OriginNo) (seqNo : BitVec 16) (release age : Nat) (s : State) : State :=
  setOrigin n
    { s.reach.origins.get n with
      lastSeq := some seqNo
      latestDue := some (latestDueOf s.clock.ssc (noticeDue n release age s)) }
    (if clampActs (s.reach.origins.get n).latestDue (noticeExact n release age s) then bump .clampedDue s else s)

/-- R89: the queue entry of a notice that is not late. -/
def noticeEntry (n : OriginNo) (seqNo : BitVec 16) (release age : Nat) (s : State) : ReachEntry :=
  { origin := n, seqNo := seqNo, release := release, due := (noticeDue n release age s).toNat }

section
variable (n m : OriginNo) (seqNo : BitVec 16) (release age : Nat) (s : State)

@[simp] theorem recordNotice_clock : (recordNotice n seqNo release age s).clock = s.clock := by
  unfold recordNotice
  split <;> simp

theorem recordNotice_reach :
    (recordNotice n seqNo release age s).reach
      = { s.reach with
          origins := s.reach.origins.set n
            { s.reach.origins.get n with
              lastSeq := some seqNo
              latestDue := some (latestDueOf s.clock.ssc (noticeDue n release age s)) } } := by
  unfold recordNotice
  split <;> simp

theorem recordNotice_queue : (recordNotice n seqNo release age s).reach.queue = s.reach.queue := by
  rw [recordNotice_reach]

theorem recordNotice_origin_self :
    (recordNotice n seqNo release age s).reach.origins.get n
      = { s.reach.origins.get n with
          lastSeq := some seqNo
          latestDue := some (latestDueOf s.clock.ssc (noticeDue n release age s)) } := by
  rw [recordNotice_reach]
  exact Tab.get_set_self _ _ _

variable {m n} in
theorem recordNotice_origin_ne (other : m ≠ n) :
    (recordNotice n seqNo release age s).reach.origins.get m = s.reach.origins.get m := by
  rw [recordNotice_reach]
  exact Tab.get_set_ne _ _ other

theorem counter_recordNotice (c : Counter) :
    (recordNotice n seqNo release age s).counter c
      = if c = .clampedDue ∧ noticeExact n release age s < noticeDue n release age s then min (s.counter c + 1) wordMax
        else s.counter c := by
  have clamp := clampActs_iff (s.reach.origins.get n).latestDue (noticeExact n release age s)
  rw [recordNotice, counter_setOrigin, noticeDue]
  by_cases acts : clampActs (s.reach.origins.get n).latestDue (noticeExact n release age s) = true
  · rw [if_pos acts, counter_bump]
    by_cases clamped : c = .clampedDue <;> simp [clamped, clamp.1 acts]
  · rw [if_neg acts, if_neg fun h => acts (clamp.2 h.2)]

end

/-! ### An accepted notice (R86 to R89) -/

section
variable {n : OriginNo} {release age : Nat} {s : State} (seqNo : BitVec 16)

theorem acceptNotice_late (late : noticeDue n release age s ≤ s.clock.ssc) :
    acceptNotice n seqNo release age s = bump .late (applyRelease n release (recordNotice n seqNo release age s)) :=
  if_pos late

theorem acceptNotice_later (later : s.clock.ssc < noticeDue n release age s) :
    acceptNotice n seqNo release age s
      = insertNotice (noticeEntry n seqNo release age s) (recordNotice n seqNo release age s) :=
  if_neg later.not_ge

/-- R85, R87: whether it is late or queued, an accepted notice leaves its sequence and its due second with its origin. -/
theorem acceptNotice_recorded :
    ((acceptNotice n seqNo release age s).reach.origins.get n).lastSeq = some seqNo
      ∧ ((acceptNotice n seqNo release age s).reach.origins.get n).latestDue
          = some (latestDueOf s.clock.ssc (noticeDue n release age s)) := by
  rcases le_or_gt (noticeDue n release age s) s.clock.ssc with late | later
  · rw [acceptNotice_late seqNo late, bump_reach, applyRelease_origin, if_pos rfl,
      recordNotice_origin_self]
    exact ⟨rfl, rfl⟩
  · obtain ⟨lastSeq, latestDue⟩ := applyHeadEarly_origin n (recordNotice n seqNo release age s)
    rw [acceptNotice_later seqNo later, insertNotice_origins, lastSeq, latestDue, recordNotice_origin_self]
    exact ⟨rfl, rfl⟩

/-- R86, R87, R89: what an accepted notice counts. -/
theorem counter_acceptNotice (c : Counter) :
    (acceptNotice n seqNo release age s).counter c
      = if c = .clampedDue ∧ noticeExact n release age s < noticeDue n release age s
            ∨ c = .late ∧ noticeDue n release age s ≤ s.clock.ssc
            ∨ c = .earlyApply ∧ s.clock.ssc < noticeDue n release age s ∧ reachCapacity ≤ s.reach.queue.length then
          min (s.counter c + 1) wordMax
        else s.counter c := by
  rcases le_or_gt (noticeDue n release age s) s.clock.ssc with late | later
  · rw [acceptNotice_late seqNo late, counter_bump, counter_applyRelease, counter_applyRelease, counter_recordNotice,
      counter_recordNotice]
    by_cases counted : c = .late <;> simp [counted, late, late.not_gt]
  · rw [acceptNotice_later seqNo later, counter_insertNotice, counter_recordNotice, recordNotice_queue]
    by_cases counted : c = .earlyApply <;> simp [counted, later, later.not_ge]

theorem clampedDue_acceptNotice :
    (acceptNotice n seqNo release age s).counter .clampedDue
      = if noticeExact n release age s < noticeDue n release age s then min (s.counter .clampedDue + 1) wordMax
        else s.counter .clampedDue := by
  simp [counter_acceptNotice]

theorem late_acceptNotice :
    (acceptNotice n seqNo release age s).counter .late
      = if noticeDue n release age s ≤ s.clock.ssc then min (s.counter .late + 1) wordMax else s.counter .late := by
  simp [counter_acceptNotice]

theorem earlyApply_acceptNotice :
    (acceptNotice n seqNo release age s).counter .earlyApply
      = if s.clock.ssc < noticeDue n release age s ∧ reachCapacity ≤ s.reach.queue.length then
          min (s.counter .earlyApply + 1) wordMax
        else s.counter .earlyApply := by
  simp [counter_acceptNotice]

/-- R88: a late notice is applied at once. -/
theorem acceptNotice_late_reach (late : noticeDue n release age s ≤ s.clock.ssc) :
    (acceptNotice n seqNo release age s).reach.queue = s.reach.queue
      ∧ ((acceptNotice n seqNo release age s).reach.origins.get n).arriving = release
      ∧ ∀ m, m ≠ n → (acceptNotice n seqNo release age s).reach.origins.get m = s.reach.origins.get m := by
  rw [acceptNotice_late seqNo late, bump_reach, applyRelease_queue, recordNotice_queue]
  refine ⟨rfl, ?_, fun m other => ?_⟩
  · rw [applyRelease_origin, if_pos rfl]
  · rw [applyRelease_origin, if_neg other, recordNotice_origin_ne _ _ _ _ other]

/-- R89: a notice that is not late is inserted into a queue with room. -/
theorem acceptNotice_room_reach (later : s.clock.ssc < noticeDue n release age s)
    (room : s.reach.queue.length < reachCapacity) :
    (acceptNotice n seqNo release age s).reach.queue = insertByDue (noticeEntry n seqNo release age s) s.reach.queue
      ∧ ((acceptNotice n seqNo release age s).reach.origins.get n).arriving = (s.reach.origins.get n).arriving
      ∧ ∀ m, m ≠ n → (acceptNotice n seqNo release age s).reach.origins.get m = s.reach.origins.get m := by
  rw [acceptNotice_later seqNo later, insertNotice_queue, insertNotice_origins,
    applyHeadEarly_room _ (by rwa [recordNotice_queue]), recordNotice_queue, recordNotice_origin_self]
  exact ⟨rfl, rfl, fun m other => recordNotice_origin_ne _ _ _ _ other⟩

/-- R89: into a full queue it is inserted once the head is applied early. -/
theorem acceptNotice_full_reach (later : s.clock.ssc < noticeDue n release age s) {x : ReachEntry}
    {rest : List ReachEntry} (full : reachCapacity ≤ s.reach.queue.length) (queue : s.reach.queue = x :: rest) :
    (acceptNotice n seqNo release age s).reach.queue = insertByDue (noticeEntry n seqNo release age s) rest
      ∧ ((acceptNotice n seqNo release age s).reach.origins.get x.origin).arriving = x.release
      ∧ flagIn .earlyApply (acceptNotice n seqNo release age s).report.flags = true := by
  have same := recordNotice_queue n seqNo release age s
  have taken := applyHeadEarly_full (recordNotice n seqNo release age s) (by rwa [same]) (same.trans queue)
  rw [acceptNotice_later seqNo later, insertNotice_queue, insertNotice_origins]
  refine ⟨?_, ?_, ?_⟩
  · simp only [taken, raise_same, bump_same, applyRelease_queue]
  · simp only [taken, raise_same, bump_same, applyRelease_origin, if_true]
  · change flagIn .earlyApply (applyHeadEarly _).report.flags = true
    rw [taken, flagIn_raise]
    simp

end

/-! ### The arrival of a NOTICE (R84, R85) -/

section
variable {nf : NoticeFields} {s : State}

theorem takeNotice_own (own : nf.origin.toNat = s.ring.station.toNat) : takeNotice nf s = s := if_pos own

theorem takeNotice_foreign (other : nf.origin.toNat ≠ s.ring.station.toNat)
    (unfollowed : followerOf s.mgmt.active nf.origin = none) : takeNotice nf s = bump .foreign s := by
  simp only [takeNotice, if_neg other, unfollowed]

variable {n : OriginNo} (other : nf.origin.toNat ≠ s.ring.station.toNat)
  (followed : followerOf s.mgmt.active nf.origin = some n)
include other followed

theorem takeNotice_duplicate (test : seqTest (s.reach.origins.get n).lastSeq nf.seqNo = .duplicate) :
    takeNotice nf s = bump .duplicate s := by
  simp only [takeNotice, if_neg other, followed, test]

theorem takeNotice_stale (test : seqTest (s.reach.origins.get n).lastSeq nf.seqNo = .stale) :
    takeNotice nf s = bump .stale s := by
  simp only [takeNotice, if_neg other, followed, test]

theorem takeNotice_accepted (test : seqTest (s.reach.origins.get n).lastSeq nf.seqNo = .accepted) :
    takeNotice nf s = acceptNotice n nf.seqNo (min nf.release.toNat plantMax) nf.age.toNat s := by
  simp only [takeNotice, if_neg other, followed, test]

end

/-- Settles O25: the test of the sequence by its cases, and an accepted notice by whether it is late, finds room, or finds none. -/
theorem noticeOutcomes : Obligations.NoticeOutcomes := by
  unfold Obligations.NoticeOutcomes
  refine ⟨fun set distinct => followerOf_eq_some_iff set distinct, fun nf s =>
    ⟨takeNotice_own, takeNotice_foreign, fun n other followed => ⟨fun same => ?_, fun l last apart far => ?_, fun near => ?_⟩⟩⟩
  · exact takeNotice_duplicate other followed (by rw [same, seqTest_duplicate])
  · exact takeNotice_stale other followed (by rw [last, seqTest_stale apart far])
  · rw [takeNotice_accepted other followed (seqTest_accepted near)]
    obtain ⟨lastSeq, latestDue⟩ :=
      acceptNotice_recorded (n := n) (release := min nf.release.toNat plantMax) (age := nf.age.toNat) (s := s) nf.seqNo
    exact ⟨lastSeq, fun due => latestDue.trans (congrArg some (if_pos due)), clampedDue_acceptNotice nf.seqNo,
      late_acceptNotice nf.seqNo, earlyApply_acceptNotice nf.seqNo, acceptNotice_late_reach nf.seqNo,
      acceptNotice_room_reach nf.seqNo, fun x rest later full queue => acceptNotice_full_reach nf.seqNo later full queue⟩

end Sys2Proof.Machine

/-! The Reach Unit's invariant (R83, R88, R90): what each piece of work leaves of the reach queue. -/

namespace Sys2Proof.Machine

/-! ### What keeps the invariant -/

section
variable {s t : State}

/-- R88: nothing is overdue in a queue that gains no entry while no second passes. -/
theorem NothingOverdue.of_subset (h : NothingOverdue s) (queue : t.reach.queue ⊆ s.reach.queue)
    (ssc : t.clock.ssc = s.clock.ssc) (due : t.clock.reachDue = s.clock.reachDue) : NothingOverdue t := by
  intro done e he
  rw [ssc]
  exact h (due ▸ done) e (queue he)

/-- A queue that loses entries keeps its bound and its order, and its place behind the latest dues of the origins it still names. -/
theorem ReachInv.of_sublist (h : ReachInv s) (queue : t.reach.queue.Sublist s.reach.queue)
    (latest : ∀ e ∈ t.reach.queue,
      (t.reach.origins.get e.origin).latestDue = (s.reach.origins.get e.origin).latestDue)
    (overdue : NothingOverdue t) : ReachInv t where
  ordered := ⟨queue.length_le.trans h.ordered.1, h.ordered.2.sublist queue⟩
  nothingOverdue := overdue
  behindLatest e he := by
    rw [latest e he]
    exact h.behindLatest e (queue.subset he)

/-- Work that leaves the reach state, the second and the mark of due processing. -/
theorem ReachInv.of_same (h : ReachInv s) (reach : t.reach = s.reach) (ssc : t.clock.ssc = s.clock.ssc)
    (due : t.clock.reachDue = s.clock.reachDue) : ReachInv t :=
  h.of_sublist (by rw [reach]) (fun _ _ => by rw [reach])
    (h.nothingOverdue.of_subset (by rw [reach]; exact List.Subset.refl _) ssc due)

/-- Work that leaves the reach state and the clock. -/
theorem ReachInv.of_frame (h : ReachInv s) (frame : t.reach = s.reach ∧ t.clock = s.clock) : ReachInv t :=
  h.of_same frame.1 (by rw [frame.2]) (by rw [frame.2])

/-- Work that empties the queue. -/
theorem reachInv_of_empty (empty : t.reach.queue = []) : ReachInv t where
  ordered := by simp [ReachOrdered, empty]
  nothingOverdue _ e he := by simp [empty] at he
  behindLatest e he := by simp [empty] at he

/-- R87: an origin's latest due may go up. -/
theorem ReachInv.setOrigin (h : ReachInv s) {n : OriginNo} {o : OriginLive}
    (later : ∀ l, (s.reach.origins.get n).latestDue = some l → ∃ k, o.latestDue = some k ∧ l ≤ k) :
    ReachInv (setOrigin n o s) where
  ordered := h.ordered
  nothingOverdue := h.nothingOverdue
  behindLatest e he := by
    obtain ⟨l, latest, behind⟩ := h.behindLatest e he
    rw [setOrigin_reach, Tab.get_set]
    split
    · next same =>
      obtain ⟨k, raised, le⟩ := later l (same ▸ latest)
      exact ⟨k, raised, behind.trans le⟩
    · exact ⟨l, latest, behind⟩

theorem ReachInv.applyRelease (h : ReachInv s) (n : OriginNo) (release : Nat) : ReachInv (applyRelease n release s) :=
  h.setOrigin fun l latest => ⟨l, latest, le_refl l⟩

end

/-! ### Due processing and the second tick (R91) -/

section
variable {s : State}

theorem dueEntries_latestDue (ssc : Nat) (q : List ReachEntry) (os : Tab OriginLive 4) (n : OriginNo) :
    ((dueEntries ssc q os).1.get n).latestDue = (os.get n).latestDue := by
  rw [(dueEntries_spec ssc q os).2 n]
  split <;> rfl

/-- R91: due processing leaves the entries that are due later than now. -/
theorem ReachInv.reachWork (h : ReachInv s) : ReachInv (reachWork s) := by
  have left : (Machine.reachWork s).reach.queue = s.reach.queue.dropWhile fun e => decide (e.due ≤ s.clock.ssc) :=
    (dueEntries_spec _ _ _).1
  refine h.of_sublist ?_ (fun e _ => dueEntries_latestDue _ _ _ _) (fun _ e he => ?_)
  · rw [left]
    exact List.dropWhile_sublist _
  · rw [left] at he
    exact due_of_mem_dropWhile h.ordered.2 he

/-- A tick marks due processing as still to be done. -/
theorem ReachInv.secondTick (h : ReachInv s) : ReachInv (secondTick s) :=
  h.of_sublist (List.Sublist.refl _) (fun _ _ => rfl) (fun done => by cases done)

end

/-! ### The arrival of a NOTICE (R87, R89) -/

section
variable {s : State} {n : OriginNo} {release age : Nat}

theorem ReachInv.applyHeadEarly (h : ReachInv s) : ReachInv (applyHeadEarly s) := by
  obtain ⟨-, same⟩ | ⟨x, rest, queue, -, taken⟩ := applyHeadEarly_cases s
  · rw [same]
    exact h
  · have shorter : rest.Sublist s.reach.queue := queue ▸ List.sublist_cons_self x rest
    have without : ReachInv { s with reach := { s.reach with queue := rest } } :=
      h.of_sublist shorter (fun _ _ => rfl) (h.nothingOverdue.of_subset shorter.subset rfl rfl)
    rw [taken]
    exact (without.applyRelease x.origin x.release).of_frame (by simp)

/-- R89: after an early application there is room for one entry. -/
theorem ReachInv.applyHeadEarly_length (h : ReachInv s) : (Machine.applyHeadEarly s).reach.queue.length < reachCapacity := by
  obtain ⟨room, same⟩ | ⟨x, rest, queue, -, taken⟩ := applyHeadEarly_cases s
  · rwa [same]
  · have bound := h.ordered.1
    rw [queue, List.length_cons] at bound
    simpa [taken, applyRelease_queue] using bound

/-- R89: an entry due later than now, and no later than its origin's latest due, may be inserted. -/
theorem ReachInv.insertNotice (h : ReachInv s) {e : ReachEntry} (later : s.clock.ssc < e.due)
    (latest : ∃ l, (s.reach.origins.get e.origin).latestDue = some l ∧ e.due ≤ l) : ReachInv (insertNotice e s) := by
  have early := h.applyHeadEarly
  have members : ∀ x ∈ (Machine.insertNotice e s).reach.queue, x = e ∨ x ∈ (Machine.applyHeadEarly s).reach.queue :=
    fun x hx => List.mem_cons.1 ((insertByDue_perm e _).mem_iff.1 hx)
  refine ⟨⟨?_, insertByDue_pairwise e early.ordered.2⟩, fun done x hx => ?_, fun x hx => ?_⟩
  · rw [insertNotice_queue, (insertByDue_perm e _).length_eq]
    exact h.applyHeadEarly_length
  · obtain rfl | hx := members x hx
    · simpa using later
    · exact early.nothingOverdue done x hx
  · obtain rfl | hx := members x hx
    · rwa [insertNotice_origins, (applyHeadEarly_origin _ s).2]
    · exact early.behindLatest x hx

/-- R87: the due second after the clamp is not below the latest due. -/
theorem le_clampedDue {latest : Option Nat} {l : Nat} (h : latest = some l) (due : Int) : l ≤ clampedDue latest due := by
  subst h
  exact le_max_right _ _

theorem latestDueOf_of_nonneg {ssc : Nat} {due : Int} (h : 0 ≤ due) : latestDueOf ssc due = due.toNat := if_pos h

/-- R87: the latest due that a notice leaves is not below the one before. -/
theorem ReachInv.recordNotice (h : ReachInv s) (seqNo : BitVec 16) : ReachInv (recordNotice n seqNo release age s) := by
  have counted : ReachInv (if clampActs (s.reach.origins.get n).latestDue (noticeExact n release age s) then
      bump .clampedDue s else s) := by
    split
    · exact h.of_frame (by simp)
    · exact h
  refine counted.setOrigin fun l latest => ⟨_, rfl, ?_⟩
  have clamped : (l : Int) ≤ noticeDue n release age s := le_clampedDue (by rw [← latest]; split <;> simp) _
  rw [latestDueOf_of_nonneg (by omega)]
  omega

theorem ReachInv.acceptNotice (h : ReachInv s) (n : OriginNo) (seqNo : BitVec 16) (release age : Nat) :
    ReachInv (acceptNotice n seqNo release age s) := by
  have recorded : ReachInv (Machine.recordNotice n seqNo release age s) := h.recordNotice seqNo
  rcases le_or_gt (noticeDue n release age s) s.clock.ssc with late | later
  · rw [acceptNotice_late seqNo late]
    exact (recorded.applyRelease n release).of_frame (by simp)
  · rw [acceptNotice_later seqNo later]
    have due : (noticeEntry n seqNo release age s).due = (noticeDue n release age s).toNat := rfl
    refine recorded.insertNotice ?_ ⟨_, ?_, le_refl _⟩
    · rw [due, recordNotice_clock]
      omega
    · rw [due, show (noticeEntry n seqNo release age s).origin = n from rfl, recordNotice_origin_self,
        latestDueOf_of_nonneg (by omega)]

theorem ReachInv.takeNotice (h : ReachInv s) (nf : NoticeFields) : ReachInv (takeNotice nf s) := by
  unfold Machine.takeNotice
  dsimp only
  repeat' split
  · exact h
  · exact h.of_frame (by simp)
  · exact h.acceptNotice _ _ _ _
  · exact h.of_frame (by simp)
  · exact h.of_frame (by simp)

end

/-! ### The set switch (R96) -/

section
variable {s : State}

/-- R96: a switch drops the entries of the origins that it clears, and no origin with an entry left is cleared. -/
theorem ReachInv.setSwitch (h : ReachInv s) : ReachInv (setSwitch s) := by
  obtain ⟨-, -, -, -, reach, -⟩ := setSwitch_fields s
  have kept : (Machine.setSwitch s).reach.queue.Sublist s.reach.queue := by
    rw [reach]
    exact List.filter_sublist
  refine h.of_sublist kept (fun e he => ?_) (h.nothingOverdue.of_subset kept.subset (by simp) (by simp))
  rw [reach] at he ⊢
  have originKept := (List.mem_filter.1 he).2
  simp only [switchReach, Tab.get_ofFn] at originKept ⊢
  rw [if_pos originKept]
  rfl

theorem ReachInv.cadenceExpiry (h : ReachInv s) : ReachInv (cadenceExpiry s) := by
  have opened : ReachInv (openExpiry s) := h.of_same rfl rfl rfl
  have taken : ReachInv (switched s) := by
    by_cases pending : s.mgmt.switchPending = true
    · rw [switched_some pending]
      exact opened.setSwitch
    · rw [switched_none (by simpa using pending)]
      exact opened
  obtain ⟨-, -, reach, -⟩ := expiryWork_fields s
  exact taken.of_same ((beginComputation_reach _).trans reach) (by simp) (by simp)

end

/-! ### Work that leaves the reach queue -/

section
variable (s : State)

theorem endSend_reach : (endSend s).reach = s.reach ∧ (endSend s).clock = s.clock := by
  unfold endSend
  split <;> simp

theorem relayFrame_reach (f : Frame) : (relayFrame f s).reach = s.reach ∧ (relayFrame f s).clock = s.clock := by
  unfold relayFrame
  repeat' split
  all_goals simp

theorem stripFrame_reach (f : Frame) : (stripFrame f s).reach = s.reach ∧ (stripFrame f s).clock = s.clock := by
  unfold stripFrame handReturn
  repeat' split
  all_goals simp

theorem writeRequest_reach (src : Byte) (ops : List Byte) :
    (writeRequest src ops s).2.reach = s.reach ∧ (writeRequest src ops s).2.clock = s.clock := by
  obtain ⟨m, touched⟩ := writeRequest_same src ops s
  rw [touched]
  exact ⟨rfl, rfl⟩

theorem commitRequest_reach : (commitRequest s).2.reach = s.reach ∧ (commitRequest s).2.clock = s.clock := by
  unfold commitRequest
  repeat' split
  all_goals exact ⟨rfl, rfl⟩

theorem lockRequest_reach : (lockRequest s).2.reach = s.reach ∧ (lockRequest s).2.clock = s.clock := by
  unfold lockRequest
  repeat' split
  all_goals exact ⟨rfl, rfl⟩

theorem requestMode_reach (ops : List Byte) : (requestMode ops s).2.reach = s.reach ∧ (requestMode ops s).2.clock = s.clock := by
  unfold requestMode
  dsimp only
  repeat' split
  all_goals simp

theorem runPlan_reach (ops : List Byte) : (runPlan ops s).2.reach = s.reach ∧ (runPlan ops s).2.clock = s.clock := by
  unfold runPlan
  repeat' split
  all_goals exact ⟨rfl, rfl⟩

theorem stopPlan_reach (ops : List Byte) : (stopPlan ops s).2.reach = s.reach ∧ (stopPlan ops s).2.clock = s.clock := by
  unfold stopPlan
  repeat' split
  all_goals exact ⟨rfl, rfl⟩

theorem setOutputGate_reach (ops : List Byte) :
    (setOutputGate ops s).2.reach = s.reach ∧ (setOutputGate ops s).2.clock = s.clock := by
  unfold setOutputGate
  repeat' split
  all_goals exact ⟨rfl, rfl⟩

theorem clearRequest_reach (ops : List Byte) :
    (clearRequest ops s).2.reach = s.reach ∧ (clearRequest ops s).2.clock = s.clock := by
  unfold clearRequest
  split <;> exact ⟨rfl, rfl⟩

variable (g : GateNo)

theorem enableGate_reach : (enableGate g s).2.reach = s.reach ∧ (enableGate g s).2.clock = s.clock := by
  unfold enableGate gateReply refuse
  dsimp only
  repeat' split
  all_goals simp

theorem disableGate_reach : (disableGate g s).2.reach = s.reach ∧ (disableGate g s).2.clock = s.clock := by
  unfold disableGate gateReply
  repeat' split
  all_goals simp

theorem holdGate_reach : (holdGate g s).2.reach = s.reach ∧ (holdGate g s).2.clock = s.clock := by
  unfold holdGate gateReply refuse
  repeat' split
  all_goals simp

theorem releaseGate_reach : (releaseGate g s).2.reach = s.reach ∧ (releaseGate g s).2.clock = s.clock := by
  unfold releaseGate gateReply refuse
  repeat' split
  all_goals simp

theorem clearFaultGate_reach : (clearFaultGate g s).2.reach = s.reach ∧ (clearFaultGate g s).2.clock = s.clock := by
  unfold clearFaultGate gateReply refuse
  dsimp only
  repeat' split
  all_goals simp

end

/-! ### Every step keeps the invariant -/

/-- Only a NOTICE, due processing, a second tick, an expiry and RESTART touch what the invariant speaks of. -/
theorem keeps_reachInv : Keeps ReachInv where
  assertReset s h := h.of_frame ⟨rfl, rfl⟩
  close s h := h.of_frame (by simp)
  count c n s h := h.of_frame ⟨rfl, rfl⟩
  answer q r s _ h := h.of_frame ⟨rfl, rfl⟩
  stale s h := h.of_same (by simp) (by simp) (by simp)
  due s h := h.reachWork
  tick s h := h.secondTick
  expiry s _ _ h := h.cadenceExpiry
  completion sn s _ h := h.of_frame (by simp [completeComputation])
  millisecond s h := h.of_frame (by simp)
  sent s h := h.of_frame (endSend_reach s)
  sample src es s h := h.of_frame (by simp)
  notice n s h := h.takeNotice n
  phase p s h := h.of_frame (by simp)
  strip f s h := h.of_frame (stripFrame_reach s f)
  relay f s h := h.of_frame (relayFrame_reach s f)
  write src ops s h := h.of_frame (writeRequest_reach s src ops)
  commit s h := h.of_frame (commitRequest_reach s)
  cancel s h := h.of_frame ⟨rfl, rfl⟩
  lock s h := h.of_frame (lockRequest_reach s)
  enable g s _ h := h.of_frame (enableGate_reach s g)
  disable g s _ h := h.of_frame (disableGate_reach s g)
  hold g s _ h := h.of_frame (holdGate_reach s g)
  release g s _ h := h.of_frame (releaseGate_reach s g)
  clearFault g s _ h := h.of_frame (clearFaultGate_reach s g)
  mode ops s h := h.of_frame (requestMode_reach s ops)
  run ops s h := h.of_frame (runPlan_reach s ops)
  stop ops s h := h.of_frame (stopPlan_reach s ops)
  output ops s h := h.of_frame (setOutputGate_reach s ops)
  clear ops s h := h.of_frame (clearRequest_reach s ops)
  counters s h := h.of_frame ⟨rfl, rfl⟩
  restart s _ := reachInv_of_empty (by simp [restartRequest])

/-- Settles O56: each piece of work keeps the invariant (`keeps_reachInv`), and a pin reset empties the queue. -/
theorem reachInvariantKept : Obligations.ReachInvariantKept := fun _ _ inv taken =>
  keeps_reachInv.step (fun _ _ _ => reachInv_of_empty rfl) (fun _ _ h => h.of_frame ⟨rfl, rfl⟩) inv taken

end Sys2Proof.Machine

/-! The plan of a set (R99 to R101, R105, R112, R116): its steps, the positions that lie in it, the release of a position, and the
position of a plan index. -/

namespace Sys2Proof.Machine

/-! ### The steps of the plan (R99, R100) -/

section
variable {set : GovSet}

theorem stepAt_eq_get (set : GovSet) (i : Fin 48) : stepAt set i.val = set.steps.get i := by
  rw [stepAt, Tab.at?_eq_get, Option.getD_some]

theorem stepAt_beyond (set : GovSet) {i : Nat} (beyond : 48 ≤ i) : stepAt set i = emptyPlanStep := by
  rw [stepAt, Tab.at?_eq_none _ beyond, Option.getD_none]

theorem durations_length (set : GovSet) : (durations set).length = set.plan.count := by simp [durations]

theorem durations_getElem! {i : Nat} (h : i < set.plan.count) : (durations set)[i]! = (stepAt set i).duration := by
  rw [getElem!_pos _ _ (by rwa [durations_length])]
  simp [durations]

/-- R100: every step of the plan lasts for a cadence at least. -/
def GovSet.StepsLast (set : GovSet) : Prop := ∀ i < set.plan.count, 1 ≤ (stepAt set i).duration

theorem stepsLast_iff_durations : set.StepsLast ↔ ∀ d ∈ durations set, 1 ≤ d := by
  simp [GovSet.StepsLast, durations]

/-- R100: check 7 of the commit checks speaks of the steps; a position beyond the table of steps has a duration of 1. -/
theorem stepsLast_of_check7 (h : check7 set = true) : set.StepsLast := by
  intro i below
  rcases Nat.lt_or_ge i 48 with within | beyond
  · have entry := (check7_iff set).1 h ⟨i, within⟩ below
    rwa [← stepAt_eq_get] at entry
  · rw [stepAt_beyond set beyond]
    exact le_refl 1

theorem check7_of_passesChecks {node : Byte} {stn : BitVec 3} (h : passesChecks node stn set = true) : check7 set = true :=
  Option.some.inj ((passesChecks_iff node stn set).1 h 7 (by omega) (by omega))

theorem GovSet.StepsLast.cycleLength_pos (h : set.StepsLast) (filled : set.plan.count ≠ 0) : 0 < cycleLength set := by
  have first : (stepAt set 0).duration ∈ durations set := List.mem_map.2 ⟨0, List.mem_range.2 (by omega), rfl⟩
  exact (h 0 (by omega)).trans (List.le_sum_of_mem first)

end

/-! ### Positions in the plan (R101, R116) -/

/-- R101, R116: the timer's position is one of the set's plan; with the plan empty it is step 0, cadence 0, and the plan is
stopped. -/
def Timer.PositionIn (set : GovSet) (t : Timer) : Prop :=
  if set.plan.count = 0 then t.step = 0 ∧ t.cadence = 0 ∧ t.run = .stopped
  else t.step < set.plan.count ∧ t.cadence < (stepAt set t.step).duration

theorem positionValid_iff (s : State) : PositionValid s ↔ s.timer.PositionIn s.mgmt.active := Iff.rfl

section
variable {set : GovSet} {t u : Timer}

theorem positionIn_of_empty (empty : set.plan.count = 0) (step : t.step = 0) (cadence : t.cadence = 0) (run : t.run = .stopped) :
    t.PositionIn set := by
  rw [Timer.PositionIn, if_pos empty]
  exact ⟨step, cadence, run⟩

theorem positionIn_of_within (step : t.step < set.plan.count) (cadence : t.cadence < (stepAt set t.step).duration) :
    t.PositionIn set := by
  rw [Timer.PositionIn, if_neg (by omega)]
  exact ⟨step, cadence⟩

/-- The first cadence of a step of the plan is a position of it. -/
theorem positionIn_of_stepStart (lasts : set.StepsLast) (step : t.step < set.plan.count) (cadence : t.cadence = 0) :
    t.PositionIn set :=
  positionIn_of_within step (by rw [cadence]; exact lasts _ step)

namespace Timer.PositionIn

theorem within (h : t.PositionIn set) (filled : set.plan.count ≠ 0) :
    t.step < set.plan.count ∧ t.cadence < (stepAt set t.step).duration := by rwa [Timer.PositionIn, if_neg filled] at h

theorem stopped_of_empty (h : t.PositionIn set) (empty : set.plan.count = 0) : t.run = .stopped := by
  rw [Timer.PositionIn, if_pos empty] at h
  exact h.2.2

/-- A plan that is not stopped has steps. -/
theorem filled (h : t.PositionIn set) (started : t.run ≠ .stopped) : set.plan.count ≠ 0 := fun empty =>
  started (h.stopped_of_empty empty)

/-- Of the run state only that an empty plan is stopped matters. -/
theorem of_same (h : t.PositionIn set) (step : u.step = t.step) (cadence : u.cadence = t.cadence)
    (run : t.run = .stopped → u.run ≠ .stopped → set.plan.count ≠ 0) : u.PositionIn set := by
  by_cases empty : set.plan.count = 0
  · have stopped : u.run = .stopped := by
      by_contra started
      exact run (h.stopped_of_empty empty) started empty
    rw [Timer.PositionIn, if_pos empty] at h ⊢
    exact ⟨step.trans h.1, cadence.trans h.2.1, stopped⟩
  · exact positionIn_of_within (by rw [step]; exact (h.within empty).1) (by rw [step, cadence]; exact (h.within empty).2)

/-- R116: the check of a switch brings the position into the new plan. -/
theorem checked (lasts : set.StepsLast) (t : Timer) : (checkPosition set t).PositionIn set := by
  unfold checkPosition
  split_ifs with empty beyond late
  · exact positionIn_of_empty empty rfl rfl rfl
  · have last : set.plan.count - 1 < set.plan.count := by omega
    have lasting := lasts _ last
    exact positionIn_of_within last (Nat.sub_lt lasting Nat.one_pos)
  · have lasting := lasts _ (not_le.1 beyond)
    exact positionIn_of_within (not_le.1 beyond) (Nat.sub_lt lasting Nat.one_pos)
  · exact positionIn_of_within (not_le.1 beyond) (not_le.1 late)

/-- R103: the advance of an expiry goes from a position of the plan to one. -/
theorem advanced (h : t.PositionIn set) (lasts : set.StepsLast) : (advancePlan set t).timer.PositionIn set := by
  cases run : t.run with
  | stopped => simpa only [advancePlan, run] using h
  | ended => simpa only [advancePlan, run] using h
  | running =>
    have filled := h.filled (by simp [run])
    have here := h.within filled
    simp only [advancePlan, run, advanceRunning]
    split_ifs with pending next later
    · exact positionIn_of_within here.1 here.2
    · exact positionIn_of_within here.1 next
    · exact positionIn_of_stepStart lasts later rfl
    · cases set.plan.kind with
      | cyclic => exact positionIn_of_stepStart lasts (Nat.pos_of_ne_zero filled) rfl
      | oneShot => exact positionIn_of_within here.1 here.2

/-- R107: a PLAN_RUN of a plan with steps leaves the position or goes to the start. -/
theorem started (h : t.PositionIn set) (lasts : set.StepsLast) (filled : set.plan.count ≠ 0) (fromStart : Bool) :
    (startPlan fromStart t).PositionIn set := by
  unfold startPlan
  split
  · exact positionIn_of_stepStart lasts (Nat.pos_of_ne_zero filled) rfl
  · split
    all_goals exact h.of_same rfl rfl fun _ _ => filled

end Timer.PositionIn

end

/-! ### The position of a plan index (R112, R113) -/

section
variable {set : GovSet}

/-- R112: the plan index of a PHASE frame, for a cycle of at least one cadence. -/
theorem phaseIndex_spec (pos : 0 < cycleLength set) (step cadence : Nat) :
    (let a : Int := (((durations set).take step).sum : Nat) + cadence + set.plan.phaseOffset
     let c : Int := ((durations set).sum : Nat)
     (phaseIndex set step cadence : Int)
        = match set.plan.kind with
          | .cyclic => a % c
          | .oneShot => min (max a 0) (c - 1))
      ∧ phaseIndex set step cadence < cycleLength set := by
  have cycle : cycleLength set = (durations set).sum := rfl
  have sum : ((((durations set).take step).sum : Nat) : Int) + ((cadence : Int) + set.plan.phaseOffset)
      = (((durations set).take step).sum : Nat) + cadence + set.plan.phaseOffset := by omega
  dsimp only
  simp only [phaseIndex, sum, cycle] at pos ⊢
  generalize ((((durations set).take step).sum : Nat) : Int) + cadence + set.plan.phaseOffset = a
  generalize (durations set).sum = c at pos
  cases set.plan.kind with
  | cyclic =>
    have low := Int.emod_nonneg a (b := c) (by omega)
    have high := Int.emod_lt_of_pos a (b := c) (by omega)
    dsimp only
    omega
  | oneShot =>
    dsimp only
    omega

/-- R112: the position of a plan index is one of the plan, at that index. -/
theorem phasePosition_spec (lasts : set.StepsLast) (filled : set.plan.count ≠ 0) (step cadence : Nat) :
    let p := phasePosition set step cadence
    p.1 < set.plan.count ∧ p.2 < (stepAt set p.1).duration
      ∧ ((durations set).take p.1).sum + p.2 = phaseIndex set step cadence := by
  obtain ⟨k, place, below, within, sum⟩ :=
    locate_spec (durations set) 0 (phaseIndex set step cadence) (phaseIndex_spec (lasts.cycleLength_pos filled) step cadence).2
  rw [Nat.zero_add] at place
  rw [durations_length] at below
  rw [durations_getElem! below] at within
  dsimp only [phasePosition]
  rw [place]
  exact ⟨below, within, sum⟩

theorem atPlanEnd_iff (set : GovSet) (step cadence : Nat) :
    atPlanEnd set step cadence = true ↔ step + 1 = set.plan.count ∧ cadence + 1 = (stepAt set step).duration := by
  simp [atPlanEnd]

end

/-! ### The arrival of a PHASE (R111, R113) -/

section
variable {p : PhaseFields} {s : State}

theorem takePhase_unfollowed (h : s.mgmt.active.plan.phaseFollow = false ∨ p.origin.toNat ≠ s.mgmt.active.plan.followed) :
    takePhase p s = s := by
  unfold takePhase
  rcases h with off | other
  · simp [off]
  · simp [other]

theorem takePhase_beyond (follow : s.mgmt.active.plan.phaseFollow = true) (origin : p.origin.toNat = s.mgmt.active.plan.followed)
    (beyond : s.mgmt.active.plan.count ≤ p.step.toNat) : takePhase p s = bump .phaseRange s := by
  simp [takePhase, follow, origin, beyond]

theorem takePhase_within (follow : s.mgmt.active.plan.phaseFollow = true) (origin : p.origin.toNat = s.mgmt.active.plan.followed)
    (within : p.step.toNat < s.mgmt.active.plan.count) :
    takePhase p s
      = { s with timer := reloadTimer s.mgmt.active s.clock.ssc p.step.toNat p.cadence.toNat s.timer } := by
  simp [takePhase, follow, origin, Nat.not_le.2 within]

/-- Settles O27: the three outcomes of a PHASE frame, the position that it loads by `phasePosition_spec` and its plan index by
`phaseIndex_spec`. -/
theorem phaseReload : Obligations.PhaseReload := by
  unfold Obligations.PhaseReload
  intro p s
  refine ⟨takePhase_unfollowed, takePhase_beyond, stepAt_eq_get _, rfl, fun follow origin within lasting => ?_⟩
  rw [takePhase_within follow origin within]
  have lasts : s.mgmt.active.StepsLast := stepsLast_iff_durations.2 lasting
  have filled : s.mgmt.active.plan.count ≠ 0 := by omega
  obtain ⟨step, cadence, place⟩ := phasePosition_spec lasts filled p.step.toNat p.cadence.toNat
  obtain ⟨index, -⟩ := phaseIndex_spec (lasts.cycleLength_pos filled) p.step.toNat p.cadence.toNat
  refine ⟨rfl, step, cadence, ?_, rfl, rfl, rfl, rfl, ?_⟩
  · rw [← place] at index
    exact index
  · simp only [← atPlanEnd_iff]
    rfl

end

/-! ### The release of a position (R105) -/

/-- A part of at most the whole of a difference, rounded toward 0, lies between none of it and all of it. -/
theorem tdiv_part_between (x : Int) {n d : Nat} (part : n ≤ d) (pos : 0 < d) :
    min 0 x ≤ (x * n).tdiv d ∧ (x * n).tdiv d ≤ max 0 x := by
  have whole : (x * d).tdiv d = x := Int.mul_tdiv_cancel x (by omega)
  rcases le_total 0 x with up | down
  · have le : x * n ≤ x * d := Int.mul_le_mul_of_nonneg_left (by omega) up
    have := Int.tdiv_le_tdiv (c := d) (by omega) le
    have := Int.tdiv_nonneg (Int.mul_nonneg up (Int.natCast_nonneg n)) (Int.natCast_nonneg d)
    omega
  · have le : x * d ≤ x * n := Int.mul_le_mul_of_nonpos_left down (by omega)
    have := Int.tdiv_le_tdiv (c := d) (by omega) le
    have := Int.tdiv_le_tdiv (c := d) (by omega) (Int.mul_nonpos_of_nonpos_of_nonneg down (Int.natCast_nonneg n))
    rw [Int.zero_tdiv] at this
    omega

section
variable {set : GovSet} {i c : Nat}

theorem previousRelease_eq (set : GovSet) (i : Nat) :
    previousRelease set i
      = if 0 < i then (stepAt set (i - 1)).release
        else if set.plan.kind = .cyclic then (stepAt set (set.plan.count - 1)).release else (stepAt set i).release := by
  unfold previousRelease
  split
  · rfl
  · cases set.plan.kind <;> rfl

theorem planReleaseAt_step (shape : (stepAt set i).shape = .step) : planReleaseAt set i c = (stepAt set i).release := by
  simp [planReleaseAt, shape]

/-- R105: a ramp adds a truncated part of the way to the release that it starts from, and does not go below 0. -/
theorem planReleaseAt_ramp (shape : (stepAt set i).shape = .ramp) (within : c < (stepAt set i).duration) :
    (planReleaseAt set i c : Int)
      = previousRelease set i
        + ((((stepAt set i).release : Int) - previousRelease set i) * (c + 1)).tdiv (stepAt set i).duration := by
  have between := tdiv_part_between ((stepAt set i).release - previousRelease set i : Int) (n := c + 1) within (by omega)
  push_cast at between
  simp only [planReleaseAt, shape]
  omega

theorem planReleaseAt_between (within : c < (stepAt set i).duration) :
    min (previousRelease set i) (stepAt set i).release ≤ planReleaseAt set i c
      ∧ planReleaseAt set i c ≤ max (previousRelease set i) (stepAt set i).release := by
  cases shape : (stepAt set i).shape with
  | step =>
    rw [planReleaseAt_step shape]
    omega
  | ramp =>
    have ramp := planReleaseAt_ramp shape within
    have between := tdiv_part_between ((stepAt set i).release - previousRelease set i : Int) (n := c + 1) within (by omega)
    push_cast at between
    omega

/-- R105: at the last cadence of a step its release is reached. -/
theorem planReleaseAt_last (last : c + 1 = (stepAt set i).duration) : planReleaseAt set i c = (stepAt set i).release := by
  cases shape : (stepAt set i).shape with
  | step => exact planReleaseAt_step shape
  | ramp =>
    have ramp := planReleaseAt_ramp (c := c) shape (by omega)
    have whole : ((c : Int) + 1) = (stepAt set i).duration := by omega
    rw [whole, Int.mul_tdiv_cancel _ (show ((stepAt set i).duration : Int) ≠ 0 by omega)] at ramp
    omega

end

/-- Settles O52: by the shape of the step, with the release before it by `previousRelease_eq`. -/
theorem planReleaseOfPosition : Obligations.PlanReleaseOfPosition := by
  unfold Obligations.PlanReleaseOfPosition
  intro set i c _ within
  dsimp only
  rw [← previousRelease_eq]
  exact ⟨planReleaseAt_step, fun ramp => planReleaseAt_ramp ramp within, (planReleaseAt_between within).1,
    (planReleaseAt_between within).2, planReleaseAt_last⟩

end Sys2Proof.Machine

/-! The Plan Timer's requests (R107 to R109) and its work at a cadence expiry (R103, R104, R115, R116). -/

namespace Sys2Proof.Machine

/-! ### PLAN_RUN, PLAN_STOP and PLAN_GATE (R107 to R109) -/

section
variable {s : State} {b : Byte}

theorem readYesNo_yesNo (x : Bool) : readYesNo (yesNo x) = some x := readYesNo_eq_some_iff.2 rfl

theorem runPlan_empty (empty : s.mgmt.active.plan.count = 0) (fromStart : Bool) :
    runPlan [yesNo fromStart] s = (⟨.noPlan, []⟩, s) := by
  simp [runPlan, readYesNo_yesNo, empty]

theorem runPlan_badValue (not0 : b ≠ 0) (not1 : b ≠ 1) : runPlan [b] s = (⟨.badValue, []⟩, s) := by
  have unread : readYesNo b = none := by rw [readYesNo, if_neg not0, if_neg not1]
  rw [runPlan, unread]

theorem setOutputGate_badValue (not0 : b ≠ 0) (not1 : b ≠ 1) : setOutputGate [b] s = (⟨.badValue, []⟩, s) := by
  have unread : readGateCode b = none := by rw [readGateCode, if_neg not0, if_neg not1]
  rw [setOutputGate, unread]

/-- R107: what a PLAN_RUN makes of the timer, as one chain of cases. -/
theorem startPlan_eq (fromStart : Bool) (t : Timer) :
    startPlan fromStart t
      = if fromStart = true then { t with run := .running, step := 0, cadence := 0, startPending := true }
        else if t.run = .stopped then { t with run := .running, startPending := true }
        else if t.run = .ended then { t with run := .running, startPending := false }
        else t := by
  unfold startPlan
  split
  · rfl
  · cases t.run <;> simp

/-- R107: the plan runs after every PLAN_RUN that is not refused. -/
theorem startPlan_run (fromStart : Bool) (t : Timer) : (startPlan fromStart t).run = .running := by
  unfold startPlan
  split
  · rfl
  · split
    · rfl
    · assumption
    · rfl

/-- R108: what a PLAN_STOP makes of the timer. -/
def stoppedTimer (t : Timer) : Timer := if t.run = .stopped then t else { t with run := .stopped, startPending := false }

theorem stoppedTimer_run (t : Timer) : (stoppedTimer t).run = .stopped := by
  unfold stoppedTimer
  split
  · assumption
  · rfl

theorem timerData_of_run {t : Timer} {r : RunState} (h : t.run = r) : timerData t = [r.code, byte t.step] ++ be2 t.cadence := by
  rw [timerData, h]

theorem runPlan_starts (filled : s.mgmt.active.plan.count ≠ 0) (fromStart : Bool) :
    let t := startPlan fromStart s.timer
    runPlan [yesNo fromStart] s = (⟨.ok, [1, byte t.step] ++ be2 t.cadence⟩, { s with timer := t }) := by
  have data := timerData_of_run (startPlan_run fromStart s.timer)
  simp only [runPlan, readYesNo_yesNo, if_neg filled, data]
  rfl

theorem stopPlan_stops (s : State) :
    let t := stoppedTimer s.timer
    stopPlan [] s = (⟨.ok, [0, byte t.step] ++ be2 t.cadence⟩, { s with timer := t }) := by
  have data := timerData_of_run (stoppedTimer_run s.timer)
  rw [show stopPlan [] s = (⟨.ok, timerData (stoppedTimer s.timer)⟩, { s with timer := stoppedTimer s.timer }) from rfl, data]
  rfl

/-- A taken request answers what its act answers, on the state that its act leaves. -/
theorem receiveRequest_acts {q : Requester} {len : Nat} (takeable : Takeable q len s) {act : State → Reply × State} {r : Reply}
    {t : State} (acts : act s = (r, t)) :
    (.next (takeRingEvent (receiveRequest q len (takeRequest q 1 [] act)) s) : Host.Outcome State Fault Refusal)
      = .next (closeEvent (respond q r t)) := by
  rw [receiveRequest_takeable takeable, takeRequest_takeable takeable, acts]

end

/-- Settles O39: each request is taken as it is (`receiveRequest_acts`), and acts by the plan, the run state and the operand. -/
theorem planRequestEffects : Obligations.PlanRequestEffects := by
  unfold Obligations.PlanRequestEffects
  intro q s
  refine ⟨fun takeable fromStart => ⟨fun empty => receiveRequest_acts takeable (runPlan_empty empty fromStart),
    fun filled => ?_⟩, fun takeable => receiveRequest_acts takeable (stopPlan_stops s), fun takeable =>
    ⟨receiveRequest_acts takeable rfl, receiveRequest_acts takeable rfl, fun b not0 not1 =>
      ⟨receiveRequest_acts takeable (setOutputGate_badValue not0 not1),
        receiveRequest_acts takeable (runPlan_badValue not0 not1)⟩⟩⟩
  rw [← startPlan_eq]
  exact receiveRequest_acts takeable (runPlan_starts filled fromStart)

/-! ### The advance of the position (R103, R115) -/

section
variable (set : GovSet) (t : Timer)

theorem advancePlan_same :
    (advancePlan set t).timer.gateOpen = t.gateOpen ∧ (advancePlan set t).timer.reportCount = t.reportCount := by
  unfold advancePlan advanceRunning
  repeat' split
  all_goals exact ⟨rfl, rfl⟩

variable {t}

theorem advancePlan_idle (idle : t.run ≠ .running) : advancePlan set t = ⟨t, false, false⟩ := by
  unfold advancePlan
  split
  · contradiction
  all_goals rfl

variable (t)

/-- R103, R115: an expiry begins a cadence of the plan exactly when the plan is RUNNING after it. -/
theorem advancePlan_begins_iff : (advancePlan set t).begins = true ↔ (advancePlan set t).timer.run = .running := by
  by_cases run : t.run = .running
  · simp only [advancePlan, run, advanceRunning]
    repeat' split
    all_goals simp
  · simp [advancePlan_idle set run, run]

variable {t}

/-- R103: the advance of a RUNNING plan, case by case. -/
theorem advancePlan_running (running : t.run = .running) :
    let a := advancePlan set t
    a.timer.startPending = false
      ∧ if t.startPending = true then a.timer.run = .running ∧ a.timer.step = t.step ∧ a.timer.cadence = t.cadence
        else if t.cadence + 1 < (stepAt set t.step).duration then
          a.timer.run = .running ∧ a.timer.step = t.step ∧ a.timer.cadence = t.cadence + 1
        else if t.step + 1 < set.plan.count then
          a.timer.run = .running ∧ a.timer.step = t.step + 1 ∧ a.timer.cadence = 0
        else if set.plan.kind = .cyclic then a.timer.run = .running ∧ a.timer.step = 0 ∧ a.timer.cadence = 0
        else a.timer.run = .ended ∧ a.timer.step = t.step ∧ a.timer.cadence = t.cadence ∧ a.ended = true := by
  simp only [advancePlan, running, advanceRunning]
  split_ifs with pending next later cyclic
  · simp
  · simp [pending]
  · simp [pending]
  · simp [pending, cyclic]
  · have oneShot : set.plan.kind = .oneShot := by
      cases kind : set.plan.kind with
      | cyclic => exact absurd kind cyclic
      | oneShot => rfl
    simp [oneShot, pending]

/-- R115: the report point test. -/
theorem pointReached_iff (h : PlanHeader) (t : Timer) :
    pointReached h t = true ↔ t.cadence = h.pointCadence ∧ (h.pointMode = .once → t.step = h.pointStep) := by
  unfold pointReached
  split <;> simp_all [and_comm]

end

/-! ### The Plan Timer's work at an expiry (R102 to R104, R115, R116) -/

section
variable (s : State)

/-- R103, R104: the timer after the Plan Timer's work of an expiry. -/
theorem timerExpiry_timer :
    (timerExpiry s).timer
      = { (advancePlan s.mgmt.active s.timer).timer with
          reportCount := if s.mgmt.active.t10.reportInterval ≤ s.timer.reportCount + 1 then 0 else s.timer.reportCount + 1
          schedule := secondsAfter s.clock.ssc s.mgmt.active.t10.cadenceLength } := by
  simp [timerExpiry]

theorem timerExpiry_periodicDue :
    (timerExpiry s).report.periodicDue = true
      ↔ s.report.periodicDue = true ∨ s.mgmt.active.t10.reportInterval ≤ s.timer.reportCount + 1 := by
  simp [timerExpiry]

theorem timerExpiry_pointDue :
    (timerExpiry s).report.pointDue = true
      ↔ s.report.pointDue = true
        ∨ (advancePlan s.mgmt.active s.timer).timer.run = .running
          ∧ pointReached s.mgmt.active.plan (advancePlan s.mgmt.active s.timer).timer = true := by
  simp [timerExpiry, advancePlan_begins_iff]

variable {s}

theorem flagIn_timerExpiry_planEnded (ended : (advancePlan s.mgmt.active s.timer).ended = true) :
    flagIn .planEnded (timerExpiry s).report.flags = true := by
  simp [timerExpiry, flagIn_raiseIf, ended]

variable (s)

theorem switched_active :
    (switched s).mgmt.active = if s.mgmt.switchPending = true then s.mgmt.shadow else s.mgmt.active := by
  split
  · next pending => rw [switched_mgmt pending]
  · next none =>
    rw [switched_none (by simpa using none)]
    rfl

/-- R116: the timer that an expiry's advance starts from. -/
theorem switched_timer :
    (switched s).timer
      = if s.mgmt.switchPending = false then s.timer else checkPosition (switched s).mgmt.active s.timer := by
  split
  · next none =>
    rw [switched_none none]
    rfl
  · next pending =>
    obtain ⟨mgmt, -, -, -, -, timer, -⟩ := setSwitch_fields (openExpiry s)
    rw [switched_some (by simpa using pending), timer, mgmt]
    rfl

/-- R116: the check of a switch touches the run state, the position and the start-pending mark alone. -/
theorem checkPosition_same (set : GovSet) (t : Timer) :
    (checkPosition set t).gateOpen = t.gateOpen ∧ (checkPosition set t).reportCount = t.reportCount := by
  unfold checkPosition
  split_ifs <;> exact ⟨rfl, rfl⟩

theorem switched_timer_same :
    (switched s).timer.gateOpen = s.timer.gateOpen ∧ (switched s).timer.reportCount = s.timer.reportCount := by
  rw [switched_timer]
  split
  · exact ⟨rfl, rfl⟩
  · exact checkPosition_same _ _

end

/-- Settles O13: the timer of an expiry is the advance (`advancePlan_running`, `advancePlan_idle`) of the one that the switch leaves
(`switched_timer`), and the report events are those of `timerExpiry_periodicDue` and `timerExpiry_pointDue`. -/
theorem expiryAdvancesPlan : Obligations.ExpiryAdvancesPlan := by
  unfold Obligations.ExpiryAdvancesPlan
  intro s awake settled due idle
  refine ⟨_, exec_cadenceExpiry awake settled due idle, ?_⟩
  obtain ⟨-, -, -, -, timer, periodicDue, pointDue, -⟩ := expiryWork_fields s
  obtain ⟨-, -, -, -, periodic, point⟩ := switched_same s
  obtain ⟨gate, count⟩ := switched_timer_same s
  have ended : _ → flagIn .planEnded (expiryWork s).report.flags = true := fun h =>
    flagIn_expiryWork_of_timer (flagIn_timerExpiry_planEnded h)
  have periodicIff := timerExpiry_periodicDue (switched s)
  have pointIff := timerExpiry_pointDue (switched s)
  rw [← periodicDue, periodic, count] at periodicIff
  rw [← pointDue, point, pointReached_iff] at pointIff
  rw [timerExpiry_timer, count] at timer
  intro set now
  have active : set = (switched s).mgmt.active := (switched_active s).symm
  have start : now = (switched s).timer := by
    rw [switched_timer, ← active]
    rfl
  clear_value now set
  subst active start
  simp only [closeEvent_same, beginComputation_timer, beginComputation_report, timer]
  have same := advancePlan_same (switched s).mgmt.active (switched s).timer
  refine ⟨same.1.trans gate, trivial, periodicIff, pointIff, fun stopped => ?_, fun running => ?_⟩
  · rw [advancePlan_idle _ stopped]
    exact ⟨rfl, rfl, rfl, rfl⟩
  · obtain ⟨used, cases⟩ := advancePlan_running (switched s).mgmt.active running
    refine ⟨used, ?_⟩
    split_ifs at cases ⊢
    case neg =>
      obtain ⟨run, step, cadence, last⟩ := cases
      exact ⟨run, step, cadence, ended last⟩
    all_goals exact cases

end Sys2Proof.Machine

/-! The Plan Timer's and the Mode Supervisor's invariant (R101, R116, R121, R125, R128, R132): what each piece of work leaves of the
plan position and of the mode record. -/

namespace Sys2Proof.Machine

/-! ### What the mode record keeps (R121, R125, R128, R132) -/

/-- A mode record as the rules of its fields give it, with the set that is active: outside INITIAL the entry of Table 7-3, no SCHEDULE
without a plan, the duty OFF in INITIAL, and no fall dwell at NORMAL. -/
structure ModeRecord.Lawful (set : GovSet) (m : ModeRecord) : Prop where
  table : m.ByTable
  schedule : m.requested = .schedule → set.plan.count ≠ 0
  duty : m.effective = .initial → m.duty = false
  dwell : m.stage = .normal → m.dwellStart = none

section
variable {set : GovSet} {s : State}

@[simp] theorem recomputeMode_stage (s : State) : (recomputeMode s).mode.stage = s.mode.stage := by
  rw [recomputeMode_mode]
  split <;> rfl

@[simp] theorem recomputeMode_dwellStart (s : State) : (recomputeMode s).mode.dwellStart = s.mode.dwellStart := by
  rw [recomputeMode_mode]
  split <;> rfl

/-- R121: NORMAL has no fall level, so a fall to NORMAL starts no dwell. -/
theorem fallStage_dwell (hw : Nat) (s : State) (normal : (fallStage hw s).mode.stage = .normal) :
    (fallStage hw s).mode.dwellStart = none := by
  have below : s.mode.stage.below = .normal := by simpa [fallStage] using normal
  simp [fallStage, below, belowFall]

namespace ModeRecord.Lawful

/-- R120, R121: the evaluation of a fresh headwater. -/
theorem evaluateStage (h : s.mode.Lawful set) (hw : Nat) : (evaluateStage hw s).mode.Lawful set where
  table := evaluateStage_byTable hw h.table
  schedule := by
    rw [evaluateStage_requested]
    exact h.schedule
  duty := by
    rw [evaluateStage_initial, evaluateStage_duty]
    exact h.duty
  dwell := by
    unfold Machine.evaluateStage fallTest
    dsimp only
    split
    · simp
    · split
      · exact h.dwell
      · next above =>
        repeat' split
        · exact fun normal => absurd normal above
        · exact fallStage_dwell hw s
        · exact h.dwell
        · exact fun _ => rfl

theorem vote (h : s.mode.Lawful set) (a b : Bool) : (vote a b s).mode.Lawful set := by
  rw [vote_mode]
  split
  · exact h.evaluateStage _
  · exact h

theorem evaluateStale (h : s.mode.Lawful set) : (evaluateStale s).mode.Lawful set := by
  unfold Machine.evaluateStale voteTouched
  refine vote ?_ _ _
  exact h

theorem takeSample (h : s.mode.Lawful set) (src : Byte) (es : List SampleEntry) : (takeSample src es s).mode.Lawful set := by
  obtain ⟨m, c, offered⟩ := offerEntries_same src es (s, [])
  refine vote ?_ _ _
  rw [offered]
  exact h

/-- R125, R127: a newly requested mode that is not a SCHEDULE without a plan. -/
theorem setRequested (h : s.mode.Lawful set) {m : ReqMode} (plan : m = .schedule → set.plan.count ≠ 0) :
    (setRequested m s).mode.Lawful set := by
  unfold Machine.setRequested
  split
  · exact h
  · exact
      { table := recomputeMode_byTable _
        schedule := by simpa using plan
        duty := by simpa using h.duty
        dwell := by simpa using h.dwell }

theorem requestMode (h : s.mode.Lawful s.mgmt.active) (ops : List Byte) :
    (requestMode ops s).2.mode.Lawful s.mgmt.active := by
  unfold Machine.requestMode
  split
  · split
    · exact h
    · split
      · exact h
      · next taken => exact h.setRequested fun schedule empty => taken ⟨schedule, empty⟩
  · exact h

/-- R130: the mode that a completion in INITIAL leaves for. -/
theorem leaving {m : ModeRecord} (h : m.Lawful set) :
    ({ m with effective := effectiveMode m.requested m.stage } : ModeRecord).Lawful set where
  table := .inr rfl
  schedule := h.schedule
  duty initial := absurd initial (effectiveMode_ne_initial _ _)
  dwell := h.dwell

/-- R59: of the completions only the one that leaves INITIAL touches the mode record. -/
theorem completeBody (h : s.mode.Lawful set) (sn : Snapshot) : (completeBody sn s).mode.Lawful set := by
  unfold Machine.completeBody
  split
  · split
    · rw [completeLeaving_mode]
      exact h.leaving
    · exact h
  · simpa using h

/-- The votes of a set switch. -/
theorem voted (h : s.mode.Lawful set) : (votedMode s).Lawful set := by
  unfold votedMode
  split
  · exact evaluateStage (s := { s with mgmt := (Machine.setSwitch s).mgmt }) h _
  · exact h

end ModeRecord.Lawful

/-- R128: beyond its votes a set switch touches the requested and the effective mode alone. -/
theorem setSwitch_mode_same (s : State) :
    (setSwitch s).mode.stage = (votedMode s).stage ∧ (setSwitch s).mode.dwellStart = (votedMode s).dwellStart
      ∧ (setSwitch s).mode.duty = (votedMode s).duty := by
  rw [setSwitch_mode]
  repeat' split
  all_goals exact ⟨rfl, rfl, rfl⟩

namespace ModeRecord.Lawful

/-- R128: a set switch leaves no SCHEDULE without a plan in the new set. -/
theorem setSwitch (h : s.mode.Lawful s.mgmt.active) : (setSwitch s).mode.Lawful s.mgmt.shadow := by
  obtain ⟨stage, dwell, duty⟩ := setSwitch_mode_same s
  exact
    { table := setSwitch_byTable h.table
      schedule := by
        rw [setSwitch_requested]
        split
        · nofun
        · next kept => exact fun schedule empty => kept ⟨empty, schedule⟩
      duty := by
        rw [setSwitch_initial, duty, votedMode_duty]
        exact h.duty
      dwell := by
        rw [stage, dwell]
        exact h.voted.dwell }

theorem switched (h : s.mode.Lawful s.mgmt.active) : (switched s).mode.Lawful (switched s).mgmt.active := by
  by_cases pending : s.mgmt.switchPending = true
  · rw [switched_mgmt pending, switched_some pending]
    exact setSwitch (s := openExpiry s) h
  · rw [switched_none (by simpa using pending)]
    exact h

/-- R122, R132: the Mode Supervisor's work of an expiry. -/
theorem expiryWork (h : s.mode.Lawful s.mgmt.active) : (expiryWork s).mode.Lawful (expiryWork s).mgmt.active := by
  have taken := h.switched
  rw [expiryWork_mode, (expiryWork_fields s).1]
  exact
    { table := taken.table
      schedule := taken.schedule
      duty := fun initial => by
        dsimp only at initial ⊢
        rw [if_pos initial]
        exact taken.duty initial
      dwell := fun normal => by
        dsimp only at normal ⊢
        split
        · exact taken.dwell normal
        · rfl }

end ModeRecord.Lawful

end

/-! ### The invariant of the plan position and the mode record -/

/-- Of R167's checks, check 7, of the active set and of a shadow that waits for its switch: every step of their plans lasts. -/
def Management.PlansLast (m : Management) : Prop := m.active.StepsLast ∧ (m.switchPending = true → m.shadow.StepsLast)

theorem SetInv.plansLast {s : State} (h : SetInv s) : s.mgmt.PlansLast :=
  ⟨stepsLast_of_check7 (check7_of_passesChecks h.active), fun pending =>
    stepsLast_of_check7 (check7_of_passesChecks (h.pending pending).1)⟩

/-- The Plan Timer's and the Mode Supervisor's invariant, with what it needs of the sets to be kept. -/
structure PlanModeKept (s : State) : Prop where
  position : s.timer.PositionIn s.mgmt.active
  mode : s.mode.Lawful s.mgmt.active
  plans : s.mgmt.PlansLast

section
variable {s t : State}

theorem PlanModeInv.kept (h : PlanModeInv s) (plans : s.mgmt.PlansLast) : PlanModeKept s :=
  ⟨(positionValid_iff s).1 h.position, ⟨h.mode, h.schedule, h.duty, h.dwell⟩, plans⟩

namespace PlanModeKept

theorem inv (h : PlanModeKept s) : PlanModeInv s :=
  ⟨(positionValid_iff s).2 h.position, h.mode.table, h.mode.schedule, h.mode.duty, h.mode.dwell⟩

/-- Work that leaves the timer and the sets. -/
theorem of_mode (h : PlanModeKept s) (timer : t.timer = s.timer) (mgmt : t.mgmt = s.mgmt)
    (mode : t.mode.Lawful s.mgmt.active) : PlanModeKept t where
  position := by
    rw [timer, mgmt]
    exact h.position
  mode := by
    rw [mgmt]
    exact mode
  plans := by
    rw [mgmt]
    exact h.plans

/-- Work that leaves the timer, the mode record and the sets. -/
theorem of_frame (h : PlanModeKept s) (frame : t.timer = s.timer ∧ t.mode = s.mode ∧ t.mgmt = s.mgmt) : PlanModeKept t := by
  obtain ⟨timer, mode, mgmt⟩ := frame
  exact h.of_mode timer mgmt (by rw [mode]; exact h.mode)

/-- Work of the Management Agent that leaves the active set. -/
theorem of_mgmt (h : PlanModeKept s) (timer : t.timer = s.timer) (mode : t.mode = s.mode)
    (active : t.mgmt.active = s.mgmt.active) (pending : t.mgmt.switchPending = true → t.mgmt.shadow.StepsLast) :
    PlanModeKept t where
  position := by
    rw [timer, active]
    exact h.position
  mode := by
    rw [mode, active]
    exact h.mode
  plans := ⟨by rw [active]; exact h.plans.1, pending⟩

/-- Work of the Plan Timer. -/
theorem withTimer (h : PlanModeKept s) {timer : Timer} (position : timer.PositionIn s.mgmt.active) :
    PlanModeKept { s with timer := timer } := ⟨position, h.mode, h.plans⟩

/-! ### The cadence expiry, the completion and the reset commands -/

/-- R116: the switch of an expiry leaves a position of the set then active, whose steps last. -/
theorem switched_position (h : PlanModeKept s) :
    (switched s).timer.PositionIn (switched s).mgmt.active ∧ (switched s).mgmt.PlansLast := by
  rw [switched_timer]
  split
  · next none =>
    rw [switched_none none]
    exact ⟨h.position, h.plans⟩
  · next pending =>
    rw [switched_mgmt (by simpa using pending)]
    have lasts : s.mgmt.shadow.StepsLast := h.plans.2 (by simpa using pending)
    exact ⟨.checked lasts s.timer, lasts, by simp⟩

theorem cadenceExpiry (h : PlanModeKept s) : PlanModeKept (cadenceExpiry s) := by
  obtain ⟨mgmt, -, -, -, timer, -⟩ := expiryWork_fields s
  obtain ⟨position, plans⟩ := h.switched_position
  have work : PlanModeKept (expiryWork s) :=
    { position := by
        rw [timer, mgmt, timerExpiry_timer]
        exact (position.advanced plans.1).of_same rfl rfl fun stopped started => absurd stopped started
      mode := h.mode.expiryWork
      plans := by
        rw [mgmt]
        exact plans }
  exact work.of_frame ⟨beginComputation_timer _, beginComputation_mode _, beginComputation_mgmt _⟩

theorem completeComputation (h : PlanModeKept s) (sn : Snapshot) : PlanModeKept (completeComputation sn s) := by
  refine h.of_mode (by simp [Machine.completeComputation]) (by simp [Machine.completeComputation]) ?_
  simpa [Machine.completeComputation] using
    ModeRecord.Lawful.completeBody (s := { s with engine := { s.engine with computation := none } }) h.mode sn

/-- R101, R119: RESTART goes to the start of the plan, stopped, and into INITIAL with the duty OFF at NORMAL. -/
theorem restart (h : PlanModeKept s) : PlanModeKept (restartRequest s).2 := by
  have position : (restartedTimer s.mgmt.active s.clock.ssc).PositionIn s.mgmt.active := by
    by_cases empty : s.mgmt.active.plan.count = 0
    · exact positionIn_of_empty empty rfl rfl rfl
    · exact positionIn_of_stepStart h.plans.1 (Nat.pos_of_ne_zero empty) rfl
  have started : PlanModeKept (restartState s) :=
    { position := position
      mode := ⟨.inl rfl, h.mode.schedule, fun _ => rfl, fun _ => rfl⟩
      plans := ⟨h.plans.1, by simp⟩ }
  exact started.of_frame (by simp [restartRequest])

/-! ### The requests, and the arrival of a PHASE -/

theorem run (h : PlanModeKept s) (ops : List Byte) : PlanModeKept (runPlan ops s).2 := by
  unfold runPlan
  split
  · split
    · exact h
    · split
      · exact h
      · next filled => exact h.withTimer (h.position.started h.plans.1 filled _)
  · exact h

/-- R108: a stopped plan may be empty, so its position may stay. -/
theorem stop (h : PlanModeKept s) (ops : List Byte) : PlanModeKept (stopPlan ops s).2 := by
  unfold stopPlan
  dsimp only
  split
  · refine h.withTimer ?_
    split
    · exact h.position
    · exact h.position.of_same rfl rfl (by simp)
  · exact h

theorem output (h : PlanModeKept s) (ops : List Byte) : PlanModeKept (setOutputGate ops s).2 := by
  unfold setOutputGate
  repeat' split
  · exact h
  · exact h.withTimer h.position
  · exact h

/-- R112: an accepted PHASE loads a position of the plan. -/
theorem phase (h : PlanModeKept s) (p : PhaseFields) : PlanModeKept (takePhase p s) := by
  by_cases followed : s.mgmt.active.plan.phaseFollow = true ∧ p.origin.toNat = s.mgmt.active.plan.followed
  · obtain ⟨follow, origin⟩ := followed
    rcases Nat.lt_or_ge p.step.toNat s.mgmt.active.plan.count with within | beyond
    · obtain ⟨step, cadence, -⟩ := phasePosition_spec h.plans.1 (by omega) p.step.toNat p.cadence.toNat
      rw [takePhase_within follow origin within]
      exact h.withTimer (positionIn_of_within step cadence)
    · rw [takePhase_beyond follow origin beyond]
      exact h.of_frame (by simp)
  · rw [takePhase_unfollowed (by simpa [imp_iff_not_or] using followed)]
    exact h

theorem modeRequested (h : PlanModeKept s) (ops : List Byte) : PlanModeKept (requestMode ops s).2 := by
  refine h.of_mode ?_ ?_ (h.mode.requestMode ops)
  all_goals
    unfold requestMode
    dsimp only
    repeat' split
    all_goals simp

theorem write (h : PlanModeKept s) (src : Byte) (ops : List Byte) : PlanModeKept (writeRequest src ops s).2 := by
  obtain ⟨-, active, -, pending, busy, -⟩ := writeRequest_mgmt src ops s
  obtain ⟨m, touched⟩ := writeRequest_same src ops s
  refine h.of_mgmt (by rw [touched]) (by rw [touched]) active fun waits => ?_
  rw [pending] at waits
  rw [busy waits]
  exact h.plans.2 waits

/-- R167: a COMMIT that is taken has passed check 7. -/
theorem commit (h : PlanModeKept s) : PlanModeKept (commitRequest s).2 := by
  unfold commitRequest
  split
  · exact h
  · split
    · next passes => exact h.of_mgmt rfl rfl rfl fun _ => stepsLast_of_check7 (check7_of_passesChecks passes)
    · exact h

theorem lock (h : PlanModeKept s) : PlanModeKept (lockRequest s).2 := by
  unfold lockRequest
  repeat' split
  · exact h
  · exact h
  · exact h.of_mgmt rfl rfl rfl h.plans.2

end PlanModeKept

end

/-! ### Work that leaves the timer, the mode record and the sets -/

section
variable (s : State)

theorem endSend_plan : (endSend s).timer = s.timer ∧ (endSend s).mode = s.mode ∧ (endSend s).mgmt = s.mgmt := by
  unfold endSend
  split <;> simp

theorem relayFrame_plan (f : Frame) :
    (relayFrame f s).timer = s.timer ∧ (relayFrame f s).mode = s.mode ∧ (relayFrame f s).mgmt = s.mgmt := by
  unfold relayFrame
  repeat' split
  all_goals simp

theorem stripFrame_plan (f : Frame) :
    (stripFrame f s).timer = s.timer ∧ (stripFrame f s).mode = s.mode ∧ (stripFrame f s).mgmt = s.mgmt := by
  unfold stripFrame handReturn
  repeat' split
  all_goals simp

theorem clearRequest_plan (ops : List Byte) :
    (clearRequest ops s).2.timer = s.timer ∧ (clearRequest ops s).2.mode = s.mode ∧ (clearRequest ops s).2.mgmt = s.mgmt := by
  unfold clearRequest
  split <;> exact ⟨rfl, rfl, rfl⟩

variable (g : GateNo)

theorem enableGate_timer : (enableGate g s).2.timer = s.timer := by
  unfold enableGate gateReply refuse
  dsimp only
  repeat' split
  all_goals simp

theorem disableGate_timer : (disableGate g s).2.timer = s.timer := by
  unfold disableGate gateReply
  split <;> simp

theorem holdGate_timer : (holdGate g s).2.timer = s.timer := by
  unfold holdGate gateReply refuse
  repeat' split
  all_goals simp

theorem releaseGate_timer : (releaseGate g s).2.timer = s.timer := by
  unfold releaseGate gateReply refuse
  split <;> simp

theorem clearFaultGate_timer : (clearFaultGate g s).2.timer = s.timer := by
  unfold clearFaultGate gateReply refuse
  dsimp only
  repeat' split
  all_goals simp

end

theorem planModeKept_pinReset (addr : Byte) (stn : BitVec 3) (q : List Instr) : PlanModeKept (State.pinReset addr stn q) where
  position := positionIn_of_empty rfl rfl rfl rfl
  mode := ⟨.inl rfl, nofun, fun _ => rfl, fun _ => rfl⟩
  plans := ⟨nofun, nofun⟩

/-- Every piece of work of the blocks keeps the plan position valid and the mode record lawful. -/
theorem keeps_planModeKept : Keeps PlanModeKept where
  assertReset s h := h.of_frame ⟨rfl, rfl, rfl⟩
  close s h := h.of_frame (by simp)
  count c n s h := h.of_frame ⟨rfl, rfl, rfl⟩
  answer q r s _ h := h.of_frame ⟨rfl, rfl, rfl⟩
  stale s h := h.of_mode (by simp) (by simp) (.evaluateStale h.mode)
  due s h := h.of_frame (by simp)
  tick s h := h.of_frame ⟨rfl, rfl, rfl⟩
  expiry s _ _ h := h.cadenceExpiry
  completion sn s _ h := h.completeComputation sn
  millisecond s h := h.of_frame (by simp)
  sent s h := h.of_frame (endSend_plan s)
  sample src es s h := h.of_mode (by simp) (by simp) (h.mode.takeSample src es)
  notice n s h := h.of_frame (by simp)
  phase p s h := h.phase p
  strip f s h := h.of_frame (stripFrame_plan s f)
  relay f s h := h.of_frame (relayFrame_plan s f)
  write src ops s h := h.write src ops
  commit s h := h.commit
  cancel s h := h.of_mgmt rfl rfl rfl (by simp [cancelRequest])
  lock s h := h.lock
  enable g s _ h := h.of_frame (by simp [enableGate_timer])
  disable g s _ h := h.of_frame (by simp [disableGate_timer])
  hold g s _ h := h.of_frame (by simp [holdGate_timer])
  release g s _ h := h.of_frame (by simp [releaseGate_timer])
  clearFault g s _ h := h.of_frame (by simp [clearFaultGate_timer])
  mode ops s h := h.modeRequested ops
  run ops s h := h.run ops
  stop ops s h := h.stop ops
  output ops s h := h.output ops
  clear ops s h := h.of_frame (clearRequest_plan s ops)
  counters s h := h.of_frame ⟨rfl, rfl, rfl⟩
  restart s h := h.restart

/-- Settles O58: each piece of work keeps the invariant (`keeps_planModeKept`), with the lasting steps that the sets'
invariant gives. -/
theorem planModeInvariantKept : Obligations.PlanModeInvariantKept := fun _ _ sets inv taken =>
  (keeps_planModeKept.step planModeKept_pinReset (fun _ _ h => h.of_frame ⟨rfl, rfl, rfl⟩) (inv.kept sets.plansLast)
    taken).inv

end Sys2Proof.Machine

/-! The flood stages (R120, R121, R124): what a fresh headwater makes of the stage and the fall dwell; and MODE_REQUEST (R125 to R127) by
its operand byte. -/

namespace Sys2Proof.Machine

/-! ### The fall level of a stage (R121) -/

/-- R120: the level at or above which the headwater raises the station to a stage. -/
def PlantParams.threshold (p : PlantParams) : Stage → Option Nat
  | .normal => none
  | .alert => some p.tAlert
  | .flood => some p.tFlood
  | .extreme => some p.tExtreme

/-- R121: a headwater lies below a fall level only where the threshold less HYS is not below 0, where it is none. -/
theorem belowFall_iff (p : PlantParams) (hw : Nat) (st : Stage) :
    belowFall p hw st = true ↔
      ∃ l, p.threshold st = some l ∧ 0 ≤ (l : Int) - p.hys ∧ (hw : Int) < (l : Int) - p.hys := by
  have level (l : Nat) : hw < l - p.hys ↔ 0 ≤ (l : Int) - p.hys ∧ (hw : Int) < (l : Int) - p.hys := by omega
  cases st <;> simp [belowFall, PlantParams.threshold, level]

/-! ### A change of the stage (R120, R121, R124) -/

section
variable {s : State} {hw : Nat}

/-- R120, R124: a rise is taken at once. -/
theorem evaluateStage_rises (rises : s.mode.stage.rank < (stageReached s.mgmt.active.t10 hw).rank) :
    (evaluateStage hw s).mode.stage = stageReached s.mgmt.active.t10 hw ∧ (evaluateStage hw s).mode.dwellStart = none
      ∧ flagIn .stageRise (evaluateStage hw s).report.flags = true := by
  rw [evaluateStage, if_pos rises]
  refine ⟨by simp, by simp, flagIn_recomputeMode_of ?_⟩
  simp [flagIn_raise]

theorem evaluateStage_noRise (noRise : (stageReached s.mgmt.active.t10 hw).rank ≤ s.mode.stage.rank) :
    evaluateStage hw s = fallTest hw s := if_neg (Nat.not_lt.2 noRise)

/-- R121, R124: a fall is by one stage, and the dwell then restarts when the headwater is below the new fall level too. -/
theorem fallStage_falls (hw : Nat) (s : State) :
    (fallStage hw s).mode.stage = s.mode.stage.below ∧ flagIn .stageFall (fallStage hw s).report.flags = true
      ∧ (fallStage hw s).mode.dwellStart
          = if belowFall s.mgmt.active.t10 hw s.mode.stage.below = true then some s.clock.ssc else none := by
  unfold fallStage
  refine ⟨by simp, flagIn_recomputeMode_of ?_, by simp⟩
  simp [flagIn_raise]

/-! ### The fall test by its cases (R121) -/

/-- NORMAL has no fall level, so no headwater lies below it. -/
theorem stage_ne_normal_of_belowFall (low : belowFall s.mgmt.active.t10 hw s.mode.stage = true) : s.mode.stage ≠ .normal := by
  intro normal
  rw [normal] at low
  exact Bool.noConfusion low

theorem fallTest_notLow (notLow : ¬ belowFall s.mgmt.active.t10 hw s.mode.stage = true) :
    (fallTest hw s).mode
      = { s.mode with dwellStart := if s.mode.stage = .normal then s.mode.dwellStart else none } := by
  by_cases normal : s.mode.stage = .normal
  · rw [fallTest, if_pos normal, if_pos normal]
  · rw [fallTest, if_neg normal, if_neg notLow, if_neg normal]

theorem fallTest_starts (low : belowFall s.mgmt.active.t10 hw s.mode.stage = true) (absent : s.mode.dwellStart = none) :
    (fallTest hw s).mode = { s.mode with dwellStart := some s.clock.ssc } := by
  rw [fallTest, if_neg (stage_ne_normal_of_belowFall low), if_pos low, absent]

theorem fallTest_dwelt (low : belowFall s.mgmt.active.t10 hw s.mode.stage = true) {d : Nat}
    (present : s.mode.dwellStart = some d) :
    fallTest hw s = if s.mgmt.active.t10.fallDwell ≤ s.clock.ssc - d then fallStage hw s else s := by
  rw [fallTest, if_neg (stage_ne_normal_of_belowFall low), if_pos low, present]

/-- R121: one evaluation without a rise keeps the stage or lets it fall by one, below its fall level and after the dwell. -/
theorem fallTest_stage (hw : Nat) (s : State) :
    (fallTest hw s).mode.stage = s.mode.stage
      ∨ ((fallTest hw s).mode.stage = s.mode.stage.below ∧ belowFall s.mgmt.active.t10 hw s.mode.stage = true
          ∧ flagIn .stageFall (fallTest hw s).report.flags = true
          ∧ ∃ d, s.mode.dwellStart = some d ∧ s.mgmt.active.t10.fallDwell ≤ s.clock.ssc - d) := by
  by_cases low : belowFall s.mgmt.active.t10 hw s.mode.stage = true
  · cases start : s.mode.dwellStart with
    | none => exact .inl (by rw [fallTest_starts low start])
    | some d =>
      rw [fallTest_dwelt low start]
      split
      · next ended =>
        obtain ⟨stage, flag, -⟩ := fallStage_falls hw s
        exact .inr ⟨stage, low, flag, d, rfl, ended⟩
      · exact .inl rfl
  · exact .inl (by rw [fallTest_notLow low])

/-- R125: outside INITIAL a fresh headwater leaves the entry of Table 7-3. -/
theorem evaluateStage_governed (hw : Nat) (table : ModeByTable s) (governed : s.mode.effective ≠ .initial) :
    (evaluateStage hw s).mode.effective ≠ .initial
      ∧ (evaluateStage hw s).mode.effective
          = effectiveMode (evaluateStage hw s).mode.requested (evaluateStage hw s).mode.stage := by
  have still : (evaluateStage hw s).mode.effective ≠ .initial := mt (evaluateStage_initial hw s).1 governed
  exact ⟨still, (evaluateStage_byTable hw table).resolve_left still⟩

end

/-- Settles O24: a rise is `evaluateStage_rises`; without one the stage goes by the cases of the fall test, where the low of
the statement is `belowFall` (`belowFall_iff`). -/
theorem freshHeadwaterMovesStage : Obligations.FreshHeadwaterMovesStage := by
  unfold Obligations.FreshHeadwaterMovesStage
  intro hw s table p t reached threshold low
  have low_iff (st : Stage) : low st ↔ belowFall p hw st = true := (belowFall_iff p hw st).symm
  refine ⟨evaluateStage_rises, fun noRise => ?_, ⟨rfl, rfl, rfl⟩, rfl, ⟨rfl, rfl, rfl⟩, evaluateStage_governed hw table,
    evaluateStage_byTable hw table, (evaluateStage_initial hw s).2, evaluateStage_requested hw s, evaluateStage_duty hw s⟩
  have tested : t = fallTest hw s := evaluateStage_noRise noRise
  simp only [low_iff, tested]
  refine ⟨fallTest_stage hw s, fun notLow => ?_, fun isLow absent => ?_, fun d isLow present ended => ?_,
    fun d isLow present running => ?_⟩
  · rw [fallTest_notLow notLow]
    exact ⟨rfl, rfl⟩
  · rw [fallTest_starts isLow absent]
    exact ⟨rfl, rfl⟩
  · obtain ⟨stage, flag, dwell⟩ := fallStage_falls hw s
    rw [fallTest_dwelt isLow present, if_pos ended]
    exact ⟨stage, flag, fun again => dwell.trans (if_pos again), fun clear => dwell.trans (if_neg clear)⟩
  · rw [fallTest_dwelt isLow present, if_neg (Nat.not_le.2 running)]

/-! ### MODE_REQUEST by its operand byte (R125 to R127) -/

section
variable {s : State} {b : Byte} {m : ReqMode}

theorem readMode_eq_none (not1 : b ≠ 1) (not2 : b ≠ 2) (not3 : b ≠ 3) : readMode b = none := by
  rw [readMode, if_neg not1, if_neg not2, if_neg not3]

/-- R127: the byte that asks for a mode is the code of that mode. -/
theorem readMode_eq_some (named : (b = 1 ∧ m = .schedule) ∨ (b = 2 ∧ m = .passThrough) ∨ (b = 3 ∧ m = .hold)) :
    readMode b = some m ∧ m.toMode.code = b := by
  obtain ⟨rfl, rfl⟩ | ⟨rfl, rfl⟩ | ⟨rfl, rfl⟩ := named <;> exact ⟨rfl, rfl⟩

theorem requestMode_badValue (unread : readMode b = none) : requestMode [b] s = (⟨.badValue, modeData s⟩, s) := by
  rw [requestMode, unread]

theorem requestMode_noPlan (read : readMode b = some .schedule) (empty : s.mgmt.active.plan.count = 0) :
    requestMode [b] s = (⟨.noPlan, modeData s⟩, s) := by
  simp [requestMode, read, empty]

theorem requestMode_sets (read : readMode b = some m) (plan : m = .schedule → s.mgmt.active.plan.count ≠ 0) :
    requestMode [b] s = (⟨.ok, modeData (setRequested m s)⟩, setRequested m s) := by
  simp only [requestMode, read]
  exact if_neg fun ⟨schedule, empty⟩ => plan schedule empty

/-- R125: the effective mode for a requested mode, in the state of a mode record. -/
def ModeRecord.effectiveFor (r : ModeRecord) (m : ReqMode) : Mode :=
  if r.effective = .initial then .initial else effectiveMode m r.stage

/-- The state with a requested mode and its effective mode, before DEMOTED. -/
def withRequested (m : ReqMode) (s : State) : State :=
  { s with mode := { s.mode with requested := m, effective := s.mode.effectiveFor m } }

/-- R125, R126: another requested mode, its effective mode, and DEMOTED where the two then differ outside INITIAL. -/
theorem setRequested_other (other : m ≠ s.mode.requested) :
    setRequested m s
      = if s.mode.effectiveFor m ≠ .initial ∧ s.mode.effectiveFor m ≠ m.toMode then raise .demoted (withRequested m s)
        else withRequested m s := by
  rw [setRequested, if_neg other.symm, recomputeMode]
  by_cases initial : s.mode.effective = .initial
  · have stays : s.mode.effectiveFor m = .initial := if_pos initial
    rw [if_pos initial, if_neg fun demoted => demoted.1 stays, withRequested, stays, ← initial]
  · have entry : s.mode.effectiveFor m = effectiveMode m s.mode.stage := if_neg initial
    rw [if_neg initial, withRequested, entry]
    simp only [raiseIf, ModeRecord.demoted, decide_eq_true_eq]

/-- R127: the modes that an OK response carries. -/
theorem modeData_setRequested (other : m ≠ s.mode.requested) :
    modeData (setRequested m s) = [m.toMode.code, (s.mode.effectiveFor m).code] := by
  rw [setRequested_other other]
  split <;> simp [modeData, withRequested]

end

/-- R127: a MODE_REQUEST that is taken answers what `requestMode` answers. -/
theorem exec_modeRequest {q : Requester} {b : Byte} {s t : State} {r : Reply} (takeable : Takeable q 1 s)
    (acts : requestMode [b] s = (r, t)) : exec (.modeRequest q [b]) s = .next (closeEvent (respond q r t)) := by
  have taken : exec (.modeRequest q [b]) s
      = .next (takeRingEvent (receiveRequest q 1 fun s => takeRequest q 1 (modeData s) (requestMode [b]) s) s) := rfl
  rw [taken, receiveRequest_takeable takeable, takeRequest_takeable takeable, acts]

/-- Settles O38: the request is taken as it is (`exec_modeRequest`), and acts by its byte, the plan and the mode requested before. -/
theorem modeRequestEffect : Obligations.ModeRequestEffect := by
  unfold Obligations.ModeRequestEffect
  intro q b s takeable now
  refine ⟨fun not1 not2 not3 => exec_modeRequest takeable (requestMode_badValue (readMode_eq_none not1 not2 not3)),
    fun schedule empty => exec_modeRequest takeable (requestMode_noPlan (schedule ▸ rfl) empty), ⟨rfl, rfl, rfl⟩, rfl,
    fun m named plan => ?_⟩
  obtain ⟨read, code⟩ := readMode_eq_some named
  have taken := exec_modeRequest takeable (requestMode_sets read plan)
  refine ⟨fun same => ?_, fun other => ?_⟩
  · rw [setRequested, if_pos same.symm] at taken
    exact taken
  · rw [modeData_setRequested other, setRequested_other other, code] at taken
    exact taken

end Sys2Proof.Machine

/-! The Ring Port's invariant (R140 to R143): a frame of kind ORDER in the response/report queue breaks it, and with none there every step
keeps it. Also that every command answers a next state. -/

namespace Sys2Proof.Machine

/-! ### A state that loses the invariant -/

/-- A state that `RingInv` admits and no run reaches: RO is sending, and the response/report queue holds a frame of kind ORDER, of which
the invariant says nothing. The send ends next. -/
def State.orderAmongResponses : State :=
  let s := State.pinReset 1 0 [.sendEnd]
  { s with
    ring :=
      { s.ring with
        ro := some { dest := 2, src := 1, kind := 0x42, seq := 0, payload := [], result := 0, hops := 0 }
        feed := [{ dest := 2, kind := .order, payload := [] }] } }

theorem ringInv_orderAmongResponses : RingInv State.orderAmongResponses where
  quiet := rfl
  feeds := ⟨by decide, by decide⟩
  distinct := ⟨by decide, by decide⟩
  gates := nofun

/-- R141: the arbiter sends the queued frame, whose in-flight entry is of kind ORDER and carries no gate. -/
theorem step_orderAmongResponses :
    ∃ t, step State.orderAmongResponses = .next t
      ∧ t.ring.inFlight = [{ kind := .order, seq := 0, gate := none, sent := 0 }] :=
  ⟨_, rfl, rfl⟩

/-- Refutes O54: the invariant does not say that the response/report queue holds no frame of kind ORDER, and one there goes in flight
without a gate (`step_orderAmongResponses`). `ringInv_step` is the statement with that clause added. -/
theorem not_ringInvariantKept : ¬ Obligations.RingInvariantKept := by
  unfold Obligations.RingInvariantKept
  intro kept
  obtain ⟨t, stepped, sent⟩ := step_orderAmongResponses
  have typed : InFlightGates t := (kept _ t ringInv_orderAmongResponses stepped).gates
  simp [InFlightGates, sent] at typed

/-! ### What the Ring Port keeps of its record (R140 to R143) -/

/-- The bounds and the in-flight list of `RingInv`, said of the ring's record, and that no ORDER stands in the response/report queue. -/
structure Ring.Bounded (r : Ring) : Prop where
  relay : r.relay.length ≤ 4
  feed : r.feed.length ≤ 8
  responses : ∀ f ∈ r.feed, f.kind ≠ .order
  room : r.inFlight.length ≤ 24
  distinct : (r.inFlight.map (·.seq)).Nodup
  typed : ∀ e ∈ r.inFlight, (e.gate.isSome ↔ e.kind = .order)

theorem ring_bounded_iff (s : State) :
    Quiet s ∧ s.ring.Bounded ↔ RingInv s ∧ ∀ f ∈ s.ring.feed, f.kind ≠ .order :=
  ⟨fun ⟨quiet, h⟩ => ⟨⟨quiet, ⟨h.relay, h.feed⟩, ⟨h.room, h.distinct⟩, h.typed⟩, h.responses⟩,
    fun ⟨h, responses⟩ => ⟨h.quiet, h.feeds.1, h.feeds.2, responses, h.distinct.1, h.distinct.2, h.gates⟩⟩

/-- R142: with up to 24 numbers in use the search ends within its fuel (`some_seq_free`), at the first one that is free. -/
theorem freeSeq_first (used : List Byte) (c : Byte) (few : used.length ≤ 24) :
    ∃ k, k < 25 ∧ (∀ j, j < k → c + BitVec.ofNat 8 j ∈ used) ∧ c + BitVec.ofNat 8 k ∉ used
      ∧ freeSeq used 25 c = c + BitVec.ofNat 8 k := by
  obtain ⟨k, -, found, before, free⟩ := freeSeq_spec used 25 c
  have early : k < 25 := Nat.lt_of_not_le fun spent => some_seq_free used c few fun j _ => before j (by omega)
  exact ⟨k, early, before, free early, found⟩

theorem freeSeq_not_mem (used : List Byte) (c : Byte) (few : used.length ≤ 24) : freeSeq used 25 c ∉ used := by
  obtain ⟨k, -, -, free, found⟩ := freeSeq_first used c few
  rwa [found]

namespace Ring.Bounded

variable {r r' : Ring}

/-- Waiting frames and in-flight entries that only go keep the bounds. -/
theorem of_sublist (h : r.Bounded) (relay : r'.relay.length ≤ r.relay.length) (feed : r'.feed.Sublist r.feed)
    (inFlight : r'.inFlight.Sublist r.inFlight) : r'.Bounded where
  relay := relay.trans h.relay
  feed := feed.length_le.trans h.feed
  responses f hf := h.responses f (feed.subset hf)
  room := inFlight.length_le.trans h.room
  distinct := h.distinct.sublist (inFlight.map _)
  typed e he := h.typed e (inFlight.subset he)

/-- The response/report queue takes frames that it has room for. -/
theorem queue (h : r.Bounded) {fs : List Outgoing} (room : fs.length ≤ 8 - r.feed.length) (kinds : ∀ f ∈ fs, f.kind ≠ .order) :
    Bounded { r with feed := r.feed ++ fs } where
  relay := h.relay
  feed := by
    have := h.feed
    simp only [List.length_append]
    omega
  responses f hf := (List.mem_append.1 hf).elim (h.responses f) (kinds f)
  room := h.room
  distinct := h.distinct
  typed := h.typed

theorem originate (h : r.Bounded) (room : r.inFlight.length < 24) {dest : Byte} {kind : OwnKind} {gate : Option GateNo}
    {payload : List Byte} (typed : gate.isSome ↔ kind = .order) : (originate dest kind gate payload r).Bounded where
  relay := h.relay
  feed := h.feed
  responses := h.responses
  room := by simpa [Machine.originate] using room
  distinct := by
    have free := freeSeq_not_mem (r.inFlight.map (·.seq)) r.seqCounter (by simpa using h.room)
    simp only [Machine.originate, List.map_append, List.map_cons, List.map_nil]
    exact List.nodup_append.2 ⟨h.distinct, List.nodup_singleton _, fun a ha b hb same =>
      free (List.mem_singleton.1 hb ▸ same ▸ ha)⟩
  typed e he := by
    obtain old | new := List.mem_append.1 he
    · exact h.typed e old
    · rw [List.mem_singleton.1 new]
      exact typed

end Ring.Bounded

section
variable {s : State}

theorem takeRelayThenFeed_bounded (h : s.ring.Bounded) : (takeRelayThenFeed s).ring.Bounded := by
  unfold takeRelayThenFeed
  split
  · next relay => exact h.of_sublist (by simp [relay]) (List.Sublist.refl _) (List.Sublist.refl _)
  · split
    · next f rest feed =>
      split
      · next room =>
        have shorter : Ring.Bounded { s.ring with feed := rest } :=
          h.of_sublist le_rfl (by simp [feed]) (List.Sublist.refl _)
        exact shorter.originate room (by simpa using h.responses f (by simp [feed]))
      · exact h
    · exact h

theorem takeOrderThenRest_bounded (h : s.ring.Bounded) : (takeOrderThenRest s).ring.Bounded := by
  unfold takeOrderThenRest
  split
  · split
    · next room => exact h.originate room (by simp)
    · exact takeRelayThenFeed_bounded h
  · exact takeRelayThenFeed_bounded h

theorem arbitrate_bounded (h : s.ring.Bounded) : (arbitrate s).ring.Bounded := by
  unfold arbitrate arbiterChoice
  split
  · split
    · next relay =>
      split
      · exact h.of_sublist (by simp [relay]) (List.Sublist.refl _) (List.Sublist.refl _)
      · exact takeOrderThenRest_bounded h
    · exact takeOrderThenRest_bounded h
  · exact h

theorem queueReport_bounded (kind : Byte) (h : s.ring.Bounded) : (queueReport kind s).ring.Bounded := by
  by_cases room : (reportFrames kind s).length ≤ s.feedRoom
  · rw [queueReport_room room]
    refine h.queue room fun f hf => ?_
    obtain ⟨p, -, rfl⟩ := List.mem_map.1 hf
    exact nofun
  · rw [queueReport_full (Nat.lt_of_not_le room)]
    exact h

theorem closeEvent_bounded (h : s.ring.Bounded) : (closeEvent s).ring.Bounded := by
  have queued : (queueConditionReport s).ring.Bounded := by
    unfold queueConditionReport
    split
    · exact queueReport_bounded _ h
    · exact h
  unfold closeEvent
  dsimp only
  split
  · exact arbitrate_bounded queued
  · exact queued

theorem completeComputation_bounded (sn : Snapshot) (h : s.ring.Bounded) : (completeComputation sn s).ring.Bounded := by
  unfold completeComputation completionReport
  dsimp only
  split
  · exact queueReport_bounded _ (by simpa using h)
  · simpa using h

theorem endSend_bounded (h : s.ring.Bounded) : (endSend s).ring.Bounded := by
  unfold endSend
  split
  · exact arbitrate_bounded (h.of_sublist le_rfl (List.Sublist.refl _) (List.Sublist.refl _))
  · exact h

theorem stripFrame_bounded (f : Frame) (h : s.ring.Bounded) : (stripFrame f s).ring.Bounded := by
  have handed : ∀ e u, (handReturn f e u).ring = u.ring := fun e u => by
    unfold handReturn
    split <;> simp
  unfold stripFrame
  split
  · rw [handed]
    exact h.of_sublist le_rfl (List.Sublist.refl _) List.eraseP_sublist
  · exact h

theorem relayFrame_bounded (f : Frame) (h : s.ring.Bounded) : (relayFrame f s).ring.Bounded := by
  unfold relayFrame
  split
  · split
    · next room => exact ⟨by rw [List.length_append]; exact room, h.feed, h.responses, h.room, h.distinct, h.typed⟩
    · simpa using h
  · exact h

end

/-! ### Work that leaves the ring's record and the waiting commands -/

section
variable (s : State)

theorem commitRequest_ring : (commitRequest s).2.ring = s.ring ∧ (commitRequest s).2.pending = s.pending := by
  unfold commitRequest
  repeat' split
  all_goals exact ⟨rfl, rfl⟩

theorem lockRequest_ring : (lockRequest s).2.ring = s.ring ∧ (lockRequest s).2.pending = s.pending := by
  unfold lockRequest
  repeat' split
  all_goals exact ⟨rfl, rfl⟩

theorem writeRequest_ring (src : Byte) (ops : List Byte) :
    (writeRequest src ops s).2.ring = s.ring ∧ (writeRequest src ops s).2.pending = s.pending := by
  obtain ⟨m, touched⟩ := writeRequest_same src ops s
  rw [touched]
  exact ⟨rfl, rfl⟩

theorem requestMode_ring (ops : List Byte) :
    (requestMode ops s).2.ring = s.ring ∧ (requestMode ops s).2.pending = s.pending := by
  unfold requestMode
  dsimp only
  repeat' split
  all_goals simp

theorem runPlan_ring (ops : List Byte) : (runPlan ops s).2.ring = s.ring ∧ (runPlan ops s).2.pending = s.pending := by
  unfold runPlan
  repeat' split
  all_goals exact ⟨rfl, rfl⟩

theorem stopPlan_ring (ops : List Byte) : (stopPlan ops s).2.ring = s.ring ∧ (stopPlan ops s).2.pending = s.pending := by
  unfold stopPlan
  split <;> exact ⟨rfl, rfl⟩

theorem setOutputGate_ring (ops : List Byte) :
    (setOutputGate ops s).2.ring = s.ring ∧ (setOutputGate ops s).2.pending = s.pending := by
  unfold setOutputGate
  repeat' split
  all_goals exact ⟨rfl, rfl⟩

theorem clearRequest_ring (ops : List Byte) :
    (clearRequest ops s).2.ring = s.ring ∧ (clearRequest ops s).2.pending = s.pending := by
  unfold clearRequest
  split <;> exact ⟨rfl, rfl⟩

variable (g : GateNo)

theorem enableGate_ring : (enableGate g s).2.ring = s.ring ∧ (enableGate g s).2.pending = s.pending := by
  unfold enableGate gateReply refuse
  dsimp only
  repeat' split
  all_goals simp

theorem disableGate_ring : (disableGate g s).2.ring = s.ring ∧ (disableGate g s).2.pending = s.pending := by
  unfold disableGate gateReply
  split <;> simp

theorem holdGate_ring : (holdGate g s).2.ring = s.ring ∧ (holdGate g s).2.pending = s.pending := by
  unfold holdGate gateReply refuse
  repeat' split
  all_goals simp

theorem releaseGate_ring : (releaseGate g s).2.ring = s.ring ∧ (releaseGate g s).2.pending = s.pending := by
  unfold releaseGate gateReply refuse
  split <;> simp

theorem clearFaultGate_ring : (clearFaultGate g s).2.ring = s.ring ∧ (clearFaultGate g s).2.pending = s.pending := by
  unfold clearFaultGate gateReply refuse
  dsimp only
  repeat' split
  all_goals simp

end

/-! ### The marks are clear between events -/

section
variable {s : State}

theorem takeEvent_closes (body : State → State) (quiet : Quiet s) : Quiet (takeEvent body s) := by
  unfold takeEvent
  split
  · exact quiet
  · exact closeEvent_closes _

theorem takeRingEvent_closes (body : State → State) (quiet : Quiet s) : Quiet (takeRingEvent body s) := by
  unfold takeRingEvent
  split
  · exact closeEvent_closes _
  · exact quiet

theorem milliseconds_closes (n : Nat) (quiet : Quiet s) : Quiet (milliseconds n s) := by
  induction n generalizing s with
  | zero => exact quiet
  | succ n ih => exact ih (takeEvent_closes _ quiet)

/-- Every command ends with the marks clear, as each event does (`closeEvent_closes`). -/
theorem exec_closes {c : Instr} {t : State} (quiet : Quiet s) (taken : exec c s = .next t) : Quiet t := by
  by_cases ring : ringCommand c = true
  · obtain ⟨body, run⟩ := exec_ringCommand ring
    rw [run] at taken
    cases taken
    exact takeRingEvent_closes body quiet
  · cases c
    case resetAssert => cases taken; exact quiet
    case resetRelease => cases taken; rfl
    case slotStale =>
      cases taken
      unfold staleWork
      repeat' split
      · exact quiet
      · exact closeEvent_closes _
      · exact quiet
    case reachDueProcessing => cases taken; split <;> exact quiet
    case secondTick | cadenceExpiry | computationCompletion => cases taken; exact takeEvent_closes _ quiet
    case returnLimitExpiry => cases taken; exact milliseconds_closes _ quiet
    all_goals exact absurd rfl ring

end

/-! ### Every step keeps the Ring Port's record within its bounds -/

theorem keeps_ringBounded : Keeps fun s => s.ring.Bounded where
  assertReset s h := h.of_sublist le_rfl (List.Sublist.refl _) (List.nil_sublist _)
  close s h := closeEvent_bounded h
  count c n s h := h
  answer q r s room h := h.queue room fun f hf => by
    obtain ⟨p, -, rfl⟩ := List.mem_map.1 hf
    exact nofun
  stale s h := by simpa using h
  due s h := h
  tick s h := h
  expiry s _ _ h := by simpa using h
  completion sn s _ h := completeComputation_bounded sn h
  millisecond s h := by
    rw [millisecond_ring]
    exact h.of_sublist le_rfl (List.Sublist.refl _) List.filter_sublist
  sent s h := endSend_bounded h
  sample src es s h := by simpa using h
  notice n s h := by simpa using h
  phase p s h := by simpa using h
  strip f s h := stripFrame_bounded f h
  relay f s h := relayFrame_bounded f h
  write src ops s h := (writeRequest_ring s src ops).1 ▸ h
  commit s h := (commitRequest_ring s).1 ▸ h
  cancel s h := h
  lock s h := (lockRequest_ring s).1 ▸ h
  enable g s _ h := (enableGate_ring s g).1 ▸ h
  disable g s _ h := (disableGate_ring s g).1 ▸ h
  hold g s _ h := (holdGate_ring s g).1 ▸ h
  release g s _ h := (releaseGate_ring s g).1 ▸ h
  clearFault g s _ h := (clearFaultGate_ring s g).1 ▸ h
  mode ops s h := (requestMode_ring s ops).1 ▸ h
  run ops s h := (runPlan_ring s ops).1 ▸ h
  stop ops s h := (stopPlan_ring s ops).1 ▸ h
  output ops s h := (setOutputGate_ring s ops).1 ▸ h
  clear ops s h := (clearRequest_ring s ops).1 ▸ h
  counters s h := h
  restart s h := by
    have emptied : Ring.Bounded { s.ring with inFlight := [] } := h.of_sublist le_rfl (List.Sublist.refl _) (List.nil_sublist _)
    simpa [restartRequest] using emptied

theorem pinReset_ringBounded (addr : Byte) (stn : BitVec 3) (q : List Instr) : (State.pinReset addr stn q).ring.Bounded :=
  ⟨by simp [State.pinReset], by simp [State.pinReset], nofun, by simp [State.pinReset], List.nodup_nil, nofun⟩

theorem step_closes {s t : State} (quiet : Quiet s) (stepped : step s = .next t) : Quiet t := by
  unfold step at stepped
  split at stepped
  · exact exec_closes (by exact quiet) stepped
  · cases stepped
    exact takeEvent_closes _ quiet

/-- R140 to R143: with no ORDER in the response/report queue every step keeps `RingInv`, and places none there. A pin reset meets both
(`pinReset_ringBounded`). -/
theorem ringInv_step {s t : State} (inv : RingInv s) (responses : ∀ f ∈ s.ring.feed, f.kind ≠ .order) (stepped : step s = .next t) :
    RingInv t ∧ ∀ f ∈ t.ring.feed, f.kind ≠ .order := by
  obtain ⟨quiet, bounded⟩ := (ring_bounded_iff s).2 ⟨inv, responses⟩
  exact (ring_bounded_iff t).1
    ⟨step_closes quiet stepped, keeps_ringBounded.step pinReset_ringBounded (fun _ _ h => h) bounded stepped⟩

/-! ### Every command answers a next state, and keeps the waiting commands -/

theorem endSend_pending (s : State) : (endSend s).pending = s.pending := by
  unfold endSend
  split <;> simp

theorem stripFrame_pending (f : Frame) (s : State) : (stripFrame f s).pending = s.pending := by
  unfold stripFrame handReturn
  repeat' split
  all_goals simp

theorem relayFrame_pending (f : Frame) (s : State) : (relayFrame f s).pending = s.pending := by
  unfold relayFrame
  repeat' split
  all_goals simp

theorem keeps_pending (q : List Instr) : Keeps fun s => s.pending = q where
  assertReset s h := h
  close s h := by simpa using h
  count c n s h := h
  answer q r s _ h := h
  stale s h := by simpa using h
  due s h := h
  tick s h := h
  expiry s _ _ h := by simpa using h
  completion sn s _ h := by simpa [completeComputation] using h
  millisecond s h := by simpa using h
  sent s h := (endSend_pending s).trans h
  sample src es s h := by simpa using h
  notice n s h := by simpa using h
  phase p s h := by simpa using h
  strip f s h := (stripFrame_pending f s).trans h
  relay f s h := (relayFrame_pending f s).trans h
  write src ops s h := (writeRequest_ring s src ops).2.trans h
  commit s h := (commitRequest_ring s).2.trans h
  cancel s h := h
  lock s h := (lockRequest_ring s).2.trans h
  enable g s _ h := (enableGate_ring s g).2.trans h
  disable g s _ h := (disableGate_ring s g).2.trans h
  hold g s _ h := (holdGate_ring s g).2.trans h
  release g s _ h := (releaseGate_ring s g).2.trans h
  clearFault g s _ h := (clearFaultGate_ring s g).2.trans h
  mode ops s h := (requestMode_ring s ops).2.trans h
  run ops s h := (runPlan_ring s ops).2.trans h
  stop ops s h := (stopPlan_ring s ops).2.trans h
  output ops s h := (setOutputGate_ring s ops).2.trans h
  clear ops s h := (clearRequest_ring s ops).2.trans h
  counters s h := h
  restart s h := by simpa [restartRequest] using h

/-- No arm of `exec` faults or refuses. -/
theorem exec_answers (c : Instr) (s : State) : ∃ t, exec c s = .next t := by
  cases c <;> exact ⟨_, rfl⟩

/-- Settles O2: every arm answers (`exec_answers`), and each piece of work keeps the waiting commands (`keeps_pending`). -/
theorem everyCommandAnswers : Obligations.EveryCommandAnswers := by
  unfold Obligations.EveryCommandAnswers
  intro c s
  obtain ⟨t, taken⟩ := exec_answers c s
  refine ⟨t, taken, ?_⟩
  by_cases release : ∃ addr stn, c = .resetRelease addr stn
  · obtain ⟨addr, stn, rfl⟩ := release
    cases taken
    rfl
  · exact (keeps_pending s.pending).exec (fun addr stn same => release ⟨addr, stn, same⟩) rfl taken

end Sys2Proof.Machine

/-! The pins (R134, R135): what an assertion and a release of RESET leave, that the reset state meets every invariant, and that nothing
is taken or sent out of service. -/

namespace Sys2Proof.Machine

/-! ### The pins -/

/-- Settles O5: both results are written out by their definitions, each table of the reset state entry by entry. -/
theorem resetPins : Obligations.ResetPins := by
  unfold Obligations.ResetPins
  refine ⟨fun s => ⟨_, rfl, by simp [State.bypassOutput], rfl⟩, fun addr stn s => ⟨_, rfl, ?_⟩⟩
  have bypass : (State.pinReset addr stn s.pending).bypassOutput = true ↔ addr = 0 ∨ addr = 255 := by
    simp only [State.bypassOutput, State.pinReset, portAfterRelease]
    split <;> simp_all
  refine ⟨rfl, rfl, bypass, rfl, rfl, rfl, rfl, rfl, rfl, rfl, fun g => ?_, rfl, rfl, rfl, rfl, rfl, rfl, fun g => ?_, fun n => ?_,
    rfl, rfl, rfl, rfl, rfl, rfl, fun n => ?_, rfl, rfl, rfl, rfl, rfl, rfl, rfl, fun c => ?_, rfl, rfl, rfl, fun g => ?_, rfl,
    fun n => ?_, fun b => ?_, rfl, fun i => ?_, fun i => ?_, fun n => ?_, rfl, fun n => ?_, rfl⟩
  · simp [State.pinReset]
  · simp [State.pinReset, State.gate, resetGate]
  · simp [State.pinReset, resetSlot]
  · simp [State.pinReset, clearedOrigin]
  · simp [State.pinReset, State.counter]
  · simp [emptySet, emptyGateCfg]
  · simp [emptySet, emptyRatingSet]
  · simp [emptySet]
  · simp [emptySet, emptyPlanStep]
  · simp [emptySet, emptySubscription]
  · simp [emptySet, emptySlotParams]
  · simp [emptySet, emptyOriginRecord]

/-! ### The state after a pin reset meets every invariant -/

/-- R160: the empty set passes the checks, whatever the straps: it names no node and no station. -/
theorem passesChecks_emptySet (addr : Byte) (stn : BitVec 3) : passesChecks addr stn emptySet = true := by
  have nodes : check6 addr emptySet = true := by rw [check6, show presentNodes emptySet = [] from rfl]; rfl
  have stations : check12 stn emptySet = true := by rw [check12, show emptySet.t9.items.filter (·.inUse) = [] from rfl]; rfl
  have others : (check1 emptySet && check2 emptySet && check3 emptySet && check4 emptySet && check5 emptySet && check7 emptySet
      && check8 emptySet && check9 emptySet && check10 emptySet && check11 emptySet) = true := by decide
  simp only [Bool.and_eq_true] at others
  simp [passesChecks, commitChecks, nodes, stations, others]

theorem orderInv_pinReset (addr : Byte) (stn : BitVec 3) (q : List Instr) : OrderInv (State.pinReset addr stn q) where
  one := List.nodup_nil
  ordered o queued := absurd queued List.not_mem_nil
  lost g := by simp [State.pinReset]
  initial _ := rfl
  snapshot sn running := by simp [State.pinReset] at running

theorem setInv_pinReset (addr : Byte) (stn : BitVec 3) (q : List Instr) : SetInv (State.pinReset addr stn q) where
  active := passesChecks_emptySet addr stn
  pending := nofun
  lock := nofun

/-- Settles O60: one lemma for each block's invariant. -/
theorem resetMeetsInvariants : Obligations.ResetMeetsInvariants := by
  unfold Obligations.ResetMeetsInvariants
  intro addr stn pending
  have ring := (ring_bounded_iff (State.pinReset addr stn pending)).1 ⟨rfl, pinReset_ringBounded addr stn pending⟩
  refine ⟨ring.1, orderInv_pinReset addr stn pending, reachInv_of_empty rfl, setInv_pinReset addr stn pending,
    (planModeKept_pinReset addr stn pending).inv, (gateKept_pinReset addr stn pending).inv, fun n hn => ?_⟩
  rw [show n = 0 from List.eq_of_mem_replicate hn]
  exact Nat.zero_le _

/-! ### Out of service (R134, R135) -/

/-- From `s` to `t` no send has started: RO, the relay buffer, the sequence counter and the port are as they were, and no frame has gone
in flight. -/
structure SendsNothing (s t : State) : Prop where
  ro : t.ring.ro = s.ring.ro
  relay : t.ring.relay = s.ring.relay
  seqCounter : t.ring.seqCounter = s.ring.seqCounter
  port : t.ring.port = s.ring.port
  inFlight : t.ring.inFlight ⊆ s.ring.inFlight

namespace SendsNothing

variable {s t u : State}

theorem trans (h : SendsNothing s t) (h' : SendsNothing t u) : SendsNothing s u :=
  ⟨h'.ro.trans h.ro, h'.relay.trans h.relay, h'.seqCounter.trans h.seqCounter, h'.port.trans h.port,
    fun _ he => h.inFlight (h'.inFlight he)⟩

/-- Work that leaves the ring's record but for the response/report queue. -/
theorem of_ring {feed : List Outgoing} (h : t.ring = { s.ring with feed := feed }) : SendsNothing s t := by
  refine ⟨?_, ?_, ?_, ?_, ?_⟩ <;> simp [h]

theorem refl (s : State) : SendsNothing s s := of_ring rfl

theorem closeEvent (out : ¬ InService s) : SendsNothing s (closeEvent s) := by
  rw [closeEvent_of_busy (.inr out)]
  exact of_ring (queueConditionReport_ring s)

theorem outOfService (h : SendsNothing s t) (out : ¬ InService s) : ¬ InService t := by
  rwa [InService, h.port]

theorem staleWork (out : ¬ InService s) : SendsNothing s (staleWork s) := by
  unfold Machine.staleWork
  split
  · have evaluated : SendsNothing s (evaluateStale { s with clock := { s.clock with staleDue := false } }) :=
      of_ring (feed := s.ring.feed) (by simp)
    exact evaluated.trans (closeEvent (evaluated.outOfService out))
  · exact refl s

theorem reachWork : SendsNothing s (reachWork s) := of_ring rfl

theorem settleTick (out : ¬ InService s) : SendsNothing s (settleTick s) := by
  unfold Machine.settleTick
  dsimp only
  split
  · exact (staleWork out).trans reachWork
  · exact staleWork out

/-- An event whose body starts no send starts none. -/
theorem takeEvent {body : State → State} (still : ∀ u, SendsNothing u (body u)) (out : ¬ InService s) :
    SendsNothing s (takeEvent body s) := by
  unfold Machine.takeEvent
  split
  · exact refl s
  · have done := (settleTick out).trans (still _)
    exact done.trans (closeEvent (done.outOfService out))

theorem takeExpiry (s : State) : SendsNothing s (takeExpiry s) := by
  unfold Machine.takeExpiry
  split
  · exact of_ring (feed := s.ring.feed) (by simp)
  · exact refl s

theorem takeCompletion (s : State) : SendsNothing s (takeCompletion s) := by
  unfold Machine.takeCompletion
  split
  · refine ⟨?_, ?_, ?_, ?_, ?_⟩ <;> simp [completeComputation]
  · exact refl s

theorem millisecond (s : State) : SendsNothing s (millisecond s) := by
  refine ⟨?_, ?_, ?_, ?_, ?_⟩ <;> simp [millisecond_ring]

theorem milliseconds (n : Nat) (out : ¬ InService s) : SendsNothing s (milliseconds n s) := by
  induction n generalizing s with
  | zero => exact refl s
  | succ n ih =>
    have first := takeEvent millisecond out
    exact first.trans (ih (first.outOfService out))

end SendsNothing

section
variable {s : State}

theorem milliseconds_inReset (n : Nat) (asleep : ¬ Awake s) : milliseconds n s = s := by
  induction n with
  | zero => rfl
  | succ n ih => rw [milliseconds, takeEvent_inReset _ asleep, ih]

/-- R134, log entry 8: while RESET is asserted every command but those of the pin leaves the state. -/
theorem exec_inReset {c : Instr} (asleep : ¬ Awake s) (assert : c ≠ .resetAssert)
    (release : ∀ addr stn, c ≠ .resetRelease addr stn) : exec c s = .next s := by
  by_cases ring : ringCommand c = true
  · obtain ⟨body, run⟩ := exec_ringCommand ring
    rw [run, takeRingEvent_bypass body fun service => asleep service.awake]
  · have reset : s.ring.port = .inReset := Decidable.not_not.1 asleep
    cases c
    case resetAssert => exact absurd rfl assert
    case resetRelease => exact absurd rfl (release _ _)
    case slotStale | reachDueProcessing => exact congrArg _ (if_pos reset)
    case secondTick | cadenceExpiry | computationCompletion => exact congrArg _ (takeEvent_inReset _ asleep)
    case returnLimitExpiry => exact congrArg _ (milliseconds_inReset _ asleep)
    all_goals exact absurd rfl ring

/-- R134, R135: out of service no command but those of the pin starts a send. -/
theorem exec_sendsNothing {c : Instr} (out : ¬ InService s) (assert : c ≠ .resetAssert)
    (release : ∀ addr stn, c ≠ .resetRelease addr stn) : ∃ t, exec c s = .next t ∧ SendsNothing s t := by
  by_cases ring : ringCommand c = true
  · obtain ⟨body, run⟩ := exec_ringCommand ring
    exact ⟨s, by rw [run, takeRingEvent_bypass body out], .refl s⟩
  · cases c
    case resetAssert => exact absurd rfl assert
    case resetRelease => exact absurd rfl (release _ _)
    case secondTick => exact ⟨_, rfl, .takeEvent (fun u => .of_ring (feed := u.ring.feed) rfl) out⟩
    case slotStale =>
      refine ⟨_, rfl, ?_⟩
      split
      · exact .refl s
      · exact .staleWork out
    case reachDueProcessing =>
      refine ⟨_, rfl, ?_⟩
      split
      · exact .refl s
      · exact .reachWork
    case cadenceExpiry => exact ⟨_, rfl, .takeEvent .takeExpiry out⟩
    case computationCompletion => exact ⟨_, rfl, .takeEvent .takeCompletion out⟩
    case returnLimitExpiry => exact ⟨_, rfl, .milliseconds _ out⟩
    all_goals exact absurd rfl ring

end

/-- Settles O6: `takeRingEvent_bypass` for the commands of the ring, `exec_sendsNothing` out of service, `exec_inReset` under
RESET. -/
theorem bypassTakesNoFrame : Obligations.BypassTakesNoFrame := by
  unfold Obligations.BypassTakesNoFrame
  refine fun c s => ⟨fun out ring => ?_, fun out assert release => ?_, exec_inReset⟩
  · obtain ⟨body, run⟩ := exec_ringCommand ring
    rw [run, takeRingEvent_bypass body out]
  · obtain ⟨t, taken, still⟩ := exec_sendsNothing out assert release
    exact ⟨t, taken, still.ro, still.relay, still.seqCounter, still.port, still.inFlight⟩

end Sys2Proof.Machine

/-! The sending on RO (R135, R141, R142): the number and the entry of an originated frame, the arbiter's choice, and the end of an event;
and the milliseconds of the ring count (R144). -/

namespace Sys2Proof.Machine

/-! ### An originated frame (R142) -/

/-- Settles O20: the number is the first free one (`freeSeq_first`). -/
theorem originatedFrame : Obligations.OriginatedFrame := by
  unfold Obligations.OriginatedFrame
  intro dest kind gate payload r few
  obtain ⟨k, early, before, free, found⟩ := freeSeq_first (r.inFlight.map (·.seq)) r.seqCounter (by simpa using few)
  exact ⟨k, early, before, free, by rw [originate, found]⟩

/-! ### The arbiter's choice (R141) -/

section
variable {s : State}

theorem arbitrate_idle (service : InService s) (idle : s.ring.ro = none) : arbitrate s = arbiterChoice s := if_pos ⟨service, idle⟩

/-- Case 2 does not come about. -/
theorem takeOrderThenRest_noOrder (h : s.orders.queue = [] ∨ 24 ≤ s.ring.inFlight.length) :
    takeOrderThenRest s = takeRelayThenFeed s := by
  unfold takeOrderThenRest
  split
  · next queue =>
    obtain empty | full := h
    · simp [empty] at queue
    · exact if_neg (Nat.not_lt.2 full)
  · rfl

/-- Cases 1 and 3: the head of the relay buffer goes. -/
theorem arbiterChoice_relay {f : Frame} {rest : List Frame} (relay : s.ring.relay = f :: rest)
    (h : 3 ≤ s.ring.relay.length ∨ s.orders.queue = [] ∨ 24 ≤ s.ring.inFlight.length) :
    arbiterChoice s = { s with ring := { s.ring with relay := rest, ro := some f } } := by
  have third : takeRelayThenFeed s = { s with ring := { s.ring with relay := rest, ro := some f } } := by
    rw [takeRelayThenFeed, relay]
  unfold arbiterChoice
  rw [relay]
  dsimp only
  split
  · rfl
  · next few => rw [takeOrderThenRest_noOrder (h.resolve_left (relay ▸ few)), third]

theorem arbiterChoice_noRelay (relay : s.ring.relay = []) : arbiterChoice s = takeOrderThenRest s := by
  rw [arbiterChoice, relay]

/-- Case 4: the head of the response/report queue goes. -/
theorem takeRelayThenFeed_feed {f : Outgoing} {rest : List Outgoing} (relay : s.ring.relay = []) (feed : s.ring.feed = f :: rest)
    (room : s.ring.inFlight.length < 24) :
    takeRelayThenFeed s = { s with ring := originate f.dest f.kind none f.payload { s.ring with feed := rest } } := by
  rw [takeRelayThenFeed, relay, feed]
  exact if_pos room

theorem takeRelayThenFeed_nothing (relay : s.ring.relay = []) (h : s.ring.feed = [] ∨ 24 ≤ s.ring.inFlight.length) :
    takeRelayThenFeed s = s := by
  rw [takeRelayThenFeed, relay]
  dsimp only
  split
  · next feed =>
    obtain empty | full := h
    · simp [empty] at feed
    · exact if_neg (Nat.not_lt.2 full)
  · rfl

/-- The arbiter does not look at the marks of the event (log entry 5). -/
theorem arbitrate_marks_comm (s : State) (m : Marks) : arbitrate { s with marks := m } = { arbitrate s with marks := m } := by
  have third : takeRelayThenFeed { s with marks := m } = { takeRelayThenFeed s with marks := m } := by
    unfold takeRelayThenFeed
    dsimp only
    repeat' split
    all_goals rfl
  have second : takeOrderThenRest { s with marks := m } = { takeOrderThenRest s with marks := m } := by
    unfold takeOrderThenRest
    dsimp only
    rw [third]
    repeat' split
    all_goals rfl
  unfold arbitrate arbiterChoice
  dsimp only
  rw [second]
  repeat' split
  all_goals rfl

/-! ### The end of an event (R141, R175; log entry 5) -/

/-- An event that has placed a frame and calls for no report ends with the arbiter's look at the feeds. -/
theorem closeEvent_placed (due : s.marks.reportDue = false) (placed : s.marks.placed = true) :
    closeEvent s = { arbitrate s with marks := ⟨false, false⟩ } := by
  rw [closeEvent, queueConditionReport_uncalled due, if_pos placed]

/-- A report with room is placed, so the arbiter looks at the feeds. -/
theorem closeEvent_reported (due : s.marks.reportDue = true) (room : (reportFrames 4 s).length ≤ s.feedRoom) :
    closeEvent s
      = { arbitrate { s with ring := { s.ring with feed := s.ring.feed ++ reportFrames 4 s } } with marks := ⟨false, false⟩ } := by
  rw [closeEvent, queueConditionReport_called due, queueReport_room room]
  exact congrArg (fun u : State => { u with marks := ⟨false, false⟩ })
    (arbitrate_marks_comm { s with ring := { s.ring with feed := s.ring.feed ++ reportFrames 4 s } } _)

/-- A report without room is dropped and counted, and the event ends by what else it has placed. -/
theorem closeEvent_dropped (due : s.marks.reportDue = true) (full : s.feedRoom < (reportFrames 4 s).length) :
    closeEvent s
      = { (if s.marks.placed = true then arbitrate (bump .reportDrops s) else bump .reportDrops s) with
          marks := ⟨false, false⟩ } := by
  rw [closeEvent, queueConditionReport_called due, queueReport_full full]
  rfl

/-- R141: the end of a send in service, in a settled and quiet state, leaves RO to the arbiter. -/
theorem exec_sendEnd {f : Frame} (service : InService s) (settled : Settled s) (quiet : Quiet s) (sending : s.ring.ro = some f) :
    exec .sendEnd s = .next (arbitrate { s with ring := { s.ring with ro := none } }) := by
  have ended : endSend s = arbitrate { s with ring := { s.ring with ro := none } } := by rw [endSend, sending]
  refine congrArg Host.Outcome.next ((takeRingEvent_settled _ service settled).trans ?_)
  rw [ended, closeEvent_quiet (by simpa [Quiet] using quiet)]

end

/-- Settles O19: the end of an event by its report, and the arbiter's choice by its cases. -/
theorem sendEndServesFeeds : Obligations.SendEndServesFeeds := by
  unfold Obligations.SendEndServesFeeds
  refine ⟨fun s => ⟨closeEvent_unmarked, closeEvent_placed, closeEvent_reported, fun due full placed => ?_, fun due full placed => ?_,
      arbitrate_busy s, rfl⟩,
    fun s f service settled quiet sending => exec_sendEnd service settled quiet sending, fun s service idle => ?_⟩
  · rw [closeEvent_dropped due full, if_neg (by simp [placed])]
  · rw [closeEvent_dropped due full, if_pos placed]
  · refine ⟨fun f rest relay h => ?_, fun o rest queue few room => arbitrate_order service idle few room queue,
      fun f rest feed relay queue room => ?_, fun relay h => ?_⟩ <;> rw [arbitrate_idle service idle]
    · exact arbiterChoice_relay relay h
    · rw [arbiterChoice_noRelay relay, takeOrderThenRest_noOrder (.inl queue), takeRelayThenFeed_feed relay feed room]
    · rw [arbiterChoice_noRelay relay, takeOrderThenRest_noOrder (h.imp And.left id),
        takeRelayThenFeed_nothing relay (h.imp And.right id)]

/-! ### The milliseconds of the ring count (R142, R144) -/

section
variable {s : State}

/-- R144: the in-flight entries that reach the return limit at the next millisecond. -/
def State.expiring (s : State) : List InFlight :=
  s.ring.inFlight.filter fun e => decide (s.mgmt.active.t10.returnLimit ≤ (s.ring.ms + 1 - e.sent).toNat)

/-- R142: the state with the next count, and without the entries that reach the limit at it. -/
def State.counted (s : State) : State :=
  { s with
    ring :=
      { s.ring with
        ms := s.ring.ms + 1
        inFlight := s.ring.inFlight.filter fun e => decide ((s.ring.ms + 1 - e.sent).toNat < s.mgmt.active.t10.returnLimit) } }

/-- R144: a millisecond is the count and the expiries, one after the other. -/
theorem millisecond_eq (s : State) : millisecond s = s.expiring.foldl expireEntry s.counted := by
  have kept : (fun e : InFlight => !e.expires s.mgmt.active.t10.returnLimit (s.ring.ms + 1))
      = fun e => decide ((s.ring.ms + 1 - e.sent).toNat < s.mgmt.active.t10.returnLimit) := by
    funext e
    exact decide_not.symm.trans (decide_eq_decide.2 Nat.not_le)
  unfold millisecond
  dsimp only
  rw [kept]
  rfl

theorem millisecond_ring_counted (s : State) : (millisecond s).ring = s.counted.ring := by
  rw [millisecond_eq, expireEntries_ring]

/-- R142: with no entry at the limit nothing but the count changes. -/
theorem millisecond_none (h : ∀ e ∈ s.ring.inFlight, (s.ring.ms + 1 - e.sent).toNat < s.mgmt.active.t10.returnLimit) :
    millisecond s = { s with ring := { s.ring with ms := s.ring.ms + 1 } } := by
  have none : s.expiring = [] := by simpa [State.expiring] using h
  have all : s.ring.inFlight.filter (fun e => decide ((s.ring.ms + 1 - e.sent).toNat < s.mgmt.active.t10.returnLimit))
      = s.ring.inFlight := List.filter_eq_self.2 fun e he => by simpa using h e he
  rw [millisecond_eq, none, List.foldl_nil, State.counted, all]

/-- R155: the expiries that an ORDER's gate loses. -/
theorem expiring_losesFor (s : State) (g : GateNo) :
    s.expiring.filter (fun e => e.losesFor g)
      = s.ring.inFlight.filter fun e =>
          decide (s.mgmt.active.t10.returnLimit ≤ (s.ring.ms + 1 - e.sent).toNat ∧ e.kind = .order ∧ e.gate = some g) := by
  rw [State.expiring, List.filter_filter]
  refine List.filter_congr fun e _ => ?_
  rw [InFlight.losesFor, Bool.and_comm, ← Bool.decide_and]

/-- R134, R141: while RO is sending, the work of a tick touches the response/report queue alone of the ring's record. -/
theorem settleTick_sending (sending : s.ring.ro ≠ none) : ∃ feed, (settleTick s).ring = { s.ring with feed := feed } := by
  have stale : ∃ feed, (staleWork s).ring = { s.ring with feed := feed } := by
    unfold staleWork
    split
    · have ring : (evaluateStale { s with clock := { s.clock with staleDue := false } }).ring = s.ring := by simp
      exact ⟨_, by rw [closeEvent_sending _ (by rwa [ring]), ring]⟩
    · exact ⟨_, rfl⟩
  unfold settleTick
  dsimp only
  split
  · simpa using stale
  · exact stale

/-- R142: the count after one millisecond, whose event is taken. -/
theorem takeEvent_millisecond_ms (awake : Awake s) : (takeEvent millisecond s).ring.ms = s.ring.ms + 1 := by
  rw [takeEvent_awake _ awake]
  simp [millisecond_ring]

theorem takeEvent_millisecond_same (awake : Awake s) :
    Awake (takeEvent millisecond s) ∧ (takeEvent millisecond s).mgmt = s.mgmt := by
  rw [takeEvent_awake _ awake]
  simpa [Awake] using awake

/-- R144: while RO is sending, one millisecond leaves RO and the entries below the limit. -/
theorem takeEvent_millisecond_sending (awake : Awake s) (sending : s.ring.ro ≠ none) :
    (takeEvent millisecond s).ring.ro = s.ring.ro
      ∧ (takeEvent millisecond s).ring.inFlight
          = s.ring.inFlight.filter fun e => decide ((s.ring.ms + 1 - e.sent).toNat < s.mgmt.active.t10.returnLimit) := by
  obtain ⟨feed, settled⟩ := settleTick_sending sending
  have ring := millisecond_ring_counted (settleTick s)
  have still : (millisecond (settleTick s)).ring.ro ≠ none := by simpa [settled] using sending
  rw [takeEvent_awake _ awake, closeEvent_sending _ still, ring]
  simp [State.counted, settled]

theorem milliseconds_ms (n : Nat) (awake : Awake s) : (milliseconds n s).ring.ms = s.ring.ms + BitVec.ofNat 16 n := by
  induction n generalizing s with
  | zero => simp [milliseconds]
  | succ n ih =>
    rw [milliseconds, ih (takeEvent_millisecond_same awake).1, takeEvent_millisecond_ms awake, BitVec.add_assoc,
      BitVec.add_comm 1, BitVec.ofNat_add n 1]
    rfl

/-- R144: while RO is sending, an entry stays exactly while its age is below the limit. -/
theorem milliseconds_sending (n : Nat) (awake : Awake s) (sending : s.ring.ro ≠ none) :
    (milliseconds n s).ring.ro = s.ring.ro
      ∧ (milliseconds n s).ring.inFlight
          = s.ring.inFlight.filter fun e =>
              (List.range n).all fun k =>
                decide ((s.ring.ms + BitVec.ofNat 16 (k + 1) - e.sent).toNat < s.mgmt.active.t10.returnLimit) := by
  induction n generalizing s with
  | zero => simp [milliseconds]
  | succ n ih =>
    obtain ⟨ro, kept⟩ := takeEvent_millisecond_sending awake sending
    obtain ⟨awake', mgmt⟩ := takeEvent_millisecond_same awake
    obtain ⟨ro', kept'⟩ := ih awake' (ro ▸ sending)
    refine ⟨ro'.trans ro, ?_⟩
    rw [milliseconds, kept', kept, mgmt, takeEvent_millisecond_ms awake, List.filter_filter]
    refine List.filter_congr fun e _ => ?_
    have later : ∀ k, s.ring.ms + 1 + BitVec.ofNat 16 (k + 1) = s.ring.ms + BitVec.ofNat 16 (k + 1 + 1) := fun k => by
      rw [BitVec.add_assoc, BitVec.add_comm 1, BitVec.ofNat_add (k + 1) 1]
      rfl
    simp only [later, List.range_succ_eq_map, List.all_cons, List.all_map, Function.comp_def]
    exact Bool.and_comm _ _

/-- R142, R144: one millisecond of an awake and settled state. -/
theorem exec_millisecond (awake : Awake s) (settled : Settled s) :
    exec (.returnLimitExpiry 1) s = .next (closeEvent (millisecond s)) :=
  congrArg _ (takeEvent_settled millisecond awake settled)

/-- R144: the count of the lost. -/
theorem millisecond_lost (counters : CountersInRange s) :
    (millisecond s).counter .lost = min (s.counter .lost + s.expiring.length) 65535 := by
  have bound : s.counter .lost ≤ 65535 := counters _ ((Tab.mem_items_iff _ _).2 ⟨_, rfl⟩)
  rw [millisecond_eq]
  exact expireEntries_lost s.expiring s.counted bound

end

/-- Settles O18: the expiries of one millisecond (`expireEntries_gate`, `expireEntries_lost`) and the end of its event
(`closeEvent_inFlight`), then the milliseconds one after the other. -/
theorem millisecondEffect : Obligations.MillisecondEffect := by
  unfold Obligations.MillisecondEffect
  refine ⟨fun s awake settled quiet counters => ⟨_, exec_millisecond awake settled, ?_, ?_, ?_, fun g => ?_, fun none => ?_⟩,
    fun n s awake => ⟨_, rfl, milliseconds_ms n awake, milliseconds_sending n awake⟩, fun m n s t first => ?_⟩
  · simp [millisecond_ring]
  · obtain ⟨more, entries, one, now, busy⟩ := closeEvent_inFlight (millisecond s)
    rw [millisecond_ring_counted] at entries now busy
    exact ⟨more, entries, one, now, busy⟩
  · rw [closeEvent_counter _ _ (by simp), millisecond_lost counters, State.expiring]
  · obtain ⟨lost, below, third, other, -⟩ := expireEntries_gate s.expiring s.counted g
    rw [expiring_losesFor, ← millisecond_eq] at lost below third
    rw [← millisecond_eq] at other
    simp only [State.gate, closeEvent_same]
    exact ⟨lost, below, third, other⟩
  · rw [millisecond_none none]
    exact closeEvent_quiet quiet
  · cases first
    exact congrArg Host.Outcome.next (milliseconds_add m n s)

end Sys2Proof.Machine

/-! The frames that arrive (R136 to R140, R143): how a frame is received by its addresses, its kind and its length; the frames that are
counted and dropped, relayed, copied in, and matched to the in-flight list. -/

namespace Sys2Proof.Machine

/-! ### The lengths of payloads (R147) -/

theorem noticeBytes_length (n : NoticeFields) : (noticeBytes n).length = 8 := rfl

theorem phaseBytes_length (p : PhaseFields) : (phaseBytes p).length = 4 := rfl

theorem orderBytes_length (o : OrderFields) : (orderBytes o).length = 5 := rfl

/-! ### How a frame is received (R136, R137) -/

section
variable {f : Frame} {takeIn : State → State} {s : State}

theorem receiveWith_tooLong (long : 60 < f.payload.length) : receiveWith f takeIn s = bump .checkErrors s := if_pos long

theorem receiveWith_own (short : f.payload.length ≤ 60) (own : f.src = s.ring.nodeAddr) :
    receiveWith f takeIn s = stripFrame f s := by
  rw [receiveWith, if_neg (show ¬ payloadMax < f.payload.length from Nat.not_lt.2 short), if_pos own]

theorem receiveWith_addressed (short : f.payload.length ≤ 60) (other : f.src ≠ s.ring.nodeAddr)
    (addressed : f.dest = s.ring.nodeAddr) : receiveWith f takeIn s = consumeFrame f takeIn s := by
  rw [receiveWith, if_neg (show ¬ payloadMax < f.payload.length from Nat.not_lt.2 short), if_neg other, if_pos addressed]

theorem receiveWith_passing (short : f.payload.length ≤ 60) (other : f.src ≠ s.ring.nodeAddr) (passing : f.dest ≠ s.ring.nodeAddr) :
    receiveWith f takeIn s = relayFrame f (copyIn f takeIn s) := by
  rw [receiveWith, if_neg (show ¬ payloadMax < f.payload.length from Nat.not_lt.2 short), if_neg other, if_neg passing]

/-- R137: the kinds copied in. -/
theorem copiesKind_iff (kind : Byte) : copiesKind kind = true ↔ kind = 0x11 ∨ kind = 0x31 ∨ kind = 0x32 := by
  simp only [copiesKind, Bool.or_eq_true, decide_eq_true_eq, or_assoc]
  exact Iff.rfl

/-- R137: the kinds taken when they are addressed to the part. -/
theorem takesKind_iff (kind : Byte) : takesKind kind = true ↔ kind = 0x11 ∨ kind = 0x31 ∨ kind = 0x32 ∨ kind = 0x41 := by
  simp only [takesKind, Bool.or_eq_true, decide_eq_true_eq, copiesKind_iff, or_assoc]
  exact Iff.rfl

/-- R138: the lengths that a kind cannot have. -/
theorem lawfulLen_eq_false_iff {kind : Byte} {len : Nat} (short : len ≤ 60) :
    lawfulLen kind len = false
      ↔ (kind = 0x11 ∧ (len % 4 ≠ 0 ∨ len = 0 ∨ 48 < len)) ∨ (kind = 0x31 ∧ len ≠ 8) ∨ (kind = 0x32 ∧ len ≠ 4)
          ∨ (kind = 0x41 ∧ len < 2) := by
  unfold lawfulLen
  by_cases sample : kind = 0x11
  · subst sample
    simp [kindSample]
    omega
  by_cases notice : kind = 0x31
  · subst notice
    simp [kindSample, kindNotice]
  by_cases phase : kind = 0x32
  · subst phase
    simp [kindSample, kindNotice, kindPhase]
  by_cases request : kind = 0x41
  · subst request
    simp [kindSample, kindNotice, kindPhase, kindRequest]
    omega
  · simp_all [kindSample, kindNotice, kindPhase, kindRequest]

theorem takeLawful_malformed (h : lawfulLen f.kind f.payload.length = false) : takeLawful f takeIn s = bump .malformed s := by
  rw [takeLawful, h]
  rfl

theorem takeLawful_lawful (h : lawfulLen f.kind f.payload.length = true) : takeLawful f takeIn s = takeIn s := if_pos h

theorem consumeFrame_taken (taken : takesKind f.kind = true) : consumeFrame f takeIn s = takeLawful f takeIn s := if_pos taken

theorem copyIn_copied (copied : copiesKind f.kind = true) : copyIn f takeIn s = takeLawful f takeIn s := if_pos copied

/-- R137, R139: a kind that is not copied in meets the relay decision as it comes. -/
theorem copyIn_notCopied (h : copiesKind f.kind = false) : copyIn f takeIn s = s := by
  rw [copyIn, h]
  rfl

theorem takesKind_of_copiesKind {kind : Byte} (copied : copiesKind kind = true) : takesKind kind = true := by
  rw [takesKind, copied, Bool.true_or]

/-- R137: a lawful frame of a kind that is copied in goes to its block, and then to the relay unless it is addressed to the part. -/
theorem receiveWith_copied (short : f.payload.length ≤ 60) (other : f.src ≠ s.ring.nodeAddr) (copied : copiesKind f.kind = true)
    (lawful : lawfulLen f.kind f.payload.length = true) :
    receiveWith f takeIn s = if f.dest = s.ring.nodeAddr then takeIn s else relayFrame f (takeIn s) := by
  split
  · next addressed =>
    rw [receiveWith_addressed short other addressed, consumeFrame_taken (takesKind_of_copiesKind copied), takeLawful_lawful lawful]
  · next passing => rw [receiveWith_passing short other passing, copyIn_copied copied, takeLawful_lawful lawful]

end

section
variable {h : Header} {kind : Byte} {payload : List Byte} {s : State}

/-- The four commands that carry a frame by its kind and payload receive that frame (log entry 24). -/
theorem exec_frame {command : Header → Byte → List Byte → Instr} (service : InService s) (settled : Settled s)
    (mem : command ∈ [Instr.ownFrameReturn, Instr.frameRelay, Instr.unexpectedKindFrame, Instr.malformedFrame]) :
    exec (command h kind payload) s = .next (closeEvent (receive (frameOf h kind payload) s)) := by
  have taken : Host.Outcome.next (takeRingEvent (receive (frameOf h kind payload)) s)
      = (.next (closeEvent (receive (frameOf h kind payload) s)) : Host.Outcome State Fault Refusal) :=
    congrArg _ (takeRingEvent_settled _ service settled)
  simp only [List.mem_cons, List.not_mem_nil, or_false] at mem
  obtain rfl | rfl | rfl | rfl := mem <;> exact taken

/-- A frame from the part's own address is stripped, whatever block would take it in. -/
theorem takeRingEvent_own {f : Frame} {takeIn : State → State} (service : InService s) (settled : Settled s)
    (short : f.payload.length ≤ 60) (own : f.src = s.ring.nodeAddr) : takeRingEvent (receiveWith f takeIn) s = closeEvent (stripFrame f s) := by
  rw [takeRingEvent_settled _ service settled, receiveWith_own short own]

end

/-! ### Returns (R143, R154) -/

section
variable {f : Frame} {s : State}

theorem ownKind_code_injective {a b : OwnKind} (h : a.code = b.code) : a = b := by
  revert h
  cases a <;> cases b <;> decide

/-- R143: a match is one of kind and sequence number. -/
theorem matches_iff {kind : OwnKind} (hk : f.kind = kind.code) (e : InFlight) :
    e.matches f = true ↔ e.kind = kind ∧ e.seq = f.seq := by
  simp only [InFlight.matches, hk, Bool.and_eq_true, decide_eq_true_eq]
  exact and_congr_left fun _ => ⟨ownKind_code_injective, congrArg _⟩

/-- R143: a return whose entry is in flight removes that entry. -/
theorem stripFrame_matched {e : InFlight} (distinct : InFlightDistinct s) (mem : e ∈ s.ring.inFlight) (matched : e.matches f = true) :
    stripFrame f s
      = handReturn f e { s with ring := { s.ring with inFlight := s.ring.inFlight.filter fun x => decide (x.seq ≠ f.seq) } } := by
  obtain ⟨found, removed⟩ := match_removes s.ring.inFlight e mem distinct.2 f matched
  rw [stripFrame, found]
  dsimp only
  rw [removed]

/-- R143: a return that matches no entry is STRAY. -/
theorem stripFrame_unmatched (none : ∀ e ∈ s.ring.inFlight, ¬ e.matches f = true) : stripFrame f s = bump .stray s := by
  rw [stripFrame, List.find?_eq_none.2 none]

theorem stripFrame_noEntry {kind : OwnKind} (hk : f.kind = kind.code)
    (none : ∀ e ∈ s.ring.inFlight, e.kind = kind → e.seq ≠ f.seq) : stripFrame f s = bump .stray s :=
  stripFrame_unmatched fun e mem matched =>
    have ⟨same, seq⟩ := (matches_iff hk e).1 matched
    none e mem same seq

/-- R143: no entry is of a kind that the part does not originate. -/
theorem stripFrame_foreignKind (order : f.kind ≠ 0x21) (response : f.kind ≠ 0x42) (report : f.kind ≠ 0x51) :
    stripFrame f s = bump .stray s := by
  refine stripFrame_unmatched fun e _ matched => ?_
  have code : e.kind.code = f.kind := by simp [InFlight.matches] at matched; exact matched.1
  cases hk : e.kind <;> rw [hk] at code
  · exact order code.symm
  · exact response code.symm
  · exact report code.symm

theorem handReturn_order {e : InFlight} {g : GateNo} (order : e.kind = .order) (gate : e.gate = some g) :
    handReturn f e s = applyResult g f.result (openingField f.payload) s := by
  rw [handReturn, order, gate]

theorem handReturn_other {e : InFlight} (other : e.kind ≠ .order) : handReturn f e s = s := by
  unfold handReturn
  split <;> simp_all

end

/-- Settles O28: every frame is stripped (`takeRingEvent_own`), and matched by kind and sequence number. -/
theorem returnsAreMatched : Obligations.ReturnsAreMatched := by
  unfold Obligations.ReturnsAreMatched
  intro h s service settled own distinct
  have strip := fun (kind : Byte) (payload : List Byte) (takeIn : State → State) (short : payload.length ≤ 60) =>
    takeRingEvent_own (f := frameOf h kind payload) (takeIn := takeIn) service settled short own
  have foreign : ∀ (kind : Byte) (payload : List Byte), kind ≠ 0x21 → kind ≠ 0x42 → kind ≠ 0x51 →
      stripFrame (frameOf h kind payload) s = bump .stray s := fun kind payload => stripFrame_foreignKind (f := frameOf h kind payload)
  refine ⟨fun o => ⟨fun e g mem order seq gate => ?_, fun none => ?_⟩,
    fun kind payload other short => ⟨fun e mem same seq => ?_, fun none => ?_⟩, by decide,
    fun kind payload order response report short command mem => ?_, fun es few => ?_, fun n => ?_, fun p => ?_⟩
  · refine congrArg Host.Outcome.next ((strip kindOrder (orderBytes o) _ (by simp [orderBytes_length])).trans ?_)
    rw [stripFrame_matched distinct mem ((matches_iff (kind := .order) rfl e).2 ⟨order, seq⟩), handReturn_order order gate]
    exact congrArg (fun opening => closeEvent (applyResult g h.result opening _)) (openingField_orderBytes o)
  · refine congrArg Host.Outcome.next ((strip kindOrder (orderBytes o) _ (by simp [orderBytes_length])).trans ?_)
    rw [stripFrame_noEntry (kind := .order) rfl none]
  · refine congrArg Host.Outcome.next ((strip kind.code payload _ short).trans ?_)
    rw [stripFrame_matched distinct mem ((matches_iff (kind := kind) rfl e).2 ⟨same, seq⟩), handReturn_other (same ▸ other)]
    rfl
  · refine congrArg Host.Outcome.next ((strip kind.code payload _ short).trans ?_)
    rw [stripFrame_noEntry (kind := kind) rfl none]
  · rw [exec_frame service settled mem, receive, receiveWith_own (f := frameOf h kind payload) short own,
      foreign _ _ order response report]
  · refine congrArg Host.Outcome.next ((strip kindSample (sampleBytes es) _ (by rw [sampleBytes_length]; omega)).trans ?_)
    rw [foreign kindSample _ (by decide) (by decide) (by decide)]
  · refine congrArg Host.Outcome.next ((strip kindNotice (noticeBytes n) _ (by simp [noticeBytes_length])).trans ?_)
    rw [foreign kindNotice _ (by decide) (by decide) (by decide)]
  · refine congrArg Host.Outcome.next ((strip kindPhase (phaseBytes p) _ (by simp [phaseBytes_length])).trans ?_)
    rw [foreign kindPhase _ (by decide) (by decide) (by decide)]

/-! ### Frames copied in (R137) -/

/-- Settles O21: each of the three kinds is copied in, at a length that is lawful for it (`receiveWith_copied`). -/
theorem copiedFramesAreHeard : Obligations.CopiedFramesAreHeard := by
  unfold Obligations.CopiedFramesAreHeard
  intro h s service settled other
  have copied : ∀ (kind : Byte) (payload : List Byte) (takeIn : State → State), payload.length ≤ 60 → copiesKind kind = true →
      lawfulLen kind payload.length = true →
      takeRingEvent (receiveWith (frameOf h kind payload) takeIn) s
        = closeEvent (if h.dest = s.ring.nodeAddr then takeIn s else relayFrame (frameOf h kind payload) (takeIn s)) :=
    fun kind payload takeIn short copies lawful => by
      rw [takeRingEvent_settled _ service settled, receiveWith_copied (f := frameOf h kind payload) short other copies lawful]
      rfl
  refine ⟨fun es some few => congrArg _ (copied _ _ _ ?_ (by decide) ?_), fun n => congrArg _ (copied _ _ _ ?_ (by decide) ?_),
    fun p => congrArg _ (copied _ _ _ ?_ (by decide) ?_)⟩
  · rw [sampleBytes_length]
    omega
  · rw [sampleBytes_length]
    simp [lawfulLen]
    omega
  · simp [noticeBytes_length]
  · rw [noticeBytes_length]
    decide
  · simp [phaseBytes_length]
  · rw [phaseBytes_length]
    decide

/-! ### The relay decision (R138 to R140) -/

section
variable {f : Frame} {s : State}

theorem relayFrame_hopLimit (spent : 62 ≤ f.hops.toNat) : relayFrame f s = bump .hopDrops s := if_neg (by omega)

theorem relayFrame_room (hops : f.hops.toNat < 62) (room : s.ring.relay.length < 4) :
    relayFrame f s
      = { s with
          ring := { s.ring with relay := s.ring.relay ++ [{ f with hops := f.hops + 1 }] }
          marks := { s.marks with placed := true } } := by
  rw [relayFrame, if_pos (by omega)]
  exact if_pos room

theorem relayFrame_full (hops : f.hops.toNat < 62) (full : 4 ≤ s.ring.relay.length) :
    relayFrame f s = raise .relayOverflow (bump .relayOverflow s) := by
  rw [relayFrame, if_pos (by omega)]
  exact if_neg (Nat.not_lt.2 full)

end

/-- Settles O30: the relay decision by its cases; before it, a kind that is copied in is tested for its length. -/
theorem relayDecision : Obligations.RelayDecision := by
  unfold Obligations.RelayDecision
  refine ⟨fun f s => ⟨relayFrame_hopLimit, relayFrame_room, relayFrame_full⟩, ?_⟩
  intro h kind payload s service settled other passing short f command mem
  have mem : command ∈ [Instr.ownFrameReturn, Instr.frameRelay, Instr.unexpectedKindFrame, Instr.malformedFrame] := by
    simp only [List.mem_cons, List.not_mem_nil, or_false] at mem ⊢
    tauto
  have received : receive f s = relayFrame f (copyIn f (takeFrame f) s) := receiveWith_passing short other passing
  rw [exec_frame service settled mem, show frameOf h kind payload = f from rfl, received]
  refine ⟨fun sample notice phase => ?_, fun unlawful => ?_⟩
  · rw [copyIn_notCopied (Bool.eq_false_iff.2 fun copied => ?_)]
    obtain is | is | is := (copiesKind_iff kind).1 copied
    exacts [sample is, notice is, phase is]
  · have copied : copiesKind kind = true := (copiesKind_iff kind).2 (unlawful.imp And.left (Or.imp And.left And.left))
    have bad : lawfulLen kind payload.length = false :=
      (lawfulLen_eq_false_iff short).2 (unlawful.imp id (Or.imp id .inl))
    rw [copyIn_copied (f := f) copied, takeLawful_malformed (f := f) bad]

/-! ### Frames counted and dropped (R136 to R138) -/

/-- Settles O31: each frame is counted by its own test, and a count leaves a quiet event nothing to end. -/
theorem countedDrops : Obligations.CountedDrops := by
  unfold Obligations.CountedDrops
  intro h kind payload s service settled quiet
  have ends : ∀ c, closeEvent (bump c s) = bump c s := fun c => closeEvent_quiet (s := bump c s) quiet
  refine ⟨fun check bad => ?_, fun short other addressed sample notice phase request => ?_, fun short other addressed unlawful => ?_,
    fun c n => ⟨rfl, ?_, fun d ne => ?_, rfl⟩⟩
  · have dropped : receiveChecked (frameOf h kind payload) check s = bump .checkErrors s := by
      unfold receiveChecked
      split
      · next right => exact receiveWith_tooLong (f := frameOf h kind payload) (bad.resolve_right fun wrong => wrong right)
      · rfl
    refine congrArg Host.Outcome.next ((takeRingEvent_settled _ service settled).trans ?_)
    rw [dropped, ends]
  · have unexpected : takesKind kind = false := Bool.eq_false_iff.2 fun takes => by
      obtain is | is | is | is := (takesKind_iff kind).1 takes
      exacts [sample is, notice is, phase is, request is]
    rw [exec_frame (command := .unexpectedKindFrame) service settled (by simp), receive,
      receiveWith_addressed (f := frameOf h kind payload) short other addressed, consumeFrame,
      if_neg (by simpa [frameOf] using unexpected), ends]
  · have takes : takesKind kind = true := (takesKind_iff kind).2 (unlawful.imp And.left (Or.imp And.left (Or.imp And.left And.left)))
    rw [exec_frame (command := .malformedFrame) service settled (by simp), receive,
      receiveWith_addressed (f := frameOf h kind payload) short other addressed,
      consumeFrame_taken (f := frameOf h kind payload) takes,
      takeLawful_malformed (f := frameOf h kind payload) ((lawfulLen_eq_false_iff short).2 unlawful), ends]
  · rw [counter_bumpBy, if_pos rfl]
    rfl
  · rw [counter_bumpBy, if_neg ne]

end Sys2Proof.Machine

/-! The bytes of a frame (R146 to R148): the fields of a payload byte by byte, the CHECK computation, and that a frame given by its bytes
acts as the command that its kind and payload make (log entry 24). -/

namespace Sys2Proof.Machine

/-! ### Fields of payloads (R146, R147) -/

/-- R146: the byte of a field `k` bits up. -/
theorem byte_div {w : Nat} (x : BitVec w) (k : Nat) : byte (x.toNat / 2 ^ k) = x.extractLsb' k 8 := by
  rw [← Nat.shiftRight_eq_div_pow]
  rfl

theorem be2_toNat (x : BitVec 16) : be2 x.toNat = [x.extractLsb' 8 8, x.extractLsb' 0 8] := by
  rw [← byte_div x 8, ← byte_div x 0, pow_zero, Nat.div_one]
  rfl

theorem be3_toNat (x : BitVec 24) : be3 x.toNat = [x.extractLsb' 16 8, x.extractLsb' 8 8, x.extractLsb' 0 8] := by
  rw [← byte_div x 16, ← byte_div x 8, ← byte_div x 0, pow_zero, Nat.div_one]
  rfl

/-! ### The CHECK computation (R148) -/

/-- R148: the computation over the data bits of a run of bytes, most significant bit of each byte first. -/
theorem crc_eq_bits (bs : List Byte) :
    crc bs
      = (bs.flatMap fun b => [7, 6, 5, 4, 3, 2, 1, 0].map b.getLsbD).foldl
          (fun (reg : BitVec 16) (d : Bool) => (reg <<< 1) ^^^ (if reg.getLsbD 15 = d then 0 else 0x1021)) 0xffff := by
  have bit : (fun (reg : BitVec 16) (d : Bool) => (reg <<< 1) ^^^ (if reg.getLsbD 15 = d then 0 else 0x1021)) = crcBit := by
    funext reg d
    exact (crcBit_eq reg d).symm
  rw [bit, List.foldl_flatMap, crc]
  simp only [List.foldl_map]
  rfl

/-- What a bit adds to the shifted register. -/
def crcAdded (differs : Bool) : BitVec 16 := if differs then 0x1021 else 0

theorem crcBit_added (reg : BitVec 16) (d : Bool) : crcBit reg d = reg <<< 1 ^^^ crcAdded (reg.msb ^^ d) := by
  unfold crcBit crcAdded
  cases reg.msb <;> cases d <;> simp

theorem crcAdded_xor (a b : Bool) : crcAdded (a ^^ b) = crcAdded a ^^^ crcAdded b := by
  cases a <;> cases b <;> rfl

/-- The computation of a bit is linear over registers and data bits. -/
theorem crcBit_xor (x y : BitVec 16) (d e : Bool) : crcBit (x ^^^ y) (d ^^ e) = crcBit x d ^^^ crcBit y e := by
  simp only [crcBit_added, BitVec.msb_xor, crcAdded_xor, BitVec.shiftLeft_xor_distrib]
  ac_rfl

/-- The computation of a byte is linear over registers and bytes. -/
theorem crcByte_xor (x y : BitVec 16) (a b : Byte) : crcByte (x ^^^ y) (a ^^^ b) = crcByte x a ^^^ crcByte y b := by
  simp only [crcByte, List.foldl_cons, List.foldl_nil, BitVec.getLsbD_xor, crcBit_xor]

/-- A register takes two different bytes to two different registers: eight bits fit beside the generator's sixteen. -/
theorem crcByte_byte_injective (r : BitVec 16) {a b : Byte} (h : crcByte r a = crcByte r b) : a = b := by
  have apart : ∀ x : Byte, crcByte 0 x = 0 → x = 0 := by decide
  have same : crcByte 0 (a ^^^ b) = 0 := by
    have linear := crcByte_xor r r a b
    rwa [h, BitVec.xor_self, BitVec.xor_self] at linear
  exact BitVec.xor_eq_zero_iff.1 (apart _ same)

/-- R148: a change of one byte changes the CHECK. -/
theorem crc_ne_of_byte_ne (before after : List Byte) {a b : Byte} (ne : a ≠ b) :
    crc (before ++ a :: after) ≠ crc (before ++ b :: after) := by
  simp only [crc, List.foldl_append, List.foldl_cons]
  exact fun same => ne (crcByte_byte_injective _ (foldl_crcByte_injective after same))

/-- A byte that is the register's high byte is shifted out with nothing added. -/
theorem crcByte_high (r : BitVec 16) : crcByte r (r.extractLsb' 8 8) = r <<< 8 := by
  have out : ∀ k i, k + i = 7 → crcBit (r <<< k) ((r.extractLsb' 8 8).getLsbD i) = r <<< (k + 1) := fun k i sum => by
    have top : (r <<< k).msb = (r.extractLsb' 8 8).getLsbD i := by
      rw [BitVec.msb_shiftLeft, BitVec.getMsbD_eq_getLsbD, BitVec.getLsbD_extractLsb']
      simp [show k < 16 by omega, show i < 8 by omega, show 15 - k = 8 + i by omega]
    rw [crcBit, if_pos top, BitVec.shiftLeft_add]
  have first : crcBit r ((r.extractLsb' 8 8).getLsbD 7) = r <<< 1 := by simpa using out 0 7 rfl
  simp only [crcByte, List.foldl_cons, List.foldl_nil, first, out 1 6 rfl, out 2 5 rfl, out 3 4 rfl, out 4 3 rfl, out 5 2 rfl,
    out 6 1 rfl, out 7 0 rfl, Nat.reduceAdd]

/-- R148: the register over a run of bytes followed by its own CHECK, high byte first, is 0. -/
theorem crc_append_self (bs : List Byte) : crc (bs ++ be2 (crc bs).toNat) = 0 := by
  have low : (crc bs).extractLsb' 0 8 = (crc bs <<< 8).extractLsb' 8 8 := by
    apply BitVec.eq_of_getLsbD_eq
    intro i hi
    simp [hi, show 8 + i < 16 by omega, BitVec.getLsbD_eq_getElem (show i < 16 by omega)]
  have run : crc (bs ++ be2 (crc bs).toNat) = (be2 (crc bs).toNat).foldl crcByte (crc bs) := List.foldl_append
  rw [run, be2_toNat, List.foldl_cons, List.foldl_cons, List.foldl_nil, crcByte_high, low, crcByte_high, ← BitVec.shiftLeft_add]
  exact BitVec.shiftLeft_eq_zero le_rfl

/-! ### A frame by its bytes (log entry 24) -/

section
variable {f : Frame} {s : State}

theorem takeFrame_sample {es : List SampleEntry} (kind : f.kind = kindSample) (payload : f.payload = sampleBytes es) :
    takeFrame f = takeSample f.src es := by
  funext u
  rw [takeFrame, if_pos kind, payload, readSamples_sampleBytes]

theorem takeFrame_notice {n : NoticeFields} (kind : f.kind = kindNotice) (payload : f.payload = noticeBytes n) :
    takeFrame f = takeNotice n := by
  funext u
  rw [takeFrame, kind, if_neg (by decide), if_pos rfl, payload, readNotice_noticeBytes]

theorem takeFrame_phase {p : PhaseFields} (kind : f.kind = kindPhase) (payload : f.payload = phaseBytes p) :
    takeFrame f = takePhase p := by
  funext u
  rw [takeFrame, kind, if_neg (by decide), if_neg (by decide), if_pos rfl, payload, readPhase_phaseBytes]

theorem takeFrame_request {code tag : Byte} {ops : List Byte} (kind : f.kind = kindRequest) (payload : f.payload = code :: tag :: ops) :
    takeFrame f = takeCoded ⟨f.src, tag⟩ code ops := by
  funext u
  rw [takeFrame, kind, if_neg (by decide), if_neg (by decide), if_neg (by decide), payload]

/-- R137, R162: a REQUEST frame addressed to the part is received as the request of its code. -/
theorem receive_request {code tag : Byte} {ops : List Byte} (kind : f.kind = kindRequest) (payload : f.payload = code :: tag :: ops)
    (addressed : f.dest = s.ring.nodeAddr) :
    receive f s = receiveRequest ⟨f.src, tag⟩ ops.length (takeCoded ⟨f.src, tag⟩ code ops) s := by
  have length : f.payload.length = ops.length + 2 := by rw [payload]; rfl
  unfold receiveRequest
  split
  · next long => exact receiveWith_tooLong (by rw [length]; exact long)
  · next short =>
    have short : f.payload.length ≤ 60 := by rw [length]; exact Nat.not_lt.1 short
    split
    · next own =>
      rw [receive, receiveWith_own short own]
      exact stripFrame_foreignKind (by rw [kind]; decide) (by rw [kind]; decide) (by rw [kind]; decide)
    · next other =>
      have takes : takesKind f.kind = true := by rw [kind]; decide
      have lawful : lawfulLen f.kind f.payload.length = true := Bool.eq_true_of_not_eq_false fun bad => by
        rw [lawfulLen_eq_false_iff short, kind, length] at bad
        simp [kindRequest] at bad
      rw [receive, receiveWith_addressed short other addressed, consumeFrame_taken takes, takeLawful_lawful lawful,
        takeFrame_request kind payload]

end

/-- Settles O44: the payloads byte by byte (`be2_toNat`, `be3_toNat`), the CHECK computation, and each frame by its bytes. -/
theorem frameBytesAgree : Obligations.FrameBytesAgree := by
  unfold Obligations.FrameBytesAgree
  refine ⟨fun f => rfl, crc_eq_bits, by decide +kernel, fun before after a b ne => crc_ne_of_byte_ne before after ne, crc_append_self,
    fun es => ?_, fun n => ?_, fun p => ?_, fun o => ?_, fun o => rfl,
    fun h s => ⟨fun es => ?_, fun n => ?_, fun p => ?_, fun o => rfl, fun code tag ops addressed => ?_,
      fun kind payload => ⟨fun _ => ?_, rfl⟩⟩⟩
  · simp [sampleBytes, be2_toNat]
  · simp [noticeBytes, be2_toNat, be3_toNat]
  · simp [phaseBytes, be2_toNat]
  · simp [orderBytes, be2_toNat]
  · exact congrArg (fun take => Host.Outcome.next (takeRingEvent (receiveWith _ take) s))
      (takeFrame_sample (f := frameOf h kindSample (sampleBytes es)) rfl rfl)
  · exact congrArg (fun take => Host.Outcome.next (takeRingEvent (receiveWith _ take) s))
      (takeFrame_notice (f := frameOf h kindNotice (noticeBytes n)) rfl rfl)
  · exact congrArg (fun take => Host.Outcome.next (takeRingEvent (receiveWith _ take) s))
      (takeFrame_phase (f := frameOf h kindPhase (phaseBytes p)) rfl rfl)
  · refine congrArg Host.Outcome.next ?_
    by_cases service : InService s
    · rw [takeRingEvent_inService _ service, takeRingEvent_inService _ service]
      exact congrArg closeEvent
        (receive_request (f := frameOf h kindRequest (code :: tag :: ops)) rfl rfl (by simpa [frameOf] using addressed))
    · rw [takeRingEvent_bypass _ service, takeRingEvent_bypass _ service]
  · refine congrArg (fun take => Host.Outcome.next (takeRingEvent take s)) ?_
    funext u
    exact if_pos rfl

end Sys2Proof.Machine

/-! The order queue (R151 to R153): the orders that a completion requests, by gate, and what a withdrawal removes. -/

namespace Sys2Proof.Machine

/-! ### The orders that are formed (R151) -/

section
variable {m : Mode} {s : State} {g : GateNo}

/-- R151: the order of an ordered gate with a commanded opening, by the fields of Table 9-1. -/
theorem formOrder_commanded {c : Nat} (ordered : (s.gate g).state.ordered = true) (commanded : (s.gate g).commanded = some c) :
    formOrder m s g
      = some
          { dest := (s.gateCfg g).node, gate := g, opening := c,
            urgent := decide (m = .surcharge ∧ (s.gateCfg g).cls = .spill),
            cadenceLength := s.mgmt.active.t10.cadenceLength } := by
  rw [formOrder, if_pos ordered, commanded, Option.map_some]

/-- R151: an order is formed of an ordered gate with a commanded opening alone (log entry 7). -/
theorem of_formOrder {o : Order} (formed : formOrder m s g = some o) :
    (s.gate g).state.ordered = true ∧ (s.gate g).commanded ≠ none := by
  unfold formOrder at formed
  split at formed
  · next ordered => exact ⟨ordered, fun none => by simp [none] at formed⟩
  · cases formed

theorem formOrders_distinct (m : Mode) (s : State) :
    (((List.finRange 16).filterMap (formOrder m s)).map (·.gate)).Nodup :=
  formOrders_nodup m s _ (List.nodup_finRange 16)

end

/-! ### The order queue after the requests of a completion (R151, R152) -/

section
variable (m : Mode) {s : State}

theorem requestOrders_one (one : OneOrderPerGate s) : OneOrderPerGate (requestOrders m s) :=
  (queueOrders_spec _ (formOrders_distinct m s) s one).1

theorem requestOrders_mem {g : GateNo} {o : Order} (one : OneOrderPerGate s) (formed : formOrder m s g = some o) :
    o ∈ (requestOrders m s).orders.queue :=
  (queueOrders_spec _ (formOrders_distinct m s) s one).2.1 o (List.mem_filterMap.2 ⟨g, List.mem_finRange g, formed⟩)

/-- R152: the orders of a gate of which none is requested are as they were. -/
theorem requestOrders_mem_iff {o : Order} (one : OneOrderPerGate s)
    (unasked : (s.gate o.gate).state.ordered = true → (s.gate o.gate).commanded = none) :
    o ∈ (requestOrders m s).orders.queue ↔ o ∈ s.orders.queue := by
  refine (queueOrders_spec _ (formOrders_distinct m s) s one).2.2 o fun x placed same => ?_
  obtain ⟨g, -, formed⟩ := List.mem_filterMap.1 placed
  obtain ⟨ordered, commanded⟩ := of_formOrder formed
  rw [← formOrder_gate formed, same] at ordered commanded
  exact commanded (unasked ordered)

/-- R152: the gates of the queue keep their places, and the newly ordered ones follow in gate order. -/
theorem requestOrders_gates (s : State) :
    (requestOrders m s).orders.queue.map (·.gate)
      = s.orders.queue.map (·.gate)
        ++ (List.finRange 16).filter fun g =>
            (s.gate g).state.ordered && (s.gate g).commanded.isSome && decide (g ∉ s.orders.queue.map (·.gate)) := by
  rw [requestOrders, queueOrders_queue, placeOrders_gates _ _ (formOrders_distinct m s), formOrders_gates, List.filter_filter]
  simp only [Bool.and_comm, Bool.and_assoc]

/-- R152: each gate ordered that had an order waiting is counted in SUPERSEDED. -/
theorem requestOrders_superseded (counted : s.counter .superseded ≤ 65535) :
    (requestOrders m s).counter .superseded
      = min (s.counter .superseded
          + ((List.finRange 16).filter fun g =>
              (s.gate g).state.ordered && (s.gate g).commanded.isSome
                && decide (g ∈ s.orders.queue.map (·.gate))).length) 65535 := by
  rw [requestOrders, queueOrders_superseded _ _ (formOrders_distinct m s) counted, formOrders_gates, List.filter_filter]
  simp only [Bool.and_comm, Bool.and_assoc]

end

/-! ### Withdrawals (R153) -/

/-- R153: a withdrawal counts the orders that it removes. -/
theorem withdraw_withdrawn (gone : GateNo → Bool) (s : State) :
    (withdraw gone s).counter .withdrawn
      = min (s.counter .withdrawn + (s.orders.queue.filter fun o => gone o.gate).length) 65535 := by
  have removed : s.orders.queue.length - (s.orders.queue.filter fun o => !gone o.gate).length
      = (s.orders.queue.filter fun o => gone o.gate).length := by
    have := List.length_eq_length_filter_add (l := s.orders.queue) fun o => gone o.gate
    omega
  rw [withdraw, counter_bumpBy, if_pos rfl, removed]
  rfl

/-- Settles O17: one lemma for each thing that the requests of a completion do to the queue (`requestOrders_mem`,
`requestOrders_mem_iff`, `requestOrders_gates`, `requestOrders_superseded`), and a withdrawal by its definition and its count. -/
theorem orderQueueEffects : Obligations.OrderQueueEffects := by
  unfold Obligations.OrderQueueEffects
  refine ⟨fun m s one => ⟨requestOrders_one m one, fun g c ordered commanded => ?_, fun g unasked o same => ?_,
    requestOrders_gates m s, requestOrders_superseded m, by simp, by simp⟩, ordered_iff, fun gone s => ?_⟩
  · exact requestOrders_mem m one (formOrder_commanded ((ordered_iff _).2 ordered) commanded)
  · subst same
    refine requestOrders_mem_iff m one fun ordered => ?_
    exact unasked.resolve_right fun other => by simp [(not_ordered_iff _).1 other] at ordered
  · exact ⟨rfl, withdraw_withdrawn gone s, by simp, by simp, by simp, by simp⟩

end Sys2Proof.Machine

/-! The Order Unit's invariant (R152, R153, R155): every step keeps it; and no command originates an ORDER in INITIAL unless a frame of
kind ORDER stands in the response/report queue, which the invariant admits. -/

namespace Sys2Proof.Machine

/-! ### Work that places no order -/

/-- R153: a gate's order is withdrawn on its entry into exactly the states in which none is requested. -/
theorem ordered_eq_not_withdraws (st : GateState) : st.ordered = !st.withdraws := by
  cases st <;> rfl

/-- From `s` to `t` no order is placed, an order that stays keeps its gate ordered, INITIAL is neither entered nor left, and no
computation begins. -/
structure OrdersFollow (s t : State) : Prop where
  queue : t.orders.queue.Sublist s.orders.queue
  ordered : ∀ o ∈ t.orders.queue, (s.gate o.gate).state.ordered = true → (t.gate o.gate).state.ordered = true
  lost : LostBounded s → LostBounded t
  initial : t.mode.effective = .initial ↔ s.mode.effective = .initial
  computation : ∀ sn, t.engine.computation = some sn → s.engine.computation = some sn

section
variable {s t u : State}

theorem OrderInv.follows (h : OrderInv s) (follow : OrdersFollow s t) : OrderInv t where
  one := h.one.sublist (follow.queue.map _)
  ordered o queued := follow.ordered o queued (h.ordered o (follow.queue.subset queued))
  lost := follow.lost h.lost
  initial inside := List.eq_nil_of_sublist_nil (h.initial (follow.initial.1 inside) ▸ follow.queue)
  snapshot sn running := (h.snapshot sn (follow.computation sn running)).trans follow.initial.symm

namespace OrdersFollow

theorem trans (h : OrdersFollow s t) (h' : OrdersFollow t u) : OrdersFollow s u where
  queue := h'.queue.trans h.queue
  ordered o queued was := h'.ordered o queued (h.ordered o (h'.queue.subset queued) was)
  lost bounded := h'.lost (h.lost bounded)
  initial := h'.initial.trans h.initial
  computation sn running := h.computation sn (h'.computation sn running)

/-- Work that leaves the lost counts and the gates' states. -/
theorem of_queue (queue : t.orders.queue.Sublist s.orders.queue) (lost : t.orders.lost = s.orders.lost)
    (states : ∀ g, (t.gate g).state = (s.gate g).state) (initial : t.mode.effective = .initial ↔ s.mode.effective = .initial)
    (engine : t.engine.computation = s.engine.computation) : OrdersFollow s t where
  queue := queue
  ordered o _ was := (states o.gate) ▸ was
  lost bounded g := by rw [lost]; exact bounded g
  initial := initial
  computation sn running := engine ▸ running

/-- Work that leaves the Order Unit and the gate records. -/
theorem of_same (orders : t.orders = s.orders) (gates : t.gates = s.gates)
    (initial : t.mode.effective = .initial ↔ s.mode.effective = .initial)
    (engine : t.engine.computation = s.engine.computation) : OrdersFollow s t :=
  of_queue (orders ▸ .refl _) (congrArg _ orders) (fun g => by rw [State.gate, gates, State.gate]) initial engine

theorem refl (s : State) : OrdersFollow s s := of_same rfl rfl .rfl rfl

/-- Work that begins on the ring's record and goes on as `OrdersFollow` says. -/
theorem of_ring {r : Ring} (h : OrdersFollow { s with ring := r } t) : OrdersFollow s t :=
  (of_same rfl rfl .rfl rfl : OrdersFollow s { s with ring := r }).trans h

/-- The end of the computation in flight. -/
theorem of_idle (orders : t.orders = s.orders) (gates : t.gates = s.gates) (mode : t.mode = s.mode)
    (idle : t.engine.computation = none) : OrdersFollow s t where
  queue := by rw [orders]
  ordered o _ := by rw [State.gate, State.gate, gates]; exact id
  lost bounded g := by rw [orders]; exact bounded g
  initial := by rw [mode]
  computation sn running := by rw [idle] at running; cases running

theorem raiseIf (h : OrdersFollow s t) (c : Bool) (f : Flag) : OrdersFollow s (raiseIf c f t) :=
  h.trans (of_same (by simp) (by simp) (by simp) (by simp))

/-- Lost counts set within their bound. -/
theorem of_lost {lost : Tab Nat 16} (bounded : LostBounded s → ∀ g, lost.get g ≤ 3) :
    OrdersFollow s { s with orders := { s.orders with lost := lost } } :=
  ⟨.refl _, fun _ _ => id, bounded, .rfl, fun _ => id⟩

theorem setLost {g : GateNo} {n : Nat} (h : n ≤ 3) : OrdersFollow s (setLost g n s) :=
  of_lost fun bounded g' => by
    rw [Tab.get_set]
    split
    · exact h
    · exact bounded g'

theorem setGate {g : GateNo} {r : Gate} (state : r.state = (s.gate g).state) : OrdersFollow s (setGate g r s) :=
  of_queue (.refl _) rfl (fun g' => by
    rw [State.gate, setGate_gates, Tab.get_set]
    split
    · next same => rw [state, same]
    · rfl) .rfl rfl

/-- R153: gates whose orders are not withdrawn stay ordered. -/
theorem withdraw {gates : Tab Gate 16} {gone : GateNo → Bool}
    (stays : ∀ g, gone g = false → (s.gate g).state.ordered = true → (gates.get g).state.ordered = true) :
    OrdersFollow s (withdraw gone { s with gates := gates }) where
  queue := List.filter_sublist
  ordered o queued := by
    obtain ⟨-, kept⟩ := List.mem_filter.1 queued
    exact stays o.gate (by simpa using kept)
  lost := id
  initial := .rfl
  computation _ := id

/-- R153: gates go to FAULT with their orders withdrawn, or stay in their state. -/
theorem withdraw_faulted {gates : Tab Gate 16}
    (faults : ∀ g, (gates.get g).state = (s.gate g).state ∨ (gates.get g).state.isFault = true) :
    OrdersFollow s
      (Machine.withdraw (fun g => (gates.get g).state.isFault && !(s.gate g).state.isFault) { s with gates := gates }) :=
  withdraw fun g kept was => by
    obtain same | fault := faults g
    · rwa [same]
    · rw [fault, Bool.true_and, Bool.not_eq_false', isFault_iff] at kept
      obtain ⟨reason, state⟩ := kept
      rw [state] at was
      cases was

/-- R153: a gate that enters a state in which no order is requested loses its order. -/
theorem enterState (g : GateNo) (st : GateState) (s : State) : OrdersFollow s (enterState g st s) := by
  unfold Machine.enterState
  dsimp only
  have raised : ∀ u, OrdersFollow s u → OrdersFollow s (raiseOnEntry st u) := fun u h =>
    h.trans (of_same (by simp) (by simp) (by simp) (by simp))
  refine raised _ ?_
  split
  · refine withdraw fun g' kept was => ?_
    rwa [Tab.get_set_ne _ _ (by simpa using kept)]
  · next stays =>
    have entered : st.ordered = true := by rw [ordered_eq_not_withdraws, Bool.eq_false_iff.2 stays]; rfl
    refine ⟨.refl _, fun o _ was => ?_, id, .rfl, fun _ => id⟩
    rw [State.gate, setGate_gates, Tab.get_set]
    split
    · exact entered
    · exact was

theorem readPosition (g : GateNo) (s : State) : OrdersFollow s (readPosition g s) := setGate rfl

end OrdersFollow

end

/-! ### Results and LOST expiries (R15, R16, R144, R154, R155) -/

section
variable (g : GateNo) (s : State)

theorem ordersFollow_bump (c : Counter) : OrdersFollow s (bump c s) := .of_same rfl rfl .rfl rfl

theorem ordersFollow_deliverTaken (opening : Option Nat) : OrdersFollow s (deliverTaken g opening s) := by
  unfold deliverTaken
  split
  case h_1 | h_2 => exact .refl s
  case h_3 => exact ((OrdersFollow.enterState g .active s).trans (.readPosition g _)).trans (.setGate rfl)
  case h_4 => exact .enterState g .active s
  case h_5 | h_6 | h_7 => exact ordersFollow_bump s _

theorem ordersFollow_deliverLocal : OrdersFollow s (deliverLocal g s) := by
  unfold deliverLocal
  split
  case h_1 | h_2 | h_4 => exact .enterState g .localControl s
  case h_3 => exact .refl s
  case h_5 | h_6 | h_7 => exact ordersFollow_bump s _

theorem ordersFollow_deliverRefusal (reason : FaultReason) : OrdersFollow s (deliverRefusal reason g s) := by
  unfold deliverRefusal
  split
  case h_1 | h_2 | h_3 | h_4 => exact .enterState g (.fault reason) s
  case h_5 | h_6 | h_7 => exact ordersFollow_bump s _

theorem ordersFollow_deliverUnreachable : OrdersFollow s (deliverUnreachable g s) := by
  unfold deliverUnreachable
  split
  case h_1 | h_2 | h_3 => exact .enterState g .unreachable s
  case h_4 => exact .refl s
  case h_5 | h_6 | h_7 => exact ordersFollow_bump s _

/-- R155: a lost count goes up from below 2, and stands at 3 once it has led to UNREACHABLE. -/
theorem ordersFollow_countLoss : OrdersFollow s (countLoss g s) := by
  unfold countLoss
  split
  · exact .setLost (by omega)
  · exact OrdersFollow.trans (.setLost le_rfl) (ordersFollow_deliverUnreachable g _)

theorem ordersFollow_applyResult (result : Byte) (opening : Option Nat) : OrdersFollow s (applyResult g result opening s) := by
  have counted : OrdersFollow s (if 5 ≤ result.toNat then bump .badResult s else s) := by
    split
    · exact ordersFollow_bump s _
    · exact .refl s
  have cleared := counted.trans (.setLost (g := g) (Nat.zero_le 3))
  unfold applyResult
  dsimp only
  split
  · exact counted.trans (ordersFollow_countLoss g _)
  · exact cleared.trans (ordersFollow_deliverTaken g _ opening)
  · exact cleared.trans (ordersFollow_deliverLocal g _)
  · exact cleared.trans (ordersFollow_deliverRefusal g _ .drive)
  · exact cleared.trans (ordersFollow_deliverRefusal g _ .travel)

theorem ordersFollow_expireEntry (e : InFlight) : OrdersFollow s (expireEntry s e) := by
  have counted := ordersFollow_bump s .lost
  unfold expireEntry
  dsimp only
  repeat' split
  · exact counted.trans (ordersFollow_countLoss _ _)
  all_goals exact counted

theorem ordersFollow_expireEntries (es : List InFlight) : OrdersFollow s (es.foldl expireEntry s) := by
  induction es generalizing s with
  | nil => exact .refl s
  | cons e es ih => exact (ordersFollow_expireEntry s e).trans (ih _)

theorem ordersFollow_millisecond : OrdersFollow s (millisecond s) :=
  .of_ring (ordersFollow_expireEntries { s with ring := _ } _)

theorem ordersFollow_stripFrame (f : Frame) : OrdersFollow s (stripFrame f s) := by
  unfold stripFrame handReturn
  repeat' split
  · exact .of_ring (ordersFollow_applyResult _ _ _ _)
  · exact .of_same rfl rfl .rfl rfl
  · exact .of_same rfl rfl .rfl rfl
  · exact .of_same rfl rfl .rfl rfl
  · exact ordersFollow_bump s _

/-! ### GATE_CONTROL (R12 to R14) -/

/-- R12, R14: a gate is commanded and enters a state. -/
theorem ordersFollow_enterCommanded (st : GateState) (commanded : Option Nat) :
    OrdersFollow s (enterState g st (setGate g { s.gate g with commanded := commanded } s)) :=
  (OrdersFollow.setGate (r := { s.gate g with commanded := commanded }) rfl).trans (.enterState g st _)

theorem ordersFollow_enableGate : OrdersFollow s (enableGate g s).2 := by
  have read := OrdersFollow.readPosition g s
  unfold enableGate gateReply refuse
  dsimp only
  repeat' split
  · exact read.trans (.enterState g .active _)
  · exact read.trans (ordersFollow_enterCommanded g _ .active _)
  all_goals exact read

theorem ordersFollow_disableGate : OrdersFollow s (disableGate g s).2 := by
  unfold disableGate gateReply
  split
  · exact .refl s
  · exact .enterState g .offline s

theorem ordersFollow_holdGate : OrdersFollow s (holdGate g s).2 := by
  unfold holdGate gateReply refuse
  split
  · exact .enterState g .held s
  · split <;> exact .refl s

theorem ordersFollow_releaseGate : OrdersFollow s (releaseGate g s).2 := by
  unfold releaseGate gateReply refuse
  split
  · exact .enterState g .active s
  · exact .refl s

theorem ordersFollow_clearFaultGate : OrdersFollow s (clearFaultGate g s).2 := by
  have read := OrdersFollow.readPosition g s
  unfold clearFaultGate gateReply refuse
  dsimp only
  repeat' split
  · exact read.trans (ordersFollow_enterCommanded g _ .active _)
  all_goals exact read

end

/-! ### The end of an event and the requests that the Order Unit takes no part in -/

section
variable (s : State)

theorem arbitrate_sublist : (arbitrate s).orders.queue.Sublist s.orders.queue := by
  obtain same | ⟨o, taken⟩ := arbitrate_takes s
  · rw [same]
  · rw [taken]
    exact List.sublist_cons_self _ _

/-- R141: the end of an event takes at most the head of the order queue. -/
theorem ordersFollow_closeEvent : OrdersFollow s (closeEvent s) := by
  refine .of_queue ?_ (by simp) (fun g => by simp [State.gate]) (by simp) (by simp)
  obtain same | ⟨o, taken⟩ := closeEvent_takes s
  · rw [same]
  · rw [taken]
    exact List.sublist_cons_self _ _

theorem ordersFollow_endSend : OrdersFollow s (endSend s) := by
  unfold endSend
  split
  · exact OrdersFollow.trans (.of_same rfl rfl .rfl rfl)
      (.of_queue (arbitrate_sublist _) (by simp) (fun g => by simp [State.gate]) (by simp) (by simp))
  · exact .refl s

theorem ordersFollow_relayFrame (f : Frame) : OrdersFollow s (relayFrame f s) := by
  unfold relayFrame
  repeat' split
  all_goals exact .of_same (by simp) (by simp) (by simp) (by simp)

theorem ordersFollow_writeRequest (src : Byte) (ops : List Byte) : OrdersFollow s (writeRequest src ops s).2 := by
  obtain ⟨m, touched⟩ := writeRequest_same src ops s
  rw [touched]
  exact .of_same rfl rfl .rfl rfl

theorem ordersFollow_commitRequest : OrdersFollow s (commitRequest s).2 := by
  unfold commitRequest
  repeat' split
  all_goals exact .of_same rfl rfl .rfl rfl

theorem ordersFollow_lockRequest : OrdersFollow s (lockRequest s).2 := by
  unfold lockRequest
  repeat' split
  all_goals exact .of_same rfl rfl .rfl rfl

theorem ordersFollow_requestMode (ops : List Byte) : OrdersFollow s (requestMode ops s).2 := by
  refine .of_same ?_ ?_ (requestMode_initial ops s) ?_
  all_goals
    unfold requestMode
    dsimp only
    repeat' split
    all_goals simp

theorem ordersFollow_runPlan (ops : List Byte) : OrdersFollow s (runPlan ops s).2 := by
  unfold runPlan
  repeat' split
  all_goals exact .of_same rfl rfl .rfl rfl

theorem ordersFollow_stopPlan (ops : List Byte) : OrdersFollow s (stopPlan ops s).2 := by
  unfold stopPlan
  split <;> exact .of_same rfl rfl .rfl rfl

theorem ordersFollow_setOutputGate (ops : List Byte) : OrdersFollow s (setOutputGate ops s).2 := by
  unfold setOutputGate
  repeat' split
  all_goals exact .of_same rfl rfl .rfl rfl

theorem ordersFollow_clearRequest (ops : List Byte) : OrdersFollow s (clearRequest ops s).2 := by
  unfold clearRequest
  split <;> exact .of_same rfl rfl .rfl rfl

/-! ### The cadence expiry (R11, R17, R153, R158, R168) -/

/-- R11, R153, R158: a set switch withdraws the orders of the gates whose class changes, and sets lost counts to 0. -/
theorem ordersFollow_setSwitch : OrdersFollow s (setSwitch s) := by
  obtain ⟨-, -, queue, lost, -⟩ := setSwitch_fields s
  refine ⟨?_, fun o queued was => ?_, fun bounded g => ?_, by simp, by simp⟩
  · rw [queue]
    exact List.filter_sublist
  · rw [queue] at queued
    have cls : (s.mgmt.active.t1.get o.gate).cls = (s.mgmt.shadow.t1.get o.gate).cls := by simpa using (List.mem_filter.1 queued).2
    rw [setSwitch_gate, Gate.switchClass, if_pos cls]
    exact was
  · rw [lost, switchOrders, Tab.get_ofFn]
    split
    · exact Nat.zero_le 3
    · exact bounded g

theorem ordersFollow_switched : OrdersFollow s (switched s) := by
  have opened : OrdersFollow s (openExpiry s) := .of_same rfl rfl .rfl rfl
  unfold switched takePendingSwitch
  split
  · exact opened.trans (ordersFollow_setSwitch _)
  · exact opened

/-- R17: the tracking monitor withdraws the orders of the gates that it puts in FAULT. -/
theorem ordersFollow_trackGates : OrdersFollow s (trackGates s) := by
  have faulted := OrdersFollow.withdraw_faulted (s := s)
    (gates := s.gates.map (Gate.tracking s.mgmt.active.t10.trackingBand s.mgmt.active.t10.trackingLimit)) fun g => by
      rw [Tab.get_map]
      exact (tracking_state _ _).imp_right fun fault => by rw [fault]; rfl
  exact faulted.raiseIf _ _

theorem ordersFollow_gateExpiry : OrdersFollow s (gateExpiry s) := by
  have read : OrdersFollow s (readPositions s) := .of_queue (.refl _) rfl (fun g => by
    rw [State.gate, readPositions, Tab.get_ofFn]
    split <;> rfl) .rfl rfl
  unfold gateExpiry raiseGateFlags
  dsimp only
  refine OrdersFollow.raiseIf (.raiseIf (.raiseIf ?_ _ _) _ _) _ _
  split
  · exact read
  · exact read.trans (ordersFollow_trackGates _)

theorem ordersFollow_expiryWork : OrdersFollow s (expiryWork s) := by
  obtain ⟨-, -, -, -, -, -, -, gates, orders⟩ := expiryWork_fields s
  have before : OrdersFollow s (timerExpiry (switched s)) :=
    (ordersFollow_switched s).trans (.of_same (by simp) (by simp) (by simp) (by simp))
  refine (before.trans (ordersFollow_gateExpiry _)).trans (.of_same orders gates ?_ (by simp))
  rw [expiryWork_mode]
  simp

/-! ### The completion (R7, R19, R151 to R153) and RESTART (R172) -/

theorem ordersFollow_bumplessStart (snap : Tab Gate 16) : OrdersFollow s (bumplessStart snap s) := by
  have faulted := OrdersFollow.withdraw_faulted (s := s) (gates := Tab.ofFn fun g =>
      (s.gate g).bumpless (s.gateCfg g) (snap.get g).measured (snap.get g).fresh) fun g => by
    rw [Tab.get_ofFn, Gate.bumpless]
    repeat' split
    · exact .inl rfl
    · exact .inl rfl
    · exact .inr rfl
    · exact .inl rfl
  exact faulted.raiseIf _ _

theorem ordersFollow_writeTargets (sn : Snapshot) (c : Computed) : OrdersFollow s (writeTargets sn c s) :=
  .of_queue (.refl _) rfl (fun g => by
    rw [State.gate, writeTargets, Tab.get_ofFn]
    dsimp only
    split <;> rfl) .rfl rfl

end

theorem mem_placeOrder {o x : Order} {q : List Order} (h : x ∈ placeOrder o q) : x = o ∨ x ∈ q := by
  induction q with
  | nil => exact .inl (List.mem_singleton.1 h)
  | cons y rest ih =>
    unfold placeOrder at h
    split at h
    · exact (List.mem_cons.1 h).imp_right (List.mem_cons_of_mem y)
    · obtain rfl | later := List.mem_cons.1 h
      · exact .inr List.mem_cons_self
      · exact (ih later).imp_right (List.mem_cons_of_mem y)

theorem mem_placeOrders {os q : List Order} {x : Order} (h : x ∈ os.foldl (fun q o => placeOrder o q) q) : x ∈ os ∨ x ∈ q := by
  induction os generalizing q with
  | nil => exact .inr h
  | cons o os ih =>
    obtain later | placed := ih h
    · exact .inl (List.mem_cons_of_mem o later)
    · obtain rfl | old := mem_placeOrder placed
      · exact .inl List.mem_cons_self
      · exact .inr old

section
variable {s : State}

/-- R151, R152: outside INITIAL the requests of a completion place orders of ordered gates, one for each. -/
theorem OrderInv.requestOrders (h : OrderInv s) (outside : s.mode.effective ≠ .initial) (m : Mode) :
    OrderInv (requestOrders m s) where
  one := requestOrders_one m h.one
  ordered o queued := by
    rw [Machine.requestOrders, queueOrders_queue] at queued
    rw [State.gate, (requestOrders_same m s).2.2.1]
    obtain placed | old := mem_placeOrders queued
    · obtain ⟨g, -, formed⟩ := List.mem_filterMap.1 placed
      rw [formOrder_gate formed]
      exact (of_formOrder formed).1
    · exact h.ordered o old
  lost := by simpa [LostBounded] using h.lost
  initial inside := absurd (by simpa using inside) outside
  snapshot sn running := by simpa using h.snapshot sn (by simpa using running)

/-- R130: leaving INITIAL, with no computation in flight any more. -/
theorem OrderInv.leaveInitial (h : OrderInv s) (idle : s.engine.computation = none) : OrderInv (leaveInitial s) where
  one := by simpa [OneOrderPerGate, Machine.leaveInitial] using h.one
  ordered := by simpa [OrdersOfOrdered, Machine.leaveInitial, State.gate] using h.ordered
  lost := by simpa [LostBounded, Machine.leaveInitial] using h.lost
  initial inside := by simp [Machine.leaveInitial, effectiveMode_ne_initial] at inside
  snapshot sn running := by simp [idle] at running

theorem OrderInv.completeLeaving (h : OrderInv s) (idle : s.engine.computation = none) (sn : Snapshot) :
    OrderInv (completeLeaving sn s) := by
  unfold Machine.completeLeaving
  dsimp only
  refine OrderInv.requestOrders ?_ ?_ _
  · exact ((h.leaveInitial idle).follows (ordersFollow_bumplessStart _ sn.gates)).follows
      (.of_same (by simp) (by simp) (by simp) (by simp))
  · simp [Machine.leaveInitial, effectiveMode_ne_initial]

theorem OrderInv.completeGoverned (h : OrderInv s) (outside : s.mode.effective ≠ .initial) (sn : Snapshot) :
    OrderInv (completeGoverned sn s) := by
  have raised : OrderInv (raiseIf sn.overRange .headRange s) := h.follows (.of_same (by simp) (by simp) (by simp) (by simp))
  have requested := (raised.follows (ordersFollow_writeTargets _ sn (compute sn))).requestOrders
    (by simpa [writeTargets] using outside) sn.mode
  unfold Machine.completeGoverned
  dsimp only
  exact requested.follows (.of_same (by simp) (by simp) (by simp) (by simp))

/-- R56, R130: the snapshot of the computation shows INITIAL exactly in INITIAL, so that orders are requested outside it alone. -/
theorem OrderInv.completeComputation (h : OrderInv s) {sn : Snapshot} (running : s.engine.computation = some sn) :
    OrderInv (completeComputation sn s) := by
  have ended : OrderInv { s with engine := { s.engine with computation := none } } :=
    h.follows (.of_idle rfl rfl rfl rfl)
  suffices body : OrderInv (completeBody sn { s with engine := { s.engine with computation := none } }) from
    body.follows (.of_same (by simp [Machine.completeComputation]) (by simp [Machine.completeComputation])
      (by simp [Machine.completeComputation]) (by simp [Machine.completeComputation]))
  unfold completeBody
  split
  · split
    · exact ended.completeLeaving rfl sn
    · exact ended.follows (.of_same rfl rfl .rfl rfl)
  · next outside => exact ended.completeGoverned (fun inside => outside ((h.snapshot sn running).2 inside)) sn

/-- R56: the snapshot shows the effective mode as it stands. -/
theorem OrderInv.beginComputation (h : OrderInv s) : OrderInv (beginComputation s) where
  one := h.one
  ordered := h.ordered
  lost := h.lost
  initial := h.initial
  snapshot sn running := by
    cases running
    exact .rfl

end

/-- R172: RESTART empties the order queue and ends the computation. -/
theorem orderInv_restartRequest (s : State) : OrderInv (restartRequest s).2 where
  one := by simp [OneOrderPerGate, restartRequest]
  ordered := by simp [OrdersOfOrdered, restartRequest]
  lost := by simp [LostBounded, restartRequest]
  initial _ := by simp [restartRequest]
  snapshot := by simp [SnapshotInitial, restartRequest]

/-! ### Every step keeps the Order Unit's invariant -/

theorem keeps_orderInv : Keeps OrderInv where
  assertReset s h := h.follows (.of_idle rfl rfl rfl rfl)
  close s h := h.follows (ordersFollow_closeEvent s)
  count c n s h := h.follows (.of_same rfl rfl .rfl rfl)
  answer q r s _ h := h.follows (.of_same rfl rfl .rfl rfl)
  stale s h := h.follows (.of_same (by simp) (by simp) (by simp) (by simp))
  due s h := h.follows (.of_same rfl rfl .rfl rfl)
  tick s h := h.follows (.of_same rfl rfl .rfl rfl)
  expiry s _ _ h := (h.follows (ordersFollow_expiryWork s)).beginComputation
  completion sn s running h := h.completeComputation running
  millisecond s h := h.follows (ordersFollow_millisecond s)
  sent s h := h.follows (ordersFollow_endSend s)
  sample src es s h := h.follows (.of_same (by simp) (by simp) (by simp) (by simp))
  notice n s h := h.follows (.of_same (by simp) (by simp) (by simp) (by simp))
  phase p s h := h.follows (.of_same (by simp) (by simp) (by simp) (by simp))
  strip f s h := h.follows (ordersFollow_stripFrame s f)
  relay f s h := h.follows (ordersFollow_relayFrame s f)
  write src ops s h := h.follows (ordersFollow_writeRequest s src ops)
  commit s h := h.follows (ordersFollow_commitRequest s)
  cancel s h := h.follows (.of_same rfl rfl .rfl rfl)
  lock s h := h.follows (ordersFollow_lockRequest s)
  enable g s _ h := h.follows (ordersFollow_enableGate g s)
  disable g s _ h := h.follows (ordersFollow_disableGate g s)
  hold g s _ h := h.follows (ordersFollow_holdGate g s)
  release g s _ h := h.follows (ordersFollow_releaseGate g s)
  clearFault g s _ h := h.follows (ordersFollow_clearFaultGate g s)
  mode ops s h := h.follows (ordersFollow_requestMode s ops)
  run ops s h := h.follows (ordersFollow_runPlan s ops)
  stop ops s h := h.follows (ordersFollow_stopPlan s ops)
  output ops s h := h.follows (ordersFollow_setOutputGate s ops)
  clear ops s h := h.follows (ordersFollow_clearRequest s ops)
  counters s h := h.follows (.of_same rfl rfl .rfl rfl)
  restart s _ := orderInv_restartRequest s

/-- R152, R153, R155: the first clause of O55. -/
theorem orderInv_step {s t : State} (inv : OrderInv s) (stepped : step s = .next t) : OrderInv t :=
  keeps_orderInv.step orderInv_pinReset (fun _ _ h => h.follows (.of_same rfl rfl .rfl rfl)) inv stepped

/-! ### Nothing sends an ORDER in INITIAL (R141, R153) -/

/-- No frame of kind ORDER stands in the response/report queue, and in INITIAL the only ORDERs in flight are among those of `old`. -/
structure SendsNoOrder (old : List InFlight) (s : State) : Prop where
  responses : ∀ f ∈ s.ring.feed, f.kind ≠ .order
  sent : s.mode.effective = .initial → ∀ e ∈ s.ring.inFlight, e.kind = .order → e ∈ old

namespace SendsNoOrder

variable {old : List InFlight} {s t : State}

/-- Work that originates no ORDER, places none in the response/report queue, and does not enter INITIAL. -/
theorem of_ring (h : SendsNoOrder old s) (feed : ∀ f ∈ t.ring.feed, f ∈ s.ring.feed ∨ f.kind ≠ .order)
    (inFlight : ∀ e ∈ t.ring.inFlight, e ∈ s.ring.inFlight ∨ e.kind ≠ .order)
    (initial : t.mode.effective = .initial → s.mode.effective = .initial) : SendsNoOrder old t where
  responses f queued := (feed f queued).elim (h.responses f) id
  sent inside e flying order :=
    (inFlight e flying).elim (fun before => h.sent (initial inside) e before order) fun other => absurd order other

/-- Work that leaves the ring's record. -/
theorem of_same (h : SendsNoOrder old s) (ring : t.ring = s.ring)
    (initial : t.mode.effective = .initial → s.mode.effective = .initial) : SendsNoOrder old t :=
  h.of_ring (by rw [ring]; exact fun _ => .inl) (by rw [ring]; exact fun _ => .inl) initial

/-- R142: an originated frame of another kind, and the queue that it is taken from. -/
theorem originate (h : SendsNoOrder old s) {feed : List Outgoing} (taken : feed ⊆ s.ring.feed) {dest : Byte} {kind : OwnKind}
    (other : kind ≠ .order) (payload : List Byte) :
    SendsNoOrder old { s with ring := originate dest kind none payload { s.ring with feed := feed } } :=
  h.of_ring (fun _ queued => .inl (taken queued))
    (fun e flying => (List.mem_append.1 flying).imp_right fun new => by rw [List.mem_singleton.1 new]; exact other) id

theorem takeRelayThenFeed (h : SendsNoOrder old s) : SendsNoOrder old (takeRelayThenFeed s) := by
  unfold Machine.takeRelayThenFeed
  split
  · exact h.of_ring (fun _ => .inl) (fun _ => .inl) id
  · split
    · next f rest feed =>
      split
      · exact h.originate (feed ▸ List.subset_cons_self f rest) (h.responses f (feed ▸ List.mem_cons_self)) f.payload
      · exact h
    · exact h

/-- R141, R153: an order is taken from its queue outside INITIAL alone. -/
theorem takeOrderThenRest (h : SendsNoOrder old s) (empty : NoOrdersInInitial s) : SendsNoOrder old (takeOrderThenRest s) := by
  unfold Machine.takeOrderThenRest
  split
  · next waiting =>
    split
    · refine ⟨h.responses, fun inside => ?_⟩
      rw [empty inside] at waiting
      cases waiting
    · exact h.takeRelayThenFeed
  · exact h.takeRelayThenFeed

theorem arbitrate (h : SendsNoOrder old s) (empty : NoOrdersInInitial s) : SendsNoOrder old (arbitrate s) := by
  have rest := h.takeOrderThenRest empty
  unfold Machine.arbitrate arbiterChoice
  repeat' split
  · exact h.of_ring (fun _ => .inl) (fun _ => .inl) id
  · exact rest
  · exact rest
  · exact h

theorem queueReport (h : SendsNoOrder old s) (kind : Byte) : SendsNoOrder old (queueReport kind s) := by
  refine h.of_ring (fun f queued => ?_) (fun e flying => .inl (by simpa using flying)) (by simp)
  by_cases room : (reportFrames kind s).length ≤ s.feedRoom
  · rw [queueReport_room room] at queued
    refine (List.mem_append.1 queued).imp_right fun new => ?_
    obtain ⟨p, -, rfl⟩ := List.mem_map.1 new
    exact nofun
  · rw [queueReport_full (Nat.lt_of_not_le room)] at queued
    exact .inl queued

theorem closeEvent (h : SendsNoOrder old s) (empty : NoOrdersInInitial s) : SendsNoOrder old (closeEvent s) := by
  have queued : SendsNoOrder old (queueConditionReport s) := by
    unfold queueConditionReport
    split
    · exact h.queueReport _
    · exact h
  have sent : SendsNoOrder old (Machine.arbitrate (queueConditionReport s)) :=
    queued.arbitrate (by simpa [NoOrdersInInitial] using empty)
  unfold Machine.closeEvent
  dsimp only
  split
  · exact sent.of_same rfl id
  · exact queued.of_same rfl id

theorem respond (h : SendsNoOrder old s) (q : Requester) (r : Reply) : SendsNoOrder old (respond q r s) :=
  h.of_ring (fun f queued => (List.mem_append.1 queued).imp_right fun new => by
    obtain ⟨p, -, rfl⟩ := List.mem_map.1 new
    exact nofun) (fun _ => .inl) id

/-- R130: a completion does not enter INITIAL. -/
theorem completeComputation (h : SendsNoOrder old s) (sn : Snapshot) : SendsNoOrder old (completeComputation sn s) := by
  have body : SendsNoOrder old (completeBody sn { s with engine := { s.engine with computation := none } }) := by
    refine h.of_same (by simp) fun inside => ?_
    unfold completeBody at inside
    repeat' split at inside
    · simp [completeLeaving, leaveInitial, effectiveMode_ne_initial] at inside
    · exact inside
    · simpa using inside
  rw [Machine.completeComputation, completionReport_eq]
  split
  · exact (body.of_same (t := reasonsTaken _) rfl id).queueReport _
  · exact body.of_same rfl id

theorem endSend (h : SendsNoOrder old s) (empty : NoOrdersInInitial s) : SendsNoOrder old (endSend s) := by
  unfold Machine.endSend
  split
  · exact (h.of_ring (t := { s with ring := { s.ring with ro := none } }) (fun _ => .inl) (fun _ => .inl) id).arbitrate empty
  · exact h

theorem stripFrame (h : SendsNoOrder old s) (f : Frame) : SendsNoOrder old (stripFrame f s) := by
  have handed : ∀ e u, (handReturn f e u).ring = u.ring := fun e u => by
    unfold handReturn
    split <;> simp
  have initial := (ordersFollow_stripFrame s f).initial.1
  revert initial
  unfold Machine.stripFrame
  split
  · refine fun initial => h.of_ring ?_ ?_ initial
    · rw [handed]
      exact fun _ => .inl
    · rw [handed]
      exact fun _ kept => .inl (List.mem_of_mem_eraseP kept)
  · exact h.of_same rfl

theorem relayFrame (h : SendsNoOrder old s) (f : Frame) : SendsNoOrder old (relayFrame f s) := by
  unfold Machine.relayFrame
  repeat' split
  · exact h.of_ring (fun _ => .inl) (fun _ => .inl) id
  all_goals exact h.of_same (by simp) (by simp)

/-- R172: RESTART empties the in-flight list. -/
theorem restartRequest (h : SendsNoOrder old s) : SendsNoOrder old (restartRequest s).2 where
  responses := by simpa [Machine.restartRequest] using h.responses
  sent _ := by simp [Machine.restartRequest]

end SendsNoOrder

/-- Every piece of work keeps the Order Unit's invariant, and with it that no ORDER is originated in INITIAL. -/
theorem keeps_sendsNoOrder (old : List InFlight) : Keeps fun s => OrderInv s ∧ SendsNoOrder old s where
  assertReset s h := ⟨keeps_orderInv.assertReset s h.1, h.2.of_ring (fun _ => .inl) nofun id⟩
  close s h := ⟨keeps_orderInv.close s h.1, h.2.closeEvent h.1.initial⟩
  count c n s h := ⟨keeps_orderInv.count c n s h.1, h.2.of_same rfl id⟩
  answer q r s room h := ⟨keeps_orderInv.answer q r s room h.1, h.2.respond q r⟩
  stale s h := ⟨keeps_orderInv.stale s h.1, h.2.of_same (by simp) (by simp)⟩
  due s h := ⟨keeps_orderInv.due s h.1, h.2.of_same rfl id⟩
  tick s h := ⟨keeps_orderInv.tick s h.1, h.2.of_same rfl id⟩
  expiry s due idle h :=
    ⟨keeps_orderInv.expiry s due idle h.1, h.2.of_same (by simp) (ordersFollow_expiryWork s).initial.1⟩
  completion sn s running h := ⟨keeps_orderInv.completion sn s running h.1, h.2.completeComputation sn⟩
  millisecond s h := ⟨keeps_orderInv.millisecond s h.1, by
    refine h.2.of_ring ?_ ?_ (ordersFollow_millisecond s).initial.1
    · rw [millisecond_ring]
      exact fun _ => .inl
    · rw [millisecond_ring]
      exact fun _ kept => .inl (List.mem_filter.1 kept).1⟩
  sent s h := ⟨keeps_orderInv.sent s h.1, h.2.endSend h.1.initial⟩
  sample src es s h := ⟨keeps_orderInv.sample src es s h.1, h.2.of_same (by simp) (by simp)⟩
  notice n s h := ⟨keeps_orderInv.notice n s h.1, h.2.of_same (by simp) (by simp)⟩
  phase p s h := ⟨keeps_orderInv.phase p s h.1, h.2.of_same (by simp) (by simp)⟩
  strip f s h := ⟨keeps_orderInv.strip f s h.1, h.2.stripFrame f⟩
  relay f s h := ⟨keeps_orderInv.relay f s h.1, h.2.relayFrame f⟩
  write src ops s h := ⟨keeps_orderInv.write src ops s h.1,
    h.2.of_same (writeRequest_ring s src ops).1 (ordersFollow_writeRequest s src ops).initial.1⟩
  commit s h := ⟨keeps_orderInv.commit s h.1, h.2.of_same (commitRequest_ring s).1 (ordersFollow_commitRequest s).initial.1⟩
  cancel s h := ⟨keeps_orderInv.cancel s h.1, h.2.of_same rfl id⟩
  lock s h := ⟨keeps_orderInv.lock s h.1, h.2.of_same (lockRequest_ring s).1 (ordersFollow_lockRequest s).initial.1⟩
  enable g s present h := ⟨keeps_orderInv.enable g s present h.1, h.2.of_same (enableGate_ring s g).1 (by simp)⟩
  disable g s present h := ⟨keeps_orderInv.disable g s present h.1, h.2.of_same (disableGate_ring s g).1 (by simp)⟩
  hold g s present h := ⟨keeps_orderInv.hold g s present h.1, h.2.of_same (holdGate_ring s g).1 (by simp)⟩
  release g s present h := ⟨keeps_orderInv.release g s present h.1, h.2.of_same (releaseGate_ring s g).1 (by simp)⟩
  clearFault g s present h := ⟨keeps_orderInv.clearFault g s present h.1, h.2.of_same (clearFaultGate_ring s g).1 (by simp)⟩
  mode ops s h := ⟨keeps_orderInv.mode ops s h.1, h.2.of_same (requestMode_ring s ops).1 (requestMode_initial ops s).1⟩
  run ops s h := ⟨keeps_orderInv.run ops s h.1, h.2.of_same (runPlan_ring s ops).1 (ordersFollow_runPlan s ops).initial.1⟩
  stop ops s h := ⟨keeps_orderInv.stop ops s h.1, h.2.of_same (stopPlan_ring s ops).1 (ordersFollow_stopPlan s ops).initial.1⟩
  output ops s h := ⟨keeps_orderInv.output ops s h.1,
    h.2.of_same (setOutputGate_ring s ops).1 (ordersFollow_setOutputGate s ops).initial.1⟩
  clear ops s h := ⟨keeps_orderInv.clear ops s h.1,
    h.2.of_same (clearRequest_ring s ops).1 (ordersFollow_clearRequest s ops).initial.1⟩
  counters s h := ⟨keeps_orderInv.counters s h.1, h.2.of_same rfl id⟩
  restart s h := ⟨keeps_orderInv.restart s h.1, h.2.restartRequest⟩

/-- R153: with no ORDER in the response/report queue, a command that ends in INITIAL has originated no ORDER frame, and leaves none in
that queue. -/
theorem exec_sends_no_order_in_initial {c : Instr} {s t : State} (inv : OrderInv s)
    (responses : ∀ f ∈ s.ring.feed, f.kind ≠ .order) (taken : exec c s = .next t) :
    (∀ f ∈ t.ring.feed, f.kind ≠ .order)
      ∧ (t.mode.effective = .initial → ∀ e ∈ t.ring.inFlight, e.kind = .order → e ∈ s.ring.inFlight) := by
  by_cases release : ∃ addr stn, c = .resetRelease addr stn
  · obtain ⟨addr, stn, rfl⟩ := release
    cases taken
    exact ⟨nofun, fun _ => nofun⟩
  · have before : SendsNoOrder s.ring.inFlight s := ⟨responses, fun _ _ flying _ => flying⟩
    obtain ⟨-, after⟩ := (keeps_sendsNoOrder _).exec (fun addr stn same => release ⟨addr, stn, same⟩) ⟨inv, before⟩ taken
    exact ⟨after.responses, after.sent⟩

/-! ### A state from which an ORDER is originated in INITIAL -/

theorem orderInv_orderAmongResponses : OrderInv State.orderAmongResponses :=
  (orderInv_pinReset 1 0 [.sendEnd]).follows (.of_same rfl rfl .rfl rfl)

/-- R141: the send ends, and the arbiter sends the queued frame of kind ORDER. -/
theorem sendEnd_orderAmongResponses :
    ∃ t, exec .sendEnd State.orderAmongResponses = .next t ∧ t.mode.effective = .initial
      ∧ t.ring.inFlight = [{ kind := .order, seq := 0, gate := none, sent := 0 }] :=
  ⟨_, rfl, rfl, rfl⟩

/-- Refutes O55 by its second clause: `OrderInv` does not say that the response/report queue holds no frame of kind ORDER, and one there
goes in flight in INITIAL (`sendEnd_orderAmongResponses`). `orderInv_step` is the first clause, `exec_sends_no_order_in_initial` the
second with that condition added, which every command keeps. -/
theorem not_orderInvariantKept : ¬ Obligations.OrderInvariantKept := by
  unfold Obligations.OrderInvariantKept
  intro ⟨_, nothingSent⟩
  obtain ⟨t, taken, initial, sent⟩ := sendEnd_orderAmongResponses
  have before := nothingSent .sendEnd _ t orderInv_orderAmongResponses taken initial
    { kind := .order, seq := 0, gate := none, sent := 0 } (by simp [sent]) rfl
  simp [State.orderAmongResponses, State.pinReset] at before

end Sys2Proof.Machine

/-! The sets' invariant (R167, R170): the active set and a pending shadow pass the commit checks, and under the lock no command but a
release of RESET changes a limit field. -/

namespace Sys2Proof.Machine

/-! ### Requests that leave the management record -/

section
variable (s : State) (ops : List Byte)

theorem requestMode_mgmt : (requestMode ops s).2.mgmt = s.mgmt := by
  unfold requestMode
  dsimp only
  repeat' split
  all_goals simp

theorem runPlan_mgmt : (runPlan ops s).2.mgmt = s.mgmt := by
  unfold runPlan
  repeat' split
  all_goals rfl

theorem stopPlan_mgmt : (stopPlan ops s).2.mgmt = s.mgmt := by
  unfold stopPlan
  split <;> rfl

theorem setOutputGate_mgmt : (setOutputGate ops s).2.mgmt = s.mgmt := by
  unfold setOutputGate
  repeat' split
  all_goals rfl

end

/-! ### The sets' invariant and the limits under the lock -/

/-- The sets' invariant, and, where a list of limits is given, the lock set over an active set with those limits. Without one it is
what every step keeps, a release of RESET included; with one it says that the lock and the limit fields stay. -/
structure SetsKept (limits : Option (List Nat)) (s : State) : Prop where
  inv : SetInv s
  locked : ∀ l ∈ limits, s.mgmt.lock = true ∧ s.mgmt.active.limits = l

namespace SetsKept

variable {limits : Option (List Nat)} {s t : State}

/-- Work of the Management Agent that leaves the active set, and the lock where it is set. -/
theorem of_active (h : SetsKept limits s) (ring : t.ring.nodeAddr = s.ring.nodeAddr ∧ t.ring.station = s.ring.station)
    (active : t.mgmt.active = s.mgmt.active) (lock : s.mgmt.lock = true → t.mgmt.lock = true) (pending : PendingChecked t)
    (agrees : LockAgrees t) : SetsKept limits t where
  inv :=
    { active := by
        rw [ActiveChecked, ring.1, ring.2, active]
        exact h.inv.active
      pending := pending
      lock := agrees }
  locked l given := by
    obtain ⟨set, same⟩ := h.locked l given
    exact ⟨lock set, by rw [active, same]⟩

/-- Work that leaves the management record and the straps. -/
theorem of_mgmt (h : SetsKept limits s) (mgmt : t.mgmt = s.mgmt)
    (ring : t.ring.nodeAddr = s.ring.nodeAddr ∧ t.ring.station = s.ring.station) : SetsKept limits t := by
  refine h.of_active ring (by rw [mgmt]) (by rw [mgmt]; exact id) ?_ ?_
  · rw [PendingChecked, mgmt, ring.1, ring.2]
    exact h.inv.pending
  · rw [LockAgrees, mgmt]
    exact h.inv.lock

/-- Work that leaves the management record and the ring's record. -/
theorem of_same (h : SetsKept limits s) (mgmt : t.mgmt = s.mgmt) (ring : t.ring = s.ring) : SetsKept limits t :=
  h.of_mgmt mgmt (by simp [ring])

/-- R165, R170: a write is refused while a switch is pending, and under the lock it leaves the limits of the shadow. -/
theorem write (h : SetsKept limits s) (src : Byte) (ops : List Byte) : SetsKept limits (writeRequest src ops s).2 := by
  obtain ⟨ring, active, lock, pending, busy, shadow⟩ := writeRequest_mgmt src ops s
  refine h.of_active (by simp [ring]) active (fun set => by rw [lock, set]) (fun waits => ?_) (fun set => ?_)
  · rw [pending] at waits
    rw [busy waits]
    exact h.inv.pending waits
  · rw [lock] at set
    rw [shadow set, active, h.inv.lock set]

/-- R167: a COMMIT that makes a switch pending found no write open, and a shadow that passes. -/
theorem commit (h : SetsKept limits s) : SetsKept limits (commitRequest s).2 := by
  unfold commitRequest
  split
  · exact h
  · next free =>
    split
    · next passes =>
      refine h.of_active ⟨rfl, rfl⟩ rfl id (fun _ => ⟨passes, ?_⟩) h.inv.lock
      simpa using (not_or.1 free).1
    · exact h

/-- R169: CANCEL makes the two copies one. -/
theorem cancel (h : SetsKept limits s) : SetsKept limits (cancelRequest s).2 :=
  h.of_active ⟨rfl, rfl⟩ rfl id (by simp [PendingChecked, cancelRequest]) (fun _ => rfl)

/-- R170: LOCK is taken only when the copies agree in every limit field. -/
theorem lock (h : SetsKept limits s) : SetsKept limits (lockRequest s).2 := by
  unfold lockRequest
  split
  · exact h
  · split
    · exact h
    · next agree => exact h.of_active ⟨rfl, rfl⟩ rfl (fun _ => rfl) h.inv.pending (fun _ => not_not.1 agree)

/-- R172: RESTART makes the two copies one. -/
theorem restart (h : SetsKept limits s) : SetsKept limits (restartRequest s).2 :=
  h.of_active (by simp [restartRequest]) (by simp [restartRequest]) (by simp [restartRequest])
    (by simp [PendingChecked, restartRequest]) (by simp [LockAgrees, restartRequest])

/-- R168: the set that a switch makes active is a shadow that passed, and under the lock it has the limits of the set before it. -/
theorem cadenceExpiry (h : SetsKept limits s) : SetsKept limits (cadenceExpiry s) := by
  have mgmt := cadenceExpiry_mgmt s
  have ring : (Machine.cadenceExpiry s).ring = s.ring := by simp
  by_cases pending : s.mgmt.switchPending = true
  · rw [if_pos pending] at mgmt
    exact
      { inv :=
          { active := by
              rw [ActiveChecked, mgmt, ring]
              exact (h.inv.pending pending).1
            pending := by simp [PendingChecked, mgmt]
            lock := by simp [LockAgrees, mgmt] }
        locked := fun l given => by
          obtain ⟨set, same⟩ := h.locked l given
          rw [mgmt]
          exact ⟨set, (h.inv.lock set).trans same⟩ }
  · rw [if_neg pending] at mgmt
    exact h.of_same mgmt ring

theorem completeComputation (h : SetsKept limits s) (sn : Snapshot) : SetsKept limits (completeComputation sn s) :=
  h.of_mgmt (by simp [Machine.completeComputation]) (by simp [Machine.completeComputation])

end SetsKept

/-- Every piece of work of the blocks keeps the sets' invariant, and the limits of a locked active set. -/
theorem keeps_setsKept (limits : Option (List Nat)) : Keeps (SetsKept limits) where
  assertReset s h := h.of_mgmt rfl ⟨rfl, rfl⟩
  close s h := h.of_mgmt (by simp) (by simp)
  count c n s h := h.of_same rfl rfl
  answer q r s _ h := h.of_mgmt rfl ⟨rfl, rfl⟩
  stale s h := h.of_same (by simp) (by simp)
  due s h := h.of_same (by simp) (by simp)
  tick s h := h.of_same rfl rfl
  expiry s _ _ h := h.cadenceExpiry
  completion sn s _ h := h.completeComputation sn
  millisecond s h := h.of_mgmt (by simp) (by simp)
  sent s h := h.of_mgmt (endSend_mgmt s).1 (endSend_mgmt s).2
  sample src es s h := h.of_same (by simp) (by simp)
  notice n s h := h.of_same (by simp) (by simp)
  phase p s h := h.of_same (by simp) (by simp)
  strip f s h := h.of_mgmt (stripFrame_mgmt f s).1 (stripFrame_mgmt f s).2
  relay f s h := h.of_mgmt (relayFrame_mgmt f s).1 (relayFrame_mgmt f s).2
  write src ops s h := h.write src ops
  commit s h := h.commit
  cancel s h := h.cancel
  lock s h := h.lock
  enable g s _ h := h.of_same (by simp) (enableGate_ring s g).1
  disable g s _ h := h.of_same (by simp) (disableGate_ring s g).1
  hold g s _ h := h.of_same (by simp) (holdGate_ring s g).1
  release g s _ h := h.of_same (by simp) (releaseGate_ring s g).1
  clearFault g s _ h := h.of_same (by simp) (clearFaultGate_ring s g).1
  mode ops s h := h.of_same (requestMode_mgmt s ops) (requestMode_ring s ops).1
  run ops s h := h.of_same (runPlan_mgmt s ops) (runPlan_ring s ops).1
  stop ops s h := h.of_same (stopPlan_mgmt s ops) (stopPlan_ring s ops).1
  output ops s h := h.of_same (setOutputGate_mgmt s ops) (setOutputGate_ring s ops).1
  clear ops s h := h.of_same (clearRequest_plan s ops).2.2 (clearRequest_ring s ops).1
  counters s h := h.of_same rfl rfl
  restart s h := h.restart

/-- Settles O57: each piece of work keeps the sets' invariant (`keeps_setsKept`); given the limits of the locked active set it keeps them,
and with them those of the shadow, which agree. -/
theorem setInvariantKept : Obligations.SetInvariantKept := by
  unfold Obligations.SetInvariantKept
  refine ⟨fun s t inv stepped => ?_, fun c s t inv lock noRelease taken => ?_⟩
  · have reset : ∀ addr stn q, SetsKept none (State.pinReset addr stn q) := fun addr stn q => ⟨setInv_pinReset addr stn q, nofun⟩
    exact ((keeps_setsKept none).step reset (fun s q h => h.of_same rfl rfl) ⟨inv, nofun⟩ stepped).inv
  · have before : SetsKept (some s.mgmt.active.limits) s := ⟨inv, fun l given => ⟨lock, Option.some.inj given⟩⟩
    have after := (keeps_setsKept _).exec noRelease before taken
    obtain ⟨locked, limits⟩ := after.locked _ rfl
    exact ⟨locked, limits, by rw [after.inv.lock locked, limits, inv.lock lock]⟩

end Sys2Proof.Machine

/-! CLEAR_CONDITIONS and CLEAR_COUNTERS (R173, R174), and requests given by their code byte (R162). -/

namespace Sys2Proof.Machine

/-- Table 10-8: the flags in the order of their bits. -/
theorem flags_in_bit_order (flags : BitVec 16) :
    [Flag.shortfall, .excess, .headStale, .headRange, .inflowStale, .gateFault, .gateUnreachable, .gateLocal, .stageRise,
        .stageFall, .demoted, .earlyApply, .relayOverflow, .planEnded, .setSwitched, .restarted].map (flagIn · flags)
      = (List.range 16).map flags.getLsbD := rfl

/-- The counters in the order of their entries of T14 (Table 10-7). -/
def allCounters : List Counter :=
  [.checkErrors, .malformed, .unexpectedKind, .hopDrops, .relayOverflow, .stray, .lost, .superseded, .withdrawn, .badResult,
    .ignoredResults, .badSamples, .jumpHolds, .foreign, .duplicate, .stale, .clampedDue, .late, .earlyApply, .phaseRange,
    .reportDrops, .requestDrops]

theorem allCounters_entries : allCounters.map Counter.entry = List.finRange 22 := by decide

theorem allCounters_values (s : State) : allCounters.map s.counter = s.report.counters.items := by
  rw [Tab.items_eq_map_get, ← allCounters_entries, List.map_map]
  rfl

/-- Settles O40: the two orders by `flags_in_bit_order` and `allCounters_values`, and each request by what its act leaves. -/
theorem clearEffects : Obligations.ClearEffects := by
  unfold Obligations.ClearEffects
  refine ⟨flags_in_bit_order, allCounters_values, fun q s => ⟨fun hi lo takeable => ?_, fun takeable => ?_⟩⟩
  · exact receiveRequest_acts takeable rfl
  · have zeros : (Tab.ofFn fun _ => 0 : Tab Nat 22) = Tab.const 22 0 := Tab.ext_get fun i => by simp
    rw [zeros]
    exact receiveRequest_acts takeable rfl

/-! ### Requests by their code, and by their form and action bytes (R162, Tables 10-3 and 10-10) -/

theorem compareReply_form (ops : List Byte) (s : State) :
    compareReply (0 :: ops) s = compareCopiesReply ops s ∧ compareReply (1 :: ops) s = compareDataReply ops s := ⟨rfl, rfl⟩

theorem controlRequest_action {action : Byte} {act : GateNo → State → Reply × State} (named : gateAction action = some act)
    (gate : Byte) (extra : List Byte) : controlRequest (gate :: action :: extra) = controlGate act gate extra := by
  funext s
  simp only [controlRequest, named]

/-- A code of Table 10-3 is received as the request that `takeCoded` takes it for. -/
theorem exec_requestBadCode {q : Requester} {code : Byte} {ops : List Byte} {take : State → State} (s : State)
    (coded : takeCoded q code ops = take) :
    exec (.requestBadCode q code ops) s = .next (takeRingEvent (receiveRequest q ops.length take) s) := by
  rw [← coded]
  rfl

theorem takeCoded_gateControl {action : Byte} {act : GateNo → State → Reply × State} (named : gateAction action = some act)
    (q : Requester) (gate : Byte) (extra : List Byte) :
    takeCoded q 7 (gate :: action :: extra) = takeRequest q 1 [] (controlGate act gate extra) := by
  rw [← controlRequest_action named]
  rfl

/-- Settles O43: each code is read as the request of its name; the form byte of COMPARE and the action byte of GATE_CONTROL choose the
reply and the action (`compareReply_form`, `takeCoded_gateControl`). -/
theorem requestCodesAgree : Obligations.RequestCodesAgree := by
  unfold Obligations.RequestCodesAgree
  intro q ops gate s
  have control : ∀ {action : Byte} {act : GateNo → State → Reply × State}, gateAction action = some act →
      exec (.requestBadCode q 7 (gate :: action :: ops)) s
        = .next (takeRingEvent (receiveRequest q (ops.length + 2) (takeRequest q 1 [] (controlGate act gate ops))) s) :=
    fun named => exec_requestBadCode s (takeCoded_gateControl named q gate ops)
  have copies : takeCoded q 5 (0 :: ops) = takeRequest q 1 [] fun s => (compareCopiesReply ops s, s) := by
    simp only [← (compareReply_form ops _).1]
    rfl
  have supplied : takeCoded q 5 (1 :: ops) = takeRequest q 1 [] fun s => (compareDataReply ops s, s) := by
    simp only [← (compareReply_form ops _).2]
    rfl
  exact ⟨exec_requestBadCode s rfl, exec_requestBadCode s rfl, exec_requestBadCode s rfl, exec_requestBadCode s rfl,
    exec_requestBadCode s copies, exec_requestBadCode s supplied, exec_requestBadCode s rfl, control rfl, control rfl, control rfl,
    control rfl, control rfl, exec_requestBadCode s rfl, exec_requestBadCode s rfl, exec_requestBadCode s rfl,
    exec_requestBadCode s rfl, exec_requestBadCode s rfl, exec_requestBadCode s rfl, exec_requestBadCode s rfl⟩

end Sys2Proof.Machine

/-! WRITE_ENTRY (R165, R166): the table of cases of a segment, row by row, and what a LAST segment does with the entries it completes. -/

namespace Sys2Proof.Machine

/-! ### The table of cases of a segment (R165) -/

section
variable {src table first : Byte} {segment : Nat} {isLast : Bool} {data : List Byte} {s : State} {w : OpenWrite}

theorem takeSegment_pending (pending : s.mgmt.switchPending = true) :
    takeSegment src table first segment isLast data s = (⟨.busy, []⟩, s) := if_pos pending

theorem takeSegment_badTable (free : s.mgmt.switchPending = false) (outside : ¬ (1 ≤ table.toNat ∧ table.toNat ≤ 10)) :
    takeSegment src table first segment isLast data s = (⟨.badTable, []⟩, s) := by
  have refused : table = 0 ∨ 10 < table.toNat := by bv_omega
  rw [takeSegment, if_neg (by simp [free]), if_pos refused, bare]

section
variable (free : s.mgmt.switchPending = false) (tabled : 1 ≤ table.toNat ∧ table.toNat ≤ 10)
include free tabled

theorem takeSegment_unopened (unopened : s.mgmt.openWrite = none) :
    takeSegment src table first segment isLast data s = firstSegment src table first segment isLast data s := by
  have allowed : ¬ (table = 0 ∨ 10 < table.toNat) := by bv_omega
  simp only [takeSegment, free, allowed, unopened, Bool.false_eq_true, if_false]

variable (opened : s.mgmt.openWrite = some w)
include opened

theorem takeSegment_opener (opener : src = w.node) :
    takeSegment src table first segment isLast data s = nextSegment w table first segment isLast data s := by
  have allowed : ¬ (table = 0 ∨ 10 < table.toNat) := by bv_omega
  simp only [takeSegment, free, allowed, opened, opener, Bool.false_eq_true, if_false, if_true]

theorem takeSegment_other (other : src ≠ w.node) :
    takeSegment src table first segment isLast data s = (⟨.busy, []⟩, s) := by
  have allowed : ¬ (table = 0 ∨ 10 < table.toNat) := by bv_omega
  simp only [takeSegment, free, allowed, opened, other, Bool.false_eq_true, if_false, bare]

end

theorem firstSegment_unfinished (full : segment = 15) (more : isLast = false) :
    firstSegment src table first segment isLast data s = (⟨.badValue, []⟩, s) := if_pos ⟨full, by simp [more]⟩

theorem firstSegment_opens :
    firstSegment src table first 0 isLast data s
      = holdSegment { node := src, table := table, first := first, next := 1, data := data } isLast s := by
  simp [firstSegment]

theorem firstSegment_gap (later : 1 ≤ segment) (finished : segment = 15 → isLast = true) :
    firstSegment src table first segment isLast data s = (⟨.segmentGap, []⟩, s) := by
  rw [firstSegment, if_neg (by simpa using finished), if_neg (by omega), bare]

theorem nextSegment_unfinished (full : segment = 15) (more : isLast = false) :
    nextSegment w table first segment isLast data s = (⟨.badValue, []⟩, setOpenWrite none s) := if_pos ⟨full, by simp [more]⟩

theorem nextSegment_inStep (finished : segment = 15 → isLast = true)
    (inStep : segment = w.next ∧ table = w.table ∧ first = w.first) :
    nextSegment w table first segment isLast data s
      = holdSegment { w with next := segment + 1, data := w.data ++ data } isLast s := by
  rw [nextSegment, if_neg (by simpa using finished), if_pos inStep, inStep.1]

theorem nextSegment_gap (finished : segment = 15 → isLast = true)
    (gap : ¬ (segment = w.next ∧ table = w.table ∧ first = w.first)) :
    nextSegment w table first segment isLast data s = (⟨.segmentGap, []⟩, setOpenWrite none s) := by
  rw [nextSegment, if_neg (by simpa using finished), if_neg gap, bare]

theorem holdSegment_more : holdSegment w false s = (⟨.ok, [byte w.next]⟩, setOpenWrite (some w) s) := rfl

/-- A lawful segment byte is read back as the segment number and LAST (Table 10-12). -/
theorem writeRequest_segment (small : segment ≤ 15) :
    writeRequest src (table :: first :: byte (segment + if isLast then 128 else 0) :: data) s
      = takeSegment src table first segment isLast data s := by
  obtain ⟨bits, number, last⟩ := segment_byte_parts ⟨segment, by omega⟩ isLast
  dsimp only at bits number last
  rw [writeRequest, if_neg (not_not.2 bits), number, last]

/-- A taken WRITE_ENTRY answers what its segment's row answers. -/
theorem exec_writeEntry {q : Requester} {r : Reply} {t : State} (small : segment ≤ 15)
    (takeable : Takeable q (data.length + 3) s)
    (row : takeSegment q.src table first segment isLast data s = (r, t)) :
    exec (.writeEntry q (table :: first :: byte (segment + if isLast then 128 else 0) :: data)) s
      = .next (closeEvent (respond q r t)) :=
  receiveRequest_acts takeable ((writeRequest_segment small).trans row)

end

/-- Settles O33: each row of R165's table by its own lemma. -/
theorem writeSegmentCases : Obligations.WriteSegmentCases := by
  unfold Obligations.WriteSegmentCases
  intro q table first segment isLast data s small takeable run pending tabled
  have row : ∀ {r : Reply} {t : State}, takeSegment q.src table first segment isLast data s = (r, t) →
      run = .next (closeEvent (respond q r t)) := exec_writeEntry small takeable
  refine ⟨fun waits => row (takeSegment_pending waits), fun free outside => row (takeSegment_badTable free outside),
    fun w free inside opened other => row (takeSegment_other free inside opened other),
    fun w free inside opened opener full more => row ?_, fun free inside unopened full more => row ?_,
    fun free inside unopened zero more => row ?_, fun free inside unopened later finished => row ?_,
    fun w free inside opened opener next sameTable sameFirst more below => row ?_,
    fun w free inside opened opener gap finished => row ?_⟩
  · exact (takeSegment_opener free inside opened opener).trans (nextSegment_unfinished full more)
  · exact (takeSegment_unopened free inside unopened).trans (firstSegment_unfinished full more)
  · subst zero more
    exact (takeSegment_unopened free inside unopened).trans (firstSegment_opens.trans holdSegment_more)
  · exact (takeSegment_unopened free inside unopened).trans (firstSegment_gap later finished)
  · subst more
    exact (takeSegment_opener free inside opened opener).trans
      ((nextSegment_inStep (by omega) ⟨next, sameTable, sameFirst⟩).trans holdSegment_more)
  · exact (takeSegment_opener free inside opened opener).trans (nextSegment_gap finished gap)

end Sys2Proof.Machine

/-! The LAST segment of a write (R165, R166, R170): refused by the first entry that a test refuses, or written into the shadow. -/

namespace Sys2Proof.Machine

/-! ### The entries of a write with their numbers -/

/-- Entries numbered from `first` on: what `entriesOf` makes of their bytes (`entriesOf_flatten`). -/
def numbered (first : Nat) (es : List (List Byte)) : List (Nat × List Byte) := es.zipIdx.map fun p => (first + p.2, p.1)

section
variable {table first : Nat} {es : List (List Byte)}

theorem entriesOf_flatten (within : first ≤ lastEntry table) (fits : first + es.length ≤ lastEntry table + 1)
    (sized : ∀ i e, es[i]? = some e → e.length = entrySize table (first + i)) :
    entriesOf table first es.flatten = some (numbered first es) := entriesOf_whole table first es within fits sized

theorem numbered_getElem? (i : Nat) : (numbered first es)[i]? = es[i]?.map fun e => (first + i, e) := by
  simp [numbered, Function.comp_def]

theorem writeAll_numbered (set : GovSet) :
    writeAll table (numbered first es) set
      = es.zipIdx.foldl (fun set p => (writeEntryIn table (first + p.2) p.1 set).getD set) set := List.foldl_map

variable {test : Nat × List Byte → Bool}

/-- The first numbered entry that passes a test. -/
theorem find?_numbered {i : Nat} {e : List Byte} (stands : es[i]? = some e) (passes : test (first + i, e) = true)
    (before : ∀ j e', j < i → es[j]? = some e' → test (first + j, e') = false) :
    (numbered first es).find? test = some (first + i, e) := by
  have found : (numbered first es)[i]? = some (first + i, e) := by rw [numbered_getElem?, stands, Option.map_some]
  obtain ⟨bound, entry⟩ := List.getElem?_eq_some_iff.1 found
  refine List.find?_eq_some_iff_getElem.2 ⟨passes, i, bound, entry, fun j below => ?_⟩
  have earlier : (numbered first es)[j]? = some (numbered first es)[j] := List.getElem?_eq_getElem (by omega)
  rw [numbered_getElem?] at earlier
  obtain ⟨e', stands', same⟩ := Option.map_eq_some_iff.1 earlier
  rw [← same, before j e' below stands', Bool.not_false]

theorem find?_numbered_none (fails : ∀ i e, es[i]? = some e → test (first + i, e) = false) :
    (numbered first es).find? test = none := by
  refine List.find?_eq_none.2 fun p mem => ?_
  obtain ⟨i, at_i⟩ := List.mem_iff_getElem?.1 mem
  rw [numbered_getElem?] at at_i
  obtain ⟨e, stands, rfl⟩ := Option.map_eq_some_iff.1 at_i
  simp [fails i e stands]

end

/-! ### The tests of a write in their order (R166) -/

section
variable {table first : Nat} {data : List Byte} {lock : Bool} {shadow : GovSet}

theorem applyWrite_badIndex (cut : entriesOf table first data = none) :
    applyWrite table first data lock shadow = .error ⟨.badIndex, []⟩ := by
  simp only [applyWrite, cut, bare]

variable {es : List (List Byte)} {i : Nat} {e : List Byte} {set : GovSet}

theorem applyWrite_badValue (cut : entriesOf table first data = some (numbered first es)) (stands : es[i]? = some e)
    (refused : writeEntryIn table (first + i) e shadow = none)
    (before : ∀ j e', j < i → es[j]? = some e' → writeEntryIn table (first + j) e' shadow ≠ none) :
    applyWrite table first data lock shadow = .error ⟨.badValue, [byte (first + i)]⟩ := by
  have found : (numbered first es).find? (fun e => (writeEntryIn table e.1 e.2 shadow).isNone) = some (first + i, e) :=
    find?_numbered stands (by simp [refused]) fun j e' below stands' => by
      simpa [Option.isSome_iff_ne_none] using before j e' below stands'
  simp only [applyWrite, cut, found]

/-- With every entry in range, the test of the ranges finds none. -/
theorem find?_ranged (ranged : ∀ i e, es[i]? = some e → writeEntryIn table (first + i) e shadow ≠ none) :
    (numbered first es).find? (fun e => (writeEntryIn table e.1 e.2 shadow).isNone) = none :=
  find?_numbered_none fun i e stands => by simpa [Option.isSome_iff_ne_none] using ranged i e stands

/-- R170: whether an entry in range changes a limit field. -/
theorem changesLimits_written (written : writeEntryIn table i e shadow = some set) :
    changesLimits table shadow (i, e) = decide (set.limits ≠ shadow.limits) := by
  simp only [changesLimits, written]

theorem applyWrite_locked (cut : entriesOf table first data = some (numbered first es))
    (ranged : ∀ i e, es[i]? = some e → writeEntryIn table (first + i) e shadow ≠ none) (stands : es[i]? = some e)
    (written : writeEntryIn table (first + i) e shadow = some set) (changes : set.limits ≠ shadow.limits)
    (before : ∀ j e' set', j < i → es[j]? = some e' → writeEntryIn table (first + j) e' shadow = some set' →
      set'.limits = shadow.limits) :
    applyWrite table first data true shadow = .error ⟨.locked, [byte (first + i)]⟩ := by
  have found : (numbered first es).find? (fun e => true && changesLimits table shadow e) = some (first + i, e) := by
    refine find?_numbered stands (by simp [changesLimits_written written, changes]) fun j e' below stands' => ?_
    obtain ⟨set', written'⟩ := Option.ne_none_iff_exists'.1 (ranged j e' stands')
    simp [changesLimits_written written', before j e' set' below stands' written']
  simp only [applyWrite, cut, find?_ranged ranged, found]

theorem applyWrite_writes (cut : entriesOf table first data = some (numbered first es))
    (ranged : ∀ i e, es[i]? = some e → writeEntryIn table (first + i) e shadow ≠ none)
    (allowed : lock = false ∨ ∀ i e set, es[i]? = some e → writeEntryIn table (first + i) e shadow = some set →
      set.limits = shadow.limits) :
    applyWrite table first data lock shadow
      = .ok (es.zipIdx.foldl (fun set p => (writeEntryIn table (first + p.2) p.1 set).getD set) shadow) := by
  have found : (numbered first es).find? (fun e => lock && changesLimits table shadow e) = none := by
    refine find?_numbered_none fun i e stands => ?_
    obtain ⟨set, written⟩ := Option.ne_none_iff_exists'.1 (ranged i e stands)
    rcases allowed with unlocked | same
    · simp [unlocked]
    · simp [changesLimits_written written, same i e set stands written]
  simp only [applyWrite, cut, find?_ranged ranged, found, writeAll_numbered]

end

/-! ### A LAST segment that is in place (R165) -/

section
variable {src table first : Byte} {segment : Nat} {held data : List Byte} {s : State}

/-- R165: a segment is in place: the first, with no write open, or the next of this node's open write. -/
def InPlace (src table first : Byte) (segment : Nat) (held : List Byte) (m : Management) : Prop :=
  m.openWrite = none ∧ segment = 0 ∧ held = []
    ∨ m.openWrite = some { node := src, table := table, first := first, next := segment, data := held }

theorem takeSegment_inPlace (free : s.mgmt.switchPending = false) (tabled : 1 ≤ table.toNat ∧ table.toNat ≤ 10)
    (place : InPlace src table first segment held s.mgmt) :
    takeSegment src table first segment true data s
      = holdSegment { node := src, table := table, first := first, next := segment + 1, data := held ++ data } true s := by
  rcases place with ⟨unopened, rfl, rfl⟩ | opened
  · exact (takeSegment_unopened free tabled unopened).trans firstSegment_opens
  · exact (takeSegment_opener free tabled opened rfl).trans (nextSegment_inStep (fun _ => rfl) ⟨rfl, rfl, rfl⟩)

/-- What a LAST segment leaves: the shadow that its tests give, and no open write. -/
def closedWrite (shadow : GovSet) (s : State) : State := setOpenWrite none (setShadow shadow s)

theorem closedWrite_unopened (unopened : s.mgmt.openWrite = none) (shadow : GovSet) : closedWrite shadow s = setShadow shadow s := by
  rw [closedWrite, setOpenWrite, setShadow, ← unopened]

section
variable {q : Requester} (takeable : Takeable q (data.length + 3) s) (free : s.mgmt.switchPending = false)
  (tabled : 1 ≤ table.toNat ∧ table.toNat ≤ 10) (small : segment ≤ 15) (place : InPlace q.src table first segment held s.mgmt)
include takeable free tabled small place

/-- A LAST segment in place that a test of R166 refuses, over the data held and its own. -/
theorem exec_lastSegment_refused {r : Reply}
    (refused : applyWrite table.toNat first.toNat (held ++ data) s.mgmt.lock s.mgmt.shadow = .error r) :
    exec (.writeEntry q (table :: first :: byte (segment + 128) :: data)) s
      = .next (closeEvent (respond q r (closedWrite s.mgmt.shadow s))) := by
  refine exec_writeEntry (isLast := true) small takeable ((takeSegment_inPlace free tabled place).trans ?_)
  simp only [holdSegment, if_true, refused]
  rfl

/-- A LAST segment in place that passes them. -/
theorem exec_lastSegment_written {set : GovSet}
    (written : applyWrite table.toNat first.toNat (held ++ data) s.mgmt.lock s.mgmt.shadow = .ok set) :
    exec (.writeEntry q (table :: first :: byte (segment + 128) :: data)) s
      = .next (closeEvent (respond q ⟨.ok, [byte (segment + 1)]⟩ (closedWrite set s))) := by
  refine exec_writeEntry (isLast := true) small takeable ((takeSegment_inPlace free tabled place).trans ?_)
  simp only [holdSegment, if_true, written]
  rfl

end

end

/-! ### A write of one entry -/

section
variable {table first : Nat} {data : List Byte} {shadow set : GovSet} {lock : Bool}

theorem singleton_getElem?_iff {i : Nat} {e : List Byte} : [data][i]? = some e ↔ i = 0 ∧ e = data := by
  rw [List.getElem?_singleton]
  split <;> simp [*, eq_comm]

theorem entriesOf_one (within : first ≤ lastEntry table) (sized : data.length = entrySize table first) :
    entriesOf table first data = some (numbered first [data]) := by
  have whole := entriesOf_flatten (es := [data]) within (by simpa using within) (by simpa [singleton_getElem?_iff] using sized)
  simpa using whole

variable (cut : entriesOf table first data = some (numbered first [data]))
include cut

theorem applyWrite_one_badValue (refused : writeEntryIn table first data shadow = none) :
    applyWrite table first data lock shadow = .error ⟨.badValue, [byte first]⟩ :=
  applyWrite_badValue (i := 0) cut rfl refused (by omega)

theorem applyWrite_one_locked (written : writeEntryIn table first data shadow = some set) (changes : set.limits ≠ shadow.limits) :
    applyWrite table first data true shadow = .error ⟨.locked, [byte first]⟩ :=
  applyWrite_locked (i := 0) cut (by simp [singleton_getElem?_iff, written]) rfl written changes (by omega)

theorem applyWrite_one_writes (written : writeEntryIn table first data shadow = some set)
    (allowed : lock = false ∨ set.limits = shadow.limits) : applyWrite table first data lock shadow = .ok set := by
  have kept : lock = false ∨ ∀ i e set, [data][i]? = some e → writeEntryIn table (first + i) e shadow = some set →
      set.limits = shadow.limits := allowed.imp_right fun same i e set' stands written' => by
    obtain ⟨rfl, rfl⟩ := singleton_getElem?_iff.1 stands
    rwa [← Option.some.inj (written.symm.trans written')]
  rw [applyWrite_writes cut (by simp [singleton_getElem?_iff, written]) kept]
  simp [written]

end

/-- Settles O34: the tests of R166 (`applyWrite_badIndex`, `applyWrite_badValue`, `applyWrite_locked`, `applyWrite_writes`) on a LAST
segment in place; the write of one entry in one frame is such a segment, the first and only one. -/
theorem writeEntryEffect : Obligations.WriteEntryEffect := by
  unfold Obligations.WriteEntryEffect
  constructor
  · intro q table first data s takeable free unopened low high within sized
    have cut := entriesOf_one within sized
    have place : InPlace q.src table first 0 [] s.mgmt := .inl ⟨unopened, rfl, rfl⟩
    have number : byte first.toNat = first := byte_toNat first
    refine ⟨fun outside => ?_, fun set inside => ⟨fun lock changes => ?_, fun allowed => ?_⟩⟩
    · have answer := exec_lastSegment_refused takeable free ⟨low, high⟩ (by omega) place (applyWrite_one_badValue cut outside)
      rwa [closedWrite_unopened unopened, number] at answer
    · have refused := applyWrite_one_locked cut inside changes
      rw [← lock] at refused
      have answer := exec_lastSegment_refused takeable free ⟨low, high⟩ (by omega) place refused
      rwa [closedWrite_unopened unopened, number] at answer
    · have answer := exec_lastSegment_written takeable free ⟨low, high⟩ (by omega) place (applyWrite_one_writes cut inside allowed)
      rwa [closedWrite_unopened unopened] at answer
  · intro q table first segment held data s takeable free low high small place last shadow size written run closed
    have refused := fun {r} => exec_lastSegment_refused (r := r) takeable free ⟨low, high⟩ small place
    have taken := fun {set} => exec_lastSegment_written (set := set) takeable free ⟨low, high⟩ small place
    refine ⟨fun misfit => refused (applyWrite_badIndex (entriesOf_none _ _ _ misfit)), fun es within fits sized data_eq => ?_⟩
    have cut : entriesOf table.toNat first.toNat (held ++ data) = some (numbered first.toNat es) := by
      rw [data_eq, entriesOf_flatten within fits sized]
    refine ⟨fun i e stands outside before => refused (applyWrite_badValue cut stands outside before), fun ranged =>
      ⟨fun i e set lock stands inside changes before => refused ?_, fun allowed => taken (applyWrite_writes cut ranged allowed)⟩⟩
    rw [lock]
    exact applyWrite_locked cut ranged stands inside changes before

end Sys2Proof.Machine

/-! COMPARE (R171): form COPIES over the entries in which the copies differ, and form DATA over the supplied entries. -/

namespace Sys2Proof.Machine

/-! ### Form COPIES -/

section
variable (a b : GovSet) (table : Nat)

theorem mem_comparedTables_iff (small : table ≤ 10) (t : Nat) :
    t ∈ comparedTables table ↔ 1 ≤ t ∧ t ≤ 10 ∧ (table = 0 ∨ t = table) := by
  unfold comparedTables
  split
  · next all =>
    have range : [1, 2, 3, 4, 5, 6, 7, 8, 9, 10] = List.range' 1 10 := by decide
    rw [range, List.mem_range'_1]
    omega
  · rw [List.mem_singleton]
    omega

theorem mem_differing_iff (t e : Nat) : e ∈ differing a b t ↔ e ≤ lastEntry t ∧ entryBytes a t e ≠ entryBytes b t e := by
  simp [differing]

/-- R171: the listed entries are those whose layouts differ. -/
theorem mem_differingPairs_iff (small : table ≤ 10) (t e : Nat) :
    (t, e) ∈ differingPairs a b table
      ↔ 1 ≤ t ∧ t ≤ 10 ∧ (table = 0 ∨ t = table) ∧ e ≤ lastEntry t ∧ entryBytes a t e ≠ entryBytes b t e := by
  have listed : (t, e) ∈ differingPairs a b table ↔ t ∈ comparedTables table ∧ e ∈ differing a b t := by
    simp [differingPairs]
  rw [listed, mem_comparedTables_iff table small, mem_differing_iff, and_assoc, and_assoc]

/-- R171: they are listed in ascending order of table and entry. -/
theorem differingPairs_ascend :
    (differingPairs a b table).Pairwise fun p p' => p.1 < p'.1 ∨ (p.1 = p'.1 ∧ p.2 < p'.2) := by
  have tables : (comparedTables table).Pairwise (· < ·) := by
    unfold comparedTables
    split <;> simp
  have entries : ∀ t, (differing a b t).Pairwise (· < ·) := fun t => List.pairwise_lt_range.filter _
  refine List.pairwise_flatMap.2 ⟨fun t _ => ?_, tables.imp fun less p mem p' mem' => ?_⟩
  · exact List.pairwise_map.2 ((entries t).imp fun less => .inr ⟨rfl, less⟩)
  · obtain ⟨e, -, rfl⟩ := List.mem_map.1 mem
    obtain ⟨e', -, rfl⟩ := List.mem_map.1 mem'
    exact .inl less

end

section
variable {table : Byte} {s : State}

theorem compareCopiesReply_lists (small : table.toNat ≤ 10) :
    compareCopiesReply [table] s
      = let ps := differingPairs s.mgmt.active s.mgmt.shadow table.toNat
        ⟨.ok, [byte ps.length, yesNo (27 < ps.length)] ++ (ps.take 27).flatMap fun p => [byte p.1, byte p.2]⟩ :=
  if_neg (Nat.not_lt.2 small)

theorem compareCopiesReply_badTable (large : 10 < table.toNat) : compareCopiesReply [table] s = ⟨.badTable, []⟩ := if_pos large

end

/-! ### Form DATA -/

/-- A supplied entry differs when what it reads as has not the bytes of the set's entry, or it is out of its range (log entry 23). -/
theorem differsFrom_eq (table : Nat) (set : GovSet) (n : Nat) (e : List Byte) :
    differsFrom table set (n, e)
      = decide ((writeEntryIn table n e set).map (entryBytes · table n) ≠ some (entryBytes set table n)) := by
  unfold differsFrom
  dsimp only
  split <;> simp [*]

/-- The supplied entries that differ from a set's, by their places among the supplied. -/
def differingAt (table first : Nat) (set : GovSet) (es : List (List Byte)) : List Nat :=
  (List.range es.length).filter fun i =>
    decide ((writeEntryIn table (first + i) (es.getD i []) set).map (entryBytes · table (first + i))
      ≠ some (entryBytes set table (first + i)))

theorem numbered_eq_map_range (first : Nat) (es : List (List Byte)) :
    numbered first es = (List.range es.length).map fun i => (first + i, es.getD i []) := by
  refine List.ext_getElem? fun i => ?_
  rw [numbered_getElem?, List.getElem?_map]
  by_cases within : i < es.length
  · simp [within]
  · simp [within]

theorem filter_differsFrom (table first : Nat) (set : GovSet) (es : List (List Byte)) :
    (numbered first es).filter (differsFrom table set) = (differingAt table first set es).map fun i => (first + i, es.getD i []) := by
  rw [numbered_eq_map_range, List.filter_map, differingAt]
  simp only [Function.comp_def, differsFrom_eq]

section
variable {table first : Nat} {set : GovSet} {data : List Byte} {es : List (List Byte)}

theorem compareDataWith_badIndex (cut : entriesOf table first data = none) :
    compareDataWith set table first data = ⟨.badIndex, []⟩ := by
  simp only [compareDataWith, cut, bare]

theorem compareDataWith_lists (cut : entriesOf table first data = some (numbered first es)) :
    compareDataWith set table first data
      = let ds := differingAt table first set es
        ⟨.ok, [byte ds.length, yesNo (54 < ds.length)] ++ (ds.take 54).map fun i => byte (first + i)⟩ := by
  simp only [compareDataWith, cut, filter_differsFrom, List.length_map, ← List.map_take, List.map_map, Function.comp_def]

theorem differingAt_one (table first : Nat) (set : GovSet) (e : List Byte) :
    differingAt table first set [e]
      = if (writeEntryIn table first e set).map (entryBytes · table first) = some (entryBytes set table first) then [] else [0] := by
  simp only [differingAt, List.length_singleton, List.range_one, List.filter_singleton, List.getD_cons_zero, Nat.add_zero,
    decide_not, Bool.cond_not, Bool.cond_decide]

theorem compareDataWith_one_same (cut : entriesOf table first data = some (numbered first [data]))
    (same : (writeEntryIn table first data set).map (entryBytes · table first) = some (entryBytes set table first)) :
    compareDataWith set table first data = ⟨.ok, [0, 0]⟩ := by
  rw [compareDataWith_lists cut, differingAt_one, if_pos same]
  rfl

theorem compareDataWith_one_differs (cut : entriesOf table first data = some (numbered first [data]))
    (differs : (writeEntryIn table first data set).map (entryBytes · table first) ≠ some (entryBytes set table first)) :
    compareDataWith set table first data = ⟨.ok, [1, 0, byte first]⟩ := by
  rw [compareDataWith_lists cut, differingAt_one, if_neg differs]
  rfl

end

section
variable {table copy first : Byte} {data : List Byte} {s : State}

theorem compareDataReply_badCopy (large : 2 < copy.toNat) : compareDataReply (table :: copy :: first :: data) s = ⟨.badValue, []⟩ :=
  if_pos large

theorem compareDataReply_badTable (small : copy.toNat ≤ 2) (outside : ¬ (copy ≠ 2 ∧ 1 ≤ table.toNat ∧ table.toNat ≤ 10)) :
    compareDataReply (table :: copy :: first :: data) s = ⟨.badTable, []⟩ := by
  have refused : copy = 2 ∨ table = 0 ∨ 10 < table.toNat := by bv_omega
  rw [compareDataReply, if_neg (by omega), if_pos refused, bare]

theorem compareDataReply_compares (small : copy.toNat ≤ 2) (tabled : copy ≠ 2 ∧ 1 ≤ table.toNat ∧ table.toNat ≤ 10) :
    compareDataReply (table :: copy :: first :: data) s
      = compareDataWith (if copy = 0 then s.mgmt.active else s.mgmt.shadow) table.toNat first.toNat data := by
  have allowed : ¬ (copy = 2 ∨ table = 0 ∨ 10 < table.toNat) := by bv_omega
  rw [compareDataReply, if_neg (by omega), if_neg allowed]

theorem exec_compareData {q : Requester} {r : Reply} (takeable : Takeable q (data.length + 4) s)
    (reply : compareDataReply (table :: copy :: first :: data) s = r) :
    exec (.compareData q (table :: copy :: first :: data)) s = .next (closeEvent (respond q r s)) :=
  receiveRequest_acts takeable (by rw [reply])

end

/-- Settles O36: form COPIES by the list `differingPairs`, form DATA by the list `differingAt` of the supplied entries; a comparison of
one entry is the latter over a list of one. -/
theorem compareEffects : Obligations.CompareEffects := by
  unfold Obligations.CompareEffects
  intro q s
  refine ⟨fun table takeable small => ?_, fun table takeable large => ?_, fun table copy first data takeable large => ?_,
    fun table copy first data takeable small => ?_, fun table first data takeable low high within sized copy named => ?_⟩
  · have all : table = 0 ↔ table.toNat = 0 := by bv_omega
    refine ⟨differingPairs s.mgmt.active s.mgmt.shadow table.toNat, fun t e => ?_, differingPairs_ascend _ _ _,
      receiveRequest_acts takeable (by rw [compareCopiesReply_lists small])⟩
    rw [all]
    exact mem_differingPairs_iff _ _ _ small t e
  · exact receiveRequest_acts takeable (by rw [compareCopiesReply_badTable large])
  · exact exec_compareData takeable (compareDataReply_badCopy large)
  · intro run last size set tabled
    have compares := fun inside => compareDataReply_compares (table := table) (first := first) (data := data) (s := s) small inside
    refine ⟨fun outside => exec_compareData takeable (compareDataReply_badTable small outside), fun inside misfit => ?_,
      fun es inside within fits sized data_eq => ?_⟩
    · exact exec_compareData takeable ((compares inside).trans (compareDataWith_badIndex (entriesOf_none _ _ _ misfit)))
    · have cut : entriesOf table.toNat first.toNat data = some (numbered first.toNat es) := by
        rw [data_eq, entriesOf_flatten within fits sized]
      exact exec_compareData takeable ((compares inside).trans (compareDataWith_lists cut))
  · intro set written
    have small : copy.toNat ≤ 2 ∧ copy ≠ 2 := by rcases named with rfl | rfl <;> decide
    have compares := compareDataReply_compares (first := first) (data := data) (s := s) small.1 ⟨small.2, low, high⟩
    have cut := entriesOf_one within sized
    refine ⟨fun same => exec_compareData takeable (compares.trans (compareDataWith_one_same cut same)),
      fun differs => exec_compareData takeable (compares.trans ?_)⟩
    rw [compareDataWith_one_differs cut differs, byte_toNat]

end Sys2Proof.Machine

/-! READ_ENTRY (R162 to R164): the frames of a response, the entries returned, and the layouts of the live tables T11 to T14 (R177). -/

namespace Sys2Proof.Machine

/-! ### The frames of a response (R163, Table 8-3) -/

section
variable (data : List Byte)

theorem responseParts_length : (responseParts data).length = max 1 ((data.length + 56) / 57) :=
  piecesOf_length 57 _ data (by omega) (by omega) (by omega)

variable {q : Requester} {st : Status}

/-- R163: the frame of each part, with its number and the last flag. -/
theorem responseFrames_getElem? {i : Nat} (part : i < (responseParts data).length) :
    (responseFrames q ⟨st, data⟩)[i]?
      = some
          { dest := q.src, kind := .response,
            payload := q.tag :: st.code :: byte (i + if i + 1 = (responseParts data).length then 128 else 0)
              :: (data.drop (57 * i)).take 57 } := by
  have piece : (responseParts data)[i]? = some ((data.drop (57 * i)).take 57) := piecesOf_get 57 _ data i part
  simp only [responseFrames, List.getElem?_map, numberParts_get, piece, Option.map_some, Nat.zero_add]

end

/-! ### The layouts of the live entries (R177, Table 10-11) -/

theorem opt2_length (o : Option Nat) : (opt2 o).length = 3 := by cases o <;> rfl

theorem presence_be4_length (o : Option Nat) : (presence be4 o).length = 5 := by cases o <;> rfl

theorem slot_bytes_length (sl : Slot) : sl.bytes.length = 8 := by simp [Slot.bytes, be2, opt2_length]

theorem reachEntryBytes_length (e : Option ReachEntry) : (reachEntryBytes e).length = 11 := by cases e <;> rfl

theorem originLive_bytes_length (o : OriginLive) : o.bytes.length = 11 := by
  simp [OriginLive.bytes, be3, opt2_length, presence_be4_length]

theorem gate_bytes_length (r : Gate) : r.bytes.length = 11 := by simp [Gate.bytes, be2, opt2_length]

theorem results_bytes_length (r : Results) : r.bytes.length = 66 := by
  simp [Results.bytes, be3, flatMap_be2_length, r.allot.size, -List.length_flatMap]

theorem modeRecord_bytes_length (m : ModeRecord) : m.bytes.length = 9 := by
  simp [ModeRecord.bytes, presence_be4_length]

theorem orderUnit_bytes_length (o : OrderUnit) : o.bytes.length = 33 := by
  simp [OrderUnit.bytes, o.lost.size]

theorem managementBytes_length (m : Management) (r : Report) : (managementBytes m r).length = 13 := by
  unfold managementBytes
  split <;> rfl

section
variable (s : State)

theorem liveBytes_slot (n : SlotNo) : liveBytes s 11 n.val = (s.meas.slots.get n).bytes := at?_getD _ n _

theorem liveBytes_reachEntry {i : Nat} (low : i < 32) : liveBytes s 12 i = reachEntryBytes s.reach.queue[i]? := if_pos low

theorem liveBytes_origin (n : OriginNo) : liveBytes s 12 (32 + n.val) = (s.reach.origins.get n).bytes := by
  have high : ¬ 32 + n.val < 32 := by omega
  simp only [liveBytes, if_neg high, Nat.add_sub_cancel_left]
  exact at?_getD _ n _

theorem liveBytes_gate (g : GateNo) : liveBytes s 13 g.val = (s.gate g).bytes := by
  simp only [liveBytes, if_pos g.isLt]
  exact at?_getD _ g _

theorem liveBytes_counter (c : Counter) : liveBytes s 14 c.entry.val = be2 (s.counter c) := at?_getD _ c.entry _

/-- Each live entry has the size of its table (Table 10-1). -/
theorem liveBytes_length {table entry : Nat} (low : 11 ≤ table) (high : table ≤ 14) (within : entry ≤ lastEntry table) :
    (liveBytes s table entry).length = entrySize table entry := by
  obtain rfl | rfl | rfl | rfl : table = 11 ∨ table = 12 ∨ table = 13 ∨ table = 14 := by omega
  · have bound : entry < 32 := Nat.lt_succ_of_le within
    exact (congrArg _ (liveBytes_slot s ⟨entry, bound⟩)).trans (slot_bytes_length _)
  · have bound : entry < 36 := Nat.lt_succ_of_le within
    rcases Nat.lt_or_ge entry 32 with queued | origin
    · rw [liveBytes_reachEntry s queued]
      exact reachEntryBytes_length _
    · obtain ⟨n, rfl⟩ := Nat.exists_eq_add_of_le origin
      exact (congrArg _ (liveBytes_origin s ⟨n, by omega⟩)).trans (originLive_bytes_length _)
  · have bound : entry < 21 := Nat.lt_succ_of_le within
    rcases Nat.lt_or_ge entry 16 with gate | record
    · rw [entrySize, if_pos gate]
      exact (congrArg _ (liveBytes_gate s ⟨entry, gate⟩)).trans (gate_bytes_length _)
    · obtain rfl | rfl | rfl | rfl | rfl : entry = 16 ∨ entry = 17 ∨ entry = 18 ∨ entry = 19 ∨ entry = 20 := by omega
      · exact results_bytes_length _
      · rfl
      · exact modeRecord_bytes_length _
      · exact orderUnit_bytes_length _
      · exact managementBytes_length _ _
  · obtain ⟨n, rfl⟩ : ∃ n : Fin 22, n.val = entry := ⟨⟨entry, Nat.lt_succ_of_le within⟩, rfl⟩
    exact congrArg List.length (at?_getD s.report.counters n be2)

/-- R177: the order unit's lost counts, and up to 16 orders by their gates, the unused places FFh. -/
theorem orderUnit_bytes {o : OrderUnit} (few : o.queue.length ≤ 16) :
    o.bytes
      = ((List.finRange 16).map fun g => byte (o.lost.get g)) ++ [byte o.queue.length]
        ++ (o.queue.map fun o => byte o.gate.val) ++ List.replicate (16 - o.queue.length) 0xff := by
  have places : ((o.queue.map fun (x : Order) => byte x.gate.val) ++ List.replicate 16 255).take 16
      = (o.queue.map fun (x : Order) => byte x.gate.val) ++ List.replicate (16 - o.queue.length) 255 := by
    rw [List.take_append, List.take_of_length_le (by simpa using few), List.take_replicate, List.length_map,
      Nat.min_eq_left (Nat.sub_le _ _)]
  rw [OrderUnit.bytes, places, Tab.items_eq_map_get, List.map_map, ← List.append_assoc]
  rfl

theorem results_bytes (r : Results) :
    r.bytes
      = ([r.qT, r.qTPrev, r.frozen, r.qA, r.fixed, r.qR, r.qR2, r.remainder].flatMap be3)
        ++ ((List.finRange 16).flatMap fun g => be2 (r.allot.get g)) ++ be3 r.qD ++ be3 r.shortfall
        ++ [r.cause.code] ++ be3 r.excess := by
  rw [Results.bytes, Tab.flatMap_items]
  rfl

end

/-! ### The entries returned (R164) -/

theorem readPairing_iff (copy : Byte) (table : Nat) :
    readPairing copy table = true
      ↔ ((copy = 0 ∨ copy = 1) ∧ 1 ≤ table ∧ table ≤ 10) ∨ (copy = 2 ∧ 11 ≤ table ∧ table ≤ 14) := by
  simp [readPairing, and_assoc]

theorem entrySize_le (table entry : Nat) : entrySize table entry ≤ 66 := by
  unfold entrySize
  repeat' split
  all_goals omega

/-- R164: the count returned is the largest, up to the count and the entries left, whose entries fit whole. -/
theorem countReturned_spec {table first count : Nat} (within : first ≤ lastEntry table) (asked : 1 ≤ count) :
    let n := countReturned table first count
    let size := fun n => ((List.range n).map fun i => entrySize table (first + i)).sum
    1 ≤ n ∧ n ≤ count ∧ first + n ≤ lastEntry table + 1 ∧ size n ≤ readRoom
      ∧ (n < count → first + n < lastEntry table + 1 → readRoom < size (n + 1)) := by
  intro n size
  obtain ⟨bound, fits, largest⟩ : n ≤ min count (lastEntry table + 1 - first) ∧ size n ≤ readRoom
      ∧ (n < min count (lastEntry table + 1 - first) → readRoom < size (n + 1)) := wholeEntries_spec table _ first readRoom
  have one : size 1 ≤ readRoom := by
    have small := entrySize_le table first
    simp only [size, List.range_one, List.map_singleton, List.sum_singleton, readRoom, Nat.add_zero]
    omega
  have least : 1 ≤ n := by
    by_contra empty
    have zero : n = 0 := by omega
    rw [zero] at largest
    exact absurd (largest (by omega)) (Nat.not_lt.2 one)
  exact ⟨least, by omega, by omega, fits, fun fewer left => largest (by omega)⟩

section
variable {copy table first count : Byte} {s : State}

theorem readReply_badTable (unpaired : ¬ readPairing copy table.toNat = true) :
    readReply [copy, table, first, count] s = ⟨.badTable, []⟩ := if_pos unpaired

theorem readReply_badIndex (paired : readPairing copy table.toNat = true) (beyond : lastEntry table.toNat < first.toNat) :
    readReply [copy, table, first, count] s = ⟨.badIndex, []⟩ := by
  rw [readReply, if_neg (not_not.2 paired), if_pos beyond, bare]

theorem readReply_badValue (paired : readPairing copy table.toNat = true) (within : first.toNat ≤ lastEntry table.toNat) :
    readReply [copy, table, first, 0] s = ⟨.badValue, []⟩ := by
  rw [readReply, if_neg (not_not.2 paired), if_neg (Nat.not_lt.2 within), if_pos rfl, bare]

theorem readReply_returns (paired : readPairing copy table.toNat = true) (within : first.toNat ≤ lastEntry table.toNat)
    (some : 1 ≤ count.toNat) :
    readReply [copy, table, first, count] s
      = let n := countReturned table.toNat first.toNat count.toNat
        ⟨.ok, [copy, table, first, byte n] ++ (List.range n).flatMap fun i => copyEntry s copy table.toNat (first.toNat + i)⟩ := by
  have nonzero : count ≠ 0 := by bv_omega
  rw [readReply, if_neg (not_not.2 paired), if_neg (Nat.not_lt.2 within), if_neg nonzero, readData, byte_toNat, byte_toNat]

end

/-! ### The taking of a READ_ENTRY by the parts of its response (R162) -/

/-- A request that is taken finds room for one part, and comes from a manager. -/
theorem Takeable.room_manager {q : Requester} {len : Nat} {s : State} (takeable : Takeable q len s) :
    0 < s.feedRoom ∧ manages s.mgmt.active.t10 q.src = true := by
  obtain ⟨-, -, -, -, room, manager⟩ := takeable
  exact ⟨room, manager⟩

section
variable {q : Requester} {ops : List Byte} {r : Reply} {s : State} (takeable : Takeable q ops.length s)
  (reply : readReply ops s = r)
include takeable reply

theorem exec_readEntry :
    exec (.readEntry q ops) s
      = .next (closeEvent (takeRequest q (responseParts r.data).length [] (fun s => (readReply ops s, s)) s)) := by
  obtain ⟨-, manager⟩ := takeable.room_manager
  have taken : exec (.readEntry q ops) s = .next (closeEvent (takeRead q ops s)) :=
    congrArg _ (receiveRequest_takeable takeable (takeRead q ops))
  rw [taken, takeRead, readParts, if_pos manager, reply]

theorem exec_readEntry_room (fits : (responseParts r.data).length ≤ s.feedRoom) :
    exec (.readEntry q ops) s = .next (closeEvent (respond q r s)) := by
  obtain ⟨room, manager⟩ := takeable.room_manager
  rw [exec_readEntry takeable reply, takeRequest_acts _ _ room fits manager, reply]

theorem exec_readEntry_busy (few : s.feedRoom < (responseParts r.data).length) :
    exec (.readEntry q ops) s = .next (closeEvent (respond q ⟨.busy, []⟩ s)) := by
  obtain ⟨room, -⟩ := takeable.room_manager
  rw [exec_readEntry takeable reply, takeRequest_busy _ _ room few]

end

/-- A refusal carries no data, so it fits the one part that a taken request has room for. -/
theorem exec_readEntry_refused {q : Requester} {ops : List Byte} {st : Status} {s : State} (takeable : Takeable q ops.length s)
    (reply : readReply ops s = ⟨st, []⟩) : exec (.readEntry q ops) s = .next (closeEvent (respond q ⟨st, []⟩ s)) :=
  exec_readEntry_room takeable reply takeable.room_manager.1

/-- Settles O32: the frames by `responseFrames_getElem?`, the live entries each by its layout, and READ_ENTRY by its reply
(`readReply_returns` with `countReturned_spec`) and the parts that the reply needs. -/
theorem readEntryEffect : Obligations.ReadEntryEffect := by
  unfold Obligations.ReadEntryEffect
  refine ⟨fun q st data s => ?_, fun s => ?_, ?_, fun q copy table first count s takeable paired within asked => ?_,
    fun q copy table first count s takeable => ?_⟩
  · intro parts
    have count : (responseParts data).length = parts := responseParts_length data
    refine ⟨rfl, (responseFrames_length q _).trans count, count, fun i part => ?_⟩
    rw [← count] at part ⊢
    exact responseFrames_getElem? data part
  · intro opt2' opt4 bit res m
    have two : ∀ o, opt2 o = opt2' o := fun o => by cases o <;> rfl
    have four : ∀ o, presence be4 o = opt4 o := fun o => by cases o <;> rfl
    refine ⟨fun n => ⟨rfl, rfl, rfl⟩, fun table entry => liveBytes_length s, fun n => ?_, fun i low => ⟨fun unused => ?_, fun e used => ?_⟩,
      fun n => ?_, fun g => ?_, results_bytes _, ?_, ?_, orderUnit_bytes, fun unopened => ?_, fun w opened => ?_,
      liveBytes_counter s, by decide⟩
    · rw [liveBytes_slot, Slot.bytes, two]
    · rw [liveBytes_reachEntry s low, List.getElem?_eq_none unused]
      rfl
    · rw [liveBytes_reachEntry s low, used]
      rfl
    · rw [liveBytes_origin, OriginLive.bytes, two, four]
    · rw [liveBytes_gate, Gate.bytes, two]
      rfl
    · have gateBit : gateCode s.timer.gateOpen = bit (!s.timer.gateOpen) := by cases s.timer.gateOpen <;> rfl
      show s.timer.bytes = _
      rw [Timer.bytes, gateBit]
      rfl
    · show s.mode.bytes = _
      rw [ModeRecord.bytes, four]
      rfl
    · show managementBytes s.mgmt s.report = _
      rw [managementBytes, unopened]
      rfl
    · show managementBytes s.mgmt s.report = _
      rw [managementBytes, opened]
      rfl
  · decide
  · have reply := readReply_returns (s := s) ((readPairing_iff _ _).2 paired) within asked
    obtain ⟨least, most, left, fits, largest⟩ := countReturned_spec within asked
    exact ⟨_, least, most, left, fits, largest, exec_readEntry_room takeable reply, exec_readEntry_busy takeable reply⟩
  · intro paired run
    have pairing : readPairing copy table.toNat = true ↔ paired := readPairing_iff copy table.toNat
    refine ⟨fun unpaired => ?_, fun lawful beyond => ?_, fun lawful within zero => ?_⟩
    · exact exec_readEntry_refused takeable (readReply_badTable (mt pairing.1 unpaired))
    · exact exec_readEntry_refused takeable (readReply_badIndex (pairing.2 lawful) beyond)
    · subst zero
      exact exec_readEntry_refused takeable (readReply_badValue (pairing.2 lawful) within)

end Sys2Proof.Machine

/-! The step of the machine: the command at the front of the queue is taken (log entry 11). -/

namespace Sys2Proof.Machine

/-- With a command waiting, whatever else the state holds, `step` takes that command and no millisecond passes. -/
theorem step_of_pending_cons {c : Instr} {rest : List Instr} {s : State} (front : s.pending = c :: rest) :
    step s = exec c { s with pending := rest } := by
  rw [step, front]

/-- Settles O1: `step_of_pending_cons` on a queue with `c` at its front; the rest of the queue replaces the whole of it. -/
theorem stepTakesFrontCommand : Obligations.StepTakesFrontCommand := by
  unfold Obligations.StepTakesFrontCommand
  intro c rest s
  exact step_of_pending_cons rfl

end Sys2Proof.Machine
